-- ==== Sys2Proof/Word.lean ====
section
/-! DEFINITION. The word types of the block: bytes, command words, and the small index types of its tables. -/

namespace Sys2Proof

/-- A byte is an integer in 0..255 (R14). -/
abbrev Byte := BitVec 8

/-- A command word is a 32-bit value handed over whole (R53, R70). -/
abbrev Word := BitVec 32

/-- A logical channel number, 0..31 (R18, `NCH` = 32 of R11). -/
abbrev ChanId := Fin 32

/-- A port number. `NPORTS` is at most 32 (R11); numbers from `NPORTS` up name no port. -/
abbrev PortId := Fin 32

/-- A highway slot number as the 7-bit command field can name it (R75, R77); `HW_SLOTS` is at most 128. -/
abbrev Slot := Fin 128

/-- A bank, 0..3 (`NUM_BANKS` = 4, R11, R78). -/
abbrev Bank := Fin 4

/-- A conference group id, 0..7 (`NUM_CONF` = 8, R11). -/
abbrev ConfId := Fin 8

/-- A block of four channels with one ready summary (`NBLOCK` = 8, R11, R42). -/
abbrev BlockId := Fin 8

/-- An index of the ownership table and of the routing registers, `slot*2 + dir` (R39, R40). -/
abbrev RouteIx := Fin 256

end Sys2Proof
end

