-- ==== Sys2Proof/Syntax.lean ====
section
/-! DEFINITION. The nine commands of spec/opcode_table.json with their fields (R71 to R81). -/

namespace Sys2Proof

/-- The `proto` field of SET_MODE: 0 NONE, 1 RAW, 2 HDLC, 3 unsupported (R76). -/
inductive ProtoField where
  | noProto
  | raw
  | hdlc
  | unsupported
deriving DecidableEq, Repr

/-- One constructor per row of spec/opcode_table.json; the fields are the row's, each at its width (R72 to R81). -/
inductive Instr where
  /-- INIT, format N (R73, R231) -/
  | init
  /-- OPEN, format C (R74, R165) -/
  | openCh (ch : ChanId)
  /-- CLOSE, format C (R74, R166) -/
  | close (ch : ChanId)
  /-- SET_MODE, format M (R75, R150): every field as the word carries it; `tv`, `rv` say whether a slot is requested -/
  | setMode (ch : ChanId) (proto : ProtoField) (tv : Bool) (txSlot : Slot) (txBank : Bank) (rv : Bool) (rxSlot : Slot)
      (rxBank : Bank) (eb : Bool)
  /-- CONF_JOIN, format J (R79, R163): `conf` is the 4-bit field, 0..15 -/
  | confJoin (ch : ChanId) (conf : Fin 16)
  /-- CONF_SPLIT, format C (R74, R164) -/
  | confSplit (ch : ChanId)
  /-- SUBMIT, format S (R80, R121): the word's `len` and the payload that follows it -/
  | submit (ch : ChanId) (len : Fin 65536) (payload : List Byte)
  /-- SERVICE, format V (R81, R123) -/
  | service (ch : ChanId) (tx : Bool) (rx : Bool)
  /-- DISPATCH, format N (R73, R221) -/
  | dispatch
deriving DecidableEq, Repr

end Sys2Proof
end

