-- ==== Sys2Proof/WellFormed.lean ====
section
/-! DEFINITION. What makes a command well-formed beyond the ranges its field types already carry. -/

namespace Sys2Proof

/-- A SUBMIT word is followed by exactly `len` payload bytes (R80, R85); the ranges of all other fields are in
their types. A SUBMIT that is not well-formed still executes: it is answered BAD_LENGTH (R121). -/
def Instr.wellFormed : Instr → Bool
  | .init => true
  | .openCh _ => true
  | .close _ => true
  | .setMode _ _ _ _ _ _ _ _ _ => true
  | .confJoin _ _ => true
  | .confSplit _ => true
  | .submit _ len payload => payload.length == len.val
  | .service _ _ _ => true
  | .dispatch => true

end Sys2Proof
end

