-- ==== Sys2Proof/Decode.lean ====
section
/-! DEFINITION. The decoder of R84, total on every 32-bit word, and the encoder written from the same formats
(R71 to R81). -/

namespace Sys2Proof

/-- Why a word is ILLEGAL (R82, R83). -/
inductive DecodeError where
  /-- opcode 0x0 or 0xA to 0xF (R82) -/
  | reservedOpcode
  /-- a reserved field is not zero (R83) -/
  | reservedBits
deriving DecidableEq, Repr

/-- What a word decodes to: exactly one command with its fields, or ILLEGAL for a named reason (R84). -/
inductive Decoded where
  | instr (i : Instr)
  | illegal (e : DecodeError)
deriving DecidableEq, Repr

/-- The field of `n` bits from bit `lo` up, zero-extended (R14). -/
def bitsOf (w : Word) (lo n : Nat) : Nat := w.toNat / 2 ^ lo % 2 ^ n

/-- A field as a value of its own range. -/
def fieldOf (w : Word) (lo n : Nat) : Fin (2 ^ n) := ⟨bitsOf w lo n, Nat.mod_lt _ (Nat.two_pow_pos n)⟩

/-- A one-bit field. -/
def flagOf (w : Word) (lo : Nat) : Bool := bitsOf w lo 1 == 1

/-- Bits 27:23, the channel, in every format but N (R72). -/
def chOf (w : Word) : ChanId := fieldOf w 23 5

/-- The `proto` field's meaning (R76). -/
def protoOfBits : Nat → ProtoField
  | 0 => .noProto
  | 1 => .raw
  | 2 => .hdlc
  | _ => .unsupported

/-- A command if the reserved bits are zero, ILLEGAL otherwise (R83). -/
def whenZero (reserved : Nat) (i : Instr) : Decoded := if reserved = 0 then .instr i else .illegal .reservedBits

/-- The command of a word and the payload bytes that follow it on the interface (R84). Only SUBMIT takes a payload
(R85); bytes beside any other word are no part of the command (log entry 17). -/
def decode (w : Word) (payload : List Byte) : Decoded :=
  match bitsOf w 28 4 with
  | 0x1 => whenZero (bitsOf w 0 28) .init
  | 0x2 => whenZero (bitsOf w 0 23) (.openCh (chOf w))
  | 0x3 => whenZero (bitsOf w 0 23) (.close (chOf w))
  | 0x4 => .instr (.setMode (chOf w) (protoOfBits (bitsOf w 21 2)) (flagOf w 20) (fieldOf w 13 7) (fieldOf w 11 2)
      (flagOf w 10) (fieldOf w 3 7) (fieldOf w 1 2) (flagOf w 0))
  | 0x5 => whenZero (bitsOf w 0 19) (.confJoin (chOf w) (fieldOf w 19 4))
  | 0x6 => whenZero (bitsOf w 0 23) (.confSplit (chOf w))
  | 0x7 => whenZero (bitsOf w 16 7) (.submit (chOf w) (fieldOf w 0 16) payload)
  | 0x8 => whenZero (bitsOf w 2 21) (.service (chOf w) (flagOf w 1) (flagOf w 0))
  | 0x9 => whenZero (bitsOf w 0 28) .dispatch
  | _ => .illegal .reservedOpcode

/-- The bits of a `proto` field (R76). -/
def bitsOfProto : ProtoField → Nat
  | .noProto => 0
  | .raw => 1
  | .hdlc => 2
  | .unsupported => 3

/-- The opcode of a command, bits 31:28 of its word (R71). -/
def opcodeOf : Instr → Nat
  | .init => 0x1
  | .openCh _ => 0x2
  | .close _ => 0x3
  | .setMode _ _ _ _ _ _ _ _ _ => 0x4
  | .confJoin _ _ => 0x5
  | .confSplit _ => 0x6
  | .submit _ _ _ => 0x7
  | .service _ _ _ => 0x8
  | .dispatch => 0x9

/-- The operand bits of a command, bits 27:0 of its word, by its format (R73 to R81). -/
def operandBits : Instr → Nat
  | .init => 0
  | .openCh ch => ch.val * 2 ^ 23
  | .close ch => ch.val * 2 ^ 23
  | .setMode ch proto tv txSlot txBank rv rxSlot rxBank eb =>
      ch.val * 2 ^ 23 + bitsOfProto proto * 2 ^ 21 + tv.toNat * 2 ^ 20 + txSlot.val * 2 ^ 13 + txBank.val * 2 ^ 11
        + rv.toNat * 2 ^ 10 + rxSlot.val * 2 ^ 3 + rxBank.val * 2 + eb.toNat
  | .confJoin ch conf => ch.val * 2 ^ 23 + conf.val * 2 ^ 19
  | .confSplit ch => ch.val * 2 ^ 23
  | .submit ch len _ => ch.val * 2 ^ 23 + len.val
  | .service ch tx rx => ch.val * 2 ^ 23 + tx.toNat * 2 + rx.toNat
  | .dispatch => 0

/-- The payload that follows a command's word (R80, R85). -/
def payloadOf : Instr → List Byte
  | .submit _ _ payload => payload
  | _ => []

/-- The word of a command and the bytes that follow it. -/
def encode (i : Instr) : Word × List Byte := (BitVec.ofNat 32 (opcodeOf i * 2 ^ 28 + operandBits i), payloadOf i)

/-- The payload of a table word whose operand bytes are all zero: `len` zero bytes for SUBMIT, none otherwise. -/
def zeroPayload (w : Word) : List Byte := if bitsOf w 28 4 = 0x7 then List.replicate (bitsOf w 0 16) 0 else []

/-- The command the decoder reads from a table word of `nbits` bits; every later bit of it is zero. -/
def decodeTableWord (nbits w : Nat) : Option Instr :=
  match decode (BitVec.ofNat 32 (w % 2 ^ nbits)) (zeroPayload (BitVec.ofNat 32 (w % 2 ^ nbits))) with
  | .instr i => some i
  | .illegal _ => none

end Sys2Proof
end

