-- ==== Sys2Proof/Config.lean ====
section
/-! DEFINITION. The implementation parameters of R11, and the free values (draws) of the spec as opaque constants. -/

namespace Sys2Proof

/-- `PORT_KIND[p]` (R11, R13). -/
inductive PortKind where
  | nt
  | te
  | trunk
deriving DecidableEq, Repr

/-- `ROLE_OF[ch]` (R11, R12). -/
inductive Role where
  | d
  | b
  | unused
deriving DecidableEq, Repr

/-- `HW_SLOTS`: one of 32, 64, 128 (R11). -/
inductive HwWidth where
  | slots32
  | slots64
  | slots128
deriving DecidableEq, Repr

/-- `FRAME_MODE[p]`, read by no rule (R11, R194). -/
inductive FrameMode where
  | frame
  | doubleFrame
deriving DecidableEq, Repr

/-- The parameters of one port (R11). -/
structure PortConfig where
  /-- `PORT_KIND[p]` -/
  kind : PortKind
  /-- `ALARM_MASK[p]`: a set bit suppresses the ALARM event of that bit (R193) -/
  alarmMask : BitVec 4
  /-- `JITTER_DEPTH[p]` (R192) -/
  jitterDepth : Nat
  /-- `FRAME_MODE[p]` -/
  frameMode : FrameMode
deriving DecidableEq, Repr

/-- The OPEN parameters of R11, fixed for the controller's life (R49). `NPORTS` is the length of `ports`. -/
structure Config where
  hwSlots : HwWidth
  zlen : Nat
  zmin : Nat
  flen : Nat
  ports : List PortConfig
  portOf : Vector (Option PortId) 32
  roleOf : Vector Role 32
  counterLimited : Bool
  ramSize : Nat
  pcmMaster : Bool
  dtmfCapable : Bool
  clockDouble : Bool
  revision : Nat
  maxlen : Nat
  transpThreshold : Nat
  silenceByte : Byte
  ntT1 : Nat
  rereadMax : Nat
  rxFifoWhenRouted : Bool
  busId : Nat
deriving DecidableEq, Repr

/-- The answers of the line side to the three bring-up checks of INIT (R231). -/
structure Checks where
  idOk : Bool
  ramOk : Bool
  refOk : Bool
deriving DecidableEq, Repr, Inhabited

/-- FREE VALUE (R52, R126, U1; log entry 7): the byte the n-th undetermined draw reads from an UNWRITTEN cell. -/
opaque Config.freeByte : Nat → Byte

/-- FREE VALUE (R58, U2; log entry 6): whether the n-th undetermined stable read fails. -/
opaque Config.freeReadFails : Nat → Bool

/-- FREE VALUE (R128, U3; log entry 8): one less than the nonzero status byte the line stores after an overflow. -/
opaque Config.freeStatus : Nat → Fin 255

/-- FREE VALUE (R231, U15; log entry 9): the answers to the bring-up checks. -/
opaque Config.freeChecks : Nat → Checks

/-- Configuration CFG-A of 95_test_vectors section 0: two ports (NT, TE), channels 0, 1 (B) and 2 (D) on port 0 and
4, 5 (B) and 6 (D) on port 1. The parameters the vectors do not give are DESIGN CHOICE (log entry 2). -/
def Config.cfgA : Config where
  hwSlots := .slots32
  zlen := 16
  zmin := 0
  flen := 8
  ports := [⟨.nt, 0, 0, .frame⟩, ⟨.te, 0, 0, .frame⟩]
  portOf := Vector.ofFn fun ch : Fin 32 => if ch.val < 3 then some 0 else if 4 ≤ ch.val ∧ ch.val < 7 then some 1 else none
  roleOf := Vector.ofFn fun ch : Fin 32 => if ch.val = 2 ∨ ch.val = 6 then .d else if ch.val < 3 ∨ 4 ≤ ch.val ∧ ch.val < 6 then .b else .unused
  counterLimited := false
  ramSize := 0
  pcmMaster := false
  dtmfCapable := false
  clockDouble := false
  revision := 0
  maxlen := 8
  transpThreshold := 4
  silenceByte := 0xFF
  ntT1 := 3
  rereadMax := 8
  rxFifoWhenRouted := false
  busId := 0

/-- Configuration CFG-B of 95_test_vectors section 0: one trunk port; channel 16 is its D channel. -/
def Config.cfgB : Config :=
  { Config.cfgA with
    ports := [⟨.trunk, 0b0010, 2, .frame⟩]
    portOf := Vector.ofFn fun ch : Fin 32 => if ch.val = 0 then none else some 0
    roleOf := Vector.ofFn fun ch : Fin 32 => if ch.val = 0 then .unused else if ch.val = 16 then .d else .b }

end Sys2Proof
end

