-- ==== Sys2Proof/Machine/State.lean ====
section
/-! DEFINITION. Every piece of state of one controller (R20 to R47), as plain data, and its power-on value. -/

namespace Sys2Proof.Machine

/-- A direction of a channel: TX = 0 toward the line, RX = 1 from the line (R17). -/
inductive Dir where
  | tx
  | rx
deriving DecidableEq, Repr

/-- The controller state (R21). -/
inductive Ctl where
  | down
  | up
  | failed
deriving DecidableEq, Repr

/-- A channel's stored protocol (R22, R24). -/
inductive Proto where
  | noProto
  | raw
  | hdlc
deriving DecidableEq, Repr

/-- The transmit state (R28). -/
inductive TxState where
  | idle
  | sending
  | resetPending
deriving DecidableEq, Repr

/-- The source of the line-bound data (R31). -/
inductive TxSrc where
  | fifo
  | hwy
deriving DecidableEq, Repr

/-- Flow control of one direction (R32, R156). -/
inductive Flow where
  | off
  | transp
  | hdlc
deriving DecidableEq, Repr

/-- The subchannel mode (R32, R156). -/
inductive SubMode where
  | na
  | single
  | multi
deriving DecidableEq, Repr

/-- The mode of a routing register (R40, R154). -/
inductive RouteMode where
  | direct
  | loop
deriving DecidableEq, Repr

/-- The value of a routing register that is not OFF: `(ch, mode, bank)` (R40). -/
structure Route where
  ch : ChanId
  mode : RouteMode
  bank : Bank
deriving DecidableEq, Repr

/-- One entry of the channel table (R22 to R32). -/
structure Channel where
  /-- `open`: an endpoint is bound (R23) -/
  isOpen : Bool
  proto : Proto
  txSlot : Option Slot
  rxSlot : Option Slot
  txBank : Bank
  rxBank : Bank
  eb : Bool
  conf : Option ConfId
  txState : TxState
  txq : List (List Byte)
  cursor : Nat
  rxbuf : List Byte
  txSrc : TxSrc
  flowTx : Flow
  flowRx : Flow
  frameIrq : Bool
  subMode : SubMode
  echoBypass : Bool
deriving DecidableEq, Repr

/-- One entry of the port table (R33). -/
structure Port where
  /-- the NT or TE state, 0..15 -/
  lstate : Fin 16
  /-- the NT activation countdown -/
  timer : Option Nat
  /-- activated and not since deactivated: fully up -/
  active : Bool
  /-- the trunk sync level 0, 1, 2 -/
  sync : Fin 3
  /-- the trunk alarm latches: bit 0 LOS, 1 AIS, 2 SLIP, 3 CRC4 -/
  latch : BitVec 4
  /-- the trunk line state last taken -/
  e1state : Bool
deriving DecidableEq, Repr

/-- The line-side inputs of one port (R34). -/
structure LineIn where
  repState : Fin 16
  e1In : Bool
  clkOk : Bool
  frameOk : Bool
  alarmIn : BitVec 4
deriving DecidableEq, Repr

/-- The counters and the frame-end table of one ring (R35, R36). Its cells are in `State.mem`; a receive ring's `ovf`
is in `State.rxOvf`. -/
structure Ring where
  z1 : Nat
  z2 : Nat
  f1 : Nat
  f2 : Nat
  fend : List Nat
deriving DecidableEq, Repr

/-- The ring cells that have been written, by cell address (Machine/Ops.lean `cellAddr`), strictly rising. An address that is
not listed is an UNWRITTEN cell (R35, R47). -/
abbrev Memory := List Host.Cell

/-- Strictly rising addresses. -/
def Memory.sorted : Memory → Bool
  | [] => true
  | [_] => true
  | a :: b :: rest => decide (a.1 < b.1) && Memory.sorted (b :: rest)

/-- The canonical form. No byte equals what an unlisted cell reads as (UNWRITTEN is no byte), so the form is the order of
the addresses. -/
abbrev Memory.wf (m : Memory) : Bool := Memory.sorted m

/-- The FATAL codes (R254); their numbers are `FatalCode.code`. -/
inductive FatalCode where
  | identity
  | ramTest
  | noTimingRef
deriving DecidableEq, Repr

/-- Events to the signalling layer (R89). -/
inductive Event where
  | activate (p : PortId)
  | deactivate (p : PortId)
  | info (p : PortId) (s : Fin 16)
  | loss (p : PortId) (s : Fin 16)
  | rx (ch : ChanId) (bytes : List Byte)
  | txDone (ch : ChanId)
  | alarm (p : PortId) (bit : Fin 4) (v : Bool)
  | toneReady
  | fatal (code : FatalCode)
deriving DecidableEq, Repr

/-- Diagnostics (R90). -/
inductive Diag where
  | staleOwner (ch : ChanId) (slot : Slot) (dir : Dir)
  | rxShort (ch : ChanId) (len : Nat)
  | rxCrc (ch : ChanId) (st : Byte)
  | rxOversize (ch : ChanId)
  | lostData
  | rereadFail (ch : ChanId) (dir : Dir)
deriving DecidableEq, Repr

/-- Actions on the line interface (R91). -/
inductive LineAction where
  | forceState (p : PortId) (s : Fin 16)
  | programJitter (p : PortId) (depth : Nat)
deriving DecidableEq, Repr

/-- What the line is handed by LINE_TX_TAKE (R92). -/
inductive LineSymbol where
  | byte (b : Byte)
  | frameEnd
  | idle
  | hwy
deriving DecidableEq, Repr

/-- The response codes (R251); their numbers are `Resp.code`. -/
inductive Resp where
  | ok
  | illegal
  | notUp
  | badChannel
  | badSlot
  | badProtocol
  | badConf
  | notOpen
  | alreadyOpen
  | badLength
  | noProtocol
  | alreadyUp
  | failed
deriving DecidableEq, Repr

/-- The steps of the line side and of the timer (R88). -/
inductive Stimulus where
  | lineTxTake (ch : ChanId)
  | lineRxPut (ch : ChanId) (b : Byte)
  | lineRxEnd (ch : ChanId) (st : Byte)
  | ready (ch : ChanId) (dir : Dir)
  | lineState (p : PortId) (s : Fin 16)
  | lineE1State (p : PortId) (v : Bool)
  | lineSync (p : PortId) (clk : Bool) (frm : Bool)
  | lineAlarm (p : PortId) (bits : BitVec 4)
  | timerTick
  | tone
deriving DecidableEq, Repr

/-- What may happen between two commands, in the order in which it happens (R9, R61, R235; log entry 4). -/
inductive Input where
  /-- the host writes a command word, with the payload that follows it (R70, R80) -/
  | command (w : Word) (payload : List Byte)
  /-- the sequencer takes a DISPATCH of its own (R236) -/
  | ownDispatch
  /-- a step of the line side or of the timer (R88) -/
  | stimulus (st : Stimulus)
  /-- the host removes an event from the front of `evq` (R44) -/
  | takeEvent
deriving DecidableEq, Repr

/-- The latched status bits (R41). -/
structure Status where
  psc : Vector Bool 32
  tsc : Vector Bool 32
  lostData : Bool
  tick : Bool
  toneReady : Bool
  readyTx : Vector Bool 32
  readyRx : Vector Bool 32
deriving DecidableEq, Repr

/-- The counters the line advances (R59). -/
inductive LineCounter where
  /-- transmit `z1` -/
  | txZ1
  /-- transmit `f2` -/
  | txF2
  /-- receive `f1` -/
  | rxF1
  /-- the receive Z1 register `Z1rep` (R37) -/
  | rxZ1rep
deriving DecidableEq, Repr

/-- A stable read that was made: of which channel's ring, of which counter, and whether it failed (R58; log entry 29). -/
structure ReadRecord where
  ch : ChanId
  counter : LineCounter
  failed : Bool
deriving DecidableEq, Repr

/-- The model's own fields: what the environment will do, and what it was shown (log entries 4 to 11, 29). None of them is a register of the block. -/
structure Env where
  /-- what happens between commands, next first (log entry 4) -/
  inputs : List Input
  /-- the stimuli before the next atomic accesses of a command, one burst each (R57; log entry 5) -/
  sched : List (List Stimulus)
  /-- whether the next stable reads fail (R58; log entry 6) -/
  reads : List Bool
  /-- the next bytes drawn from UNWRITTEN cells (R52; log entry 7) -/
  bytes : List Byte
  /-- the next statuses drawn after an overflow, each one less than the byte (R128; log entry 8) -/
  statuses : List (Fin 255)
  /-- the next answers to the bring-up checks (R231; log entry 9) -/
  checks : List Checks
  /-- how many draws were made past the lists (log entry 10) -/
  drawn : Nat
  /-- the line symbols handed out so far, with their channels (R92, R125; log entry 11) -/
  taken : List (ChanId × LineSymbol)
  /-- the stable reads made so far, which no step reads (R58, R297; log entry 29) -/
  readLog : List ReadRecord
deriving DecidableEq, Repr

/-- The state of one controller (R20), its configuration (R49; log entry 1) and the model's own `env`. -/
structure State where
  /-- the parameters of R11, which no step writes (R49) -/
  cfg : Config
  /-- the controller state (R21) -/
  ctl : Ctl
  /-- the channel table (R22) -/
  chan : Vector Channel 32
  /-- the port table (R33) -/
  port : Vector Port 32
  /-- the line-side inputs (R34) -/
  lineIn : Vector LineIn 32
  /-- the transmit rings (R35) -/
  txRing : Vector Ring 32
  /-- the receive rings (R36) -/
  rxRing : Vector Ring 32
  /-- `ovf` of each receive ring (R36) -/
  rxOvf : Vector Bool 32
  /-- the cells of all rings (R35, R36, R50) -/
  mem : Memory
  /-- the slot ownership table; `none` is NONE (R39) -/
  own : Vector (Option ChanId) 256
  /-- the crossbar routing registers; `none` is OFF (R40) -/
  slotReg : Vector (Option Route) 256
  /-- the latched status bits (R41) -/
  status : Status
  /-- the ring selected on the register window; `none` is NONE (R43) -/
  sel : Option (ChanId × Dir)
  /-- the event queue (R44, R89) -/
  evq : List Event
  /-- the diagnostic queue (R44, R90) -/
  diagq : List Diag
  /-- the line-action queue (R44, R91) -/
  lineq : List LineAction
  /-- the last command response (R45) -/
  resp : Resp
  /-- the model's own: the environment's choices -/
  env : Env
deriving DecidableEq, Repr

/-- Why a run stops with a fault: never. The block has no trap, no fault of translation, protection or alignment and no access
outside its spaces (R54, R260, R300), so this type has no constructor. -/
inductive Fault where
deriving DecidableEq, Repr

/-- Why a step has no meaning. -/
inductive Refusal where
  /-- Raised by no arm any more: every command has its meaning. Safe. -/
  | notModelled (mnemonic : String)
  /-- Raised by INIT on a configuration outside R11's ranges or breaking R12: "is refused by the model (no INIT step exists for
  it)" (R12, U10; log entry 3). Safe: the run stops. -/
  | badConfig
deriving DecidableEq, Repr

/-- A channel at its reset values (R47). -/
def Channel.reset : Channel where
  isOpen := false
  proto := .noProto
  txSlot := none
  rxSlot := none
  txBank := 0
  rxBank := 0
  eb := false
  conf := none
  txState := .idle
  txq := []
  cursor := 0
  rxbuf := []
  txSrc := .fifo
  flowTx := .off
  flowRx := .off
  frameIrq := false
  subMode := .na
  echoBypass := false

/-- A port at its reset values (R47). -/
def Port.reset : Port where
  lstate := 0
  timer := none
  active := false
  sync := 0
  latch := 0
  e1state := false

/-- The inputs of a port at power-on (R47). -/
def LineIn.reset : LineIn where
  repState := 0
  e1In := false
  clkOk := false
  frameOk := false
  alarmIn := 0

/-- A ring at its reset values (R47): counters at `ZMIN` and 0, every frame end at `ZMIN`. -/
def Ring.reset (c : Config) : Ring where
  z1 := c.zmin
  z2 := c.zmin
  f1 := 0
  f2 := 0
  fend := List.replicate c.flen c.zmin

/-- Every status bit clear (R47). -/
def Status.reset : Status where
  psc := Vector.replicate 32 false
  tsc := Vector.replicate 32 false
  lostData := false
  tick := false
  toneReady := false
  readyTx := Vector.replicate 32 false
  readyRx := Vector.replicate 32 false

/-- The environment with nothing scheduled and nothing drawn: every draw is then a free value (log entries 4 to 11). -/
def Env.reset : Env where
  inputs := []
  sched := []
  reads := []
  bytes := []
  statuses := []
  checks := []
  drawn := 0
  taken := []
  readLog := []

/-- Power-on of a controller with configuration `c` (R47, R280). -/
def State.powerOn (c : Config) : State where
  cfg := c
  ctl := .down
  chan := Vector.replicate 32 Channel.reset
  port := Vector.replicate 32 Port.reset
  lineIn := Vector.replicate 32 LineIn.reset
  txRing := Vector.replicate 32 (Ring.reset c)
  rxRing := Vector.replicate 32 (Ring.reset c)
  rxOvf := Vector.replicate 32 false
  mem := []
  own := Vector.replicate 256 none
  slotReg := Vector.replicate 256 none
  status := Status.reset
  sel := none
  evq := []
  diagq := []
  lineq := []
  resp := .ok
  env := Env.reset

/-- The machine right after power-on (R280). The configuration, OPEN in R11, is here the spec's own example CFG-A (log entry 2);
statements about power-on are made of `State.powerOn c` for every `c`. -/
def State.reset : State := State.powerOn Config.cfgA

end Sys2Proof.Machine
end

