-- ==== Sys2Proof/Machine/Geometry.lean ====
section
/-! DEFINITION. What the rules compute from the configuration: counter arithmetic (R14, R15, R66), the port and channel
layout (R12, R13, R101, R180), the decided parameters (R11), and the check of a configuration (R11, R12). -/

namespace Sys2Proof.Machine

/-- `HW_SLOTS` (R11). -/
def hwSlots (c : Config) : Nat :=
  match c.hwSlots with
  | .slots32 => 32
  | .slots64 => 64
  | .slots128 => 128

/-- `TX_MARGIN` (R11, R104). -/
def txMargin : Nat := 4

/-- `RX_OVERSIZE_SLACK` (R11, R115). -/
def rxOversizeSlack : Nat := 3

/-- `RX_TRAILER_LEN` (R11, R117). -/
def rxTrailerLen : Nat := 1

/-- `RX_MIN_LEN` (R11, R117). -/
def rxMinLen : Nat := 4

/-- `x mod ZLEN`, the mathematical remainder (R14). -/
def zmod (c : Config) (x : Int) : Nat := (x % (c.zlen : Int)).toNat

/-- `x mod FLEN`, the mathematical remainder (R14). -/
def fmod (c : Config) (x : Int) : Nat := (x % (c.flen : Int)).toNat

/-- `incZ` (R15). -/
def incZ (c : Config) (z : Nat) : Nat := if z + 1 < c.zmin + c.zlen then z + 1 else c.zmin

/-- `decZ` (R15). -/
def decZ (c : Config) (z : Nat) : Nat := if c.zmin < z then z - 1 else c.zmin + c.zlen - 1

/-- `incF` (R15). -/
def incF (c : Config) (f : Nat) : Nat := (f + 1) % c.flen

/-- `PORT_KIND[p]`; none for a number that names no port. -/
def portKind (c : Config) (p : PortId) : Option PortKind := (c.ports[p.val]?).map PortConfig.kind

/-- A port of kind NT or TE (R13). -/
def isPtp (c : Config) (p : PortId) : Bool := portKind c p == some .nt || portKind c p == some .te

/-- A port of kind TRUNK (R13). -/
def isTrunk (c : Config) (p : PortId) : Bool := portKind c p == some .trunk

/-- `ALARM_MASK[p]` (R193). -/
def alarmMask (c : Config) (p : PortId) : BitVec 4 := ((c.ports[p.val]?).map PortConfig.alarmMask).getD 0

/-- `JITTER_DEPTH[p]` (R192). -/
def jitterDepth (c : Config) (p : PortId) : Nat := ((c.ports[p.val]?).map PortConfig.jitterDepth).getD 0

/-- Every port number in increasing order. -/
def allPorts : List PortId := List.finRange 32

/-- Every channel number in increasing order. -/
def allChans : List ChanId := List.finRange 32

/-- The NT ports, ascending. -/
def ntPorts (c : Config) : List PortId := allPorts.filter fun p => portKind c p == some .nt

/-- The trunk ports, ascending. -/
def trunkPorts (c : Config) : List PortId := allPorts.filter fun p => isTrunk c p

/-- Channel `ch` is the D channel of port `p`. -/
def isDchOf (c : Config) (p : PortId) (ch : ChanId) : Bool := c.portOf.get ch == some p && c.roleOf.get ch == .d

/-- `dch(p)`: the one D channel of port p (R12, R180); none only where the configuration breaks R12. -/
def dch (c : Config) (p : PortId) : Option ChanId := allChans.find? (isDchOf c p)

/-- The kind of the port of a channel, `PORT_KIND[PORT_OF[ch]]`. -/
def kindOfChan (c : Config) (ch : ChanId) : Option PortKind :=
  match c.portOf.get ch with
  | none => none
  | some p => portKind c p

/-- A point-to-point signalling channel (R101). -/
def isPtpSignalling (c : Config) (ch : ChanId) : Bool :=
  c.roleOf.get ch == .d && (kindOfChan c ch == some .nt || kindOfChan c ch == some .te)

/-- R12: every port has exactly one channel with role D, and a channel has no port exactly when its role is UNUSED. A port
that a channel names must be one of the ports. -/
def layoutOk (c : Config) : Bool :=
  (allPorts.all fun p => (portKind c p).isNone || (allChans.filter (isDchOf c p)).length == 1)
  && (allChans.all fun ch => (c.portOf.get ch).isNone == (c.roleOf.get ch == .unused))
  && (allChans.all fun ch => (c.portOf.get ch).isNone || (kindOfChan c ch).isSome)

/-- The ranges of R11. -/
def rangesOk (c : Config) : Bool :=
  decide (5 ≤ c.zlen) && decide (c.zmin + c.zlen ≤ 65536) && decide (2 ≤ c.flen) && decide (c.flen ≤ 256)
  && decide (1 ≤ c.ports.length) && decide (c.ports.length ≤ 32) && decide (rxMinLen ≤ c.maxlen)
  && decide (1 ≤ c.transpThreshold) && decide (c.transpThreshold ≤ c.maxlen + 3)
  && decide (1 ≤ c.ntT1) && decide (2 ≤ c.rereadMax)

/-- A configuration within R11's ranges that keeps R12. -/
def configOk (c : Config) : Bool := rangesOk c && layoutOk c

end Sys2Proof.Machine
end

