-- ==== Sys2Proof/Machine/Ops.lean ====
section
/-! DEFINITION. The named operations over the memory, the tables, the queues and the draws; and the one way a command ends:
`State.answer`, which is also `raise Reject(code)` (R15, R45, R251). The block has no other exception to take and none
to return from (R260). -/

namespace Sys2Proof.Machine

/-- TX = 0, RX = 1 (R17). -/
def Dir.num : Dir → Nat
  | .tx => 0
  | .rx => 1

/-- The byte of an address, or none where the cell is UNWRITTEN. -/
def Memory.read : Memory → Nat → Option Byte
  | [], _ => none
  | (a, b) :: rest, k => if a = k then some b else Memory.read rest k

/-- Write one byte, keeping the addresses strictly rising. -/
def Memory.write : Memory → Nat → Byte → Memory
  | [], k, v => [(k, v)]
  | (a, b) :: rest, k, v =>
    if k < a then (k, v) :: (a, b) :: rest
    else if k = a then (k, v) :: rest
    else (a, b) :: Memory.write rest k v

/-- The memory key of `cell(z)` of `ring[ch][dir]` (R50, R51; log entry 13): 65536 keys per ring, the cell's index
`z - ZMIN` the lower part. `ZLEN` is at most 65536, so the remainder changes no index of a cell. -/
def cellAddr (c : Config) (ch : ChanId) (d : Dir) (z : Nat) : Nat :=
  (ch.val * 2 + d.num) * 65536 + (z - c.zmin) % 65536

/-- The index `slot*2 + dir` (R39). -/
def routeIx (slot : Slot) (d : Dir) : RouteIx :=
  ⟨slot.val * 2 + d.num, by have h := slot.isLt; cases d <;> simp [Dir.num] <;> omega⟩

/-- `c.slot[dir]` (41_router). -/
def Channel.slot (c : Channel) : Dir → Option Slot
  | .tx => c.txSlot
  | .rx => c.rxSlot

/-- `c.slot[dir] <- x`. -/
def Channel.setSlot (c : Channel) (d : Dir) (x : Option Slot) : Channel :=
  match d with
  | .tx => { c with txSlot := x }
  | .rx => { c with rxSlot := x }

/-- `c.bank[dir] <- b`. -/
def Channel.setBank (c : Channel) (d : Dir) (b : Bank) : Channel :=
  match d with
  | .tx => { c with txBank := b }
  | .rx => { c with rxBank := b }

/-- Active: open, with a protocol (R27). -/
def Channel.isActive (c : Channel) : Bool := c.isOpen && c.proto != .noProto

/-- A routed raw-audio channel (R101). -/
def Channel.routedRaw (c : Channel) : Bool := c.proto == .raw && c.txSlot.isSome

/-- `chan[ch]` (R22). -/
def State.ch (s : State) (ch : ChanId) : Channel := s.chan.get ch

/-- `port[p]` (R33). -/
def State.pt (s : State) (p : PortId) : Port := s.port.get p

/-- The line-side inputs of port p (R34). -/
def State.inp (s : State) (p : PortId) : LineIn := s.lineIn.get p

/-- `ring[ch][RX].ovf` (R36). -/
def State.ovf (s : State) (ch : ChanId) : Bool := s.rxOvf.get ch

/-- `own[i]` (R39). -/
def State.ownAt (s : State) (i : RouteIx) : Option ChanId := s.own.get i

/-- `slotReg[i]` (R40). -/
def State.regAt (s : State) (i : RouteIx) : Option Route := s.slotReg.get i

/-- `ctl <- x`. -/
def State.setCtl (s : State) (x : Ctl) : State := { s with ctl := x }

/-- Write one entry of the channel table. -/
def State.setChan (s : State) (ch : ChanId) (x : Channel) : State := { s with chan := s.chan.set ch.val x ch.isLt }

/-- Update one entry of the channel table. -/
def State.modChan (s : State) (ch : ChanId) (f : Channel → Channel) : State := s.setChan ch (f (s.ch ch))

/-- Write one entry of the port table. -/
def State.setPort (s : State) (p : PortId) (x : Port) : State := { s with port := s.port.set p.val x p.isLt }

/-- Write the inputs of one port. -/
def State.setLineIn (s : State) (p : PortId) (x : LineIn) : State := { s with lineIn := s.lineIn.set p.val x p.isLt }

/-- `ring[ch][dir]`, its counters and frame-end table. -/
def State.ring (s : State) (ch : ChanId) : Dir → Ring
  | .tx => s.txRing.get ch
  | .rx => s.rxRing.get ch

/-- Write the counters and the frame-end table of a ring. -/
def State.setRing (s : State) (ch : ChanId) (d : Dir) (r : Ring) : State :=
  match d with
  | .tx => { s with txRing := s.txRing.set ch.val r ch.isLt }
  | .rx => { s with rxRing := s.rxRing.set ch.val r ch.isLt }

/-- `ring[ch][RX].ovf <- b`. -/
def State.setOvf (s : State) (ch : ChanId) (b : Bool) : State := { s with rxOvf := s.rxOvf.set ch.val b ch.isLt }

/-- What `cell(z)` of a ring holds; none is UNWRITTEN. -/
def State.cell (s : State) (ch : ChanId) (d : Dir) (z : Nat) : Option Byte := s.mem.read (cellAddr s.cfg ch d z)

/-- `MemWrite(ring[ch][dir], z, 1, b)` (R52). -/
def State.writeCell (s : State) (ch : ChanId) (d : Dir) (z : Nat) (b : Byte) : State :=
  { s with mem := s.mem.write (cellAddr s.cfg ch d z) b }

/-- `own[i] <- x` (R39). -/
def State.setOwn (s : State) (i : RouteIx) (x : Option ChanId) : State := { s with own := s.own.set i.val x i.isLt }

/-- `slotReg[i] <- x` (R40). -/
def State.setSlotReg (s : State) (i : RouteIx) (x : Option Route) : State :=
  { s with slotReg := s.slotReg.set i.val x i.isLt }

/-- Write the latched status bits (R41). -/
def State.setStatus (s : State) (x : Status) : State := { s with status := x }

/-- `SELECT(ch, dir)` (R62). -/
def State.select (s : State) (ch : ChanId) (d : Dir) : State := { s with sel := some (ch, d) }

/-- `emit E` (R15, R44). -/
def State.emit (s : State) (e : Event) : State := { s with evq := s.evq ++ [e] }

/-- `diag D` (R15, R44). -/
def State.diag (s : State) (d : Diag) : State := { s with diagq := s.diagq ++ [d] }

/-- `line A` (R15, R44). -/
def State.lineAct (s : State) (a : LineAction) : State := { s with lineq := s.lineq ++ [a] }

/-- The end of a command: its answer is written to `resp` (R45, R251). With a code other than OK it is `raise Reject(code)`
(R15). -/
def State.answer (s : State) (r : Resp) : State := { s with resp := r }

/-- The number of a response code (R251). -/
def Resp.code : Resp → Nat
  | .ok => 0
  | .illegal => 1
  | .notUp => 2
  | .badChannel => 3
  | .badSlot => 4
  | .badProtocol => 5
  | .badConf => 6
  | .notOpen => 7
  | .alreadyOpen => 8
  | .badLength => 9
  | .noProtocol => 10
  | .alreadyUp => 11
  | .failed => 12

/-- The number a host reads in `resp` (R45, R251). -/
def State.respCode (s : State) : Nat := s.resp.code

/-- The number of a FATAL code (R254). -/
def FatalCode.code : FatalCode → Nat
  | .identity => 1
  | .ramTest => 2
  | .noTimingRef => 3

/-- Write the model's own fields. -/
def State.setEnv (s : State) (e : Env) : State := { s with env := e }

/-- The host removes the first event (R44); with none queued nothing happens. -/
def State.takeEvent (s : State) : State := { s with evq := s.evq.tail }

/-- A byte drawn for an UNWRITTEN cell (R52, R126; log entry 7). -/
def State.drawByte (s : State) : Byte × State :=
  match s.env.bytes with
  | b :: bs => (b, s.setEnv { s.env with bytes := bs })
  | [] => (Config.freeByte s.env.drawn, s.setEnv { s.env with drawn := s.env.drawn + 1 })

/-- Whether a stable read fails (R58; log entry 6). -/
def State.drawReadFails (s : State) : Bool × State :=
  match s.env.reads with
  | b :: bs => (b, s.setEnv { s.env with reads := bs })
  | [] => (Config.freeReadFails s.env.drawn, s.setEnv { s.env with drawn := s.env.drawn + 1 })

/-- A byte other than 0x00, drawn for the status of a frame that lost bytes (R128; log entry 8). -/
def State.drawStatus (s : State) : Byte × State :=
  match s.env.statuses with
  | b :: bs => (BitVec.ofNat 8 (b.val + 1), s.setEnv { s.env with statuses := bs })
  | [] => (BitVec.ofNat 8 ((Config.freeStatus s.env.drawn).val + 1), s.setEnv { s.env with drawn := s.env.drawn + 1 })

/-- The answers to the bring-up checks (R231; log entry 9). -/
def State.drawChecks (s : State) : Checks × State :=
  match s.env.checks with
  | b :: bs => (b, s.setEnv { s.env with checks := bs })
  | [] => (Config.freeChecks s.env.drawn, s.setEnv { s.env with drawn := s.env.drawn + 1 })

/-- `MemRead(ring[ch][dir], z, 1)`: the byte of `cell(z)`, any byte if the cell is UNWRITTEN (R52). -/
def State.readCell (s : State) (ch : ChanId) (d : Dir) (z : Nat) : Byte × State :=
  match s.cell ch d z with
  | some b => (b, s)
  | none => s.drawByte

/-- The receive Z1 register `Z1rep` of a ring (R37). -/
def z1rep (c : Config) (r : Ring) : Nat := if r.f1 = r.f2 then r.z1 else r.fend.getD (incF c r.f2) c.zmin

/-- Bytes pending for the line in a transmit ring, `(z2 - z1) mod ZLEN` (R35). -/
def txPending (c : Config) (r : Ring) : Nat := zmod c ((r.z2 : Int) - r.z1)

/-- Bytes unread in a receive ring, `(z1 - z2) mod ZLEN` (R36). -/
def rxUnread (c : Config) (r : Ring) : Nat := zmod c ((r.z1 : Int) - r.z2)

/-- Closed frames not yet consumed in a receive ring, `(f1 - f2) mod FLEN` (R38). -/
def rxFrames (c : Config) (r : Ring) : Nat := fmod c ((r.f1 : Int) - r.f2)

/-- Transmit byte space from a snapshot of `z1`, `(z1 - z2 - 1) mod ZLEN` (R66, R104). -/
def byteSpace (c : Config) (zs z2 : Nat) : Nat := zmod c ((zs : Int) - z2 - 1)

/-- Transmit frame space from a snapshot of `f2`, `(f2 - f1 - 1) mod FLEN` (R66, R103). -/
def frameSpace (c : Config) (f2s f1 : Nat) : Nat := fmod c ((f2s : Int) - f1 - 1)

/-- RingCommit on a ring (R56). -/
def Ring.commit (c : Config) (r : Ring) : Ring :=
  { r with fend := r.fend.set (incF c r.f1) r.z2, f1 := incF c r.f1 }

/-- RingReset on a ring's counters (R56): cells and frame ends stay. -/
def Ring.clear (c : Config) (r : Ring) : Ring := { r with z1 := c.zmin, z2 := c.zmin, f1 := 0, f2 := 0 }

end Sys2Proof.Machine
end

