-- ==== Sys2Proof/Machine/Flags.lean ====
section
/-! DEFINITION. The block's status flags (R48): the latched status bits with their summaries and bitmaps (R41, R42, R257),
and the activity gate of the ports (R181). -/

namespace Sys2Proof.Machine

/-- `ready[ch][dir]`. -/
def State.readyBit (s : State) (ch : ChanId) : Dir → Bool
  | .tx => s.status.readyTx.get ch
  | .rx => s.status.readyRx.get ch

/-- `ready[ch][dir] <- b`. -/
def State.setReady (s : State) (ch : ChanId) (d : Dir) (b : Bool) : State :=
  match d with
  | .tx => s.setStatus { s.status with readyTx := s.status.readyTx.set ch.val b ch.isLt }
  | .rx => s.setStatus { s.status with readyRx := s.status.readyRx.set ch.val b ch.isLt }

/-- `psc[p] <- b`. -/
def State.setPsc (s : State) (p : PortId) (b : Bool) : State :=
  s.setStatus { s.status with psc := s.status.psc.set p.val b p.isLt }

/-- `tsc[p] <- b`. -/
def State.setTsc (s : State) (p : PortId) (b : Bool) : State :=
  s.setStatus { s.status with tsc := s.status.tsc.set p.val b p.isLt }

/-- `lostData <- 1` (R127, R128). -/
def State.latchLostData (s : State) : State := s.setStatus { s.status with lostData := true }

/-- Channel `BLOCK_CH*b + k` (R42, R227). -/
def blockChan (b : BlockId) (k : Fin 4) : ChanId := ⟨4 * b.val + k.val, by have := b.isLt; have := k.isLt; omega⟩

/-- Every channel of a block, ascending. -/
def blockSlots : List (Fin 4) := [0, 1, 2, 3]

/-- Every block, ascending. -/
def allBlocks : List BlockId := List.finRange 8

/-- The ready summary of a block: some ready bit of its channels is set (R42). -/
def State.blockReady (s : State) (b : BlockId) : Bool :=
  blockSlots.any fun k => s.readyBit (blockChan b k) .tx || s.readyBit (blockChan b k) .rx

/-- The ready bitmap of a block: bit 2k is TX and bit 2k+1 is RX of its channel k (R42). -/
def State.blockBitmap (s : State) (b : BlockId) : BitVec 8 :=
  BitVec.ofNat 8 (blockSlots.foldr
    (fun k acc => (s.readyBit (blockChan b k) .tx).toNat + 2 * ((s.readyBit (blockChan b k) .rx).toNat + 2 * acc)) 0)

/-- Clear every ready bit of a block (R227). -/
def State.clearBlock (s : State) (b : BlockId) : State :=
  blockSlots.foldl (fun s k => (s.setReady (blockChan b k) .tx false).setReady (blockChan b k) .rx false) s

/-- `Activate(p)` (R181). -/
def State.activate (s : State) (p : PortId) : State :=
  if (s.pt p).active then s else (s.setPort p { (s.pt p) with active := true }).emit (.activate p)

/-- `Deactivate(p)` (R181). -/
def State.deactivate (s : State) (p : PortId) : State :=
  if (s.pt p).active then (s.setPort p { (s.pt p) with active := false }).emit (.deactivate p) else s

end Sys2Proof.Machine
end

