-- ==== Sys2Proof/Machine/Stimuli.lean ====
section
/-! DEFINITION. The steps of the line side and of the timer (R88): each is one atomic step, never answered. -/

namespace Sys2Proof.Machine

/-- Record the symbol LINE_TX_TAKE returns to the line (R92; log entry 11). -/
def State.handOut (s : State) (ch : ChanId) (y : LineSymbol) : State :=
  s.setEnv { s.env with taken := s.env.taken ++ [(ch, y)] }

/-- The line sends the byte of `cell(t.z1)` and advances `t.z1` (R125). -/
def takeByte (ch : ChanId) (s : State) : State :=
  match s.readCell ch .tx (s.ring ch .tx).z1 with
  | (b, s') => (s'.setRing ch .tx { (s.ring ch .tx) with z1 := incZ s.cfg (s.ring ch .tx).z1 }).handOut ch (.byte b)

/-- The line repeats the tail of an empty transparent ring, `cell(decZ(t.z1))` (R125, R126). -/
def takeTail (ch : ChanId) (s : State) : State :=
  match s.readCell ch .tx (decZ s.cfg (s.ring ch .tx).z1) with
  | (b, s') => s'.handOut ch (.byte b)

/-- The line finishes the oldest committed frame: `t.f2 <- incF(t.f2)`, the ready bit is set (R125). -/
def takeFrameEnd (ch : ChanId) (s : State) : State :=
  ((s.setRing ch .tx { (s.ring ch .tx) with f2 := incF s.cfg (s.ring ch .tx).f2 }).setReady ch .tx true).handOut ch .frameEnd

/-- LINE_TX_TAKE(ch) (R125). -/
def lineTxTake (ch : ChanId) (s : State) : State :=
  if (s.ch ch).flowTx = .off then s.handOut ch .idle
  else if (s.ch ch).txSrc = .hwy then s.handOut ch .hwy
  else if (s.ch ch).flowTx = .hdlc then
    if (s.ring ch .tx).f1 = (s.ring ch .tx).f2 then s.handOut ch .idle
    else if (s.ring ch .tx).z1 ≠ (s.ring ch .tx).fend.getD (incF s.cfg (s.ring ch .tx).f2) s.cfg.zmin then takeByte ch s
    else takeFrameEnd ch s
  else if 0 < txPending s.cfg (s.ring ch .tx) then takeByte ch s
  else takeTail ch s

/-- Line data of the channel goes to its highway slot and not to its receive ring (R127, R128, R162). -/
def rxToHighway (s : State) (ch : ChanId) : Bool := (s.ch ch).rxSlot.isSome && !s.cfg.rxFifoWhenRouted

/-- The receive ring holds `ZLEN - 1` bytes (R38, R127). -/
def rxRingFull (s : State) (ch : ChanId) : Bool := rxUnread s.cfg (s.ring ch .rx) == s.cfg.zlen - 1

/-- The receive ring holds `FLEN - 1` closed frames (R38, R128). -/
def rxFramesFull (s : State) (ch : ChanId) : Bool := rxFrames s.cfg (s.ring ch .rx) == s.cfg.flen - 1

/-- LINE_RX_PUT(ch, b) (R127). -/
def lineRxPut (ch : ChanId) (b : Byte) (s : State) : State :=
  if (s.ch ch).flowRx = .off then s
  else if rxToHighway s ch then s
  else if rxRingFull s ch then (s.setOvf ch true).latchLostData
  else (s.writeCell ch .rx (s.ring ch .rx).z1 b).setRing ch .rx { (s.ring ch .rx) with z1 := incZ s.cfg (s.ring ch .rx).z1 }

/-- Close the open frame with the status byte that is stored (R128). -/
def closeFrame (ch : ChanId) (st : Byte) (s : State) : State :=
  (((s.writeCell ch .rx (s.ring ch .rx).z1 st).setRing ch .rx
      { (s.ring ch .rx) with
        fend := (s.ring ch .rx).fend.set (incF s.cfg (s.ring ch .rx).f1) (s.ring ch .rx).z1
        z1 := incZ s.cfg (s.ring ch .rx).z1
        f1 := incF s.cfg (s.ring ch .rx).f1 }).setOvf ch false).setReady ch .rx true

/-- LINE_RX_END(ch, st) (R128). After lost bytes the stored status is any byte but 0x00 (U3). -/
def lineRxEnd (ch : ChanId) (st : Byte) (s : State) : State :=
  if (s.ch ch).flowRx ≠ .hdlc then s
  else if rxToHighway s ch then s
  else if rxRingFull s ch || rxFramesFull s ch then (s.setOvf ch true).latchLostData
  else if (s.ovf ch) then
    match s.drawStatus with
    | (st', s') => closeFrame ch st' s'
  else closeFrame ch st s

/-- LINE_STATE(p, s), on a point-to-point port only (R196, R197). -/
def lineState (p : PortId) (x : Fin 16) (s : State) : State :=
  if isPtp s.cfg p then (s.setLineIn p { (s.inp p) with repState := x }).setPsc p true else s

/-- LINE_E1STATE(p, v), on a trunk port only (R196, R198). -/
def lineE1State (p : PortId) (v : Bool) (s : State) : State :=
  if isTrunk s.cfg p then (s.setLineIn p { (s.inp p) with e1In := v }).setTsc p true else s

/-- LINE_SYNC(p, clk, frm), on a trunk port only; no status bit (R196, R199). -/
def lineSync (p : PortId) (clk frm : Bool) (s : State) : State :=
  if isTrunk s.cfg p then s.setLineIn p { (s.inp p) with clkOk := clk, frameOk := frm } else s

/-- LINE_ALARM(p, bits), on a trunk port only; no status bit (R196, R200). -/
def lineAlarm (p : PortId) (bits : BitVec 4) (s : State) : State :=
  if isTrunk s.cfg p then s.setLineIn p { (s.inp p) with alarmIn := bits } else s

/-- One step of the line side or of the timer (R88). -/
def applyStimulus (st : Stimulus) (s : State) : State :=
  match st with
  | .lineTxTake ch => lineTxTake ch s
  | .lineRxPut ch b => lineRxPut ch b s
  | .lineRxEnd ch st => lineRxEnd ch st s
  | .ready ch d => s.setReady ch d true
  | .lineState p x => lineState p x s
  | .lineE1State p v => lineE1State p v s
  | .lineSync p clk frm => lineSync p clk frm s
  | .lineAlarm p bits => lineAlarm p bits s
  | .timerTick => s.setStatus { s.status with tick := true }
  | .tone => s.setStatus { s.status with toneReady := true }

/-- Stimuli in order. -/
def runStimuli : List Stimulus → State → State
  | [], s => s
  | st :: rest, s => runStimuli rest (applyStimulus st s)

end Sys2Proof.Machine
end

