-- ==== Sys2Proof/Machine/Window.lean ====
section
/-! DEFINITION. The register window: the atomic accesses to the selected ring (R43, R56 to R59). Before each of them the line
side and the timer may step (R57). -/

namespace Sys2Proof.Machine

/-- The point before an atomic access of a command: the next burst of line-side and timer steps happens here (R10, R57; log
entry 5). DESIGN CHOICE: also before a command's first access (log entry 27). -/
def State.yield (s : State) : State :=
  match s.env.sched with
  | [] => s
  | burst :: rest => runStimuli burst (s.setEnv { s.env with sched := rest })

/-- The access of RingPush(b) (R56): the byte and the counter advance in one. With `sel` = NONE, which no procedure leaves
before an access (R284), there is no ring and nothing happens (log entry 18); so for every access below. -/
def pushNow (b : Byte) (s : State) : State :=
  match s.sel with
  | none => s
  | some (ch, d) => (s.writeCell ch d (s.ring ch d).z2 b).setRing ch d { s.ring ch d with z2 := incZ s.cfg (s.ring ch d).z2 }

/-- The access of RingCommit() (R56). -/
def commitNow (s : State) : State :=
  match s.sel with
  | none => s
  | some (ch, d) => s.setRing ch d (Ring.commit s.cfg (s.ring ch d))

/-- The access of RingPop() (R56): the byte and the state after it. -/
def popNow (s : State) : Byte × State :=
  match s.sel with
  | none => s.drawByte
  | some (ch, d) =>
    ((s.readCell ch d (s.ring ch d).z2).1,
      (s.readCell ch d (s.ring ch d).z2).2.setRing ch d { s.ring ch d with z2 := incZ s.cfg (s.ring ch d).z2 })

/-- The access of RingFrameAck() (R56). -/
def frameAckNow (s : State) : State :=
  match s.sel with
  | none => s
  | some (ch, d) => s.setRing ch d { s.ring ch d with f2 := incF s.cfg (s.ring ch d).f2 }

/-- The access of RingReset() (R56, R68): both sides' counters, and `ovf` of a receive ring; cells and frame ends stay
(U4). -/
def resetNow (s : State) : State :=
  match s.sel with
  | none => s
  | some (ch, .tx) => s.setRing ch .tx (Ring.clear s.cfg (s.ring ch .tx))
  | some (ch, .rx) => (s.setRing ch .rx (Ring.clear s.cfg (s.ring ch .rx))).setOvf ch false

/-- RingPush(b) as an atomic step of a command (R56, R57). -/
def ringPush (b : Byte) (s : State) : State := pushNow b s.yield

/-- RingCommit() as an atomic step of a command (R56, R57). -/
def ringCommit (s : State) : State := commitNow s.yield

/-- RingPop() as an atomic step of a command (R56, R57). -/
def ringPop (s : State) : Byte × State := popNow s.yield

/-- RingFrameAck() as an atomic step of a command (R56, R57). -/
def ringFrameAck (s : State) : State := frameAckNow s.yield

/-- RingReset() as an atomic step of a command (R56, R57). -/
def ringReset (s : State) : State := resetNow s.yield

/-- What a line-side counter of a ring holds. -/
def counterOf (c : Config) (r : Ring) : LineCounter → Nat
  | .txZ1 => r.z1
  | .txF2 => r.f2
  | .rxF1 => r.f1
  | .rxZ1rep => z1rep c r

/-- The selected ring; with `sel` = NONE a ring at its reset values (log entry 18). -/
def State.selRing (s : State) : Ring :=
  match s.sel with
  | none => Ring.reset s.cfg
  | some (ch, d) => s.ring ch d

/-- Record a stable read of the selected ring and whether it failed (log entry 29). -/
def State.logRead (s : State) (k : LineCounter) (failed : Bool) : State :=
  match s.sel with
  | none => s
  | some (ch, _) => s.setEnv { s.env with readLog := s.env.readLog ++ [⟨ch, k, failed⟩] }

/-- The outcome of a stable read at one instant: the value the counter holds, or none for FAIL, a draw (R58). -/
def readNow (k : LineCounter) (s : State) : Option Nat × State :=
  (if s.drawReadFails.1 then none else some (counterOf s.cfg s.selRing k), s.drawReadFails.2.logRead k s.drawReadFails.1)

/-- `StableRead(c)` as an atomic step of a command (R57, R58). -/
def stableRead (k : LineCounter) (s : State) : Option Nat × State := readNow k s.yield

end Sys2Proof.Machine
end

