-- ==== Sys2Proof/Machine/BringUp.lean ====
section
/-! DEFINITION. Controller bring-up: the meaning of INIT (R231). -/

namespace Sys2Proof.Machine

/-- The reset values of R47 again, except for `ctl`, the three queues, the ring cells and the line-side inputs (R231, R281). -/
def State.reinit (s : State) : State :=
  { State.powerOn s.cfg with
    ctl := s.ctl, evq := s.evq, diagq := s.diagq, lineq := s.lineq, mem := s.mem, lineIn := s.lineIn, env := s.env }

/-- A failed check (R231, R254): FAILED for good, FATAL once, the command rejected FAILED. -/
def bringUpFails (code : FatalCode) (s : State) : State := ((s.setCtl .failed).emit (.fatal code)).answer .failed

/-- The three checks in the source's order (R231). -/
def bringUp (k : Checks) (s : State) : State :=
  if k.idOk = false then bringUpFails .identity s
  else if k.ramOk = false then bringUpFails .ramTest s
  else if k.refOk = false then bringUpFails .noTimingRef s
  else (s.setCtl .up).answer .ok

/-- The reset of INIT and the settle wait, during which the line side may step (R231, R233), then the line side's answers. -/
def initChecks (s : State) : State := bringUp s.reinit.yield.drawChecks.1 s.reinit.yield.drawChecks.2

/-- INIT (R231). On a configuration that breaks R12 or R11's ranges there is no INIT step (R12, U10). -/
def execInit (s : State) : Host.Outcome State Fault Refusal :=
  if configOk s.cfg = false then .refused .badConfig
  else if s.ctl = .up then .next (s.answer .alreadyUp)
  else if s.ctl = .failed then .next (s.answer .failed)
  else .next (initChecks s)

end Sys2Proof.Machine
end

