-- ==== Sys2Proof/Machine/Operands.lean ====
section
/-! DEFINITION. The operand forms of the commands: requested slots, banks, protocols, conference ids and payloads (R75 to R80). -/

namespace Sys2Proof.Machine

/-- A requested slot: `tv ? slot : NONE` (R75, R150). The slot bits are ignored when the valid bit is clear. -/
def requestedSlot (valid : Bool) (slot : Slot) : Option Slot := if valid then some slot else none

/-- A requested slot is in range when it is NONE or below `HW_SLOTS` (R77). -/
def slotInRange (c : Config) : Option Slot → Bool
  | none => true
  | some slot => decide (slot.val < hwSlots c)

/-- The protocol SetModeCore stores: NONE for the unsupported value (R151, R158). -/
def effectiveProto : ProtoField → Proto
  | .noProto => .noProto
  | .raw => .raw
  | .hdlc => .hdlc
  | .unsupported => .noProto

/-- A stored protocol as an argument of SetModeCore (R163, R164, R166). -/
def protoArg : Proto → ProtoField
  | .noProto => .noProto
  | .raw => .raw
  | .hdlc => .hdlc

/-- A conference id below `NUM_CONF`; none where the field is out of range (R79, R163). -/
def confOperand (conf : Fin 16) : Option ConfId := if h : conf.val < 8 then some ⟨conf.val, h⟩ else none

/-- The routing mode of a requested slot: LOOP with a conference or a bank above 1 (R154, R155). -/
def routeMode (conf : Option ConfId) (bank : Bank) : RouteMode :=
  if conf.isSome || decide (1 < bank.val) then .loop else .direct

/-- A SUBMIT payload is accepted when it is not empty and has the length the word gives (R121). -/
def lengthOk (len : Fin 65536) (payload : List Byte) : Bool := len.val != 0 && payload.length == len.val

end Sys2Proof.Machine
end

