-- ==== Sys2Proof/Machine/Engine.lean ====
section
/-! DEFINITION. The FIFO transfer engine: transmit_fill (R102 to R109), receive_drain (R113 to R118), and the meanings of SUBMIT
(R121) and SERVICE (R123). -/

namespace Sys2Proof.Machine

/-- `FrameSpaceTx(ch)` on a stable-read `f2` (R103): modular frame space, degraded on counter-limited silicon and on a
point-to-point signalling channel. -/
def frameSpaceTx (s : State) (ch : ChanId) (f2s : Nat) : Nat :=
  if isPtpSignalling s.cfg ch && (s.ring ch .tx).f1 != f2s then 0
  else if s.cfg.counterLimited then (if (s.ring ch .tx).f1 = f2s then 1 else 0)
  else frameSpace s.cfg f2s (s.ring ch .tx).f1

/-- Step 3 of transmit_fill (R102, R103): whether the call goes on, and the state. A transparent channel needs no frame space. -/
def frameSpaceStep (ch : ChanId) (s : State) : Bool × State :=
  if (s.ch ch).proto = .hdlc then
    match stableRead .txF2 s with
    | (none, s') => (false, s'.diag (.rereadFail ch .tx))
    | (some f2s, s') => (frameSpaceTx s' ch f2s != 0, s')
  else (true, s)

/-- Step 4 of transmit_fill (R102, R104): the snapshot of `t.z1` if there is the margin's byte space, or none to return. -/
def byteSpaceStep (ch : ChanId) (s : State) : Option Nat × State :=
  match stableRead .txZ1 s with
  | (none, s') => (none, s'.diag (.rereadFail ch .tx))
  | (some zs, s') => (if byteSpace s'.cfg zs (s'.ring ch .tx).z2 < txMargin then none else some zs, s')

/-- Steps 3 and 4 together. -/
def fillSnapshot (ch : ChanId) (s : State) : Option Nat × State :=
  match frameSpaceStep ch s with
  | (false, s') => (none, s')
  | (true, s') => byteSpaceStep ch s'

/-- Nothing left (R109): a transparent channel adds one silence byte if the snapshot leaves room; the channel is idle. -/
def nothingLeft (ch : ChanId) (zs : Nat) (s : State) : State :=
  (if (s.ch ch).proto = .raw ∧ 1 ≤ byteSpace s.cfg zs (s.ring ch .tx).z2 then ringPush s.cfg.silenceByte s else s).modChan ch
    fun c => { c with txState := .idle }

/-- Step 7's copy (R107): push bytes in order, the cursor advancing by one after each. -/
def pushBytes (ch : ChanId) : List Byte → State → State
  | [], s => s
  | b :: rest, s => pushBytes ch rest ((ringPush b s).modChan ch fun c => { c with cursor := c.cursor + 1 })

/-- Step 6 (R106): a new frame on a routed raw-audio channel first disconnects the highway. -/
def disconnectHighway (ch : ChanId) (s : State) : State :=
  if (s.ch ch).cursor = 0 ∧ (s.ch ch).routedRaw = true then s.modChan ch fun c => { c with txSrc := .fifo } else s

/-- Step 7 (R107): write up to the byte space of the head frame; the state is then SENDING. -/
def writeFrame (ch : ChanId) (fr : List Byte) (zs : Nat) (s : State) : State :=
  (pushBytes ch ((fr.drop (s.ch ch).cursor).take (byteSpace s.cfg zs (s.ring ch .tx).z2)) s).modChan ch
    fun c => { c with txState := .sending }

/-- Step 8 (R108): commit a framed frame, take it off the queue, acknowledge it. -/
def completeFrame (ch : ChanId) (rest : List (List Byte)) (s : State) : State :=
  ((if (s.ch ch).proto = .hdlc then ringCommit s else s).modChan ch fun c => { c with txq := rest, cursor := 0 }).emit
    (.txDone ch)

/-- The loop of transmit_fill over the frames of the queue (R102, R108). The list is the channel's `txq`. -/
def fillLoop (ch : ChanId) : List (List Byte) → State → State
  | [], s =>
    match fillSnapshot ch s with
    | (none, s') => s'
    | (some zs, s') =>
      if zmod s'.cfg (((s'.ring ch .tx).z2 : Int) - zs) = 0 ∧ (s'.ch ch).routedRaw = true then
        s'.modChan ch fun c => { c with txSrc := .hwy, txState := .idle }
      else nothingLeft ch zs s'
  | fr :: rest, s =>
    match fillSnapshot ch s with
    | (none, s') => s'
    | (some zs, s') =>
      match writeFrame ch fr zs (disconnectHighway ch s') with
      | s'' =>
        if (s''.ch ch).cursor < fr.length then s''
        else if rest = [] then nothingLeft ch zs (completeFrame ch rest s'')
        else fillLoop ch rest (completeFrame ch rest s'')

/-- Step 2 (R102): the deferred ring reset. -/
def deferredReset (ch : ChanId) (s : State) : State :=
  if (s.ch ch).txState = .resetPending then (ringReset s).modChan ch fun c => { c with txState := .idle } else s

/-- `transmit_fill(ch)` (R102). -/
def transmitFill (ch : ChanId) (s : State) : State :=
  if (s.ch ch).proto = .noProto then s
  else fillLoop ch (s.ch ch).txq (deferredReset ch (s.select ch .tx))

/-- Whether a frame boundary is present, from a stable read of `r.f1` (R113, R114); none for a failed read. -/
def frameBoundary (ch : ChanId) (s : State) : Option Bool × State :=
  if (s.ch ch).proto = .hdlc then
    match stableRead .rxF1 s with
    | (none, s') => (none, s'.diag (.rereadFail ch .rx))
    | (some f1s, s') => (some (f1s != (s'.ring ch .rx).f2), s')
  else (some false, s)

/-- The stabilised counters of receive_drain (R114): frame boundary and available bytes; none for a failed read. -/
def drainSnapshot (ch : ChanId) (s : State) : Option (Bool × Nat) × State :=
  match frameBoundary ch s with
  | (none, s') => (none, s')
  | (some complete, s') =>
    match stableRead .rxZ1rep s' with
    | (none, s'') => (none, s''.diag (.rereadFail ch .rx))
    | (some zs, s'') => (some (complete, zmod s''.cfg ((zs : Int) - (s''.ring ch .rx).z2) + complete.toNat), s'')

/-- Oversize (R115): buffer emptied, receive ring reset, diagnostic. -/
def dropOversize (ch : ChanId) (s : State) : State :=
  (ringReset (s.modChan ch fun c => { c with rxbuf := [] })).diag (.rxOversize ch)

/-- Pop `n` bytes into the active buffer (R116). -/
def popBytes (ch : ChanId) : Nat → State → State
  | 0, s => s
  | n + 1, s => popBytes ch n ((ringPop s).2.modChan ch fun c => { c with rxbuf := c.rxbuf ++ [(ringPop s).1] })

/-- Transparent delivery (R118). -/
def deliverTransparent (ch : ChanId) (s : State) : State :=
  if s.cfg.transpThreshold ≤ (s.ch ch).rxbuf.length then
    (s.emit (.rx ch (s.ch ch).rxbuf)).modChan ch fun c => { c with rxbuf := [] }
  else s

/-- What becomes of a complete frame in the active buffer (R117): dropped as short, dropped for its status byte, or delivered
without its trailer; then a fresh buffer. -/
def finishFrame (ch : ChanId) (s : State) : State :=
  (if (s.ch ch).rxbuf.length < rxMinLen then s.diag (.rxShort ch (s.ch ch).rxbuf.length)
   else if (s.ch ch).rxbuf.getLastD 0 ≠ 0 then s.diag (.rxCrc ch ((s.ch ch).rxbuf.getLastD 0))
   else s.emit (.rx ch ((s.ch ch).rxbuf.take ((s.ch ch).rxbuf.length - rxTrailerLen)))).modChan ch
    fun c => { c with rxbuf := [] }

/-- The loop of receive_drain (R113). Every further pass has consumed a closed frame, so the number of passes is bounded by the
closed frames and by the stimuli that could close more; `n` is that bound (log entry 16). -/
def drainLoop (ch : ChanId) : Nat → State → State
  | 0, s => s
  | n + 1, s =>
    match drainSnapshot ch s with
    | (none, s') => s'
    | (some (complete, avail), s') =>
      if avail = 0 then s'
      else if s'.cfg.maxlen + rxOversizeSlack < (s'.ch ch).rxbuf.length + avail then dropOversize ch s'
      else if (s'.ch ch).proto = .raw then deliverTransparent ch (popBytes ch avail s')
      else if complete = false then popBytes ch avail s'
      else drainLoop ch n (finishFrame ch (ringFrameAck (popBytes ch avail s')))

/-- The stimuli still scheduled inside commands. -/
def pendingStimuli (s : State) : Nat := (s.env.sched.map List.length).sum

/-- A bound on the passes of receive_drain's loop: the closed frames, the stimuli that may close more, and the last pass. -/
def drainPasses (ch : ChanId) (s : State) : Nat := rxFrames s.cfg (s.ring ch .rx) + pendingStimuli s + 1

/-- `receive_drain(ch)` (R113). -/
def receiveDrain (ch : ChanId) (s : State) : State :=
  if (s.ch ch).proto = .noProto then s
  else drainLoop ch (drainPasses ch s) (s.select ch .rx)

/-- SUBMIT (R121). -/
def execSubmit (ch : ChanId) (len : Fin 65536) (payload : List Byte) (s : State) : Host.Outcome State Fault Refusal :=
  if s.ctl ≠ .up then .next (s.answer .notUp)
  else if (s.ch ch).isOpen = false then .next (s.answer .notOpen)
  else if (s.ch ch).proto = .noProto then .next (s.answer .noProtocol)
  else if lengthOk len payload = false then .next (s.answer .badLength)
  else .next ((s.modChan ch fun c => { c with txq := c.txq ++ [payload] }).answer .ok)

/-- The service SERVICE asks for: transmit_fill before receive_drain (R123, R124). -/
def serve (ch : ChanId) (tx rx : Bool) (s : State) : State :=
  if rx then receiveDrain ch (if tx then transmitFill ch s else s) else if tx then transmitFill ch s else s

/-- SERVICE (R123). -/
def execService (ch : ChanId) (tx rx : Bool) (s : State) : Host.Outcome State Fault Refusal :=
  if s.ctl ≠ .up then .next (s.answer .notUp)
  else if (s.ch ch).isOpen = false then .next (s.answer .notOpen)
  else if (s.ch ch).proto = .noProto then .next (s.answer .noProtocol)
  else .next ((serve ch tx rx s).answer .ok)

end Sys2Proof.Machine
end

