-- ==== Sys2Proof/Machine/LineState.lean ====
section
/-! DEFINITION. The line-state machines of the ports (R180 to R194): NT, TE and trunk. -/

namespace Sys2Proof.Machine

/-- What entry to NT state 3 does to the port's D channel (R184, R186). -/
def freshDChannel (c : Channel) : Channel :=
  if 0 < c.cursor then { c with rxbuf := [], cursor := 0, txState := .resetPending } else { c with rxbuf := [] }

/-- `NtEnter(p, s)` (R184). -/
def ntEnter (p : PortId) (x : Fin 16) (s : State) : State :=
  let entered := s.setPort p { (s.pt p) with lstate := x, timer := if x = 2 then some s.cfg.ntT1 else none }
  if x = 3 then
    (match dch s.cfg p with
     | none => entered
     | some d => entered.modChan d freshDChannel).activate p
  else entered.deactivate p

/-- `NtReport(p, s)` (R183). -/
def ntReport (p : PortId) (x : Fin 16) (s : State) : State :=
  if 4 < x then s else if x = (s.pt p).lstate then s else ntEnter p x s

/-- `NtCountdown(p)` (R188). -/
def ntCountdown (p : PortId) (s : State) : State :=
  if (s.pt p).lstate = 2 then
    match (s.pt p).timer with
    | none => s
    | some n =>
      if n - 1 = 0 then ntEnter p 4 ((s.setPort p { (s.pt p) with timer := some (n - 1) }).lineAct (.forceState p 4))
      else s.setPort p { (s.pt p) with timer := some (n - 1) }
  else s

/-- The event of a reported TE state (R189). -/
def teEvent (p : PortId) (x : Fin 16) (s : State) : State :=
  if x = 0 then s.emit (.loss p 0)
  else if x = 3 then s.deactivate p
  else if x = 5 ∨ x = 6 then s.emit (.info p x)
  else if x = 7 then s.activate p
  else if x = 8 then s.emit (.loss p 8)
  else s

/-- `TeReport(p, s)` (R189). -/
def teReport (p : PortId) (x : Fin 16) (s : State) : State :=
  if x = (s.pt p).lstate then s else teEvent p x (s.setPort p { (s.pt p) with lstate := x })

/-- `E1Report(p)` (R191). -/
def e1Report (p : PortId) (s : State) : State :=
  let taken := s.setPort p { (s.pt p) with e1state := (s.inp p).e1In }
  if (s.inp p).e1In then taken.activate p else taken.deactivate p

/-- `TrunkSyncPoll(p)` (R192). -/
def trunkSyncPoll (p : PortId) (s : State) : State :=
  if (s.inp p).clkOk = false then s.setPort p { (s.pt p) with sync := 0 }
  else
    (if (s.pt p).sync = 0 then s.lineAct (.programJitter p (jitterDepth s.cfg p)) else s).setPort p
      { (s.pt p) with sync := if (s.inp p).frameOk then 2 else 1 }

/-- A 4-bit value with one bit replaced. -/
def setBit4 (x : BitVec 4) (b : Fin 4) (v : Bool) : BitVec 4 :=
  if v then x ||| BitVec.ofNat 4 (2 ^ b.val) else x &&& ~~~(BitVec.ofNat 4 (2 ^ b.val))

/-- One alarm bit of `TrunkAlarmPoll(p)` (R193): the latch follows an edge; the event is emitted unless masked. -/
def alarmBit (p : PortId) (s : State) (b : Fin 4) : State :=
  let v := (s.inp p).alarmIn.getLsbD b.val
  if v = (s.pt p).latch.getLsbD b.val then s
  else
    let latched := s.setPort p { (s.pt p) with latch := setBit4 (s.pt p).latch b v }
    if (alarmMask s.cfg p).getLsbD b.val then latched else latched.emit (.alarm p b v)

/-- `TrunkAlarmPoll(p)` (R193): bits 0 LOS, 1 AIS, 2 SLIP, 3 CRC4, ascending. -/
def trunkAlarmPoll (p : PortId) (s : State) : State := [0, 1, 2, 3].foldl (alarmBit p) s

end Sys2Proof.Machine
end

