-- ==== Sys2Proof/Machine/Dispatcher.lean ====
section
/-! DEFINITION. The interrupt and tick dispatcher (R220 to R227, R236) and the meaning of DISPATCH (R221). The line side may also
step before each port's inputs are read and before each block bitmap is read (log entry 5). -/

namespace Sys2Proof.Machine

/-- PTP ports with a pending state change, ascending (R221, `P`). -/
def pendingPtp (s : State) : List PortId := allPorts.filter fun p => isPtp s.cfg p && s.status.psc.get p

/-- Trunk ports with a pending state change, ascending (R221, `T`). -/
def pendingTrunk (s : State) : List PortId := allPorts.filter fun p => isTrunk s.cfg p && s.status.tsc.get p

/-- Blocks whose ready summary is set, ascending (R221, `B`). -/
def pendingBlocks (s : State) : List BlockId := allBlocks.filter fun b => s.blockReady b

/-- Nothing is pending (R221, R222). -/
def nothingPending (s : State) : Bool :=
  (pendingPtp s).isEmpty && (pendingTrunk s).isEmpty && !s.status.lostData && !s.status.tick && !s.status.toneReady
    && (pendingBlocks s).isEmpty

/-- Step 1's read-to-clear (R222): the state-change and miscellaneous bits it read as set; the ready bits stay. -/
def clearSummaries (s : State) : State :=
  s.setStatus
    { s.status with
      psc := Vector.ofFn fun p : Fin 32 => s.status.psc.get p && !isPtp s.cfg p
      tsc := Vector.ofFn fun p : Fin 32 => s.status.tsc.get p && !isTrunk s.cfg p
      lostData := false
      tick := false
      toneReady := false }

/-- Step 2 for one port (R223): its machine on the state it reports now. -/
def ptpStateChange (p : PortId) (s : State) : State :=
  if portKind s.cfg p = some .nt then ntReport p (s.inp p).repState s else teReport p (s.inp p).repState s

/-- `active(ch)` on a fully-up port (R226). -/
def tickServed (s : State) (ch : ChanId) : Bool :=
  match s.cfg.portOf.get ch with
  | none => false
  | some p => (s.ch ch).isActive && (s.pt p).active

/-- The per-channel tick handler for one channel (R226). -/
def tickChannel (s : State) (ch : ChanId) : State :=
  if tickServed s ch then receiveDrain ch (transmitFill ch s) else s

/-- `ChannelTick()` (R226). -/
def channelTick (s : State) : State := allChans.foldl tickChannel s

/-- The trunk polls of one port on a tick (R224). -/
def trunkPolls (p : PortId) (s : State) : State := trunkAlarmPoll p (trunkSyncPoll p s)

/-- The tick part of step 3 (R224). -/
def tickStep (s : State) : State :=
  let polled := (trunkPorts s.cfg).foldl (fun s p => trunkPolls p s.yield) s
  (ntPorts s.cfg).foldl (fun s p => ntCountdown p s) (channelTick polled)

/-- Step 4 for one channel of a block (R227), with the block's bitmap `bm`. -/
def serveReady (b : BlockId) (bm : BitVec 8) (s : State) (k : Fin 4) : State :=
  if (s.ch (blockChan b k)).isActive then
    serve (blockChan b k) (bm.getLsbD (2 * k.val)) (bm.getLsbD (2 * k.val + 1)) s
  else s

/-- Step 4 for one block (R227): its bitmap is read and cleared in one atomic step, then its channels are visited. -/
def serveBlock (b : BlockId) (s : State) : State := blockSlots.foldl (serveReady b (s.blockBitmap b)) (s.clearBlock b)

/-- Steps 2 to 4 with what step 1 read (R221). -/
def dispatchSteps (P T : List PortId) (lost tick tone : Bool) (B : List BlockId) (s : State) : State :=
  let step2 := P.foldl (fun s p => ptpStateChange p s.yield) s
  let lostAck := if lost then step2.diag .lostData else step2
  let trunks := T.foldl (fun s p => e1Report p s.yield) lostAck
  let ticked := if tick then tickStep trunks else trunks
  let toned := if tone then ticked.emit .toneReady else ticked
  B.foldl (fun s b => serveBlock b s.yield) toned

/-- DISPATCH on an UP controller, without its answer (R221). -/
def dispatchBody (s : State) : State :=
  if nothingPending s then s
  else
    dispatchSteps (pendingPtp s) (pendingTrunk s) s.status.lostData s.status.tick s.status.toneReady (pendingBlocks s)
      (clearSummaries s)

/-- DISPATCH (R221). -/
def execDispatch (s : State) : Host.Outcome State Fault Refusal :=
  if s.ctl ≠ .up then .next (s.answer .notUp) else .next ((dispatchBody s).answer .ok)

/-- A DISPATCH the sequencer takes by itself (R236): no `resp`, and nothing at all when the controller is not UP. -/
def ownDispatch (s : State) : State := if s.ctl = .up then dispatchBody s else s

end Sys2Proof.Machine
end

