-- ==== Sys2Proof/Machine/Router.lean ====
section
/-! DEFINITION. The channel mode and timeslot router: SetModeCore (R151 to R159), and the meanings of SET_MODE (R150), CONF_JOIN
(R163), CONF_SPLIT (R164), OPEN (R165) and CLOSE (R166). -/

namespace Sys2Proof.Machine

/-- Release of one direction (R153): a stored slot that differs from the requested one is given up; its routing register and
ownership record are cleared only if this channel is the recorded owner, and a stale mismatch is only logged. -/
def releaseSlot (ch : ChanId) (d : Dir) (new : Option Slot) (s : State) : State :=
  match (s.ch ch).slot d with
  | none => s
  | some old =>
    if new = some old then s
    else
      (if (s.ownAt (routeIx old d)) = some ch then (s.setSlotReg (routeIx old d) none).setOwn (routeIx old d) none
       else s.diag (.staleOwner ch old d)).modChan ch fun c => c.setSlot d none

/-- Programming of one direction (R154): the bank is stored; a requested slot is routed, owned and stored. -/
def programSlot (ch : ChanId) (d : Dir) (new : Option Slot) (bank : Bank) (s : State) : State :=
  match new with
  | none => s.modChan ch fun c => c.setBank d bank
  | some slot =>
    ((s.setSlotReg (routeIx slot d) (some ⟨ch, routeMode (s.ch ch).conf bank, bank⟩)).setOwn (routeIx slot d) (some ch)).modChan
      ch fun c => (c.setBank d bank).setSlot d (some slot)

/-- The subchannel mode of a framed channel (R156). A channel without a port, which R12 leaves UNUSED, keeps NA (log entry 19). -/
def subModeOf (c : Config) (ch : ChanId) : SubMode :=
  match kindOfChan c ch with
  | some .nt => .single
  | some .te => .single
  | some .trunk => .multi
  | none => .na

/-- `ProgramFlow(ch, pe, eb)` on the channel record (R156). -/
def programFlow (cfg : Config) (ch : ChanId) (pe : Proto) (eb : Bool) (c : Channel) : Channel :=
  match pe with
  | .noProto => { c with flowTx := .off, flowRx := .off, frameIrq := false, subMode := .na, echoBypass := false }
  | .raw => { c with flowTx := .transp, flowRx := .transp, frameIrq := false, subMode := .na, echoBypass := eb }
  | .hdlc =>
    { c with flowTx := .hdlc, flowRx := .hdlc, frameIrq := true, subMode := subModeOf cfg ch, echoBypass := false }

/-- A protocol change (R157): the head frame restarts after a deferred transmit ring reset, the receive ring is reset at once,
the active buffer is emptied. DESIGN CHOICE (log entry 27): the line may step right before this reset, when the slots and the flow
control are already the new ones, though it is the first and only ring access of a SET_MODE. -/
def protocolChange (ch : ChanId) (s : State) : State :=
  (ringReset ((s.modChan ch fun c => { c with txState := .resetPending, cursor := 0 }).select ch .rx)).modChan ch
    fun c => { c with rxbuf := [] }

/-- Release and programming of both directions, TX before RX (R151, R153, R154). -/
def routeSlots (ch : ChanId) (tS : Option Slot) (tB : Bank) (rS : Option Slot) (rB : Bank) (s : State) : State :=
  programSlot ch .rx rS rB (programSlot ch .tx tS tB (releaseSlot ch .rx rS (releaseSlot ch .tx tS s)))

/-- Flow programming on the state, with the stored echo bit (R151, R156). -/
def setFlow (ch : ChanId) (pe : Proto) (eb : Bool) (s : State) : State :=
  s.modChan ch fun c => { programFlow s.cfg ch pe eb c with eb := eb }

/-- The protocol is stored; a change of it takes R157's steps first (R151, R157). -/
def storeProto (ch : ChanId) (pe : Proto) (s : State) : State :=
  (if pe ≠ (s.ch ch).proto then protocolChange ch s else s).modChan ch fun c => { c with proto := pe }

/-- The transmit source after SetModeCore (R159). -/
def sourceAfter (c : Channel) : TxSrc :=
  if c.proto = .raw ∧ c.txSlot.isSome = true ∧ c.txq = [] ∧ c.cursor = 0 then .hwy else .fifo

/-- `SetModeCore(ch, p, tS, tB, rS, rB, eb)` (R151), all its state changes. That it ends in BAD_PROTOCOL for an unsupported `p`
is SET_MODE's answer, the only caller that can pass one. -/
def setModeCore (ch : ChanId) (p : ProtoField) (tS : Option Slot) (tB : Bank) (rS : Option Slot) (rB : Bank) (eb : Bool)
    (s : State) : State :=
  (storeProto ch (effectiveProto p) (setFlow ch (effectiveProto p) eb (routeSlots ch tS tB rS rB s))).modChan ch
    fun c => { c with txSrc := sourceAfter c }

/-- SetModeCore with the channel's stored arguments, as the pseudocode of CONF_JOIN and CONF_SPLIT runs it (R163, R164). DESIGN CHOICE
(log entry 30): it is run also where a stored slot is stale, and then takes that slot from its owner (R154), although the prose of
R163 says that only the routing mode changes and R167 names no CONF_JOIN or CONF_SPLIT among what ends an ownership. -/
def setModeStored (ch : ChanId) (s : State) : State :=
  setModeCore ch (protoArg (s.ch ch).proto) (s.ch ch).txSlot (s.ch ch).txBank (s.ch ch).rxSlot (s.ch ch).rxBank
    (s.ch ch).eb s

/-- SET_MODE (R150, R152): BAD_PROTOCOL comes last and follows the state changes (R158). -/
def execSetMode (ch : ChanId) (proto : ProtoField) (tv : Bool) (txSlot : Slot) (txBank : Bank) (rv : Bool) (rxSlot : Slot)
    (rxBank : Bank) (eb : Bool) (s : State) : Host.Outcome State Fault Refusal :=
  if s.ctl ≠ .up then .next (s.answer .notUp)
  else if s.cfg.roleOf.get ch = .unused then .next (s.answer .badChannel)
  else if slotInRange s.cfg (requestedSlot tv txSlot) = false then .next (s.answer .badSlot)
  else if slotInRange s.cfg (requestedSlot rv rxSlot) = false then .next (s.answer .badSlot)
  else
    .next ((setModeCore ch proto (requestedSlot tv txSlot) txBank (requestedSlot rv rxSlot) rxBank eb s).answer
      (if proto = .unsupported then .badProtocol else .ok))

/-- CONF_JOIN (R163). -/
def execConfJoin (ch : ChanId) (conf : Fin 16) (s : State) : Host.Outcome State Fault Refusal :=
  if s.ctl ≠ .up then .next (s.answer .notUp)
  else if s.cfg.roleOf.get ch = .unused then .next (s.answer .badChannel)
  else
    match confOperand conf with
    | none => .next (s.answer .badConf)
    | some g => .next ((setModeStored ch (s.modChan ch fun c => { c with conf := some g })).answer .ok)

/-- CONF_SPLIT (R164). -/
def execConfSplit (ch : ChanId) (s : State) : Host.Outcome State Fault Refusal :=
  if s.ctl ≠ .up then .next (s.answer .notUp)
  else if s.cfg.roleOf.get ch = .unused then .next (s.answer .badChannel)
  else .next ((setModeStored ch (s.modChan ch fun c => { c with conf := none })).answer .ok)

/-- OPEN (R165). -/
def execOpen (ch : ChanId) (s : State) : Host.Outcome State Fault Refusal :=
  if s.ctl ≠ .up then .next (s.answer .notUp)
  else if s.cfg.roleOf.get ch = .unused then .next (s.answer .badChannel)
  else if (s.ch ch).isOpen = true then .next (s.answer .alreadyOpen)
  else .next ((s.modChan ch fun c => { c with isOpen := true }).answer .ok)

/-- CLOSE's router part: the conference is left, then SetModeCore releases the slots and stores NONE (R166). -/
def unroute (ch : ChanId) (s : State) : State :=
  setModeCore ch .noProto none 0 none 0 false (s.modChan ch fun c => { c with conf := none })

/-- CLOSE's ring part: queue and buffers emptied, both rings reset (R166). DESIGN CHOICE: the line may step before the first reset
too (log entry 27). -/
def emptyRings (ch : ChanId) (s : State) : State :=
  ringReset ((ringReset ((s.modChan ch fun c => { c with txq := [], cursor := 0, rxbuf := [] }).select ch .tx)).select ch .rx)

/-- What CLOSE does to an open channel (R166). -/
def closeChannel (ch : ChanId) (s : State) : State :=
  (emptyRings ch (unroute ch s)).modChan ch fun c => { c with txState := .idle, txSrc := .fifo, isOpen := false }

/-- CLOSE (R166). -/
def execClose (ch : ChanId) (s : State) : Host.Outcome State Fault Refusal :=
  if s.ctl ≠ .up then .next (s.answer .notUp)
  else if s.cfg.roleOf.get ch = .unused then .next (s.answer .badChannel)
  else if (s.ch ch).isOpen = false then .next (s.answer .notOpen)
  else .next ((closeChannel ch s).answer .ok)

end Sys2Proof.Machine
end

