-- ==== Sys2Proof/Machine/Dispatch.lean ====
section
/-! DEFINITION. One arm per command (R71). -/

namespace Sys2Proof.Machine

def exec (i : Instr) (s : State) : Host.Outcome State Fault Refusal :=
  match i with
  | .init => Sys2Proof.Machine.execInit s
  | .openCh ch => Sys2Proof.Machine.execOpen ch s
  | .close ch => Sys2Proof.Machine.execClose ch s
  | .setMode ch proto tv txSlot txBank rv rxSlot rxBank eb => Sys2Proof.Machine.execSetMode ch proto tv txSlot txBank rv rxSlot rxBank eb s
  | .confJoin ch conf => Sys2Proof.Machine.execConfJoin ch conf s
  | .confSplit ch => Sys2Proof.Machine.execConfSplit ch s
  | .submit ch len payload => Sys2Proof.Machine.execSubmit ch len payload s
  | .service ch tx rx => Sys2Proof.Machine.execService ch tx rx s
  | .dispatch => Sys2Proof.Machine.execDispatch s

end Sys2Proof.Machine
end

