-- ==== Sys2Proof/Machine/Sequencer.lean ====
section
/-! DEFINITION. The sequencer's choice of what happens next: the environment's inputs in their order (R9, R61, R235). -/

namespace Sys2Proof.Machine

/-- The state after the first input is taken off the list. -/
def State.consume (s : State) : State := s.setEnv { s.env with inputs := s.env.inputs.tail }

/-- A command word with its payload: decoded, then executed to completion; an ILLEGAL word changes nothing but `resp` (R70, R82,
R83, R84). -/
def runCommand (w : Word) (payload : List Byte) (s : State) : Host.Outcome State Fault Refusal :=
  match decode w payload with
  | .instr i => exec i s
  | .illegal _ => .next (s.answer .illegal)

/-- One input (R9). -/
def runInput (x : Input) (s : State) : Host.Outcome State Fault Refusal :=
  match x with
  | .command w payload => runCommand w payload s
  | .ownDispatch => .next (ownDispatch s)
  | .stimulus st => .next (applyStimulus st s)
  | .takeEvent => .next s.takeEvent

/-- One step: the next input takes effect; with none the block waits, unchanged (log entry 4). -/
def runNext (s : State) : Host.Outcome State Fault Refusal :=
  match s.env.inputs with
  | [] => .next s
  | x :: _ => runInput x s.consume

/-- A table word of `nbits` bits as an input of the command interface, its payload bytes zero. -/
def tableInput (nbits w : Nat) : Input :=
  .command (BitVec.ofNat 32 (w % 2 ^ nbits)) (zeroPayload (BitVec.ofNat 32 (w % 2 ^ nbits)))

/-- Put an input before all others. -/
def State.present (x : Input) (s : State) : State := s.setEnv { s.env with inputs := x :: s.env.inputs }

end Sys2Proof.Machine
end

