-- ==== Sys2Proof/Machine/Step.lean ====
section
/-! DEFINITION. One step of the machine, and the placing of a table word where the next step takes its command. -/

namespace Sys2Proof.Machine

/-- One step (R9, R61): the next input takes effect. -/
def step (s : State) : Host.Outcome State Fault Refusal := runNext s

/-- The machine with a table word presented on the command interface as the next input (log entry 4). -/
def State.withFetchWord (s : State) (nbits w : Nat) : State := s.present (tableInput nbits w)

end Sys2Proof.Machine
end

