-- ==== Sys2Proof/Safety.lean ====
section
/-! DEFINITION. What counts as a safe state: the invariants the spec states of every run, one predicate each; and the fairness
premises of R297, predicates of an endless run; and the environment after stable reads, as the statements name it. -/

namespace Sys2Proof.Machine

/-- A Z value of the configuration (R55). -/
def zInRange (c : Config) (z : Nat) : Prop := c.zmin ≤ z ∧ z < c.zmin + c.zlen

/-- A ring's counters and frame ends are in their ranges (R35, R36, R55). -/
def Ring.inRange (c : Config) (r : Ring) : Prop :=
  zInRange c r.z1 ∧ zInRange c r.z2 ∧ r.f1 < c.flen ∧ r.f2 < c.flen ∧ r.fend.length = c.flen ∧ ∀ z ∈ r.fend, zInRange c z

/-- Every ring is in range (R55). -/
def State.ringsInRange (s : State) : Prop := ∀ (ch : ChanId) (d : Dir), Ring.inRange s.cfg (s.ring ch d)

/-- The bookkeeping of a channel's transmit queue (R28, R29): queued frames are not empty, the cursor lies within the head
frame, and RESET_PENDING implies `cursor = 0`. -/
def Channel.queueOk (c : Channel) : Prop :=
  (∀ fr ∈ c.txq, fr ≠ []) ∧ (∀ fr rest, c.txq = fr :: rest → c.cursor ≤ fr.length) ∧ (c.txq = [] → c.cursor = 0)
    ∧ (c.txState = .resetPending → c.cursor = 0)

/-- `txSrc = HWY` implies a TX slot and protocol RAW (R31). -/
def Channel.sourceOk (c : Channel) : Prop := c.txSrc = .hwy → c.txSlot ≠ none ∧ c.proto = .raw

/-- The flow control is the stored protocol's (R156). -/
def Channel.flowOk (c : Channel) : Prop :=
  c.flowRx = c.flowTx ∧ (c.flowTx = .off ↔ c.proto = .noProto) ∧ (c.flowTx = .transp ↔ c.proto = .raw)
    ∧ (c.frameIrq = true ↔ c.proto = .hdlc) ∧ (c.echoBypass = true → c.proto = .raw)

/-- Every channel record is consistent (R28, R29, R31, R156). -/
def State.channelsOk (s : State) : Prop := ∀ ch : ChanId, (s.ch ch).queueOk ∧ (s.ch ch).sourceOk ∧ (s.ch ch).flowOk

/-- R161: routing registers and ownership records agree, and the owner of an entry references its slot. -/
def State.routingOk (s : State) : Prop :=
  (∀ i : RouteIx, (s.regAt i) = none ↔ (s.ownAt i) = none)
  ∧ ∀ (slot : Slot) (d : Dir) (ch : ChanId), (s.ownAt (routeIx slot d)) = some ch →
      (∃ m b, (s.regAt (routeIx slot d)) = some ⟨ch, m, b⟩) ∧ (s.ch ch).slot d = some slot

/-- Every stored slot is below `HW_SLOTS` (R22, R77). -/
def State.slotsInRange (s : State) : Prop :=
  ∀ (ch : ChanId) (d : Dir), slotInRange s.cfg ((s.ch ch).slot d) = true

/-- The line-state bookkeeping of a port of each kind (R185, R187, R189, R191, R194). -/
def Port.lineOk (c : Config) (kind : PortKind) (x : Port) : Prop :=
  match kind with
  | .nt => (x.active = true ↔ x.lstate = 3) ∧ (x.timer ≠ none ↔ x.lstate = 2) ∧ (∀ n, x.timer = some n → 1 ≤ n ∧ n ≤ c.ntT1)
      ∧ x.sync = 0 ∧ x.latch = 0 ∧ x.e1state = false
  | .te => x.timer = none ∧ x.sync = 0 ∧ x.latch = 0 ∧ x.e1state = false
  | .trunk => (x.active = true ↔ x.e1state = true) ∧ x.lstate = 0 ∧ x.timer = none

/-- Every port is consistent with its kind. -/
def State.portsOk (s : State) : Prop := ∀ (p : PortId) (k : PortKind), portKind s.cfg p = some k → Port.lineOk s.cfg k (s.pt p)

/-- `y` differs from `x` at most in the engine's bookkeeping (`txState`, `txq`, `cursor`, `rxbuf`, `txSrc`): opening, protocol,
routing, conference and flow programming are the same. -/
def Channel.sameProgramming (x y : Channel) : Prop :=
  y = { x with txState := y.txState, txq := y.txq, cursor := y.cursor, rxbuf := y.rxbuf, txSrc := y.txSrc }

/-- The activation events of port `p` in a list, run through the activity gate from the value `a` of `active` (R181): none if an
event repeats, else the value after them. -/
def gateRun (p : PortId) : Bool → List Event → Option Bool
  | a, [] => some a
  | a, .activate q :: es => if q = p then (if a then none else gateRun p true es) else gateRun p a es
  | a, .deactivate q :: es => if q = p then (if a then gateRun p false es else none) else gateRun p a es
  | a, _ :: es => gateRun p a es

/-- The environment after stable reads of channel `ch`'s ring: `more` is left of the listed draws, and the reads `made` are recorded,
each with whether it failed (R58; log entries 6 and 29). -/
def Env.afterReads (e : Env) (ch : ChanId) (made : List (LineCounter × Bool)) (more : List Bool) : Env :=
  { e with reads := more, readLog := e.readLog ++ made.map fun r => ⟨ch, r.1, r.2⟩ }

/-- What the environment adds before a step: more inputs, more bursts of stimuli inside commands, more draws (log entry 28). -/
structure Feed where
  inputs : List Input
  sched : List (List Stimulus)
  reads : List Bool
  bytes : List Byte
  statuses : List (Fin 255)
  checks : List Checks
deriving DecidableEq, Repr

/-- The state once the environment has added what it adds: each list grows at its end, nothing else changes. -/
def State.supply (f : Feed) (s : State) : State :=
  s.setEnv
    { s.env with
      inputs := s.env.inputs ++ f.inputs
      sched := s.env.sched ++ f.sched
      reads := s.env.reads ++ f.reads
      bytes := s.env.bytes ++ f.bytes
      statuses := s.env.statuses ++ f.statuses
      checks := s.env.checks ++ f.checks }

/-- The state `n` steps from `s`, the environment adding `feeds m` before step `m`; where a step stops, it stays. -/
def runOf (s : State) (feeds : Nat → Feed) : Nat → State
  | 0 => s
  | n + 1 =>
    match step ((runOf s feeds n).supply (feeds n)) with
    | .next t => t
    | _ => runOf s feeds n

/-- The state in which step `n` of a run is taken. -/
def beforeStep (s : State) (feeds : Nat → Feed) (n : Nat) : State := (runOf s feeds n).supply (feeds n)

/-- The stimulus occurs in a step from `s` to `t`: it is the step's input, or in a burst that landed inside the step. -/
def Occurs (st : Stimulus) (s t : State) : Prop :=
  s.env.inputs.head? = some (.stimulus st)
    ∨ ∃ burst ∈ s.env.sched.take (s.env.sched.length - t.env.sched.length), st ∈ burst

/-- The step from `s` runs a DISPATCH: the sequencer's own, or the host's command. -/
def TakesDispatch (s : State) : Prop :=
  s.env.inputs.head? = some .ownDispatch
    ∨ ∃ w payload, s.env.inputs.head? = some (.command w payload) ∧ decode w payload = .instr .dispatch

/-- The step from `s` to `t` makes a stable read of counter `k` of channel `ch`'s ring, with that outcome (log entry 29). -/
abbrev MakesRead (ch : ChanId) (k : LineCounter) (failed : Bool) (s t : State) : Prop :=
  ⟨ch, k, failed⟩ ∈ t.env.readLog.drop s.env.readLog.length

/-- R297: "the timer ticks infinitely often". -/
def TimerTicksForever (s : State) (feeds : Nat → Feed) : Prop :=
  ∀ n, ∃ m, n ≤ m ∧ Occurs .timerTick (beforeStep s feeds m) (runOf s feeds (m + 1))

/-- R297: "the sequencer runs DISPATCH after each tick". -/
def DispatchFollowsTick (s : State) (feeds : Nat → Feed) : Prop :=
  ∀ n, Occurs .timerTick (beforeStep s feeds n) (runOf s feeds (n + 1)) → ∃ m, n < m ∧ TakesDispatch (beforeStep s feeds m)

/-- R297: "`StableRead` does not fail forever on one counter": a counter that is read again and again, in whatever command or
DISPATCH, is read without failure again and again (log entry 28). -/
def ReadsDoNotFailForever (s : State) (feeds : Nat → Feed) : Prop :=
  ∀ (ch : ChanId) (k : LineCounter),
    (∀ n, ∃ m, n ≤ m ∧ ∃ failed, MakesRead ch k failed (beforeStep s feeds m) (runOf s feeds (m + 1))) →
      ∀ n, ∃ m, n ≤ m ∧ MakesRead ch k false (beforeStep s feeds m) (runOf s feeds (m + 1))

/-- R297: "the line keeps taking from transmit rings and storing into receive rings". -/
def LineKeepsMoving (s : State) (feeds : Nat → Feed) : Prop :=
  ∀ (ch : ChanId) (n : Nat),
    (∃ m, n ≤ m ∧ Occurs (.lineTxTake ch) (beforeStep s feeds m) (runOf s feeds (m + 1)))
    ∧ ∃ m, n ≤ m ∧ ∃ b, Occurs (.lineRxPut ch b) (beforeStep s feeds m) (runOf s feeds (m + 1))
        ∨ Occurs (.lineRxEnd ch b) (beforeStep s feeds m) (runOf s feeds (m + 1))

/-- R297: "for framed transmit, every frame is at most `ZLEN - TX_MARGIN` bytes" (R288). -/
def FramesFitRing (s : State) (feeds : Nat → Feed) : Prop :=
  ∀ (n : Nat) (ch : ChanId), ((runOf s feeds n).ch ch).proto = .hdlc →
    ∀ fr ∈ ((runOf s feeds n).ch ch).txq, fr.length + txMargin ≤ s.cfg.zlen

/-- The fairness premises of R297, which a claim that data eventually moves takes as hypotheses; the model derives none of them. -/
structure FairRun (s : State) (feeds : Nat → Feed) : Prop where
  ticks : TimerTicksForever s feeds
  dispatches : DispatchFollowsTick s feeds
  reads : ReadsDoNotFailForever s feeds
  line : LineKeepsMoving s feeds
  frames : FramesFitRing s feeds

end Sys2Proof.Machine
end

