-- ==== Sys2Proof/Certificates/Slice0/Obligations.lean ====
section
/-! DEFINITION. The statements about the model, from the numbered rules of spec/. Unless a statement says otherwise it holds in every
state, also those no run reaches. "No line-side step lands inside the command" is `s.env.sched = []`; a statement without it holds
for every interleaving of R57. -/

open Sys2Proof Sys2Proof.Machine

/-! ### Encoding -/

/-- R84, R85: decoding the encoding of any command, at every operand value, gives that command back. -/
def Obligations.DecodeOfEncodeIsIdentity : Prop :=
  ∀ i : Instr, decode (encode i).1 (encode i).2 = .instr i

/-- R84: a word that decodes to a command is that command's encoding, so each word has one meaning. -/
def Obligations.EncodeOfDecodeIsIdentity : Prop :=
  ∀ (w : Word) (payload : List Byte) (i : Instr), decode w payload = .instr i →
    (encode i).1 = w ∧ (encode i).2 = if w.toNat / 2 ^ 28 = 7 then payload else []

/-- R82, R83: a word is ILLEGAL exactly when its opcode is reserved or a reserved field of its format is not zero; it is then
answered ILLEGAL and nothing else changes, and a step that takes it does just that and takes it off the interface. -/
def Obligations.ReservedWordsAreIllegal : Prop :=
  ∀ (s : State) (w : Word) (payload : List Byte),
    ((∃ e, decode w payload = .illegal e) ↔
      (w.toNat / 2 ^ 28 = 0 ∨ 10 ≤ w.toNat / 2 ^ 28
        ∨ ((w.toNat / 2 ^ 28 = 1 ∨ w.toNat / 2 ^ 28 = 9) ∧ w.toNat % 2 ^ 28 ≠ 0)
        ∨ ((w.toNat / 2 ^ 28 = 2 ∨ w.toNat / 2 ^ 28 = 3 ∨ w.toNat / 2 ^ 28 = 6) ∧ w.toNat % 2 ^ 23 ≠ 0)
        ∨ (w.toNat / 2 ^ 28 = 5 ∧ w.toNat % 2 ^ 19 ≠ 0)
        ∨ (w.toNat / 2 ^ 28 = 7 ∧ w.toNat / 2 ^ 16 % 2 ^ 7 ≠ 0)
        ∨ (w.toNat / 2 ^ 28 = 8 ∧ w.toNat / 2 ^ 2 % 2 ^ 21 ≠ 0)))
    ∧ ∀ e, decode w payload = .illegal e →
        runCommand w payload s = .next { s with resp := .illegal }
        ∧ ∀ rest, s.env.inputs = .command w payload :: rest →
          step s = .next { s with env := { s.env with inputs := rest }, resp := .illegal }

/-- R71 to R81: seven words of the spec's decoder vectors (DE4, DE7, DE8, DE14, DE15, DE18, DE21), the payload of DE18 that of
program P1. -/
def Obligations.SampleWordsDecode : Prop :=
  decode 0x10000000 [] = .instr .init
  ∧ decode 0x90000000 [] = .instr .dispatch
  ∧ decode 0x21000000 [] = .instr (.openCh 2)
  ∧ decode 0x40B0A42C [] = .instr (.setMode 1 .raw true 5 0 true 5 2 false)
  ∧ decode 0x52180000 [] = .instr (.confJoin 4 3)
  ∧ decode 0x71000005 [0x7E, 0x01, 0x02, 0x03, 0x00] = .instr (.submit 2 5 [0x7E, 0x01, 0x02, 0x03, 0x00])
  ∧ decode 0x80000003 [] = .instr (.service 0 true true)

/-! ### The step -/

/-- R61, R70, R84: a step that takes a command word runs the decoded command on the state with the word taken off the interface. -/
def Obligations.StepRunsDecodedCommand : Prop :=
  ∀ (s : State) (w : Word) (payload : List Byte) (rest : List Input) (i : Instr),
    s.env.inputs = .command w payload :: rest → decode w payload = .instr i →
      step s = exec i { s with env := { s.env with inputs := rest } }

/-- R44, R88: the other inputs of a step: a line-side or timer step, the host's taking of an event (that taking one from an empty queue
changes nothing is the model's choice, log entry 20), and none (the model's choice: the block then waits, log entry 4). -/
def Obligations.StepTakesOtherInputs : Prop :=
  ∀ (s : State) (rest : List Input),
    (∀ st, s.env.inputs = .stimulus st :: rest → step s = .next (applyStimulus st { s with env := { s.env with inputs := rest } }))
    ∧ (s.env.inputs = .takeEvent :: rest →
        step s = .next { s with evq := s.evq.tail, env := { s.env with inputs := rest } })
    ∧ (s.env.inputs = [] → step s = .next s)

/-- R236: the sequencer's own DISPATCH does what the DISPATCH command does but writes no `resp`, and does nothing at all when the
controller is not UP. -/
def Obligations.OwnDispatchWritesNoResponse : Prop :=
  ∀ (s : State) (rest : List Input), s.env.inputs = .ownDispatch :: rest →
    (s.ctl ≠ .up → step s = .next { s with env := { s.env with inputs := rest } })
    ∧ (s.ctl = .up → ∃ t, exec .dispatch { s with env := { s.env with inputs := rest } } = .next t
        ∧ step s = .next { t with resp := s.resp })

/-- R49: no step changes the configuration. -/
def Obligations.StepKeepsConfiguration : Prop :=
  ∀ s t : State, step s = .next t → t.cfg = s.cfg

/-! ### Reset and bring-up -/

/-- R280: power-on, for every configuration. -/
def Obligations.PowerOnValues : Prop :=
  ∀ c : Config,
    (State.powerOn c).ctl = .down
    ∧ (∀ ch, ((State.powerOn c).ch ch).isOpen = false ∧ ((State.powerOn c).ch ch).proto = .noProto
        ∧ ((State.powerOn c).ch ch).txSlot = none ∧ ((State.powerOn c).ch ch).rxSlot = none
        ∧ ((State.powerOn c).ch ch).txq = [] ∧ ((State.powerOn c).ch ch).rxbuf = [])
    ∧ (∀ i, (State.powerOn c).ownAt i = none ∧ (State.powerOn c).regAt i = none)
    ∧ (∀ ch d, ((State.powerOn c).ring ch d).z1 = c.zmin ∧ ((State.powerOn c).ring ch d).z2 = c.zmin
        ∧ ((State.powerOn c).ring ch d).f1 = 0 ∧ ((State.powerOn c).ring ch d).f2 = 0)
    ∧ (∀ ch d z, (State.powerOn c).cell ch d z = none)
    ∧ (∀ p, ((State.powerOn c).pt p).lstate = 0 ∧ ((State.powerOn c).pt p).active = false
        ∧ ((State.powerOn c).pt p).timer = none ∧ ((State.powerOn c).pt p).sync = 0)
    ∧ (State.powerOn c).status.lostData = false ∧ (State.powerOn c).status.tick = false
    ∧ (State.powerOn c).status.toneReady = false
    ∧ (∀ p, (State.powerOn c).status.psc.get p = false ∧ (State.powerOn c).status.tsc.get p = false)
    ∧ (∀ ch d, (State.powerOn c).readyBit ch d = false)
    ∧ (State.powerOn c).evq = [] ∧ (State.powerOn c).diagq = [] ∧ (State.powerOn c).lineq = []
    ∧ (State.powerOn c).sel = none ∧ (State.powerOn c).resp = .ok

/-- The invariants of the tier 3 statements hold at power-on, for every configuration INIT accepts. -/
def Obligations.PowerOnMeetsInvariants : Prop :=
  ∀ c : Config, configOk c = true →
    (State.powerOn c).mem.wf = true ∧ (State.powerOn c).ringsInRange ∧ (State.powerOn c).channelsOk
    ∧ (State.powerOn c).routingOk ∧ (State.powerOn c).slotsInRange ∧ (State.powerOn c).portsOk

/-- R231, R254: INIT of a DOWN controller resets what R47 lists but `ctl`, the queues, the ring cells and the line-side inputs, and
answers by the three checks in their order; of an UP or FAILED controller it is rejected. -/
def Obligations.InitResult : Prop :=
  ∀ s : State, configOk s.cfg = true →
    (∀ (k : Checks) (rest : List Checks), s.ctl = .down → s.env.sched = [] → s.env.checks = k :: rest →
      exec .init s = .next
        { State.powerOn s.cfg with
          ctl := if k.idOk ∧ k.ramOk ∧ k.refOk then .up else .failed
          resp := if k.idOk ∧ k.ramOk ∧ k.refOk then .ok else .failed
          evq := s.evq ++ (if k.idOk = false then [.fatal .identity] else if k.ramOk = false then [.fatal .ramTest]
            else if k.refOk = false then [.fatal .noTimingRef] else [])
          diagq := s.diagq
          lineq := s.lineq
          mem := s.mem
          lineIn := s.lineIn
          env := { s.env with checks := rest } })
    ∧ (s.ctl = .up → exec .init s = .next { s with resp := .alreadyUp })
    ∧ (s.ctl = .failed → exec .init s = .next { s with resp := .failed })

/-- R12: a configuration in which some port has not exactly one D channel, or in which having no port and being UNUSED differ for
some channel, has no INIT step. -/
def Obligations.InitRefusesBadLayout : Prop :=
  ∀ s : State,
    (¬(∀ p, portKind s.cfg p ≠ none → ∃! ch, s.cfg.portOf.get ch = some p ∧ s.cfg.roleOf.get ch = .d)
      ∨ ¬(∀ ch, s.cfg.portOf.get ch = none ↔ s.cfg.roleOf.get ch = .unused)) →
    exec .init s = .refused .badConfig

/-- R295: a FAILED controller is stuck: whatever the command, nothing but `resp` changes. -/
def Obligations.FailedControllerIsStuck : Prop :=
  ∀ (s : State) (i : Instr), s.ctl = .failed → configOk s.cfg = true →
    exec i s = .next { s with resp := if i = .init then .failed else .notUp }

/-- R21, R234, R254, R256: only an INIT changes `ctl`, and only from DOWN; a step that leaves `ctl` adds no FATAL event. -/
def Obligations.OnlyInitChangesController : Prop :=
  ∀ s t : State, step s = .next t →
    (t.ctl ≠ s.ctl → s.ctl = .down
      ∧ ∃ w payload rest, s.env.inputs = .command w payload :: rest ∧ decode w payload = .instr .init)
    ∧ ∀ code : FatalCode, t.ctl = s.ctl → t.evq.count (.fatal code) ≤ s.evq.count (.fatal code)

/-! ### Answers -/

/-- R252: the first failing check of each command, in the order the rules list them, is the one answered, and a command that fails
one of them changes nothing but `resp`. -/
def Obligations.FirstFailingCheckIsAnswered : Prop :=
  ∀ s : State,
    (s.ctl ≠ .up → ∀ i, i ≠ .init → exec i s = .next { s with resp := .notUp })
    ∧ (s.ctl = .up → ∀ ch,
        (s.cfg.roleOf.get ch = .unused →
          (∀ proto tv tS tB rv rS rB eb, exec (.setMode ch proto tv tS tB rv rS rB eb) s = .next { s with resp := .badChannel })
          ∧ (∀ conf, exec (.confJoin ch conf) s = .next { s with resp := .badChannel })
          ∧ exec (.confSplit ch) s = .next { s with resp := .badChannel }
          ∧ exec (.openCh ch) s = .next { s with resp := .badChannel }
          ∧ exec (.close ch) s = .next { s with resp := .badChannel })
        ∧ (s.cfg.roleOf.get ch ≠ .unused →
          (∀ proto tv (tS : Slot) tB rv (rS : Slot) rB eb,
            (tv = true ∧ hwSlots s.cfg ≤ tS.val ∨ rv = true ∧ hwSlots s.cfg ≤ rS.val) →
              exec (.setMode ch proto tv tS tB rv rS rB eb) s = .next { s with resp := .badSlot })
          ∧ (∀ conf : Fin 16, 8 ≤ conf.val → exec (.confJoin ch conf) s = .next { s with resp := .badConf })
          ∧ ((s.ch ch).isOpen = true → exec (.openCh ch) s = .next { s with resp := .alreadyOpen })
          ∧ ((s.ch ch).isOpen = false → exec (.close ch) s = .next { s with resp := .notOpen }))
        ∧ ((s.ch ch).isOpen = false →
          (∀ len payload, exec (.submit ch len payload) s = .next { s with resp := .notOpen })
          ∧ (∀ tx rx, exec (.service ch tx rx) s = .next { s with resp := .notOpen }))
        ∧ ((s.ch ch).isOpen = true → (s.ch ch).proto = .noProto →
          (∀ len payload, exec (.submit ch len payload) s = .next { s with resp := .noProtocol })
          ∧ (∀ tx rx, exec (.service ch tx rx) s = .next { s with resp := .noProtocol }))
        ∧ ((s.ch ch).isOpen = true → (s.ch ch).proto ≠ .noProto → ∀ (len : Fin 65536) (payload : List Byte),
          (len.val = 0 ∨ payload.length ≠ len.val) →
            exec (.submit ch len payload) s = .next { s with resp := .badLength }))

/-- R253: whatever the command, an answer other than OK, other than BAD_PROTOCOL and other than that of an INIT whose checks fail
means that nothing but `resp` changed. -/
def Obligations.RejectionChangesOnlyResponse : Prop :=
  ∀ (s t : State) (i : Instr), exec i s = .next t → t.resp ≠ .ok → t.resp ≠ .badProtocol → (i = .init → s.ctl ≠ .down) →
    t = { s with resp := t.resp }

/-! ### The router -/

/-- R165: OPEN of a closed channel that is not UNUSED sets `open` and nothing else. -/
def Obligations.OpenBindsChannel : Prop :=
  ∀ (s : State) (ch : ChanId), s.ctl = .up → s.cfg.roleOf.get ch ≠ .unused → (s.ch ch).isOpen = false →
    exec (.openCh ch) s = .next
      { s with chan := s.chan.set ch.val { s.ch ch with isOpen := true } ch.isLt, resp := .ok }

/-- R156, R159: the channel record after a SET_MODE that passes its checks, for every protocol field (3 is stored as NONE and answered
BAD_PROTOCOL), and the other channels' records, unchanged. That a framed channel with no port gets `subMode` NA is the model's
choice (log entry 19) and no rule. -/
def Obligations.SetModeChannelRecord : Prop :=
  ∀ (s : State) (ch : ChanId) (proto : ProtoField) (tv : Bool) (tS : Slot) (tB : Bank) (rv : Bool) (rS : Slot) (rB : Bank)
    (eb : Bool) (pe : Proto) (flow : Flow),
    s.ctl = .up → s.cfg.roleOf.get ch ≠ .unused → (tv = true → tS.val < hwSlots s.cfg) → (rv = true → rS.val < hwSlots s.cfg) →
    ((proto = .noProto ∨ proto = .unsupported) ∧ pe = .noProto ∧ flow = .off ∨ proto = .raw ∧ pe = .raw ∧ flow = .transp
      ∨ proto = .hdlc ∧ pe = .hdlc ∧ flow = .hdlc) →
    ∃ t, exec (.setMode ch proto tv tS tB rv rS rB eb) s = .next t
      ∧ t.resp = (if proto = .unsupported then .badProtocol else .ok)
      ∧ t.ch ch =
        { s.ch ch with
          proto := pe
          txSlot := if tv then some tS else none
          rxSlot := if rv then some rS else none
          txBank := tB
          rxBank := rB
          eb := eb
          flowTx := flow
          flowRx := flow
          frameIrq := pe == .hdlc
          subMode := if pe ≠ .hdlc ∨ kindOfChan s.cfg ch = none then .na
            else if kindOfChan s.cfg ch = some .trunk then .multi else .single
          echoBypass := pe == .raw && eb
          txState := if pe = (s.ch ch).proto then (s.ch ch).txState else .resetPending
          cursor := if pe = (s.ch ch).proto then (s.ch ch).cursor else 0
          rxbuf := if pe = (s.ch ch).proto then (s.ch ch).rxbuf else []
          txSrc := if pe = .raw ∧ tv = true ∧ (s.ch ch).txq = [] ∧ (pe ≠ (s.ch ch).proto ∨ (s.ch ch).cursor = 0) then .hwy
            else .fifo }
      ∧ ∀ k, k ≠ ch → t.ch k = s.ch k

/-- R153, R154: ownership and routing after a SET_MODE that passes its checks: a requested slot is owned and routed, LOOP with a
conference or a bank above 1; a given-up slot is cleared if the channel is its recorded owner, else left and logged; every
other entry is unchanged. `slot`, `bank` and `d` range over both directions. -/
def Obligations.SetModeRouting : Prop :=
  ∀ (s : State) (ch : ChanId) (proto : ProtoField) (tv : Bool) (tS : Slot) (tB : Bank) (rv : Bool) (rS : Slot) (rB : Bank)
    (eb : Bool),
    s.ctl = .up → s.cfg.roleOf.get ch ≠ .unused → (tv = true → tS.val < hwSlots s.cfg) → (rv = true → rS.val < hwSlots s.cfg) →
    ∃ t, exec (.setMode ch proto tv tS tB rv rS rB eb) s = .next t
      ∧ (∀ d valid slot bank, (d, valid, slot, bank) = (Dir.tx, tv, tS, tB) ∨ (d, valid, slot, bank) = (Dir.rx, rv, rS, rB) →
          (valid = true →
            t.ownAt (routeIx slot d) = some ch
            ∧ t.regAt (routeIx slot d) =
              some ⟨ch, if (s.ch ch).conf ≠ none ∨ 1 < bank.val then .loop else .direct, bank⟩)
          ∧ (∀ old, (s.ch ch).slot d = some old → ¬(valid = true ∧ slot = old) →
              (s.ownAt (routeIx old d) = some ch → t.ownAt (routeIx old d) = none ∧ t.regAt (routeIx old d) = none)
              ∧ (s.ownAt (routeIx old d) ≠ some ch →
                  t.ownAt (routeIx old d) = s.ownAt (routeIx old d) ∧ t.regAt (routeIx old d) = s.regAt (routeIx old d)))
          ∧ (∀ other, ¬(valid = true ∧ slot = other) → (s.ch ch).slot d ≠ some other →
              t.ownAt (routeIx other d) = s.ownAt (routeIx other d) ∧ t.regAt (routeIx other d) = s.regAt (routeIx other d)))
      ∧ t.diagq = s.diagq
          ++ (match (s.ch ch).txSlot with
              | none => []
              | some old => if tv = true ∧ tS = old ∨ s.ownAt (routeIx old .tx) = some ch then [] else [.staleOwner ch old .tx])
          ++ (match (s.ch ch).rxSlot with
              | none => []
              | some old => if rv = true ∧ rS = old ∨ s.ownAt (routeIx old .rx) = some ch then [] else [.staleOwner ch old .rx])

/-- R157: a SET_MODE that changes the stored protocol resets the channel's receive ring at once and leaves its transmit ring; one
that does not change it leaves every ring; no cell, no queue and no other ring is touched. -/
def Obligations.SetModeRingEffect : Prop :=
  ∀ (s : State) (ch : ChanId) (proto : ProtoField) (tv : Bool) (tS : Slot) (tB : Bank) (rv : Bool) (rS : Slot) (rB : Bank)
    (eb : Bool),
    s.ctl = .up → s.cfg.roleOf.get ch ≠ .unused → (tv = true → tS.val < hwSlots s.cfg) → (rv = true → rS.val < hwSlots s.cfg) →
    s.env.sched = [] →
    ∃ t, exec (.setMode ch proto tv tS tB rv rS rB eb) s = .next t
      ∧ (effectiveProto proto = (s.ch ch).proto → t.ring = s.ring ∧ t.rxOvf = s.rxOvf ∧ t.sel = s.sel)
      ∧ (effectiveProto proto ≠ (s.ch ch).proto →
          t.ring ch .rx = { s.ring ch .rx with z1 := s.cfg.zmin, z2 := s.cfg.zmin, f1 := 0, f2 := 0 }
          ∧ t.ovf ch = false ∧ t.sel = some (ch, .rx)
          ∧ (∀ k d, ¬(k = ch ∧ d = .rx) → t.ring k d = s.ring k d) ∧ ∀ k, k ≠ ch → t.ovf k = s.ovf k)
      ∧ (t.ch ch).txq = (s.ch ch).txq ∧ ∀ a, t.mem.read a = s.mem.read a

/-- R160: running SET_MODE twice with the same arguments leaves what running it once leaves. -/
def Obligations.SetModeIsIdempotent : Prop :=
  ∀ (s t : State) (ch : ChanId) (proto : ProtoField) (tv : Bool) (tS : Slot) (tB : Bank) (rv : Bool) (rS : Slot) (rB : Bank)
    (eb : Bool),
    exec (.setMode ch proto tv tS tB rv rS rB eb) s = .next t → exec (.setMode ch proto tv tS tB rv rS rB eb) t = .next t

/-- R163: CONF_JOIN stores the conference and routes the channel's stored slots LOOP; nothing is released, no ring is reset. Of the
channel record the conference changes, the flow control is programmed again for the stored protocol (R156) and `txSrc` is computed
again (R159); protocol, slots, banks, `txState`, queue and buffer stay. (NA for a framed channel with no port: log entry 19. That a stored slot
which another channel owns by now is taken from it is the model's choice, log entry 30: the pseudocode over R163's prose and R167.) -/
def Obligations.ConfJoinRoutesLoop : Prop :=
  ∀ (s : State) (ch : ChanId) (conf : Fin 16) (g : ConfId) (flow : Flow), s.ctl = .up → s.cfg.roleOf.get ch ≠ .unused →
    g.val = conf.val →
    ((s.ch ch).proto = .noProto ∧ flow = .off ∨ (s.ch ch).proto = .raw ∧ flow = .transp ∨ (s.ch ch).proto = .hdlc ∧ flow = .hdlc) →
    ∃ t, exec (.confJoin ch conf) s = .next t ∧ t.resp = .ok
      ∧ t.ch ch =
        { s.ch ch with
          conf := some g
          flowTx := flow
          flowRx := flow
          frameIrq := (s.ch ch).proto == .hdlc
          subMode := if (s.ch ch).proto ≠ .hdlc ∨ kindOfChan s.cfg ch = none then .na
            else if kindOfChan s.cfg ch = some .trunk then .multi else .single
          echoBypass := (s.ch ch).proto == .raw && (s.ch ch).eb
          txSrc := if (s.ch ch).proto = .raw ∧ (s.ch ch).txSlot ≠ none ∧ (s.ch ch).txq = [] ∧ (s.ch ch).cursor = 0 then .hwy
            else .fifo }
      ∧ (∀ k, k ≠ ch → t.ch k = s.ch k)
      ∧ (∀ slot, (s.ch ch).txSlot = some slot → t.ownAt (routeIx slot .tx) = some ch
          ∧ t.regAt (routeIx slot .tx) = some ⟨ch, .loop, (s.ch ch).txBank⟩)
      ∧ (∀ slot, (s.ch ch).rxSlot = some slot → t.ownAt (routeIx slot .rx) = some ch
          ∧ t.regAt (routeIx slot .rx) = some ⟨ch, .loop, (s.ch ch).rxBank⟩)
      ∧ (∀ slot d, (s.ch ch).slot d ≠ some slot →
          t.ownAt (routeIx slot d) = s.ownAt (routeIx slot d) ∧ t.regAt (routeIx slot d) = s.regAt (routeIx slot d))
      ∧ t.ring = s.ring ∧ t.mem = s.mem ∧ t.diagq = s.diagq ∧ t.evq = s.evq

/-- R164: CONF_SPLIT clears the conference and routes the channel's stored slots LOOP only where the bank is above 1. Of the channel
record the conference changes, the flow control is programmed again for the stored protocol (R156) and `txSrc` is computed again
(R159); protocol, slots, banks, `txState`, queue and buffer stay. (NA for a framed channel with no port: log entry 19. That a stored slot
which another channel owns by now is taken from it is the model's choice, log entry 30: the pseudocode over R163's prose and R167.) -/
def Obligations.ConfSplitRoutesByBank : Prop :=
  ∀ (s : State) (ch : ChanId) (flow : Flow), s.ctl = .up → s.cfg.roleOf.get ch ≠ .unused →
    ((s.ch ch).proto = .noProto ∧ flow = .off ∨ (s.ch ch).proto = .raw ∧ flow = .transp ∨ (s.ch ch).proto = .hdlc ∧ flow = .hdlc) →
    ∃ t, exec (.confSplit ch) s = .next t ∧ t.resp = .ok
      ∧ t.ch ch =
        { s.ch ch with
          conf := none
          flowTx := flow
          flowRx := flow
          frameIrq := (s.ch ch).proto == .hdlc
          subMode := if (s.ch ch).proto ≠ .hdlc ∨ kindOfChan s.cfg ch = none then .na
            else if kindOfChan s.cfg ch = some .trunk then .multi else .single
          echoBypass := (s.ch ch).proto == .raw && (s.ch ch).eb
          txSrc := if (s.ch ch).proto = .raw ∧ (s.ch ch).txSlot ≠ none ∧ (s.ch ch).txq = [] ∧ (s.ch ch).cursor = 0 then .hwy
            else .fifo }
      ∧ (∀ k, k ≠ ch → t.ch k = s.ch k)
      ∧ (∀ slot, (s.ch ch).txSlot = some slot → t.ownAt (routeIx slot .tx) = some ch
          ∧ t.regAt (routeIx slot .tx) =
            some ⟨ch, if 1 < (s.ch ch).txBank.val then .loop else .direct, (s.ch ch).txBank⟩)
      ∧ (∀ slot, (s.ch ch).rxSlot = some slot → t.ownAt (routeIx slot .rx) = some ch
          ∧ t.regAt (routeIx slot .rx) =
            some ⟨ch, if 1 < (s.ch ch).rxBank.val then .loop else .direct, (s.ch ch).rxBank⟩)
      ∧ (∀ slot d, (s.ch ch).slot d ≠ some slot →
          t.ownAt (routeIx slot d) = s.ownAt (routeIx slot d) ∧ t.regAt (routeIx slot d) = s.regAt (routeIx slot d))
      ∧ t.ring = s.ring ∧ t.mem = s.mem ∧ t.diagq = s.diagq ∧ t.evq = s.evq

/-- R166: CLOSE of an open channel leaves its record at the reset values, both its rings empty, the slots it owns released, and no
event, whatever the line side does meanwhile. -/
def Obligations.CloseClearsChannel : Prop :=
  ∀ (s : State) (ch : ChanId), s.ctl = .up → s.cfg.roleOf.get ch ≠ .unused → (s.ch ch).isOpen = true →
    ∃ t, exec (.close ch) s = .next t ∧ t.resp = .ok ∧ t.ch ch = Channel.reset
      ∧ (∀ d, t.ring ch d = { s.ring ch d with z1 := s.cfg.zmin, z2 := s.cfg.zmin, f1 := 0, f2 := 0 }) ∧ t.ovf ch = false
      ∧ (∀ slot d, (s.ch ch).slot d = some slot → s.ownAt (routeIx slot d) = some ch →
          t.ownAt (routeIx slot d) = none ∧ t.regAt (routeIx slot d) = none)
      ∧ (∀ slot d, ¬((s.ch ch).slot d = some slot ∧ s.ownAt (routeIx slot d) = some ch) →
          t.ownAt (routeIx slot d) = s.ownAt (routeIx slot d) ∧ t.regAt (routeIx slot d) = s.regAt (routeIx slot d))
      ∧ t.evq = s.evq ∧ ∀ k, k ≠ ch → t.ch k = s.ch k

/-- The frame of OPEN, CLOSE, SET_MODE, CONF_JOIN and CONF_SPLIT (R151, R165, R166): the controller state, the port table, the
events, the line actions and the other channels' records, whatever the line side does meanwhile; and, when no line-side step
lands inside, every other channel's rings, every byte of memory, the line-side inputs and the status bits. -/
def Obligations.RouterFrame : Prop :=
  ∀ (s t : State) (i : Instr) (ch : ChanId),
    (i = .openCh ch ∨ i = .close ch ∨ i = .confSplit ch ∨ (∃ conf, i = .confJoin ch conf)
      ∨ ∃ proto tv tS tB rv rS rB eb, i = .setMode ch proto tv tS tB rv rS rB eb) →
    exec i s = .next t →
      t.ctl = s.ctl ∧ t.port = s.port ∧ t.evq = s.evq ∧ t.lineq = s.lineq ∧ t.env.inputs = s.env.inputs
      ∧ (∀ k, k ≠ ch → t.ch k = s.ch k)
      ∧ (s.env.sched = [] →
          (∀ a, t.mem.read a = s.mem.read a) ∧ t.lineIn = s.lineIn ∧ t.status = s.status ∧ t.env = s.env
          ∧ ∀ k d, k ≠ ch → t.ring k d = s.ring k d ∧ t.ovf k = s.ovf k)

/-! ### The FIFO engine -/

/-- R121: SUBMIT of a non-empty payload of the announced length to an open channel with a protocol appends it to the queue and
changes nothing else. -/
def Obligations.SubmitQueuesPayload : Prop :=
  ∀ (s : State) (ch : ChanId) (len : Fin 65536) (payload : List Byte), s.ctl = .up → (s.ch ch).isOpen = true →
    (s.ch ch).proto ≠ .noProto → len.val ≠ 0 → payload.length = len.val →
    exec (.submit ch len payload) s = .next
      { s with chan := s.chan.set ch.val { s.ch ch with txq := (s.ch ch).txq ++ [payload] } ch.isLt, resp := .ok }

/-- R110, R123: SERVICE of an open channel with a protocol completes OK; it leaves the controller state, the port table, the routing,
the line actions, the other channels' records and this channel's programming, whatever the line side does meanwhile. With
neither bit it does nothing. -/
def Obligations.ServiceCompletesWithinFrame : Prop :=
  ∀ (s : State) (ch : ChanId) (tx rx : Bool), s.ctl = .up → (s.ch ch).isOpen = true → (s.ch ch).proto ≠ .noProto →
    ∃ t, exec (.service ch tx rx) s = .next t ∧ t.resp = .ok
      ∧ t.ctl = s.ctl ∧ t.port = s.port ∧ t.own = s.own ∧ t.slotReg = s.slotReg ∧ t.lineq = s.lineq
      ∧ t.env.inputs = s.env.inputs ∧ (∀ k, k ≠ ch → t.ch k = s.ch k) ∧ Channel.sameProgramming (s.ch ch) (t.ch ch)
      ∧ (tx = false → rx = false → t = { s with resp := .ok })

/-- R110, R113, R116, R123: the memory and ring frame of SERVICE when no line-side step lands inside: only cells of the channel's own
transmit ring are stored to, and none at all without the tx bit; receive_drain stores nothing; no other channel's ring or `ovf`,
nor that of a direction that is not served, moves; the status bits stay. -/
def Obligations.ServiceMemoryFrame : Prop :=
  ∀ (s t : State) (ch : ChanId) (tx rx : Bool), s.env.sched = [] → exec (.service ch tx rx) s = .next t →
    (∀ a, (tx = true → ∀ z, a ≠ cellAddr s.cfg ch .tx z) → t.mem.read a = s.mem.read a)
    ∧ (∀ k d, (k = ch → d = .tx → tx = false) → (k = ch → d = .rx → rx = false) → t.ring k d = s.ring k d)
    ∧ (∀ k, (k = ch → rx = false) → t.ovf k = s.ovf k)
    ∧ t.status = s.status ∧ t.lineIn = s.lineIn

/-- R102 step 2, R282: a pending transmit reset is done before anything else: the call is the call on the state with the ring
reset and the channel idle. -/
def Obligations.PendingResetComesFirst : Prop :=
  ∀ (s : State) (ch : ChanId) (rx : Bool), s.ctl = .up → (s.ch ch).isOpen = true → (s.ch ch).proto ≠ .noProto →
    (s.ch ch).txState = .resetPending → s.env.sched = [] →
    exec (.service ch true rx) s = exec (.service ch true rx)
      ((s.setRing ch .tx { s.ring ch .tx with z1 := s.cfg.zmin, z2 := s.cfg.zmin, f1 := 0, f2 := 0 }).setChan ch
        { s.ch ch with txState := .idle })

/-- R106, R107, R108, R109, R111 (c): when what is left of the head frame fits the byte space, for either protocol and for a new frame or
a resumed one, it is written from the write counter on and no other byte of memory changes; a framed channel commits it; it leaves
the queue with one TX_DONE. With another frame queued the call then goes on, at step 3, as a call in that state (`sent`). With none
queued the channel is idle; a transparent channel first gets one silence byte after the frame, unless the frame filled the space. -/
def Obligations.FillSendsWholeFrame : Prop :=
  ∀ (s : State) (ch : ChanId) (fr : List Byte) (q : List (List Byte)) (more : List Bool) (n : Nat), configOk s.cfg = true →
    Ring.inRange s.cfg (s.ring ch .tx) → s.ctl = .up → (s.ch ch).isOpen = true → (s.ch ch).proto ≠ .noProto →
    (s.ch ch).txState ≠ .resetPending → (s.ch ch).txq = fr :: q → (s.ch ch).cursor ≤ fr.length → s.env.sched = [] →
    s.env.reads = (if (s.ch ch).proto = .hdlc then [false, false] else [false]) ++ more →
    ((s.ch ch).proto = .hdlc → frameSpaceTx s ch (s.ring ch .tx).f2 ≠ 0) →
    4 ≤ byteSpace s.cfg (s.ring ch .tx).z1 (s.ring ch .tx).z2 → n = fr.length - (s.ch ch).cursor →
    n ≤ byteSpace s.cfg (s.ring ch .tx).z1 (s.ring ch .tx).z2 →
    ∃ (m : Memory) (r : Ring) (sent : State),
      (∀ i < n, m.read (cellAddr s.cfg ch .tx ((incZ s.cfg)^[i] (s.ring ch .tx).z2)) = fr[(s.ch ch).cursor + i]?)
      ∧ (∀ a, (∀ i < n, a ≠ cellAddr s.cfg ch .tx ((incZ s.cfg)^[i] (s.ring ch .tx).z2)) → m.read a = s.mem.read a)
      ∧ ((s.ch ch).proto = .raw → r = { s.ring ch .tx with z2 := (incZ s.cfg)^[n] (s.ring ch .tx).z2 })
      ∧ ((s.ch ch).proto = .hdlc → r =
          { s.ring ch .tx with
            z2 := (incZ s.cfg)^[n] (s.ring ch .tx).z2
            f1 := incF s.cfg (s.ring ch .tx).f1
            fend := (s.ring ch .tx).fend.set (incF s.cfg (s.ring ch .tx).f1) ((incZ s.cfg)^[n] (s.ring ch .tx).z2) })
      ∧ sent =
        { s with
          chan := s.chan.set ch.val
            { s.ch ch with
              txq := q
              cursor := 0
              txState := .sending
              txSrc := if (s.ch ch).cursor = 0 ∧ (s.ch ch).proto = .raw ∧ (s.ch ch).txSlot ≠ none then .fifo else (s.ch ch).txSrc }
            ch.isLt
          txRing := s.txRing.set ch.val r ch.isLt
          mem := m
          sel := some (ch, .tx)
          evq := s.evq ++ [.txDone ch]
          env := s.env.afterReads ch ((if (s.ch ch).proto = .hdlc then [(.txF2, false)] else []) ++ [(.txZ1, false)]) more }
      ∧ (q ≠ [] → exec (.service ch true false) s = exec (.service ch true false) sent)
      ∧ (q = [] → ((s.ch ch).proto = .hdlc ∨ n = byteSpace s.cfg (s.ring ch .tx).z1 (s.ring ch .tx).z2) →
          exec (.service ch true false) s = .next
            { sent with chan := sent.chan.set ch.val { sent.ch ch with txState := .idle } ch.isLt, resp := .ok })
      ∧ (q = [] → (s.ch ch).proto = .raw → n < byteSpace s.cfg (s.ring ch .tx).z1 (s.ring ch .tx).z2 →
          exec (.service ch true false) s = .next
            { sent with
              chan := sent.chan.set ch.val { sent.ch ch with txState := .idle } ch.isLt
              txRing := sent.txRing.set ch.val { r with z2 := incZ s.cfg r.z2 } ch.isLt
              mem := m.write (cellAddr s.cfg ch .tx r.z2) s.cfg.silenceByte
              resp := .ok })

/-- R106, R107: with more of the head frame left than byte space, exactly the byte space is written, the cursor advances by it, the
state is SENDING, the frame stays queued and nothing is acknowledged; a new frame on a routed raw-audio channel first
disconnects the highway. -/
def Obligations.FillWritesPartOfFrame : Prop :=
  ∀ (s : State) (ch : ChanId) (fr : List Byte) (q : List (List Byte)) (more : List Bool) (n : Nat), configOk s.cfg = true →
    Ring.inRange s.cfg (s.ring ch .tx) → s.ctl = .up → (s.ch ch).isOpen = true → (s.ch ch).proto ≠ .noProto →
    (s.ch ch).txState ≠ .resetPending → (s.ch ch).txq = fr :: q → s.env.sched = [] → s.env.reads = false :: false :: more →
    ((s.ch ch).proto = .hdlc → frameSpaceTx s ch (s.ring ch .tx).f2 ≠ 0) →
    n = byteSpace s.cfg (s.ring ch .tx).z1 (s.ring ch .tx).z2 → 4 ≤ n → (s.ch ch).cursor + n < fr.length →
    ∃ t, exec (.service ch true false) s = .next t
      ∧ t.ring ch .tx = { s.ring ch .tx with z2 := (incZ s.cfg)^[n] (s.ring ch .tx).z2 }
      ∧ t.ch ch =
        { s.ch ch with
          cursor := (s.ch ch).cursor + n
          txState := .sending
          txSrc := if (s.ch ch).cursor = 0 ∧ (s.ch ch).proto = .raw ∧ (s.ch ch).txSlot ≠ none then .fifo else (s.ch ch).txSrc }
      ∧ t.evq = s.evq
      ∧ (∀ i < n, t.cell ch .tx ((incZ s.cfg)^[i] (s.ring ch .tx).z2) = fr[(s.ch ch).cursor + i]?)
      ∧ ∀ a, (∀ i < n, a ≠ cellAddr s.cfg ch .tx ((incZ s.cfg)^[i] (s.ring ch .tx).z2)) → t.mem.read a = s.mem.read a

/-- R103, R104: a framed channel with no frame space, and any channel with less than four bytes of byte space (framed, after its frame
space was found), defers: nothing changes but the selection, the reads `made` and the answer. -/
def Obligations.FillDefersWithoutSpace : Prop :=
  ∀ (s : State) (ch : ChanId) (made : List (LineCounter × Bool)) (more : List Bool), s.ctl = .up → (s.ch ch).isOpen = true →
    (s.ch ch).txState ≠ .resetPending → s.env.sched = [] →
    ((s.ch ch).proto = .hdlc ∧ frameSpaceTx s ch (s.ring ch .tx).f2 = 0 ∧ s.env.reads = false :: more ∧ made = [(.txF2, false)]
      ∨ (s.ch ch).proto = .hdlc ∧ frameSpaceTx s ch (s.ring ch .tx).f2 ≠ 0
        ∧ byteSpace s.cfg (s.ring ch .tx).z1 (s.ring ch .tx).z2 < 4 ∧ s.env.reads = false :: false :: more
        ∧ made = [(.txF2, false), (.txZ1, false)]
      ∨ (s.ch ch).proto = .raw ∧ byteSpace s.cfg (s.ring ch .tx).z1 (s.ring ch .tx).z2 < 4 ∧ s.env.reads = false :: more
        ∧ made = [(.txZ1, false)]) →
    exec (.service ch true false) s =
      .next { s with sel := some (ch, .tx), resp := .ok, env := s.env.afterReads ch made more }

/-- R58: a stable read that fails defers the channel with a diagnostic and no further change, in transmit_fill and in receive_drain; the
first read of the call, and a framed channel's second (`t.z1` after `t.f2`, `Z1rep` after `r.f1`). -/
def Obligations.FailedReadDefers : Prop :=
  ∀ (s : State) (ch : ChanId) (txMade rxMade : List (LineCounter × Bool)) (more : List Bool), s.ctl = .up → (s.ch ch).isOpen = true →
    s.env.sched = [] →
    (s.env.reads = true :: more ∧ (s.ch ch).proto = .raw ∧ txMade = [(.txZ1, true)] ∧ rxMade = [(.rxZ1rep, true)]
      ∨ s.env.reads = true :: more ∧ (s.ch ch).proto = .hdlc ∧ txMade = [(.txF2, true)] ∧ rxMade = [(.rxF1, true)]
      ∨ s.env.reads = false :: true :: more ∧ (s.ch ch).proto = .hdlc ∧ txMade = [(.txF2, false), (.txZ1, true)]
        ∧ rxMade = [(.rxF1, false), (.rxZ1rep, true)]) →
    ((s.ch ch).txState ≠ .resetPending →
      (s.env.reads = true :: more ∨ frameSpaceTx s ch (s.ring ch .tx).f2 ≠ 0) →
      exec (.service ch true false) s = .next
        { s with
          sel := some (ch, .tx), diagq := s.diagq ++ [.rereadFail ch .tx], resp := .ok, env := s.env.afterReads ch txMade more })
    ∧ exec (.service ch false true) s = .next
        { s with
          sel := some (ch, .rx), diagq := s.diagq ++ [.rereadFail ch .rx], resp := .ok, env := s.env.afterReads ch rxMade more }

/-- R105: a routed raw-audio channel with nothing queued and an empty ring goes back to the highway; no byte is written. -/
def Obligations.FillReconnectsHighway : Prop :=
  ∀ (s : State) (ch : ChanId) (more : List Bool), s.ctl = .up → (s.ch ch).isOpen = true → (s.ch ch).proto = .raw →
    (s.ch ch).txSlot ≠ none → (s.ch ch).txState ≠ .resetPending → (s.ch ch).txq = [] → s.env.sched = [] →
    s.env.reads = false :: more → 4 ≤ byteSpace s.cfg (s.ring ch .tx).z1 (s.ring ch .tx).z2 →
    txPending s.cfg (s.ring ch .tx) = 0 →
    exec (.service ch true false) s = .next
      { s with
        chan := s.chan.set ch.val { s.ch ch with txSrc := .hwy, txState := .idle } ch.isLt
        sel := some (ch, .tx)
        resp := .ok
        env := s.env.afterReads ch [(.txZ1, false)] more }

/-- R109: a transparent channel with nothing queued that does not go back to the highway gets one silence byte at the ring's tail and
is idle. -/
def Obligations.FillAddsSilenceByte : Prop :=
  ∀ (s : State) (ch : ChanId) (more : List Bool), s.ctl = .up → (s.ch ch).isOpen = true → (s.ch ch).proto = .raw →
    (s.ch ch).txState ≠ .resetPending → (s.ch ch).txq = [] → s.env.sched = [] → s.env.reads = false :: more →
    4 ≤ byteSpace s.cfg (s.ring ch .tx).z1 (s.ring ch .tx).z2 →
    ((s.ch ch).txSlot = none ∨ txPending s.cfg (s.ring ch .tx) ≠ 0) →
    ∃ t, exec (.service ch true false) s = .next t
      ∧ t.ring ch .tx = { s.ring ch .tx with z2 := incZ s.cfg (s.ring ch .tx).z2 }
      ∧ t.cell ch .tx (s.ring ch .tx).z2 = some s.cfg.silenceByte
      ∧ t.ch ch = { s.ch ch with txState := .idle } ∧ t.evq = s.evq ∧ t.diagq = s.diagq
      ∧ ∀ a, a ≠ cellAddr s.cfg ch .tx (s.ring ch .tx).z2 → t.mem.read a = s.mem.read a

/-- R108, R122: in any call of transmit_fill, whatever the line side does meanwhile, the frames that leave the queue are its first ones,
and each gives exactly one TX_DONE and nothing else is emitted. -/
def Obligations.FillAcknowledgesEachFrameOnce : Prop :=
  ∀ (s t : State) (ch : ChanId), exec (.service ch true false) s = .next t →
    ∃ n, n ≤ (s.ch ch).txq.length ∧ (t.ch ch).txq = (s.ch ch).txq.drop n ∧ t.evq = s.evq ++ List.replicate n (.txDone ch)

/-- R113, R114, R116, R117, R119 (c): the oldest complete frame of a framed channel's receive ring, whatever stands behind it (more closed
frames, bytes of the open one): its bytes up to the status byte `st` are appended to the buffer and it is consumed; short, it is
dropped with RX_SHORT; with a status byte other than 0x00, with RX_CRC; else it is delivered without the status byte. The buffer is
then empty, and the call goes on as a call in that state (`eaten`); with nothing left in the ring it ends there. -/
def Obligations.DrainConsumesFrame : Prop :=
  ∀ (s eaten : State) (ch : ChanId) (bytes init : List Byte) (st : Byte) (last : Nat) (more : List Bool), configOk s.cfg = true →
    Ring.inRange s.cfg (s.ring ch .rx) → s.ctl = .up → (s.ch ch).isOpen = true → (s.ch ch).proto = .hdlc →
    s.env.sched = [] → s.env.reads = false :: false :: more →
    (s.ring ch .rx).f1 ≠ (s.ring ch .rx).f2 → (s.ring ch .rx).fend[incF s.cfg (s.ring ch .rx).f2]? = some last →
    bytes.length = zmod s.cfg ((last : Int) - (s.ring ch .rx).z2) + 1 →
    (∀ i < bytes.length, s.cell ch .rx ((incZ s.cfg)^[i] (s.ring ch .rx).z2) = bytes[i]?) →
    (s.ch ch).rxbuf ++ bytes = init ++ [st] → init.length + 1 ≤ s.cfg.maxlen + 3 →
    eaten =
      { s with
        chan := s.chan.set ch.val { s.ch ch with rxbuf := [] } ch.isLt
        rxRing := s.rxRing.set ch.val
          { s.ring ch .rx with z2 := incZ s.cfg last, f2 := incF s.cfg (s.ring ch .rx).f2 } ch.isLt
        sel := some (ch, .rx)
        evq := s.evq ++ (if 4 ≤ init.length + 1 ∧ st = 0 then [.rx ch init] else [])
        diagq := s.diagq ++ (if init.length + 1 < 4 then [.rxShort ch (init.length + 1)]
          else if st ≠ 0 then [.rxCrc ch st] else [])
        env := s.env.afterReads ch [(.rxF1, false), (.rxZ1rep, false)] more } →
    exec (.service ch false true) s = exec (.service ch false true) eaten
    ∧ ((s.ring ch .rx).f1 = incF s.cfg (s.ring ch .rx).f2 → (s.ring ch .rx).z1 = incZ s.cfg last →
        ∀ rest, more = false :: false :: rest →
          exec (.service ch false true) s = .next
            { eaten with resp := .ok, env := eaten.env.afterReads ch [(.rxF1, false), (.rxZ1rep, false)] rest })

/-- R114, R116: with no complete frame the unread bytes of the open frame are moved to the buffer and wait there. -/
def Obligations.DrainKeepsPartialFrame : Prop :=
  ∀ (s : State) (ch : ChanId) (bytes : List Byte) (more : List Bool), configOk s.cfg = true →
    Ring.inRange s.cfg (s.ring ch .rx) → s.ctl = .up → (s.ch ch).isOpen = true → (s.ch ch).proto = .hdlc →
    s.env.sched = [] → s.env.reads = false :: false :: more → (s.ring ch .rx).f1 = (s.ring ch .rx).f2 →
    bytes.length = rxUnread s.cfg (s.ring ch .rx) →
    (∀ i < bytes.length, s.cell ch .rx ((incZ s.cfg)^[i] (s.ring ch .rx).z2) = bytes[i]?) →
    (s.ch ch).rxbuf.length + bytes.length ≤ s.cfg.maxlen + 3 →
    ∃ t, exec (.service ch false true) s = .next t
      ∧ t.ring ch .rx = { s.ring ch .rx with z2 := (s.ring ch .rx).z1 }
      ∧ t.ch ch = { s.ch ch with rxbuf := (s.ch ch).rxbuf ++ bytes } ∧ t.evq = s.evq ∧ t.diagq = s.diagq ∧ t.mem = s.mem

/-- R113, R116, R118: a transparent channel's unread bytes are moved to the buffer; at the threshold the whole buffer is delivered. With
nothing unread nothing changes but the selection, the read made and the answer, also when the buffer holds the threshold. -/
def Obligations.DrainDeliversTransparent : Prop :=
  ∀ (s : State) (ch : ChanId) (bytes : List Byte) (more : List Bool), configOk s.cfg = true →
    Ring.inRange s.cfg (s.ring ch .rx) → s.ctl = .up → (s.ch ch).isOpen = true → (s.ch ch).proto = .raw →
    s.env.sched = [] → s.env.reads = false :: more → (s.ring ch .rx).f1 = (s.ring ch .rx).f2 →
    bytes.length = rxUnread s.cfg (s.ring ch .rx) →
    (bytes = [] → exec (.service ch false true) s = .next
      { s with sel := some (ch, .rx), resp := .ok, env := s.env.afterReads ch [(.rxZ1rep, false)] more })
    ∧ (bytes ≠ [] → (∀ i < bytes.length, s.cell ch .rx ((incZ s.cfg)^[i] (s.ring ch .rx).z2) = bytes[i]?) →
      (s.ch ch).rxbuf.length + bytes.length ≤ s.cfg.maxlen + 3 →
      ∃ t, exec (.service ch false true) s = .next t
        ∧ t.ring ch .rx = { s.ring ch .rx with z2 := (s.ring ch .rx).z1 } ∧ t.mem = s.mem ∧ t.diagq = s.diagq
        ∧ (s.cfg.transpThreshold ≤ (s.ch ch).rxbuf.length + bytes.length →
            t.evq = s.evq ++ [.rx ch ((s.ch ch).rxbuf ++ bytes)] ∧ t.ch ch = { s.ch ch with rxbuf := [] })
        ∧ ((s.ch ch).rxbuf.length + bytes.length < s.cfg.transpThreshold →
            t.evq = s.evq ∧ t.ch ch = { s.ch ch with rxbuf := (s.ch ch).rxbuf ++ bytes }))

/-- R115: when the buffer would pass MAXLEN + 3, it is emptied, the receive ring is reset, and nothing is delivered; on framed and on
transparent channels. -/
def Obligations.DrainDiscardsOversize : Prop :=
  ∀ (s : State) (ch : ChanId) (more : List Bool) (avail : Nat), s.ctl = .up → (s.ch ch).isOpen = true →
    (s.ch ch).proto ≠ .noProto → s.env.sched = [] → s.env.reads = false :: false :: more →
    avail = zmod s.cfg ((z1rep s.cfg (s.ring ch .rx) : Int) - (s.ring ch .rx).z2)
      + (if (s.ch ch).proto = .hdlc ∧ (s.ring ch .rx).f1 ≠ (s.ring ch .rx).f2 then 1 else 0) →
    avail ≠ 0 → s.cfg.maxlen + 3 < (s.ch ch).rxbuf.length + avail →
    ∃ t, exec (.service ch false true) s = .next t
      ∧ t.ch ch = { s.ch ch with rxbuf := [] }
      ∧ t.ring ch .rx = { s.ring ch .rx with z1 := s.cfg.zmin, z2 := s.cfg.zmin, f1 := 0, f2 := 0 } ∧ t.ovf ch = false
      ∧ t.diagq = s.diagq ++ [.rxOversize ch] ∧ t.evq = s.evq ∧ t.mem = s.mem

/-- R113 (log entry 16, DEDUCED): the bound on the passes of receive_drain's loop never cuts a drain short: in a state whose receive
ring is in range, more passes change nothing, whatever the line side does meanwhile. -/
def Obligations.DrainBoundIsEnough : Prop :=
  ∀ (s : State) (ch : ChanId) (extra : Nat), configOk s.cfg = true → Ring.inRange s.cfg (s.ring ch .rx) →
    (s.ch ch).proto ≠ .noProto → receiveDrain ch s = drainLoop ch (drainPasses ch s + extra) (s.select ch .rx)

/-! ### The line side -/

/-- R60, R195: a step of the line side or of the timer writes only what is the line's: of a transmit ring `z1` and `f2`, of a receive
ring `z1`, `f1`, its frame ends, cells and `ovf`, the line-side inputs and the status bits. The seven stimuli that move no ring write
exactly what their rules say (R129, R197 to R200, R229, R230), and one to a port of the wrong kind writes nothing (R196); `u` is the
state with the stimulus taken off the inputs. (A number that names no port has no kind: log entry 15.) -/
def Obligations.LineStepFrame : Prop :=
  ∀ (s t u : State) (st : Stimulus) (rest : List Input), s.env.inputs = .stimulus st :: rest →
    u = { s with env := { s.env with inputs := rest } } → step s = .next t →
    t.ctl = s.ctl ∧ t.chan = s.chan ∧ t.port = s.port ∧ t.own = s.own ∧ t.slotReg = s.slotReg ∧ t.sel = s.sel
    ∧ t.evq = s.evq ∧ t.diagq = s.diagq ∧ t.lineq = s.lineq ∧ t.resp = s.resp
    ∧ (∀ ch, (t.ring ch .tx).z2 = (s.ring ch .tx).z2 ∧ (t.ring ch .tx).f1 = (s.ring ch .tx).f1
        ∧ (t.ring ch .tx).fend = (s.ring ch .tx).fend)
    ∧ (∀ ch, (t.ring ch .rx).z2 = (s.ring ch .rx).z2 ∧ (t.ring ch .rx).f2 = (s.ring ch .rx).f2)
    ∧ (∀ ch z, t.cell ch .tx z = s.cell ch .tx z)
    ∧ (∀ ch, st = .ready ch .tx →
        t = { u with status := { s.status with readyTx := s.status.readyTx.set ch.val true ch.isLt } })
    ∧ (∀ ch, st = .ready ch .rx →
        t = { u with status := { s.status with readyRx := s.status.readyRx.set ch.val true ch.isLt } })
    ∧ (∀ p x, st = .lineState p x →
        (portKind s.cfg p = some .nt ∨ portKind s.cfg p = some .te →
          t = { u with
            lineIn := s.lineIn.set p.val { s.inp p with repState := x } p.isLt
            status := { s.status with psc := s.status.psc.set p.val true p.isLt } })
        ∧ (portKind s.cfg p = some .trunk ∨ portKind s.cfg p = none → t = u))
    ∧ (∀ p v, st = .lineE1State p v →
        (portKind s.cfg p = some .trunk →
          t = { u with
            lineIn := s.lineIn.set p.val { s.inp p with e1In := v } p.isLt
            status := { s.status with tsc := s.status.tsc.set p.val true p.isLt } })
        ∧ (portKind s.cfg p ≠ some .trunk → t = u))
    ∧ (∀ p clk frm, st = .lineSync p clk frm →
        (portKind s.cfg p = some .trunk →
          t = { u with lineIn := s.lineIn.set p.val { s.inp p with clkOk := clk, frameOk := frm } p.isLt })
        ∧ (portKind s.cfg p ≠ some .trunk → t = u))
    ∧ (∀ p bits, st = .lineAlarm p bits →
        (portKind s.cfg p = some .trunk → t = { u with lineIn := s.lineIn.set p.val { s.inp p with alarmIn := bits } p.isLt })
        ∧ (portKind s.cfg p ≠ some .trunk → t = u))
    ∧ (st = .timerTick → t = { u with status := { s.status with tick := true } })
    ∧ (st = .tone → t = { u with status := { s.status with toneReady := true } })

/-- R125: LINE_TX_TAKE, all its cases but the byte of an UNWRITTEN cell, which is a free value. -/
def Obligations.LineTakesSymbol : Prop :=
  ∀ (s : State) (ch : ChanId) (b : Byte),
    ((s.ch ch).flowTx = .off → applyStimulus (.lineTxTake ch) s = s.handOut ch .idle)
    ∧ ((s.ch ch).flowTx ≠ .off → (s.ch ch).txSrc = .hwy → applyStimulus (.lineTxTake ch) s = s.handOut ch .hwy)
    ∧ ((s.ch ch).flowTx = .hdlc → (s.ch ch).txSrc = .fifo →
        ((s.ring ch .tx).f1 = (s.ring ch .tx).f2 → applyStimulus (.lineTxTake ch) s = s.handOut ch .idle)
        ∧ (∀ e, (s.ring ch .tx).f1 ≠ (s.ring ch .tx).f2 → (s.ring ch .tx).fend[incF s.cfg (s.ring ch .tx).f2]? = some e →
            ((s.ring ch .tx).z1 ≠ e → s.cell ch .tx (s.ring ch .tx).z1 = some b →
              applyStimulus (.lineTxTake ch) s =
                (s.setRing ch .tx { s.ring ch .tx with z1 := incZ s.cfg (s.ring ch .tx).z1 }).handOut ch (.byte b))
            ∧ ((s.ring ch .tx).z1 = e →
              applyStimulus (.lineTxTake ch) s =
                ((s.setRing ch .tx { s.ring ch .tx with f2 := incF s.cfg (s.ring ch .tx).f2 }).setReady ch .tx true).handOut ch
                  .frameEnd)))
    ∧ ((s.ch ch).flowTx = .transp → (s.ch ch).txSrc = .fifo →
        (0 < txPending s.cfg (s.ring ch .tx) → s.cell ch .tx (s.ring ch .tx).z1 = some b →
          applyStimulus (.lineTxTake ch) s =
            (s.setRing ch .tx { s.ring ch .tx with z1 := incZ s.cfg (s.ring ch .tx).z1 }).handOut ch (.byte b))
        ∧ (txPending s.cfg (s.ring ch .tx) = 0 → s.cell ch .tx (decZ s.cfg (s.ring ch .tx).z1) = some b →
          applyStimulus (.lineTxTake ch) s = s.handOut ch (.byte b)))

/-- R127: LINE_RX_PUT: with receive flow OFF, or routed to the highway, nothing happens; on a full ring the byte is lost, `ovf` and
`lostData` are set; else the byte is stored at `z1`, which advances, and nothing else changes. -/
def Obligations.LineStoresByte : Prop :=
  ∀ (s : State) (ch : ChanId) (b : Byte),
    ((s.ch ch).flowRx = .off → applyStimulus (.lineRxPut ch b) s = s)
    ∧ ((s.ch ch).rxSlot ≠ none → s.cfg.rxFifoWhenRouted = false → applyStimulus (.lineRxPut ch b) s = s)
    ∧ ((s.ch ch).flowRx ≠ .off → ((s.ch ch).rxSlot = none ∨ s.cfg.rxFifoWhenRouted = true) →
        (rxUnread s.cfg (s.ring ch .rx) = s.cfg.zlen - 1 →
          applyStimulus (.lineRxPut ch b) s = (s.setOvf ch true).setStatus { s.status with lostData := true })
        ∧ (rxUnread s.cfg (s.ring ch .rx) ≠ s.cfg.zlen - 1 →
          applyStimulus (.lineRxPut ch b) s =
            (s.writeCell ch .rx (s.ring ch .rx).z1 b).setRing ch .rx
              { s.ring ch .rx with z1 := incZ s.cfg (s.ring ch .rx).z1 }))

/-- R128: LINE_RX_END. On a channel whose receive flow is not HDLC, and on one routed to the highway, nothing happens; with the ring or
its frames full the frame end is lost, `ovf` and `lostData` are set and nothing is stored; else the frame is closed: the stored
status is the line's, or some byte other than 0x00 after lost bytes; the frame end is recorded, the counters advance, `ovf` is
cleared and the ready bit set. -/
def Obligations.LineClosesFrame : Prop :=
  ∀ (s : State) (ch : ChanId) (st : Byte),
    ((s.ch ch).flowRx ≠ .hdlc → applyStimulus (.lineRxEnd ch st) s = s)
    ∧ ((s.ch ch).rxSlot ≠ none → s.cfg.rxFifoWhenRouted = false → applyStimulus (.lineRxEnd ch st) s = s)
    ∧ ((s.ch ch).flowRx = .hdlc → ((s.ch ch).rxSlot = none ∨ s.cfg.rxFifoWhenRouted = true) →
        (rxUnread s.cfg (s.ring ch .rx) = s.cfg.zlen - 1 ∨ rxFrames s.cfg (s.ring ch .rx) = s.cfg.flen - 1 →
          applyStimulus (.lineRxEnd ch st) s = (s.setOvf ch true).setStatus { s.status with lostData := true })
        ∧ (rxUnread s.cfg (s.ring ch .rx) ≠ s.cfg.zlen - 1 → rxFrames s.cfg (s.ring ch .rx) ≠ s.cfg.flen - 1 →
          ∃ stored : Byte, (s.ovf ch = false → stored = st) ∧ (s.ovf ch = true → stored ≠ 0)
            ∧ (applyStimulus (.lineRxEnd ch st) s).cell ch .rx (s.ring ch .rx).z1 = some stored
            ∧ (applyStimulus (.lineRxEnd ch st) s).ring ch .rx =
              { s.ring ch .rx with
                fend := (s.ring ch .rx).fend.set (incF s.cfg (s.ring ch .rx).f1) (s.ring ch .rx).z1
                z1 := incZ s.cfg (s.ring ch .rx).z1
                f1 := incF s.cfg (s.ring ch .rx).f1 }
            ∧ (applyStimulus (.lineRxEnd ch st) s).ovf ch = false
            ∧ (applyStimulus (.lineRxEnd ch st) s).readyBit ch .rx = true
            ∧ (applyStimulus (.lineRxEnd ch st) s).status.lostData = s.status.lostData))

/-! ### The line-state machines -/

/-- R183, R184: an NT port that reports another NT state enters it: the countdown is started in state 2 and cancelled elsewhere, the
port is active exactly in state 3, the gate emits at most one event, and in state 3 the D channel's partial frames are
cleared. A report above 4 or of the state it is in changes nothing. -/
def Obligations.NtReportEntersState : Prop :=
  ∀ (s : State) (p : PortId) (x : Fin 16),
    ((4 < x ∨ x = (s.pt p).lstate) → ntReport p x s = s)
    ∧ (x ≤ 4 → x ≠ (s.pt p).lstate →
        (ntReport p x s).pt p =
          { s.pt p with lstate := x, timer := if x = 2 then some s.cfg.ntT1 else none, active := decide (x = 3) }
        ∧ (∀ q, q ≠ p → (ntReport p x s).pt q = s.pt q)
        ∧ (ntReport p x s).evq = s.evq ++ (if x = 3 then (if (s.pt p).active then [] else [.activate p])
            else if (s.pt p).active then [.deactivate p] else [])
        ∧ (∀ d, x = 3 → dch s.cfg p = some d →
            (ntReport p x s).ch d =
              { s.ch d with
                rxbuf := []
                cursor := 0
                txState := if 0 < (s.ch d).cursor then .resetPending else (s.ch d).txState })
        ∧ (∀ k, (x ≠ 3 ∨ dch s.cfg p ≠ some k) → (ntReport p x s).ch k = s.ch k))

/-- R188: the countdown of an NT port in state 2: one tick less, and at 0 the forced entry to state 4. -/
def Obligations.NtCountdownExpires : Prop :=
  ∀ (s : State) (p : PortId) (n : Nat),
    ((s.pt p).lstate ≠ 2 ∨ (s.pt p).timer = none → ntCountdown p s = s)
    ∧ ((s.pt p).lstate = 2 → (s.pt p).timer = some (n + 2) →
        (ntCountdown p s).pt p = { s.pt p with timer := some (n + 1) } ∧ (ntCountdown p s).lineq = s.lineq
        ∧ (ntCountdown p s).evq = s.evq)
    ∧ ((s.pt p).lstate = 2 → (s.pt p).timer = some 1 →
        (ntCountdown p s).pt p = { s.pt p with lstate := 4, timer := none, active := false }
        ∧ (ntCountdown p s).lineq = s.lineq ++ [.forceState p 4]
        ∧ (ntCountdown p s).evq = s.evq ++ if (s.pt p).active then [.deactivate p] else [])

/-- R189: what a TE port's report of another state stores and emits. -/
def Obligations.TeReportMapsStates : Prop :=
  ∀ (s : State) (p : PortId) (x : Fin 16),
    teReport p (s.pt p).lstate s = s
    ∧ (x ≠ (s.pt p).lstate →
        (teReport p x s).pt p =
          { s.pt p with lstate := x, active := if x = 7 then true else if x = 3 then false else (s.pt p).active }
        ∧ (teReport p x s).evq = s.evq ++
          (if x = 0 then [.loss p 0]
           else if x = 3 then (if (s.pt p).active then [.deactivate p] else [])
           else if x = 5 then [.info p 5]
           else if x = 6 then [.info p 6]
           else if x = 7 then (if (s.pt p).active then [] else [.activate p])
           else if x = 8 then [.loss p 8]
           else [])
        ∧ ∀ k, (teReport p x s).ch k = s.ch k)

/-- R191, R192: a trunk port's activation follows its reported line state through the gate; its sync level follows the clock and frame
inputs, with the jitter buffer programmed on leaving level 0. -/
def Obligations.TrunkActivationAndSync : Prop :=
  ∀ (s : State) (p : PortId),
    (e1Report p s).pt p = { s.pt p with e1state := (s.inp p).e1In, active := (s.inp p).e1In }
    ∧ (e1Report p s).evq = s.evq ++
        (if (s.inp p).e1In = (s.pt p).active then [] else if (s.inp p).e1In then [.activate p] else [.deactivate p])
    ∧ (trunkSyncPoll p s).pt p =
        { s.pt p with sync := if (s.inp p).clkOk = false then 0 else if (s.inp p).frameOk then 2 else 1 }
    ∧ (trunkSyncPoll p s).lineq = s.lineq ++
        (if (s.inp p).clkOk = true ∧ (s.pt p).sync = 0 then [.programJitter p (jitterDepth s.cfg p)] else [])
    ∧ (trunkSyncPoll p s).evq = s.evq

/-- R193: after an alarm poll the latches equal the inputs, and exactly the unmasked bits that differed gave an event each, in
ascending order. -/
def Obligations.AlarmPollReportsEdges : Prop :=
  ∀ (s : State) (p : PortId),
    (trunkAlarmPoll p s).pt p = { s.pt p with latch := (s.inp p).alarmIn }
    ∧ (∀ q, q ≠ p → (trunkAlarmPoll p s).pt q = s.pt q)
    ∧ (trunkAlarmPoll p s).evq = s.evq ++
        (([0, 1, 2, 3] : List (Fin 4)).filter fun b =>
          (s.inp p).alarmIn.getLsbD b.val != (s.pt p).latch.getLsbD b.val && !(alarmMask s.cfg p).getLsbD b.val).map
            fun b => .alarm p b ((s.inp p).alarmIn.getLsbD b.val)

/-- R181, R202: in every step that is not the host's taking of an event and that leaves `ctl` (so is no INIT that runs), the
ACTIVATE and DEACTIVATE events added for a port alternate, starting with the one its `active` flag allows and ending with the
one that gives its new `active`. -/
def Obligations.ActivationEventsAlternate : Prop :=
  ∀ (s t : State) (p : PortId), step s = .next t → t.ctl = s.ctl → s.env.inputs.head? ≠ some .takeEvent →
    ∃ added, t.evq = s.evq ++ added ∧ gateRun p (s.pt p).active added = some (t.pt p).active

/-! ### DISPATCH -/

/-- R222: with nothing pending a DISPATCH changes nothing but `resp`. -/
def Obligations.DispatchWithNothingPending : Prop :=
  ∀ s : State, s.ctl = .up → (∀ p, isPtp s.cfg p = true → s.status.psc.get p = false) →
    (∀ p, isTrunk s.cfg p = true → s.status.tsc.get p = false) → s.status.lostData = false → s.status.tick = false →
    s.status.toneReady = false → (∀ ch d, s.readyBit ch d = false) →
    exec .dispatch s = .next { s with resp := .ok }

/-- R222, R227, R257: a DISPATCH on an UP controller completes OK, and when no line-side step lands inside every status bit it reads
is clear after it: the state-change bits of the ports, the miscellaneous bits and every ready bit. -/
def Obligations.DispatchClearsStatusBits : Prop :=
  ∀ s : State, s.ctl = .up →
    ∃ t, exec .dispatch s = .next t ∧ t.resp = .ok
      ∧ (s.env.sched = [] →
          (∀ p, isPtp s.cfg p = true → t.status.psc.get p = false)
          ∧ (∀ p, isTrunk s.cfg p = true → t.status.tsc.get p = false)
          ∧ t.status.lostData = false ∧ t.status.tick = false ∧ t.status.toneReady = false
          ∧ ∀ ch d, t.readyBit ch d = false)

/-- R221, R223, R224, R225, R226, R227, R228: what DISPATCH does with each kind of pending bit, when nothing else is pending and no
line-side step lands inside: an NT or a TE port's state change runs that port's machine on its reported state; a trunk port's runs
its E1Report; lost data gives its diagnostic; tone-ready its event; a tick, after the machines of any PTP ports whose state changed
too, runs both polls on every trunk port, then transmit_fill and receive_drain on every active channel of a fully-up port, then the
countdown of every NT port; a channel's ready bits serve it if it is active. The bits are cleared. -/
def Obligations.DispatchRunsNtMachine : Prop :=
  ∀ s : State, s.ctl = .up → s.env.sched = [] →
    (∀ p : PortId, s.status = { Status.reset with psc := Status.reset.psc.set p.val true p.isLt } →
        (portKind s.cfg p = some .nt →
          exec .dispatch s = .next ((ntReport p (s.inp p).repState (s.setStatus Status.reset)).answer .ok))
        ∧ (portKind s.cfg p = some .te →
          exec .dispatch s = .next ((teReport p (s.inp p).repState (s.setStatus Status.reset)).answer .ok)))
    ∧ (∀ p : PortId, s.status = { Status.reset with tsc := Status.reset.tsc.set p.val true p.isLt } →
        portKind s.cfg p = some .trunk → exec .dispatch s = .next ((e1Report p (s.setStatus Status.reset)).answer .ok))
    ∧ (s.status = { Status.reset with lostData := true } →
        exec .dispatch s = .next { s with status := Status.reset, diagq := s.diagq ++ [.lostData], resp := .ok })
    ∧ (s.status = { Status.reset with toneReady := true } →
        exec .dispatch s = .next { s with status := Status.reset, evq := s.evq ++ [.toneReady], resp := .ok })
    ∧ (∀ (changed : Vector Bool 32) (reported polled served : State),
        s.status = { Status.reset with tick := true, psc := changed } →
        (∀ p, changed.get p = true → isPtp s.cfg p = true) →
        reported = (allPorts.filter fun p => changed.get p).foldl
          (fun s p => if portKind s.cfg p = some .nt then ntReport p (s.inp p).repState s else teReport p (s.inp p).repState s)
          (s.setStatus Status.reset) →
        polled = (allPorts.filter fun p => portKind s.cfg p == some .trunk).foldl
          (fun s p => trunkAlarmPoll p (trunkSyncPoll p s)) reported →
        served = allChans.foldl
          (fun s ch =>
            match s.cfg.portOf.get ch with
            | some p =>
              if (s.ch ch).isOpen = true ∧ (s.ch ch).proto ≠ .noProto ∧ (s.pt p).active = true then
                receiveDrain ch (transmitFill ch s)
              else s
            | none => s)
          polled →
        exec .dispatch s = .next
          (((allPorts.filter fun p => portKind s.cfg p == some .nt).foldl (fun s p => ntCountdown p s) served).answer .ok))
    ∧ (∀ (ch : ChanId) (tx rx : Bool), (tx = true ∨ rx = true) →
        s.status =
          { Status.reset with
            readyTx := Status.reset.readyTx.set ch.val tx ch.isLt
            readyRx := Status.reset.readyRx.set ch.val rx ch.isLt } →
        ((s.ch ch).isOpen = true → (s.ch ch).proto ≠ .noProto →
          ∀ filled, filled = (if tx = true then transmitFill ch (s.setStatus Status.reset) else s.setStatus Status.reset) →
            exec .dispatch s = .next ((if rx = true then receiveDrain ch filled else filled).answer .ok))
        ∧ ((s.ch ch).isOpen = false ∨ (s.ch ch).proto = .noProto →
          exec .dispatch s = .next { s with status := Status.reset, resp := .ok }))

/-- The frame of DISPATCH (R221, R110, R184): the controller state, the routing, the commands and every channel's programming, whatever
the line side does meanwhile; and, when no line-side step lands inside, every byte outside the transmit rings' cells and the
line-side inputs. -/
def Obligations.DispatchFrame : Prop :=
  ∀ s t : State, exec .dispatch s = .next t →
    t.ctl = s.ctl ∧ t.own = s.own ∧ t.slotReg = s.slotReg ∧ t.env.inputs = s.env.inputs
    ∧ (∀ ch, Channel.sameProgramming (s.ch ch) (t.ch ch))
    ∧ (s.env.sched = [] →
        t.lineIn = s.lineIn ∧ ∀ a, (∀ ch z, a ≠ cellAddr s.cfg ch .tx z) → t.mem.read a = s.mem.read a)

/-! ### Invariants that every step keeps -/

/-- Every step keeps the memory in its canonical form, addresses strictly rising. The form is the model's own way to hold the ring
cells (log entry 13, DESIGN CHOICE) and no rule of the spec. -/
def Obligations.StepKeepsMemoryCanonical : Prop :=
  ∀ s t : State, s.mem.wf = true → step s = .next t → t.mem.wf = true

/-- R35, R36, R55: every step keeps every ring's counters and frame ends in their ranges. -/
def Obligations.StepKeepsRingsInRange : Prop :=
  ∀ s t : State, configOk s.cfg = true → s.ringsInRange → step s = .next t → t.ringsInRange

/-- R28, R29, R31, R156: every step keeps every channel record consistent: the cursor within the head frame, RESET_PENDING only with
`cursor = 0`, the highway as source only with a TX slot and RAW, the flow control that of the protocol. -/
def Obligations.StepKeepsChannelsConsistent : Prop :=
  ∀ s t : State, s.channelsOk → step s = .next t → t.channelsOk

/-- R161, R22, R77: every step keeps the routing registers and the ownership table in agreement, with each owner referencing its
slot; and it keeps the stored slots below HW_SLOTS. -/
def Obligations.StepKeepsRoutingInvariant : Prop :=
  ∀ s t : State, step s = .next t → (s.routingOk → t.routingOk) ∧ (s.slotsInRange → t.slotsInRange)

/-- R185, R187, R189, R191, R194: every step keeps every port consistent with its kind: an NT port is active exactly in state 3 and
counts down exactly in state 2, a TE port has no countdown (R189), a trunk port is active exactly while its line state is 1 (R191),
and what a kind does not use keeps its reset value. -/
def Obligations.StepKeepsPortsConsistent : Prop :=
  ∀ s t : State, configOk s.cfg = true → s.portsOk → step s = .next t → t.portsOk
end

