-- ==== Sys2Proof/Laws/State.lean ====
section
/-! SUPPORT. What each update of the state does to each field and to each accessor: one lemma per field per update. -/

namespace Sys2Proof.Machine

/-- Reading an entry of a table after writing one. -/
theorem get_set_fin {α : Type} {n : Nat} (v : Vector α n) (i j : Fin n) (x : α) :
    (v.set i.val x i.isLt).get j = if i = j then x else v.get j := by
  simp only [Vector.get_eq_getElem, Vector.getElem_set, Fin.ext_iff]

/-- R251: "Codes 13 and above are never written". -/
theorem Resp.code_lt (r : Resp) : r.code < 13 := by cases r <;> decide

/-- A response code's number names it (R251). -/
theorem Resp.code_inj {r r' : Resp} (h : r.code = r'.code) : r = r' := by cases r <;> cases r' <;> first | rfl | cases h

/-- A FATAL code's number names it (R254). -/
theorem FatalCode.code_inj {c c' : FatalCode} (h : c.code = c'.code) : c = c' := by cases c <;> cases c' <;> first | rfl | cases h

variable (s : State)

@[simp] theorem State.setCtl_cfg (x : Ctl) : (s.setCtl x).cfg = s.cfg := rfl
@[simp] theorem State.setCtl_ctl (x : Ctl) : (s.setCtl x).ctl = x := rfl
@[simp] theorem State.setCtl_mem (x : Ctl) : (s.setCtl x).mem = s.mem := rfl
@[simp] theorem State.setCtl_status (x : Ctl) : (s.setCtl x).status = s.status := rfl
@[simp] theorem State.setCtl_sel (x : Ctl) : (s.setCtl x).sel = s.sel := rfl
@[simp] theorem State.setCtl_evq (x : Ctl) : (s.setCtl x).evq = s.evq := rfl
@[simp] theorem State.setCtl_diagq (x : Ctl) : (s.setCtl x).diagq = s.diagq := rfl
@[simp] theorem State.setCtl_lineq (x : Ctl) : (s.setCtl x).lineq = s.lineq := rfl
@[simp] theorem State.setCtl_resp (x : Ctl) : (s.setCtl x).resp = s.resp := rfl
@[simp] theorem State.setCtl_env (x : Ctl) : (s.setCtl x).env = s.env := rfl
@[simp] theorem State.setCtl_chan (x : Ctl) : (s.setCtl x).chan = s.chan := rfl
@[simp] theorem State.setCtl_port (x : Ctl) : (s.setCtl x).port = s.port := rfl
@[simp] theorem State.setCtl_lineIn (x : Ctl) : (s.setCtl x).lineIn = s.lineIn := rfl
@[simp] theorem State.setCtl_txRing (x : Ctl) : (s.setCtl x).txRing = s.txRing := rfl
@[simp] theorem State.setCtl_rxRing (x : Ctl) : (s.setCtl x).rxRing = s.rxRing := rfl
@[simp] theorem State.setCtl_rxOvf (x : Ctl) : (s.setCtl x).rxOvf = s.rxOvf := rfl
@[simp] theorem State.setCtl_own (x : Ctl) : (s.setCtl x).own = s.own := rfl
@[simp] theorem State.setCtl_slotReg (x : Ctl) : (s.setCtl x).slotReg = s.slotReg := rfl
@[simp] theorem State.setCtl_ch (x : Ctl) : (s.setCtl x).ch = s.ch := rfl
@[simp] theorem State.setCtl_pt (x : Ctl) : (s.setCtl x).pt = s.pt := rfl
@[simp] theorem State.setCtl_inp (x : Ctl) : (s.setCtl x).inp = s.inp := rfl
@[simp] theorem State.setCtl_ring (x : Ctl) : (s.setCtl x).ring = s.ring := rfl
@[simp] theorem State.setCtl_ovf (x : Ctl) : (s.setCtl x).ovf = s.ovf := rfl
@[simp] theorem State.setCtl_ownAt (x : Ctl) : (s.setCtl x).ownAt = s.ownAt := rfl
@[simp] theorem State.setCtl_regAt (x : Ctl) : (s.setCtl x).regAt = s.regAt := rfl

@[simp] theorem State.setChan_cfg (c : ChanId) (x : Channel) : (s.setChan c x).cfg = s.cfg := rfl
@[simp] theorem State.setChan_ctl (c : ChanId) (x : Channel) : (s.setChan c x).ctl = s.ctl := rfl
@[simp] theorem State.setChan_mem (c : ChanId) (x : Channel) : (s.setChan c x).mem = s.mem := rfl
@[simp] theorem State.setChan_status (c : ChanId) (x : Channel) : (s.setChan c x).status = s.status := rfl
@[simp] theorem State.setChan_sel (c : ChanId) (x : Channel) : (s.setChan c x).sel = s.sel := rfl
@[simp] theorem State.setChan_evq (c : ChanId) (x : Channel) : (s.setChan c x).evq = s.evq := rfl
@[simp] theorem State.setChan_diagq (c : ChanId) (x : Channel) : (s.setChan c x).diagq = s.diagq := rfl
@[simp] theorem State.setChan_lineq (c : ChanId) (x : Channel) : (s.setChan c x).lineq = s.lineq := rfl
@[simp] theorem State.setChan_resp (c : ChanId) (x : Channel) : (s.setChan c x).resp = s.resp := rfl
@[simp] theorem State.setChan_env (c : ChanId) (x : Channel) : (s.setChan c x).env = s.env := rfl
@[simp] theorem State.setChan_port (c : ChanId) (x : Channel) : (s.setChan c x).port = s.port := rfl
@[simp] theorem State.setChan_lineIn (c : ChanId) (x : Channel) : (s.setChan c x).lineIn = s.lineIn := rfl
@[simp] theorem State.setChan_txRing (c : ChanId) (x : Channel) : (s.setChan c x).txRing = s.txRing := rfl
@[simp] theorem State.setChan_rxRing (c : ChanId) (x : Channel) : (s.setChan c x).rxRing = s.rxRing := rfl
@[simp] theorem State.setChan_rxOvf (c : ChanId) (x : Channel) : (s.setChan c x).rxOvf = s.rxOvf := rfl
@[simp] theorem State.setChan_own (c : ChanId) (x : Channel) : (s.setChan c x).own = s.own := rfl
@[simp] theorem State.setChan_slotReg (c : ChanId) (x : Channel) : (s.setChan c x).slotReg = s.slotReg := rfl
@[simp] theorem State.setChan_ch (c : ChanId) (x : Channel) (k : ChanId) : (s.setChan c x).ch k = if c = k then x else s.ch k := get_set_fin _ _ _ _
@[simp] theorem State.setChan_pt (c : ChanId) (x : Channel) : (s.setChan c x).pt = s.pt := rfl
@[simp] theorem State.setChan_inp (c : ChanId) (x : Channel) : (s.setChan c x).inp = s.inp := rfl
@[simp] theorem State.setChan_ring (c : ChanId) (x : Channel) : (s.setChan c x).ring = s.ring := rfl
@[simp] theorem State.setChan_ovf (c : ChanId) (x : Channel) : (s.setChan c x).ovf = s.ovf := rfl
@[simp] theorem State.setChan_ownAt (c : ChanId) (x : Channel) : (s.setChan c x).ownAt = s.ownAt := rfl
@[simp] theorem State.setChan_regAt (c : ChanId) (x : Channel) : (s.setChan c x).regAt = s.regAt := rfl

@[simp] theorem State.modChan_cfg (c : ChanId) (f : Channel → Channel) : (s.modChan c f).cfg = s.cfg := rfl
@[simp] theorem State.modChan_ctl (c : ChanId) (f : Channel → Channel) : (s.modChan c f).ctl = s.ctl := rfl
@[simp] theorem State.modChan_mem (c : ChanId) (f : Channel → Channel) : (s.modChan c f).mem = s.mem := rfl
@[simp] theorem State.modChan_status (c : ChanId) (f : Channel → Channel) : (s.modChan c f).status = s.status := rfl
@[simp] theorem State.modChan_sel (c : ChanId) (f : Channel → Channel) : (s.modChan c f).sel = s.sel := rfl
@[simp] theorem State.modChan_evq (c : ChanId) (f : Channel → Channel) : (s.modChan c f).evq = s.evq := rfl
@[simp] theorem State.modChan_diagq (c : ChanId) (f : Channel → Channel) : (s.modChan c f).diagq = s.diagq := rfl
@[simp] theorem State.modChan_lineq (c : ChanId) (f : Channel → Channel) : (s.modChan c f).lineq = s.lineq := rfl
@[simp] theorem State.modChan_resp (c : ChanId) (f : Channel → Channel) : (s.modChan c f).resp = s.resp := rfl
@[simp] theorem State.modChan_env (c : ChanId) (f : Channel → Channel) : (s.modChan c f).env = s.env := rfl
@[simp] theorem State.modChan_port (c : ChanId) (f : Channel → Channel) : (s.modChan c f).port = s.port := rfl
@[simp] theorem State.modChan_lineIn (c : ChanId) (f : Channel → Channel) : (s.modChan c f).lineIn = s.lineIn := rfl
@[simp] theorem State.modChan_txRing (c : ChanId) (f : Channel → Channel) : (s.modChan c f).txRing = s.txRing := rfl
@[simp] theorem State.modChan_rxRing (c : ChanId) (f : Channel → Channel) : (s.modChan c f).rxRing = s.rxRing := rfl
@[simp] theorem State.modChan_rxOvf (c : ChanId) (f : Channel → Channel) : (s.modChan c f).rxOvf = s.rxOvf := rfl
@[simp] theorem State.modChan_own (c : ChanId) (f : Channel → Channel) : (s.modChan c f).own = s.own := rfl
@[simp] theorem State.modChan_slotReg (c : ChanId) (f : Channel → Channel) : (s.modChan c f).slotReg = s.slotReg := rfl
@[simp] theorem State.modChan_ch (c : ChanId) (f : Channel → Channel) (k : ChanId) : (s.modChan c f).ch k = if c = k then f (s.ch c) else s.ch k := get_set_fin _ _ _ _
@[simp] theorem State.modChan_pt (c : ChanId) (f : Channel → Channel) : (s.modChan c f).pt = s.pt := rfl
@[simp] theorem State.modChan_inp (c : ChanId) (f : Channel → Channel) : (s.modChan c f).inp = s.inp := rfl
@[simp] theorem State.modChan_ring (c : ChanId) (f : Channel → Channel) : (s.modChan c f).ring = s.ring := rfl
@[simp] theorem State.modChan_ovf (c : ChanId) (f : Channel → Channel) : (s.modChan c f).ovf = s.ovf := rfl
@[simp] theorem State.modChan_ownAt (c : ChanId) (f : Channel → Channel) : (s.modChan c f).ownAt = s.ownAt := rfl
@[simp] theorem State.modChan_regAt (c : ChanId) (f : Channel → Channel) : (s.modChan c f).regAt = s.regAt := rfl

@[simp] theorem State.setPort_cfg (p : PortId) (x : Port) : (s.setPort p x).cfg = s.cfg := rfl
@[simp] theorem State.setPort_ctl (p : PortId) (x : Port) : (s.setPort p x).ctl = s.ctl := rfl
@[simp] theorem State.setPort_mem (p : PortId) (x : Port) : (s.setPort p x).mem = s.mem := rfl
@[simp] theorem State.setPort_status (p : PortId) (x : Port) : (s.setPort p x).status = s.status := rfl
@[simp] theorem State.setPort_sel (p : PortId) (x : Port) : (s.setPort p x).sel = s.sel := rfl
@[simp] theorem State.setPort_evq (p : PortId) (x : Port) : (s.setPort p x).evq = s.evq := rfl
@[simp] theorem State.setPort_diagq (p : PortId) (x : Port) : (s.setPort p x).diagq = s.diagq := rfl
@[simp] theorem State.setPort_lineq (p : PortId) (x : Port) : (s.setPort p x).lineq = s.lineq := rfl
@[simp] theorem State.setPort_resp (p : PortId) (x : Port) : (s.setPort p x).resp = s.resp := rfl
@[simp] theorem State.setPort_env (p : PortId) (x : Port) : (s.setPort p x).env = s.env := rfl
@[simp] theorem State.setPort_chan (p : PortId) (x : Port) : (s.setPort p x).chan = s.chan := rfl
@[simp] theorem State.setPort_lineIn (p : PortId) (x : Port) : (s.setPort p x).lineIn = s.lineIn := rfl
@[simp] theorem State.setPort_txRing (p : PortId) (x : Port) : (s.setPort p x).txRing = s.txRing := rfl
@[simp] theorem State.setPort_rxRing (p : PortId) (x : Port) : (s.setPort p x).rxRing = s.rxRing := rfl
@[simp] theorem State.setPort_rxOvf (p : PortId) (x : Port) : (s.setPort p x).rxOvf = s.rxOvf := rfl
@[simp] theorem State.setPort_own (p : PortId) (x : Port) : (s.setPort p x).own = s.own := rfl
@[simp] theorem State.setPort_slotReg (p : PortId) (x : Port) : (s.setPort p x).slotReg = s.slotReg := rfl
@[simp] theorem State.setPort_ch (p : PortId) (x : Port) : (s.setPort p x).ch = s.ch := rfl
@[simp] theorem State.setPort_pt (p : PortId) (x : Port) (k : PortId) : (s.setPort p x).pt k = if p = k then x else s.pt k := get_set_fin _ _ _ _
@[simp] theorem State.setPort_inp (p : PortId) (x : Port) : (s.setPort p x).inp = s.inp := rfl
@[simp] theorem State.setPort_ring (p : PortId) (x : Port) : (s.setPort p x).ring = s.ring := rfl
@[simp] theorem State.setPort_ovf (p : PortId) (x : Port) : (s.setPort p x).ovf = s.ovf := rfl
@[simp] theorem State.setPort_ownAt (p : PortId) (x : Port) : (s.setPort p x).ownAt = s.ownAt := rfl
@[simp] theorem State.setPort_regAt (p : PortId) (x : Port) : (s.setPort p x).regAt = s.regAt := rfl

@[simp] theorem State.setLineIn_cfg (p : PortId) (x : LineIn) : (s.setLineIn p x).cfg = s.cfg := rfl
@[simp] theorem State.setLineIn_ctl (p : PortId) (x : LineIn) : (s.setLineIn p x).ctl = s.ctl := rfl
@[simp] theorem State.setLineIn_mem (p : PortId) (x : LineIn) : (s.setLineIn p x).mem = s.mem := rfl
@[simp] theorem State.setLineIn_status (p : PortId) (x : LineIn) : (s.setLineIn p x).status = s.status := rfl
@[simp] theorem State.setLineIn_sel (p : PortId) (x : LineIn) : (s.setLineIn p x).sel = s.sel := rfl
@[simp] theorem State.setLineIn_evq (p : PortId) (x : LineIn) : (s.setLineIn p x).evq = s.evq := rfl
@[simp] theorem State.setLineIn_diagq (p : PortId) (x : LineIn) : (s.setLineIn p x).diagq = s.diagq := rfl
@[simp] theorem State.setLineIn_lineq (p : PortId) (x : LineIn) : (s.setLineIn p x).lineq = s.lineq := rfl
@[simp] theorem State.setLineIn_resp (p : PortId) (x : LineIn) : (s.setLineIn p x).resp = s.resp := rfl
@[simp] theorem State.setLineIn_env (p : PortId) (x : LineIn) : (s.setLineIn p x).env = s.env := rfl
@[simp] theorem State.setLineIn_chan (p : PortId) (x : LineIn) : (s.setLineIn p x).chan = s.chan := rfl
@[simp] theorem State.setLineIn_port (p : PortId) (x : LineIn) : (s.setLineIn p x).port = s.port := rfl
@[simp] theorem State.setLineIn_txRing (p : PortId) (x : LineIn) : (s.setLineIn p x).txRing = s.txRing := rfl
@[simp] theorem State.setLineIn_rxRing (p : PortId) (x : LineIn) : (s.setLineIn p x).rxRing = s.rxRing := rfl
@[simp] theorem State.setLineIn_rxOvf (p : PortId) (x : LineIn) : (s.setLineIn p x).rxOvf = s.rxOvf := rfl
@[simp] theorem State.setLineIn_own (p : PortId) (x : LineIn) : (s.setLineIn p x).own = s.own := rfl
@[simp] theorem State.setLineIn_slotReg (p : PortId) (x : LineIn) : (s.setLineIn p x).slotReg = s.slotReg := rfl
@[simp] theorem State.setLineIn_ch (p : PortId) (x : LineIn) : (s.setLineIn p x).ch = s.ch := rfl
@[simp] theorem State.setLineIn_pt (p : PortId) (x : LineIn) : (s.setLineIn p x).pt = s.pt := rfl
@[simp] theorem State.setLineIn_inp (p : PortId) (x : LineIn) (k : PortId) : (s.setLineIn p x).inp k = if p = k then x else s.inp k := get_set_fin _ _ _ _
@[simp] theorem State.setLineIn_ring (p : PortId) (x : LineIn) : (s.setLineIn p x).ring = s.ring := rfl
@[simp] theorem State.setLineIn_ovf (p : PortId) (x : LineIn) : (s.setLineIn p x).ovf = s.ovf := rfl
@[simp] theorem State.setLineIn_ownAt (p : PortId) (x : LineIn) : (s.setLineIn p x).ownAt = s.ownAt := rfl
@[simp] theorem State.setLineIn_regAt (p : PortId) (x : LineIn) : (s.setLineIn p x).regAt = s.regAt := rfl

@[simp] theorem State.setRing_cfg (c : ChanId) (d : Dir) (r : Ring) : (s.setRing c d r).cfg = s.cfg := by cases d <;> rfl
@[simp] theorem State.setRing_ctl (c : ChanId) (d : Dir) (r : Ring) : (s.setRing c d r).ctl = s.ctl := by cases d <;> rfl
@[simp] theorem State.setRing_mem (c : ChanId) (d : Dir) (r : Ring) : (s.setRing c d r).mem = s.mem := by cases d <;> rfl
@[simp] theorem State.setRing_status (c : ChanId) (d : Dir) (r : Ring) : (s.setRing c d r).status = s.status := by cases d <;> rfl
@[simp] theorem State.setRing_sel (c : ChanId) (d : Dir) (r : Ring) : (s.setRing c d r).sel = s.sel := by cases d <;> rfl
@[simp] theorem State.setRing_evq (c : ChanId) (d : Dir) (r : Ring) : (s.setRing c d r).evq = s.evq := by cases d <;> rfl
@[simp] theorem State.setRing_diagq (c : ChanId) (d : Dir) (r : Ring) : (s.setRing c d r).diagq = s.diagq := by cases d <;> rfl
@[simp] theorem State.setRing_lineq (c : ChanId) (d : Dir) (r : Ring) : (s.setRing c d r).lineq = s.lineq := by cases d <;> rfl
@[simp] theorem State.setRing_resp (c : ChanId) (d : Dir) (r : Ring) : (s.setRing c d r).resp = s.resp := by cases d <;> rfl
@[simp] theorem State.setRing_env (c : ChanId) (d : Dir) (r : Ring) : (s.setRing c d r).env = s.env := by cases d <;> rfl
@[simp] theorem State.setRing_chan (c : ChanId) (d : Dir) (r : Ring) : (s.setRing c d r).chan = s.chan := by cases d <;> rfl
@[simp] theorem State.setRing_port (c : ChanId) (d : Dir) (r : Ring) : (s.setRing c d r).port = s.port := by cases d <;> rfl
@[simp] theorem State.setRing_lineIn (c : ChanId) (d : Dir) (r : Ring) : (s.setRing c d r).lineIn = s.lineIn := by cases d <;> rfl
@[simp] theorem State.setRing_rxOvf (c : ChanId) (d : Dir) (r : Ring) : (s.setRing c d r).rxOvf = s.rxOvf := by cases d <;> rfl
@[simp] theorem State.setRing_own (c : ChanId) (d : Dir) (r : Ring) : (s.setRing c d r).own = s.own := by cases d <;> rfl
@[simp] theorem State.setRing_slotReg (c : ChanId) (d : Dir) (r : Ring) : (s.setRing c d r).slotReg = s.slotReg := by cases d <;> rfl
@[simp] theorem State.setRing_ch (c : ChanId) (d : Dir) (r : Ring) : (s.setRing c d r).ch = s.ch := by cases d <;> rfl
@[simp] theorem State.setRing_pt (c : ChanId) (d : Dir) (r : Ring) : (s.setRing c d r).pt = s.pt := by cases d <;> rfl
@[simp] theorem State.setRing_inp (c : ChanId) (d : Dir) (r : Ring) : (s.setRing c d r).inp = s.inp := by cases d <;> rfl
@[simp] theorem State.setRing_ovf (c : ChanId) (d : Dir) (r : Ring) : (s.setRing c d r).ovf = s.ovf := by cases d <;> rfl
@[simp] theorem State.setRing_ownAt (c : ChanId) (d : Dir) (r : Ring) : (s.setRing c d r).ownAt = s.ownAt := by cases d <;> rfl
@[simp] theorem State.setRing_regAt (c : ChanId) (d : Dir) (r : Ring) : (s.setRing c d r).regAt = s.regAt := by cases d <;> rfl

@[simp] theorem State.setOvf_cfg (c : ChanId) (b : Bool) : (s.setOvf c b).cfg = s.cfg := rfl
@[simp] theorem State.setOvf_ctl (c : ChanId) (b : Bool) : (s.setOvf c b).ctl = s.ctl := rfl
@[simp] theorem State.setOvf_mem (c : ChanId) (b : Bool) : (s.setOvf c b).mem = s.mem := rfl
@[simp] theorem State.setOvf_status (c : ChanId) (b : Bool) : (s.setOvf c b).status = s.status := rfl
@[simp] theorem State.setOvf_sel (c : ChanId) (b : Bool) : (s.setOvf c b).sel = s.sel := rfl
@[simp] theorem State.setOvf_evq (c : ChanId) (b : Bool) : (s.setOvf c b).evq = s.evq := rfl
@[simp] theorem State.setOvf_diagq (c : ChanId) (b : Bool) : (s.setOvf c b).diagq = s.diagq := rfl
@[simp] theorem State.setOvf_lineq (c : ChanId) (b : Bool) : (s.setOvf c b).lineq = s.lineq := rfl
@[simp] theorem State.setOvf_resp (c : ChanId) (b : Bool) : (s.setOvf c b).resp = s.resp := rfl
@[simp] theorem State.setOvf_env (c : ChanId) (b : Bool) : (s.setOvf c b).env = s.env := rfl
@[simp] theorem State.setOvf_chan (c : ChanId) (b : Bool) : (s.setOvf c b).chan = s.chan := rfl
@[simp] theorem State.setOvf_port (c : ChanId) (b : Bool) : (s.setOvf c b).port = s.port := rfl
@[simp] theorem State.setOvf_lineIn (c : ChanId) (b : Bool) : (s.setOvf c b).lineIn = s.lineIn := rfl
@[simp] theorem State.setOvf_txRing (c : ChanId) (b : Bool) : (s.setOvf c b).txRing = s.txRing := rfl
@[simp] theorem State.setOvf_rxRing (c : ChanId) (b : Bool) : (s.setOvf c b).rxRing = s.rxRing := rfl
@[simp] theorem State.setOvf_own (c : ChanId) (b : Bool) : (s.setOvf c b).own = s.own := rfl
@[simp] theorem State.setOvf_slotReg (c : ChanId) (b : Bool) : (s.setOvf c b).slotReg = s.slotReg := rfl
@[simp] theorem State.setOvf_ch (c : ChanId) (b : Bool) : (s.setOvf c b).ch = s.ch := rfl
@[simp] theorem State.setOvf_pt (c : ChanId) (b : Bool) : (s.setOvf c b).pt = s.pt := rfl
@[simp] theorem State.setOvf_inp (c : ChanId) (b : Bool) : (s.setOvf c b).inp = s.inp := rfl
@[simp] theorem State.setOvf_ring (c : ChanId) (b : Bool) : (s.setOvf c b).ring = s.ring := rfl
@[simp] theorem State.setOvf_ovf (c : ChanId) (b : Bool) (k : ChanId) : (s.setOvf c b).ovf k = if c = k then b else s.ovf k := get_set_fin _ _ _ _
@[simp] theorem State.setOvf_ownAt (c : ChanId) (b : Bool) : (s.setOvf c b).ownAt = s.ownAt := rfl
@[simp] theorem State.setOvf_regAt (c : ChanId) (b : Bool) : (s.setOvf c b).regAt = s.regAt := rfl

@[simp] theorem State.writeCell_cfg (c : ChanId) (d : Dir) (z : Nat) (b : Byte) : (s.writeCell c d z b).cfg = s.cfg := rfl
@[simp] theorem State.writeCell_ctl (c : ChanId) (d : Dir) (z : Nat) (b : Byte) : (s.writeCell c d z b).ctl = s.ctl := rfl
@[simp] theorem State.writeCell_mem (c : ChanId) (d : Dir) (z : Nat) (b : Byte) : (s.writeCell c d z b).mem = s.mem.write (cellAddr s.cfg c d z) b := rfl
@[simp] theorem State.writeCell_status (c : ChanId) (d : Dir) (z : Nat) (b : Byte) : (s.writeCell c d z b).status = s.status := rfl
@[simp] theorem State.writeCell_sel (c : ChanId) (d : Dir) (z : Nat) (b : Byte) : (s.writeCell c d z b).sel = s.sel := rfl
@[simp] theorem State.writeCell_evq (c : ChanId) (d : Dir) (z : Nat) (b : Byte) : (s.writeCell c d z b).evq = s.evq := rfl
@[simp] theorem State.writeCell_diagq (c : ChanId) (d : Dir) (z : Nat) (b : Byte) : (s.writeCell c d z b).diagq = s.diagq := rfl
@[simp] theorem State.writeCell_lineq (c : ChanId) (d : Dir) (z : Nat) (b : Byte) : (s.writeCell c d z b).lineq = s.lineq := rfl
@[simp] theorem State.writeCell_resp (c : ChanId) (d : Dir) (z : Nat) (b : Byte) : (s.writeCell c d z b).resp = s.resp := rfl
@[simp] theorem State.writeCell_env (c : ChanId) (d : Dir) (z : Nat) (b : Byte) : (s.writeCell c d z b).env = s.env := rfl
@[simp] theorem State.writeCell_chan (c : ChanId) (d : Dir) (z : Nat) (b : Byte) : (s.writeCell c d z b).chan = s.chan := rfl
@[simp] theorem State.writeCell_port (c : ChanId) (d : Dir) (z : Nat) (b : Byte) : (s.writeCell c d z b).port = s.port := rfl
@[simp] theorem State.writeCell_lineIn (c : ChanId) (d : Dir) (z : Nat) (b : Byte) : (s.writeCell c d z b).lineIn = s.lineIn := rfl
@[simp] theorem State.writeCell_txRing (c : ChanId) (d : Dir) (z : Nat) (b : Byte) : (s.writeCell c d z b).txRing = s.txRing := rfl
@[simp] theorem State.writeCell_rxRing (c : ChanId) (d : Dir) (z : Nat) (b : Byte) : (s.writeCell c d z b).rxRing = s.rxRing := rfl
@[simp] theorem State.writeCell_rxOvf (c : ChanId) (d : Dir) (z : Nat) (b : Byte) : (s.writeCell c d z b).rxOvf = s.rxOvf := rfl
@[simp] theorem State.writeCell_own (c : ChanId) (d : Dir) (z : Nat) (b : Byte) : (s.writeCell c d z b).own = s.own := rfl
@[simp] theorem State.writeCell_slotReg (c : ChanId) (d : Dir) (z : Nat) (b : Byte) : (s.writeCell c d z b).slotReg = s.slotReg := rfl
@[simp] theorem State.writeCell_ch (c : ChanId) (d : Dir) (z : Nat) (b : Byte) : (s.writeCell c d z b).ch = s.ch := rfl
@[simp] theorem State.writeCell_pt (c : ChanId) (d : Dir) (z : Nat) (b : Byte) : (s.writeCell c d z b).pt = s.pt := rfl
@[simp] theorem State.writeCell_inp (c : ChanId) (d : Dir) (z : Nat) (b : Byte) : (s.writeCell c d z b).inp = s.inp := rfl
@[simp] theorem State.writeCell_ring (c : ChanId) (d : Dir) (z : Nat) (b : Byte) : (s.writeCell c d z b).ring = s.ring := rfl
@[simp] theorem State.writeCell_ovf (c : ChanId) (d : Dir) (z : Nat) (b : Byte) : (s.writeCell c d z b).ovf = s.ovf := rfl
@[simp] theorem State.writeCell_ownAt (c : ChanId) (d : Dir) (z : Nat) (b : Byte) : (s.writeCell c d z b).ownAt = s.ownAt := rfl
@[simp] theorem State.writeCell_regAt (c : ChanId) (d : Dir) (z : Nat) (b : Byte) : (s.writeCell c d z b).regAt = s.regAt := rfl

@[simp] theorem State.setOwn_cfg (i : RouteIx) (x : Option ChanId) : (s.setOwn i x).cfg = s.cfg := rfl
@[simp] theorem State.setOwn_ctl (i : RouteIx) (x : Option ChanId) : (s.setOwn i x).ctl = s.ctl := rfl
@[simp] theorem State.setOwn_mem (i : RouteIx) (x : Option ChanId) : (s.setOwn i x).mem = s.mem := rfl
@[simp] theorem State.setOwn_status (i : RouteIx) (x : Option ChanId) : (s.setOwn i x).status = s.status := rfl
@[simp] theorem State.setOwn_sel (i : RouteIx) (x : Option ChanId) : (s.setOwn i x).sel = s.sel := rfl
@[simp] theorem State.setOwn_evq (i : RouteIx) (x : Option ChanId) : (s.setOwn i x).evq = s.evq := rfl
@[simp] theorem State.setOwn_diagq (i : RouteIx) (x : Option ChanId) : (s.setOwn i x).diagq = s.diagq := rfl
@[simp] theorem State.setOwn_lineq (i : RouteIx) (x : Option ChanId) : (s.setOwn i x).lineq = s.lineq := rfl
@[simp] theorem State.setOwn_resp (i : RouteIx) (x : Option ChanId) : (s.setOwn i x).resp = s.resp := rfl
@[simp] theorem State.setOwn_env (i : RouteIx) (x : Option ChanId) : (s.setOwn i x).env = s.env := rfl
@[simp] theorem State.setOwn_chan (i : RouteIx) (x : Option ChanId) : (s.setOwn i x).chan = s.chan := rfl
@[simp] theorem State.setOwn_port (i : RouteIx) (x : Option ChanId) : (s.setOwn i x).port = s.port := rfl
@[simp] theorem State.setOwn_lineIn (i : RouteIx) (x : Option ChanId) : (s.setOwn i x).lineIn = s.lineIn := rfl
@[simp] theorem State.setOwn_txRing (i : RouteIx) (x : Option ChanId) : (s.setOwn i x).txRing = s.txRing := rfl
@[simp] theorem State.setOwn_rxRing (i : RouteIx) (x : Option ChanId) : (s.setOwn i x).rxRing = s.rxRing := rfl
@[simp] theorem State.setOwn_rxOvf (i : RouteIx) (x : Option ChanId) : (s.setOwn i x).rxOvf = s.rxOvf := rfl
@[simp] theorem State.setOwn_slotReg (i : RouteIx) (x : Option ChanId) : (s.setOwn i x).slotReg = s.slotReg := rfl
@[simp] theorem State.setOwn_ch (i : RouteIx) (x : Option ChanId) : (s.setOwn i x).ch = s.ch := rfl
@[simp] theorem State.setOwn_pt (i : RouteIx) (x : Option ChanId) : (s.setOwn i x).pt = s.pt := rfl
@[simp] theorem State.setOwn_inp (i : RouteIx) (x : Option ChanId) : (s.setOwn i x).inp = s.inp := rfl
@[simp] theorem State.setOwn_ring (i : RouteIx) (x : Option ChanId) : (s.setOwn i x).ring = s.ring := rfl
@[simp] theorem State.setOwn_ovf (i : RouteIx) (x : Option ChanId) : (s.setOwn i x).ovf = s.ovf := rfl
@[simp] theorem State.setOwn_ownAt (i : RouteIx) (x : Option ChanId) (k : RouteIx) : (s.setOwn i x).ownAt k = if i = k then x else s.ownAt k := get_set_fin _ _ _ _
@[simp] theorem State.setOwn_regAt (i : RouteIx) (x : Option ChanId) : (s.setOwn i x).regAt = s.regAt := rfl

@[simp] theorem State.setSlotReg_cfg (i : RouteIx) (x : Option Route) : (s.setSlotReg i x).cfg = s.cfg := rfl
@[simp] theorem State.setSlotReg_ctl (i : RouteIx) (x : Option Route) : (s.setSlotReg i x).ctl = s.ctl := rfl
@[simp] theorem State.setSlotReg_mem (i : RouteIx) (x : Option Route) : (s.setSlotReg i x).mem = s.mem := rfl
@[simp] theorem State.setSlotReg_status (i : RouteIx) (x : Option Route) : (s.setSlotReg i x).status = s.status := rfl
@[simp] theorem State.setSlotReg_sel (i : RouteIx) (x : Option Route) : (s.setSlotReg i x).sel = s.sel := rfl
@[simp] theorem State.setSlotReg_evq (i : RouteIx) (x : Option Route) : (s.setSlotReg i x).evq = s.evq := rfl
@[simp] theorem State.setSlotReg_diagq (i : RouteIx) (x : Option Route) : (s.setSlotReg i x).diagq = s.diagq := rfl
@[simp] theorem State.setSlotReg_lineq (i : RouteIx) (x : Option Route) : (s.setSlotReg i x).lineq = s.lineq := rfl
@[simp] theorem State.setSlotReg_resp (i : RouteIx) (x : Option Route) : (s.setSlotReg i x).resp = s.resp := rfl
@[simp] theorem State.setSlotReg_env (i : RouteIx) (x : Option Route) : (s.setSlotReg i x).env = s.env := rfl
@[simp] theorem State.setSlotReg_chan (i : RouteIx) (x : Option Route) : (s.setSlotReg i x).chan = s.chan := rfl
@[simp] theorem State.setSlotReg_port (i : RouteIx) (x : Option Route) : (s.setSlotReg i x).port = s.port := rfl
@[simp] theorem State.setSlotReg_lineIn (i : RouteIx) (x : Option Route) : (s.setSlotReg i x).lineIn = s.lineIn := rfl
@[simp] theorem State.setSlotReg_txRing (i : RouteIx) (x : Option Route) : (s.setSlotReg i x).txRing = s.txRing := rfl
@[simp] theorem State.setSlotReg_rxRing (i : RouteIx) (x : Option Route) : (s.setSlotReg i x).rxRing = s.rxRing := rfl
@[simp] theorem State.setSlotReg_rxOvf (i : RouteIx) (x : Option Route) : (s.setSlotReg i x).rxOvf = s.rxOvf := rfl
@[simp] theorem State.setSlotReg_own (i : RouteIx) (x : Option Route) : (s.setSlotReg i x).own = s.own := rfl
@[simp] theorem State.setSlotReg_ch (i : RouteIx) (x : Option Route) : (s.setSlotReg i x).ch = s.ch := rfl
@[simp] theorem State.setSlotReg_pt (i : RouteIx) (x : Option Route) : (s.setSlotReg i x).pt = s.pt := rfl
@[simp] theorem State.setSlotReg_inp (i : RouteIx) (x : Option Route) : (s.setSlotReg i x).inp = s.inp := rfl
@[simp] theorem State.setSlotReg_ring (i : RouteIx) (x : Option Route) : (s.setSlotReg i x).ring = s.ring := rfl
@[simp] theorem State.setSlotReg_ovf (i : RouteIx) (x : Option Route) : (s.setSlotReg i x).ovf = s.ovf := rfl
@[simp] theorem State.setSlotReg_ownAt (i : RouteIx) (x : Option Route) : (s.setSlotReg i x).ownAt = s.ownAt := rfl
@[simp] theorem State.setSlotReg_regAt (i : RouteIx) (x : Option Route) (k : RouteIx) : (s.setSlotReg i x).regAt k = if i = k then x else s.regAt k := get_set_fin _ _ _ _

@[simp] theorem State.setStatus_cfg (x : Status) : (s.setStatus x).cfg = s.cfg := rfl
@[simp] theorem State.setStatus_ctl (x : Status) : (s.setStatus x).ctl = s.ctl := rfl
@[simp] theorem State.setStatus_mem (x : Status) : (s.setStatus x).mem = s.mem := rfl
@[simp] theorem State.setStatus_status (x : Status) : (s.setStatus x).status = x := rfl
@[simp] theorem State.setStatus_sel (x : Status) : (s.setStatus x).sel = s.sel := rfl
@[simp] theorem State.setStatus_evq (x : Status) : (s.setStatus x).evq = s.evq := rfl
@[simp] theorem State.setStatus_diagq (x : Status) : (s.setStatus x).diagq = s.diagq := rfl
@[simp] theorem State.setStatus_lineq (x : Status) : (s.setStatus x).lineq = s.lineq := rfl
@[simp] theorem State.setStatus_resp (x : Status) : (s.setStatus x).resp = s.resp := rfl
@[simp] theorem State.setStatus_env (x : Status) : (s.setStatus x).env = s.env := rfl
@[simp] theorem State.setStatus_chan (x : Status) : (s.setStatus x).chan = s.chan := rfl
@[simp] theorem State.setStatus_port (x : Status) : (s.setStatus x).port = s.port := rfl
@[simp] theorem State.setStatus_lineIn (x : Status) : (s.setStatus x).lineIn = s.lineIn := rfl
@[simp] theorem State.setStatus_txRing (x : Status) : (s.setStatus x).txRing = s.txRing := rfl
@[simp] theorem State.setStatus_rxRing (x : Status) : (s.setStatus x).rxRing = s.rxRing := rfl
@[simp] theorem State.setStatus_rxOvf (x : Status) : (s.setStatus x).rxOvf = s.rxOvf := rfl
@[simp] theorem State.setStatus_own (x : Status) : (s.setStatus x).own = s.own := rfl
@[simp] theorem State.setStatus_slotReg (x : Status) : (s.setStatus x).slotReg = s.slotReg := rfl
@[simp] theorem State.setStatus_ch (x : Status) : (s.setStatus x).ch = s.ch := rfl
@[simp] theorem State.setStatus_pt (x : Status) : (s.setStatus x).pt = s.pt := rfl
@[simp] theorem State.setStatus_inp (x : Status) : (s.setStatus x).inp = s.inp := rfl
@[simp] theorem State.setStatus_ring (x : Status) : (s.setStatus x).ring = s.ring := rfl
@[simp] theorem State.setStatus_ovf (x : Status) : (s.setStatus x).ovf = s.ovf := rfl
@[simp] theorem State.setStatus_ownAt (x : Status) : (s.setStatus x).ownAt = s.ownAt := rfl
@[simp] theorem State.setStatus_regAt (x : Status) : (s.setStatus x).regAt = s.regAt := rfl

@[simp] theorem State.select_cfg (c : ChanId) (d : Dir) : (s.select c d).cfg = s.cfg := rfl
@[simp] theorem State.select_ctl (c : ChanId) (d : Dir) : (s.select c d).ctl = s.ctl := rfl
@[simp] theorem State.select_mem (c : ChanId) (d : Dir) : (s.select c d).mem = s.mem := rfl
@[simp] theorem State.select_status (c : ChanId) (d : Dir) : (s.select c d).status = s.status := rfl
@[simp] theorem State.select_sel (c : ChanId) (d : Dir) : (s.select c d).sel = some (c, d) := rfl
@[simp] theorem State.select_evq (c : ChanId) (d : Dir) : (s.select c d).evq = s.evq := rfl
@[simp] theorem State.select_diagq (c : ChanId) (d : Dir) : (s.select c d).diagq = s.diagq := rfl
@[simp] theorem State.select_lineq (c : ChanId) (d : Dir) : (s.select c d).lineq = s.lineq := rfl
@[simp] theorem State.select_resp (c : ChanId) (d : Dir) : (s.select c d).resp = s.resp := rfl
@[simp] theorem State.select_env (c : ChanId) (d : Dir) : (s.select c d).env = s.env := rfl
@[simp] theorem State.select_chan (c : ChanId) (d : Dir) : (s.select c d).chan = s.chan := rfl
@[simp] theorem State.select_port (c : ChanId) (d : Dir) : (s.select c d).port = s.port := rfl
@[simp] theorem State.select_lineIn (c : ChanId) (d : Dir) : (s.select c d).lineIn = s.lineIn := rfl
@[simp] theorem State.select_txRing (c : ChanId) (d : Dir) : (s.select c d).txRing = s.txRing := rfl
@[simp] theorem State.select_rxRing (c : ChanId) (d : Dir) : (s.select c d).rxRing = s.rxRing := rfl
@[simp] theorem State.select_rxOvf (c : ChanId) (d : Dir) : (s.select c d).rxOvf = s.rxOvf := rfl
@[simp] theorem State.select_own (c : ChanId) (d : Dir) : (s.select c d).own = s.own := rfl
@[simp] theorem State.select_slotReg (c : ChanId) (d : Dir) : (s.select c d).slotReg = s.slotReg := rfl
@[simp] theorem State.select_ch (c : ChanId) (d : Dir) : (s.select c d).ch = s.ch := rfl
@[simp] theorem State.select_pt (c : ChanId) (d : Dir) : (s.select c d).pt = s.pt := rfl
@[simp] theorem State.select_inp (c : ChanId) (d : Dir) : (s.select c d).inp = s.inp := rfl
@[simp] theorem State.select_ring (c : ChanId) (d : Dir) : (s.select c d).ring = s.ring := rfl
@[simp] theorem State.select_ovf (c : ChanId) (d : Dir) : (s.select c d).ovf = s.ovf := rfl
@[simp] theorem State.select_ownAt (c : ChanId) (d : Dir) : (s.select c d).ownAt = s.ownAt := rfl
@[simp] theorem State.select_regAt (c : ChanId) (d : Dir) : (s.select c d).regAt = s.regAt := rfl

@[simp] theorem State.emit_cfg (e : Event) : (s.emit e).cfg = s.cfg := rfl
@[simp] theorem State.emit_ctl (e : Event) : (s.emit e).ctl = s.ctl := rfl
@[simp] theorem State.emit_mem (e : Event) : (s.emit e).mem = s.mem := rfl
@[simp] theorem State.emit_status (e : Event) : (s.emit e).status = s.status := rfl
@[simp] theorem State.emit_sel (e : Event) : (s.emit e).sel = s.sel := rfl
@[simp] theorem State.emit_evq (e : Event) : (s.emit e).evq = s.evq ++ [e] := rfl
@[simp] theorem State.emit_diagq (e : Event) : (s.emit e).diagq = s.diagq := rfl
@[simp] theorem State.emit_lineq (e : Event) : (s.emit e).lineq = s.lineq := rfl
@[simp] theorem State.emit_resp (e : Event) : (s.emit e).resp = s.resp := rfl
@[simp] theorem State.emit_env (e : Event) : (s.emit e).env = s.env := rfl
@[simp] theorem State.emit_chan (e : Event) : (s.emit e).chan = s.chan := rfl
@[simp] theorem State.emit_port (e : Event) : (s.emit e).port = s.port := rfl
@[simp] theorem State.emit_lineIn (e : Event) : (s.emit e).lineIn = s.lineIn := rfl
@[simp] theorem State.emit_txRing (e : Event) : (s.emit e).txRing = s.txRing := rfl
@[simp] theorem State.emit_rxRing (e : Event) : (s.emit e).rxRing = s.rxRing := rfl
@[simp] theorem State.emit_rxOvf (e : Event) : (s.emit e).rxOvf = s.rxOvf := rfl
@[simp] theorem State.emit_own (e : Event) : (s.emit e).own = s.own := rfl
@[simp] theorem State.emit_slotReg (e : Event) : (s.emit e).slotReg = s.slotReg := rfl
@[simp] theorem State.emit_ch (e : Event) : (s.emit e).ch = s.ch := rfl
@[simp] theorem State.emit_pt (e : Event) : (s.emit e).pt = s.pt := rfl
@[simp] theorem State.emit_inp (e : Event) : (s.emit e).inp = s.inp := rfl
@[simp] theorem State.emit_ring (e : Event) : (s.emit e).ring = s.ring := rfl
@[simp] theorem State.emit_ovf (e : Event) : (s.emit e).ovf = s.ovf := rfl
@[simp] theorem State.emit_ownAt (e : Event) : (s.emit e).ownAt = s.ownAt := rfl
@[simp] theorem State.emit_regAt (e : Event) : (s.emit e).regAt = s.regAt := rfl

@[simp] theorem State.diag_cfg (d : Diag) : (s.diag d).cfg = s.cfg := rfl
@[simp] theorem State.diag_ctl (d : Diag) : (s.diag d).ctl = s.ctl := rfl
@[simp] theorem State.diag_mem (d : Diag) : (s.diag d).mem = s.mem := rfl
@[simp] theorem State.diag_status (d : Diag) : (s.diag d).status = s.status := rfl
@[simp] theorem State.diag_sel (d : Diag) : (s.diag d).sel = s.sel := rfl
@[simp] theorem State.diag_evq (d : Diag) : (s.diag d).evq = s.evq := rfl
@[simp] theorem State.diag_diagq (d : Diag) : (s.diag d).diagq = s.diagq ++ [d] := rfl
@[simp] theorem State.diag_lineq (d : Diag) : (s.diag d).lineq = s.lineq := rfl
@[simp] theorem State.diag_resp (d : Diag) : (s.diag d).resp = s.resp := rfl
@[simp] theorem State.diag_env (d : Diag) : (s.diag d).env = s.env := rfl
@[simp] theorem State.diag_chan (d : Diag) : (s.diag d).chan = s.chan := rfl
@[simp] theorem State.diag_port (d : Diag) : (s.diag d).port = s.port := rfl
@[simp] theorem State.diag_lineIn (d : Diag) : (s.diag d).lineIn = s.lineIn := rfl
@[simp] theorem State.diag_txRing (d : Diag) : (s.diag d).txRing = s.txRing := rfl
@[simp] theorem State.diag_rxRing (d : Diag) : (s.diag d).rxRing = s.rxRing := rfl
@[simp] theorem State.diag_rxOvf (d : Diag) : (s.diag d).rxOvf = s.rxOvf := rfl
@[simp] theorem State.diag_own (d : Diag) : (s.diag d).own = s.own := rfl
@[simp] theorem State.diag_slotReg (d : Diag) : (s.diag d).slotReg = s.slotReg := rfl
@[simp] theorem State.diag_ch (d : Diag) : (s.diag d).ch = s.ch := rfl
@[simp] theorem State.diag_pt (d : Diag) : (s.diag d).pt = s.pt := rfl
@[simp] theorem State.diag_inp (d : Diag) : (s.diag d).inp = s.inp := rfl
@[simp] theorem State.diag_ring (d : Diag) : (s.diag d).ring = s.ring := rfl
@[simp] theorem State.diag_ovf (d : Diag) : (s.diag d).ovf = s.ovf := rfl
@[simp] theorem State.diag_ownAt (d : Diag) : (s.diag d).ownAt = s.ownAt := rfl
@[simp] theorem State.diag_regAt (d : Diag) : (s.diag d).regAt = s.regAt := rfl

@[simp] theorem State.lineAct_cfg (a : LineAction) : (s.lineAct a).cfg = s.cfg := rfl
@[simp] theorem State.lineAct_ctl (a : LineAction) : (s.lineAct a).ctl = s.ctl := rfl
@[simp] theorem State.lineAct_mem (a : LineAction) : (s.lineAct a).mem = s.mem := rfl
@[simp] theorem State.lineAct_status (a : LineAction) : (s.lineAct a).status = s.status := rfl
@[simp] theorem State.lineAct_sel (a : LineAction) : (s.lineAct a).sel = s.sel := rfl
@[simp] theorem State.lineAct_evq (a : LineAction) : (s.lineAct a).evq = s.evq := rfl
@[simp] theorem State.lineAct_diagq (a : LineAction) : (s.lineAct a).diagq = s.diagq := rfl
@[simp] theorem State.lineAct_lineq (a : LineAction) : (s.lineAct a).lineq = s.lineq ++ [a] := rfl
@[simp] theorem State.lineAct_resp (a : LineAction) : (s.lineAct a).resp = s.resp := rfl
@[simp] theorem State.lineAct_env (a : LineAction) : (s.lineAct a).env = s.env := rfl
@[simp] theorem State.lineAct_chan (a : LineAction) : (s.lineAct a).chan = s.chan := rfl
@[simp] theorem State.lineAct_port (a : LineAction) : (s.lineAct a).port = s.port := rfl
@[simp] theorem State.lineAct_lineIn (a : LineAction) : (s.lineAct a).lineIn = s.lineIn := rfl
@[simp] theorem State.lineAct_txRing (a : LineAction) : (s.lineAct a).txRing = s.txRing := rfl
@[simp] theorem State.lineAct_rxRing (a : LineAction) : (s.lineAct a).rxRing = s.rxRing := rfl
@[simp] theorem State.lineAct_rxOvf (a : LineAction) : (s.lineAct a).rxOvf = s.rxOvf := rfl
@[simp] theorem State.lineAct_own (a : LineAction) : (s.lineAct a).own = s.own := rfl
@[simp] theorem State.lineAct_slotReg (a : LineAction) : (s.lineAct a).slotReg = s.slotReg := rfl
@[simp] theorem State.lineAct_ch (a : LineAction) : (s.lineAct a).ch = s.ch := rfl
@[simp] theorem State.lineAct_pt (a : LineAction) : (s.lineAct a).pt = s.pt := rfl
@[simp] theorem State.lineAct_inp (a : LineAction) : (s.lineAct a).inp = s.inp := rfl
@[simp] theorem State.lineAct_ring (a : LineAction) : (s.lineAct a).ring = s.ring := rfl
@[simp] theorem State.lineAct_ovf (a : LineAction) : (s.lineAct a).ovf = s.ovf := rfl
@[simp] theorem State.lineAct_ownAt (a : LineAction) : (s.lineAct a).ownAt = s.ownAt := rfl
@[simp] theorem State.lineAct_regAt (a : LineAction) : (s.lineAct a).regAt = s.regAt := rfl

@[simp] theorem State.answer_cfg (r : Resp) : (s.answer r).cfg = s.cfg := rfl
@[simp] theorem State.answer_ctl (r : Resp) : (s.answer r).ctl = s.ctl := rfl
@[simp] theorem State.answer_mem (r : Resp) : (s.answer r).mem = s.mem := rfl
@[simp] theorem State.answer_status (r : Resp) : (s.answer r).status = s.status := rfl
@[simp] theorem State.answer_sel (r : Resp) : (s.answer r).sel = s.sel := rfl
@[simp] theorem State.answer_evq (r : Resp) : (s.answer r).evq = s.evq := rfl
@[simp] theorem State.answer_diagq (r : Resp) : (s.answer r).diagq = s.diagq := rfl
@[simp] theorem State.answer_lineq (r : Resp) : (s.answer r).lineq = s.lineq := rfl
@[simp] theorem State.answer_resp (r : Resp) : (s.answer r).resp = r := rfl
@[simp] theorem State.answer_env (r : Resp) : (s.answer r).env = s.env := rfl
@[simp] theorem State.answer_chan (r : Resp) : (s.answer r).chan = s.chan := rfl
@[simp] theorem State.answer_port (r : Resp) : (s.answer r).port = s.port := rfl
@[simp] theorem State.answer_lineIn (r : Resp) : (s.answer r).lineIn = s.lineIn := rfl
@[simp] theorem State.answer_txRing (r : Resp) : (s.answer r).txRing = s.txRing := rfl
@[simp] theorem State.answer_rxRing (r : Resp) : (s.answer r).rxRing = s.rxRing := rfl
@[simp] theorem State.answer_rxOvf (r : Resp) : (s.answer r).rxOvf = s.rxOvf := rfl
@[simp] theorem State.answer_own (r : Resp) : (s.answer r).own = s.own := rfl
@[simp] theorem State.answer_slotReg (r : Resp) : (s.answer r).slotReg = s.slotReg := rfl
@[simp] theorem State.answer_ch (r : Resp) : (s.answer r).ch = s.ch := rfl
@[simp] theorem State.answer_pt (r : Resp) : (s.answer r).pt = s.pt := rfl
@[simp] theorem State.answer_inp (r : Resp) : (s.answer r).inp = s.inp := rfl
@[simp] theorem State.answer_ring (r : Resp) : (s.answer r).ring = s.ring := rfl
@[simp] theorem State.answer_ovf (r : Resp) : (s.answer r).ovf = s.ovf := rfl
@[simp] theorem State.answer_ownAt (r : Resp) : (s.answer r).ownAt = s.ownAt := rfl
@[simp] theorem State.answer_regAt (r : Resp) : (s.answer r).regAt = s.regAt := rfl

@[simp] theorem State.setEnv_cfg (e : Env) : (s.setEnv e).cfg = s.cfg := rfl
@[simp] theorem State.setEnv_ctl (e : Env) : (s.setEnv e).ctl = s.ctl := rfl
@[simp] theorem State.setEnv_mem (e : Env) : (s.setEnv e).mem = s.mem := rfl
@[simp] theorem State.setEnv_status (e : Env) : (s.setEnv e).status = s.status := rfl
@[simp] theorem State.setEnv_sel (e : Env) : (s.setEnv e).sel = s.sel := rfl
@[simp] theorem State.setEnv_evq (e : Env) : (s.setEnv e).evq = s.evq := rfl
@[simp] theorem State.setEnv_diagq (e : Env) : (s.setEnv e).diagq = s.diagq := rfl
@[simp] theorem State.setEnv_lineq (e : Env) : (s.setEnv e).lineq = s.lineq := rfl
@[simp] theorem State.setEnv_resp (e : Env) : (s.setEnv e).resp = s.resp := rfl
@[simp] theorem State.setEnv_env (e : Env) : (s.setEnv e).env = e := rfl
@[simp] theorem State.setEnv_chan (e : Env) : (s.setEnv e).chan = s.chan := rfl
@[simp] theorem State.setEnv_port (e : Env) : (s.setEnv e).port = s.port := rfl
@[simp] theorem State.setEnv_lineIn (e : Env) : (s.setEnv e).lineIn = s.lineIn := rfl
@[simp] theorem State.setEnv_txRing (e : Env) : (s.setEnv e).txRing = s.txRing := rfl
@[simp] theorem State.setEnv_rxRing (e : Env) : (s.setEnv e).rxRing = s.rxRing := rfl
@[simp] theorem State.setEnv_rxOvf (e : Env) : (s.setEnv e).rxOvf = s.rxOvf := rfl
@[simp] theorem State.setEnv_own (e : Env) : (s.setEnv e).own = s.own := rfl
@[simp] theorem State.setEnv_slotReg (e : Env) : (s.setEnv e).slotReg = s.slotReg := rfl
@[simp] theorem State.setEnv_ch (e : Env) : (s.setEnv e).ch = s.ch := rfl
@[simp] theorem State.setEnv_pt (e : Env) : (s.setEnv e).pt = s.pt := rfl
@[simp] theorem State.setEnv_inp (e : Env) : (s.setEnv e).inp = s.inp := rfl
@[simp] theorem State.setEnv_ring (e : Env) : (s.setEnv e).ring = s.ring := rfl
@[simp] theorem State.setEnv_ovf (e : Env) : (s.setEnv e).ovf = s.ovf := rfl
@[simp] theorem State.setEnv_ownAt (e : Env) : (s.setEnv e).ownAt = s.ownAt := rfl
@[simp] theorem State.setEnv_regAt (e : Env) : (s.setEnv e).regAt = s.regAt := rfl

@[simp] theorem State.takeEvent_cfg : s.takeEvent.cfg = s.cfg := rfl
@[simp] theorem State.takeEvent_ctl : s.takeEvent.ctl = s.ctl := rfl
@[simp] theorem State.takeEvent_mem : s.takeEvent.mem = s.mem := rfl
@[simp] theorem State.takeEvent_status : s.takeEvent.status = s.status := rfl
@[simp] theorem State.takeEvent_sel : s.takeEvent.sel = s.sel := rfl
@[simp] theorem State.takeEvent_evq : s.takeEvent.evq = s.evq.tail := rfl
@[simp] theorem State.takeEvent_diagq : s.takeEvent.diagq = s.diagq := rfl
@[simp] theorem State.takeEvent_lineq : s.takeEvent.lineq = s.lineq := rfl
@[simp] theorem State.takeEvent_resp : s.takeEvent.resp = s.resp := rfl
@[simp] theorem State.takeEvent_env : s.takeEvent.env = s.env := rfl
@[simp] theorem State.takeEvent_chan : s.takeEvent.chan = s.chan := rfl
@[simp] theorem State.takeEvent_port : s.takeEvent.port = s.port := rfl
@[simp] theorem State.takeEvent_lineIn : s.takeEvent.lineIn = s.lineIn := rfl
@[simp] theorem State.takeEvent_txRing : s.takeEvent.txRing = s.txRing := rfl
@[simp] theorem State.takeEvent_rxRing : s.takeEvent.rxRing = s.rxRing := rfl
@[simp] theorem State.takeEvent_rxOvf : s.takeEvent.rxOvf = s.rxOvf := rfl
@[simp] theorem State.takeEvent_own : s.takeEvent.own = s.own := rfl
@[simp] theorem State.takeEvent_slotReg : s.takeEvent.slotReg = s.slotReg := rfl
@[simp] theorem State.takeEvent_ch : s.takeEvent.ch = s.ch := rfl
@[simp] theorem State.takeEvent_pt : s.takeEvent.pt = s.pt := rfl
@[simp] theorem State.takeEvent_inp : s.takeEvent.inp = s.inp := rfl
@[simp] theorem State.takeEvent_ring : s.takeEvent.ring = s.ring := rfl
@[simp] theorem State.takeEvent_ovf : s.takeEvent.ovf = s.ovf := rfl
@[simp] theorem State.takeEvent_ownAt : s.takeEvent.ownAt = s.ownAt := rfl
@[simp] theorem State.takeEvent_regAt : s.takeEvent.regAt = s.regAt := rfl

@[simp] theorem State.setReady_cfg (c : ChanId) (d : Dir) (b : Bool) : (s.setReady c d b).cfg = s.cfg := by cases d <;> rfl
@[simp] theorem State.setReady_ctl (c : ChanId) (d : Dir) (b : Bool) : (s.setReady c d b).ctl = s.ctl := by cases d <;> rfl
@[simp] theorem State.setReady_mem (c : ChanId) (d : Dir) (b : Bool) : (s.setReady c d b).mem = s.mem := by cases d <;> rfl
@[simp] theorem State.setReady_sel (c : ChanId) (d : Dir) (b : Bool) : (s.setReady c d b).sel = s.sel := by cases d <;> rfl
@[simp] theorem State.setReady_evq (c : ChanId) (d : Dir) (b : Bool) : (s.setReady c d b).evq = s.evq := by cases d <;> rfl
@[simp] theorem State.setReady_diagq (c : ChanId) (d : Dir) (b : Bool) : (s.setReady c d b).diagq = s.diagq := by cases d <;> rfl
@[simp] theorem State.setReady_lineq (c : ChanId) (d : Dir) (b : Bool) : (s.setReady c d b).lineq = s.lineq := by cases d <;> rfl
@[simp] theorem State.setReady_resp (c : ChanId) (d : Dir) (b : Bool) : (s.setReady c d b).resp = s.resp := by cases d <;> rfl
@[simp] theorem State.setReady_env (c : ChanId) (d : Dir) (b : Bool) : (s.setReady c d b).env = s.env := by cases d <;> rfl
@[simp] theorem State.setReady_chan (c : ChanId) (d : Dir) (b : Bool) : (s.setReady c d b).chan = s.chan := by cases d <;> rfl
@[simp] theorem State.setReady_port (c : ChanId) (d : Dir) (b : Bool) : (s.setReady c d b).port = s.port := by cases d <;> rfl
@[simp] theorem State.setReady_lineIn (c : ChanId) (d : Dir) (b : Bool) : (s.setReady c d b).lineIn = s.lineIn := by cases d <;> rfl
@[simp] theorem State.setReady_txRing (c : ChanId) (d : Dir) (b : Bool) : (s.setReady c d b).txRing = s.txRing := by cases d <;> rfl
@[simp] theorem State.setReady_rxRing (c : ChanId) (d : Dir) (b : Bool) : (s.setReady c d b).rxRing = s.rxRing := by cases d <;> rfl
@[simp] theorem State.setReady_rxOvf (c : ChanId) (d : Dir) (b : Bool) : (s.setReady c d b).rxOvf = s.rxOvf := by cases d <;> rfl
@[simp] theorem State.setReady_own (c : ChanId) (d : Dir) (b : Bool) : (s.setReady c d b).own = s.own := by cases d <;> rfl
@[simp] theorem State.setReady_slotReg (c : ChanId) (d : Dir) (b : Bool) : (s.setReady c d b).slotReg = s.slotReg := by cases d <;> rfl
@[simp] theorem State.setReady_ch (c : ChanId) (d : Dir) (b : Bool) : (s.setReady c d b).ch = s.ch := by cases d <;> rfl
@[simp] theorem State.setReady_pt (c : ChanId) (d : Dir) (b : Bool) : (s.setReady c d b).pt = s.pt := by cases d <;> rfl
@[simp] theorem State.setReady_inp (c : ChanId) (d : Dir) (b : Bool) : (s.setReady c d b).inp = s.inp := by cases d <;> rfl
@[simp] theorem State.setReady_ring (c : ChanId) (d : Dir) (b : Bool) : (s.setReady c d b).ring = s.ring := by cases d <;> rfl
@[simp] theorem State.setReady_ovf (c : ChanId) (d : Dir) (b : Bool) : (s.setReady c d b).ovf = s.ovf := by cases d <;> rfl
@[simp] theorem State.setReady_ownAt (c : ChanId) (d : Dir) (b : Bool) : (s.setReady c d b).ownAt = s.ownAt := by cases d <;> rfl
@[simp] theorem State.setReady_regAt (c : ChanId) (d : Dir) (b : Bool) : (s.setReady c d b).regAt = s.regAt := by cases d <;> rfl

@[simp] theorem State.setPsc_cfg (p : PortId) (b : Bool) : (s.setPsc p b).cfg = s.cfg := rfl
@[simp] theorem State.setPsc_ctl (p : PortId) (b : Bool) : (s.setPsc p b).ctl = s.ctl := rfl
@[simp] theorem State.setPsc_mem (p : PortId) (b : Bool) : (s.setPsc p b).mem = s.mem := rfl
@[simp] theorem State.setPsc_status (p : PortId) (b : Bool) : (s.setPsc p b).status = { s.status with psc := s.status.psc.set p.val b p.isLt } := rfl
@[simp] theorem State.setPsc_sel (p : PortId) (b : Bool) : (s.setPsc p b).sel = s.sel := rfl
@[simp] theorem State.setPsc_evq (p : PortId) (b : Bool) : (s.setPsc p b).evq = s.evq := rfl
@[simp] theorem State.setPsc_diagq (p : PortId) (b : Bool) : (s.setPsc p b).diagq = s.diagq := rfl
@[simp] theorem State.setPsc_lineq (p : PortId) (b : Bool) : (s.setPsc p b).lineq = s.lineq := rfl
@[simp] theorem State.setPsc_resp (p : PortId) (b : Bool) : (s.setPsc p b).resp = s.resp := rfl
@[simp] theorem State.setPsc_env (p : PortId) (b : Bool) : (s.setPsc p b).env = s.env := rfl
@[simp] theorem State.setPsc_chan (p : PortId) (b : Bool) : (s.setPsc p b).chan = s.chan := rfl
@[simp] theorem State.setPsc_port (p : PortId) (b : Bool) : (s.setPsc p b).port = s.port := rfl
@[simp] theorem State.setPsc_lineIn (p : PortId) (b : Bool) : (s.setPsc p b).lineIn = s.lineIn := rfl
@[simp] theorem State.setPsc_txRing (p : PortId) (b : Bool) : (s.setPsc p b).txRing = s.txRing := rfl
@[simp] theorem State.setPsc_rxRing (p : PortId) (b : Bool) : (s.setPsc p b).rxRing = s.rxRing := rfl
@[simp] theorem State.setPsc_rxOvf (p : PortId) (b : Bool) : (s.setPsc p b).rxOvf = s.rxOvf := rfl
@[simp] theorem State.setPsc_own (p : PortId) (b : Bool) : (s.setPsc p b).own = s.own := rfl
@[simp] theorem State.setPsc_slotReg (p : PortId) (b : Bool) : (s.setPsc p b).slotReg = s.slotReg := rfl
@[simp] theorem State.setPsc_ch (p : PortId) (b : Bool) : (s.setPsc p b).ch = s.ch := rfl
@[simp] theorem State.setPsc_pt (p : PortId) (b : Bool) : (s.setPsc p b).pt = s.pt := rfl
@[simp] theorem State.setPsc_inp (p : PortId) (b : Bool) : (s.setPsc p b).inp = s.inp := rfl
@[simp] theorem State.setPsc_ring (p : PortId) (b : Bool) : (s.setPsc p b).ring = s.ring := rfl
@[simp] theorem State.setPsc_ovf (p : PortId) (b : Bool) : (s.setPsc p b).ovf = s.ovf := rfl
@[simp] theorem State.setPsc_ownAt (p : PortId) (b : Bool) : (s.setPsc p b).ownAt = s.ownAt := rfl
@[simp] theorem State.setPsc_regAt (p : PortId) (b : Bool) : (s.setPsc p b).regAt = s.regAt := rfl

@[simp] theorem State.setTsc_cfg (p : PortId) (b : Bool) : (s.setTsc p b).cfg = s.cfg := rfl
@[simp] theorem State.setTsc_ctl (p : PortId) (b : Bool) : (s.setTsc p b).ctl = s.ctl := rfl
@[simp] theorem State.setTsc_mem (p : PortId) (b : Bool) : (s.setTsc p b).mem = s.mem := rfl
@[simp] theorem State.setTsc_status (p : PortId) (b : Bool) : (s.setTsc p b).status = { s.status with tsc := s.status.tsc.set p.val b p.isLt } := rfl
@[simp] theorem State.setTsc_sel (p : PortId) (b : Bool) : (s.setTsc p b).sel = s.sel := rfl
@[simp] theorem State.setTsc_evq (p : PortId) (b : Bool) : (s.setTsc p b).evq = s.evq := rfl
@[simp] theorem State.setTsc_diagq (p : PortId) (b : Bool) : (s.setTsc p b).diagq = s.diagq := rfl
@[simp] theorem State.setTsc_lineq (p : PortId) (b : Bool) : (s.setTsc p b).lineq = s.lineq := rfl
@[simp] theorem State.setTsc_resp (p : PortId) (b : Bool) : (s.setTsc p b).resp = s.resp := rfl
@[simp] theorem State.setTsc_env (p : PortId) (b : Bool) : (s.setTsc p b).env = s.env := rfl
@[simp] theorem State.setTsc_chan (p : PortId) (b : Bool) : (s.setTsc p b).chan = s.chan := rfl
@[simp] theorem State.setTsc_port (p : PortId) (b : Bool) : (s.setTsc p b).port = s.port := rfl
@[simp] theorem State.setTsc_lineIn (p : PortId) (b : Bool) : (s.setTsc p b).lineIn = s.lineIn := rfl
@[simp] theorem State.setTsc_txRing (p : PortId) (b : Bool) : (s.setTsc p b).txRing = s.txRing := rfl
@[simp] theorem State.setTsc_rxRing (p : PortId) (b : Bool) : (s.setTsc p b).rxRing = s.rxRing := rfl
@[simp] theorem State.setTsc_rxOvf (p : PortId) (b : Bool) : (s.setTsc p b).rxOvf = s.rxOvf := rfl
@[simp] theorem State.setTsc_own (p : PortId) (b : Bool) : (s.setTsc p b).own = s.own := rfl
@[simp] theorem State.setTsc_slotReg (p : PortId) (b : Bool) : (s.setTsc p b).slotReg = s.slotReg := rfl
@[simp] theorem State.setTsc_ch (p : PortId) (b : Bool) : (s.setTsc p b).ch = s.ch := rfl
@[simp] theorem State.setTsc_pt (p : PortId) (b : Bool) : (s.setTsc p b).pt = s.pt := rfl
@[simp] theorem State.setTsc_inp (p : PortId) (b : Bool) : (s.setTsc p b).inp = s.inp := rfl
@[simp] theorem State.setTsc_ring (p : PortId) (b : Bool) : (s.setTsc p b).ring = s.ring := rfl
@[simp] theorem State.setTsc_ovf (p : PortId) (b : Bool) : (s.setTsc p b).ovf = s.ovf := rfl
@[simp] theorem State.setTsc_ownAt (p : PortId) (b : Bool) : (s.setTsc p b).ownAt = s.ownAt := rfl
@[simp] theorem State.setTsc_regAt (p : PortId) (b : Bool) : (s.setTsc p b).regAt = s.regAt := rfl

@[simp] theorem State.latchLostData_cfg : s.latchLostData.cfg = s.cfg := rfl
@[simp] theorem State.latchLostData_ctl : s.latchLostData.ctl = s.ctl := rfl
@[simp] theorem State.latchLostData_mem : s.latchLostData.mem = s.mem := rfl
@[simp] theorem State.latchLostData_status : s.latchLostData.status = { s.status with lostData := true } := rfl
@[simp] theorem State.latchLostData_sel : s.latchLostData.sel = s.sel := rfl
@[simp] theorem State.latchLostData_evq : s.latchLostData.evq = s.evq := rfl
@[simp] theorem State.latchLostData_diagq : s.latchLostData.diagq = s.diagq := rfl
@[simp] theorem State.latchLostData_lineq : s.latchLostData.lineq = s.lineq := rfl
@[simp] theorem State.latchLostData_resp : s.latchLostData.resp = s.resp := rfl
@[simp] theorem State.latchLostData_env : s.latchLostData.env = s.env := rfl
@[simp] theorem State.latchLostData_chan : s.latchLostData.chan = s.chan := rfl
@[simp] theorem State.latchLostData_port : s.latchLostData.port = s.port := rfl
@[simp] theorem State.latchLostData_lineIn : s.latchLostData.lineIn = s.lineIn := rfl
@[simp] theorem State.latchLostData_txRing : s.latchLostData.txRing = s.txRing := rfl
@[simp] theorem State.latchLostData_rxRing : s.latchLostData.rxRing = s.rxRing := rfl
@[simp] theorem State.latchLostData_rxOvf : s.latchLostData.rxOvf = s.rxOvf := rfl
@[simp] theorem State.latchLostData_own : s.latchLostData.own = s.own := rfl
@[simp] theorem State.latchLostData_slotReg : s.latchLostData.slotReg = s.slotReg := rfl
@[simp] theorem State.latchLostData_ch : s.latchLostData.ch = s.ch := rfl
@[simp] theorem State.latchLostData_pt : s.latchLostData.pt = s.pt := rfl
@[simp] theorem State.latchLostData_inp : s.latchLostData.inp = s.inp := rfl
@[simp] theorem State.latchLostData_ring : s.latchLostData.ring = s.ring := rfl
@[simp] theorem State.latchLostData_ovf : s.latchLostData.ovf = s.ovf := rfl
@[simp] theorem State.latchLostData_ownAt : s.latchLostData.ownAt = s.ownAt := rfl
@[simp] theorem State.latchLostData_regAt : s.latchLostData.regAt = s.regAt := rfl

@[simp] theorem State.handOut_cfg (c : ChanId) (y : LineSymbol) : (s.handOut c y).cfg = s.cfg := rfl
@[simp] theorem State.handOut_ctl (c : ChanId) (y : LineSymbol) : (s.handOut c y).ctl = s.ctl := rfl
@[simp] theorem State.handOut_mem (c : ChanId) (y : LineSymbol) : (s.handOut c y).mem = s.mem := rfl
@[simp] theorem State.handOut_status (c : ChanId) (y : LineSymbol) : (s.handOut c y).status = s.status := rfl
@[simp] theorem State.handOut_sel (c : ChanId) (y : LineSymbol) : (s.handOut c y).sel = s.sel := rfl
@[simp] theorem State.handOut_evq (c : ChanId) (y : LineSymbol) : (s.handOut c y).evq = s.evq := rfl
@[simp] theorem State.handOut_diagq (c : ChanId) (y : LineSymbol) : (s.handOut c y).diagq = s.diagq := rfl
@[simp] theorem State.handOut_lineq (c : ChanId) (y : LineSymbol) : (s.handOut c y).lineq = s.lineq := rfl
@[simp] theorem State.handOut_resp (c : ChanId) (y : LineSymbol) : (s.handOut c y).resp = s.resp := rfl
@[simp] theorem State.handOut_env (c : ChanId) (y : LineSymbol) : (s.handOut c y).env = { s.env with taken := s.env.taken ++ [(c, y)] } := rfl
@[simp] theorem State.handOut_chan (c : ChanId) (y : LineSymbol) : (s.handOut c y).chan = s.chan := rfl
@[simp] theorem State.handOut_port (c : ChanId) (y : LineSymbol) : (s.handOut c y).port = s.port := rfl
@[simp] theorem State.handOut_lineIn (c : ChanId) (y : LineSymbol) : (s.handOut c y).lineIn = s.lineIn := rfl
@[simp] theorem State.handOut_txRing (c : ChanId) (y : LineSymbol) : (s.handOut c y).txRing = s.txRing := rfl
@[simp] theorem State.handOut_rxRing (c : ChanId) (y : LineSymbol) : (s.handOut c y).rxRing = s.rxRing := rfl
@[simp] theorem State.handOut_rxOvf (c : ChanId) (y : LineSymbol) : (s.handOut c y).rxOvf = s.rxOvf := rfl
@[simp] theorem State.handOut_own (c : ChanId) (y : LineSymbol) : (s.handOut c y).own = s.own := rfl
@[simp] theorem State.handOut_slotReg (c : ChanId) (y : LineSymbol) : (s.handOut c y).slotReg = s.slotReg := rfl
@[simp] theorem State.handOut_ch (c : ChanId) (y : LineSymbol) : (s.handOut c y).ch = s.ch := rfl
@[simp] theorem State.handOut_pt (c : ChanId) (y : LineSymbol) : (s.handOut c y).pt = s.pt := rfl
@[simp] theorem State.handOut_inp (c : ChanId) (y : LineSymbol) : (s.handOut c y).inp = s.inp := rfl
@[simp] theorem State.handOut_ring (c : ChanId) (y : LineSymbol) : (s.handOut c y).ring = s.ring := rfl
@[simp] theorem State.handOut_ovf (c : ChanId) (y : LineSymbol) : (s.handOut c y).ovf = s.ovf := rfl
@[simp] theorem State.handOut_ownAt (c : ChanId) (y : LineSymbol) : (s.handOut c y).ownAt = s.ownAt := rfl
@[simp] theorem State.handOut_regAt (c : ChanId) (y : LineSymbol) : (s.handOut c y).regAt = s.regAt := rfl

@[simp] theorem State.activate_cfg (p : PortId) : (s.activate p).cfg = s.cfg := by unfold State.activate; split <;> rfl
@[simp] theorem State.activate_ctl (p : PortId) : (s.activate p).ctl = s.ctl := by unfold State.activate; split <;> rfl
@[simp] theorem State.activate_mem (p : PortId) : (s.activate p).mem = s.mem := by unfold State.activate; split <;> rfl
@[simp] theorem State.activate_status (p : PortId) : (s.activate p).status = s.status := by unfold State.activate; split <;> rfl
@[simp] theorem State.activate_sel (p : PortId) : (s.activate p).sel = s.sel := by unfold State.activate; split <;> rfl
@[simp] theorem State.activate_diagq (p : PortId) : (s.activate p).diagq = s.diagq := by unfold State.activate; split <;> rfl
@[simp] theorem State.activate_lineq (p : PortId) : (s.activate p).lineq = s.lineq := by unfold State.activate; split <;> rfl
@[simp] theorem State.activate_resp (p : PortId) : (s.activate p).resp = s.resp := by unfold State.activate; split <;> rfl
@[simp] theorem State.activate_env (p : PortId) : (s.activate p).env = s.env := by unfold State.activate; split <;> rfl
@[simp] theorem State.activate_chan (p : PortId) : (s.activate p).chan = s.chan := by unfold State.activate; split <;> rfl
@[simp] theorem State.activate_lineIn (p : PortId) : (s.activate p).lineIn = s.lineIn := by unfold State.activate; split <;> rfl
@[simp] theorem State.activate_txRing (p : PortId) : (s.activate p).txRing = s.txRing := by unfold State.activate; split <;> rfl
@[simp] theorem State.activate_rxRing (p : PortId) : (s.activate p).rxRing = s.rxRing := by unfold State.activate; split <;> rfl
@[simp] theorem State.activate_rxOvf (p : PortId) : (s.activate p).rxOvf = s.rxOvf := by unfold State.activate; split <;> rfl
@[simp] theorem State.activate_own (p : PortId) : (s.activate p).own = s.own := by unfold State.activate; split <;> rfl
@[simp] theorem State.activate_slotReg (p : PortId) : (s.activate p).slotReg = s.slotReg := by unfold State.activate; split <;> rfl
@[simp] theorem State.activate_ch (p : PortId) : (s.activate p).ch = s.ch := by unfold State.activate; split <;> rfl
@[simp] theorem State.activate_inp (p : PortId) : (s.activate p).inp = s.inp := by unfold State.activate; split <;> rfl
@[simp] theorem State.activate_ring (p : PortId) : (s.activate p).ring = s.ring := by unfold State.activate; split <;> rfl
@[simp] theorem State.activate_ovf (p : PortId) : (s.activate p).ovf = s.ovf := by unfold State.activate; split <;> rfl
@[simp] theorem State.activate_ownAt (p : PortId) : (s.activate p).ownAt = s.ownAt := by unfold State.activate; split <;> rfl
@[simp] theorem State.activate_regAt (p : PortId) : (s.activate p).regAt = s.regAt := by unfold State.activate; split <;> rfl

@[simp] theorem State.deactivate_cfg (p : PortId) : (s.deactivate p).cfg = s.cfg := by unfold State.deactivate; split <;> rfl
@[simp] theorem State.deactivate_ctl (p : PortId) : (s.deactivate p).ctl = s.ctl := by unfold State.deactivate; split <;> rfl
@[simp] theorem State.deactivate_mem (p : PortId) : (s.deactivate p).mem = s.mem := by unfold State.deactivate; split <;> rfl
@[simp] theorem State.deactivate_status (p : PortId) : (s.deactivate p).status = s.status := by unfold State.deactivate; split <;> rfl
@[simp] theorem State.deactivate_sel (p : PortId) : (s.deactivate p).sel = s.sel := by unfold State.deactivate; split <;> rfl
@[simp] theorem State.deactivate_diagq (p : PortId) : (s.deactivate p).diagq = s.diagq := by unfold State.deactivate; split <;> rfl
@[simp] theorem State.deactivate_lineq (p : PortId) : (s.deactivate p).lineq = s.lineq := by unfold State.deactivate; split <;> rfl
@[simp] theorem State.deactivate_resp (p : PortId) : (s.deactivate p).resp = s.resp := by unfold State.deactivate; split <;> rfl
@[simp] theorem State.deactivate_env (p : PortId) : (s.deactivate p).env = s.env := by unfold State.deactivate; split <;> rfl
@[simp] theorem State.deactivate_chan (p : PortId) : (s.deactivate p).chan = s.chan := by unfold State.deactivate; split <;> rfl
@[simp] theorem State.deactivate_lineIn (p : PortId) : (s.deactivate p).lineIn = s.lineIn := by unfold State.deactivate; split <;> rfl
@[simp] theorem State.deactivate_txRing (p : PortId) : (s.deactivate p).txRing = s.txRing := by unfold State.deactivate; split <;> rfl
@[simp] theorem State.deactivate_rxRing (p : PortId) : (s.deactivate p).rxRing = s.rxRing := by unfold State.deactivate; split <;> rfl
@[simp] theorem State.deactivate_rxOvf (p : PortId) : (s.deactivate p).rxOvf = s.rxOvf := by unfold State.deactivate; split <;> rfl
@[simp] theorem State.deactivate_own (p : PortId) : (s.deactivate p).own = s.own := by unfold State.deactivate; split <;> rfl
@[simp] theorem State.deactivate_slotReg (p : PortId) : (s.deactivate p).slotReg = s.slotReg := by unfold State.deactivate; split <;> rfl
@[simp] theorem State.deactivate_ch (p : PortId) : (s.deactivate p).ch = s.ch := by unfold State.deactivate; split <;> rfl
@[simp] theorem State.deactivate_inp (p : PortId) : (s.deactivate p).inp = s.inp := by unfold State.deactivate; split <;> rfl
@[simp] theorem State.deactivate_ring (p : PortId) : (s.deactivate p).ring = s.ring := by unfold State.deactivate; split <;> rfl
@[simp] theorem State.deactivate_ovf (p : PortId) : (s.deactivate p).ovf = s.ovf := by unfold State.deactivate; split <;> rfl
@[simp] theorem State.deactivate_ownAt (p : PortId) : (s.deactivate p).ownAt = s.ownAt := by unfold State.deactivate; split <;> rfl
@[simp] theorem State.deactivate_regAt (p : PortId) : (s.deactivate p).regAt = s.regAt := by unfold State.deactivate; split <;> rfl

@[simp] theorem State.setReady_tx_status (c : ChanId) (b : Bool) :
    (s.setReady c .tx b).status = { s.status with readyTx := s.status.readyTx.set c.val b c.isLt } := rfl
@[simp] theorem State.setReady_rx_status (c : ChanId) (b : Bool) :
    (s.setReady c .rx b).status = { s.status with readyRx := s.status.readyRx.set c.val b c.isLt } := rfl

/-- A ring read back after a write to a ring. -/
@[simp] theorem State.setRing_ring (c k : ChanId) (d e : Dir) (r : Ring) :
    (s.setRing c d r).ring k e = if c = k ∧ d = e then r else s.ring k e := by
  cases d <;> cases e <;> simp [State.ring, State.setRing, get_set_fin]

/-- Writing a transmit ring leaves every receive ring. -/
@[simp] theorem State.setRing_tx_rxRing (c : ChanId) (r : Ring) : (s.setRing c .tx r).rxRing = s.rxRing := rfl
/-- Writing a receive ring leaves every transmit ring. -/
@[simp] theorem State.setRing_rx_txRing (c : ChanId) (r : Ring) : (s.setRing c .rx r).txRing = s.txRing := rfl

/-- The activity gate sets `active` and writes nothing else of the port (R181). -/
@[simp] theorem State.activate_pt (p k : PortId) :
    (s.activate p).pt k = if p = k then { s.pt p with active := true } else s.pt k := by
  unfold State.activate
  split
  · rename_i h
    split
    · rename_i e; subst e; rw [← h]
    · rfl
  · simp

/-- The activity gate clears `active` and writes nothing else of the port (R181). -/
@[simp] theorem State.deactivate_pt (p k : PortId) :
    (s.deactivate p).pt k = if p = k then { s.pt p with active := false } else s.pt k := by
  unfold State.deactivate
  split
  · simp
  · rename_i h
    split
    · rename_i e; subst e; rw [Bool.not_eq_true] at h; rw [← h]
    · rfl

/-- ACTIVATE is emitted exactly when the port was not active (R181). -/
@[simp] theorem State.activate_evq (p : PortId) :
    (s.activate p).evq = s.evq ++ if (s.pt p).active then [] else [.activate p] := by
  unfold State.activate; split <;> simp_all

/-- DEACTIVATE is emitted exactly when the port was active (R181). -/
@[simp] theorem State.deactivate_evq (p : PortId) :
    (s.deactivate p).evq = s.evq ++ if (s.pt p).active then [.deactivate p] else [] := by
  unfold State.deactivate; split <;> simp_all

end Sys2Proof.Machine
end

