-- ==== Sys2Proof/Laws/Memory.lean ====
section
/-! SUPPORT. The laws of the cell memory: a read after a write, and the canonical form. -/

namespace Sys2Proof.Machine

/-- A write changes what is read at its own address and nowhere else. -/
@[simp] theorem Memory.read_write (m : Memory) (k j : Nat) (v : Byte) :
    (m.write k v).read j = if k = j then some v else m.read j := by
  induction m with
  | nil => simp [Memory.write, Memory.read]
  | cons x rest ih =>
    obtain ⟨a, b⟩ := x
    simp only [Memory.write]
    split
    · simp only [Memory.read]
    · split
      · subst k; simp only [Memory.read]; split <;> simp_all
      · simp only [Memory.read, ih]
        split <;> split <;> simp_all

/-- A list is in canonical form exactly when its addresses rise strictly. -/
theorem Memory.wf_iff (m : Memory) : m.wf = true ↔ m.Pairwise fun x y => x.1 < y.1 := by
  induction m with
  | nil => simp [Memory.wf, Memory.sorted]
  | cons x rest ih =>
    cases rest with
    | nil => simp [Memory.wf, Memory.sorted]
    | cons y rest =>
      simp only [Memory.wf] at ih
      simp only [Memory.wf, Memory.sorted, Bool.and_eq_true, decide_eq_true_eq, ih]
      constructor
      · rintro ⟨hxy, h⟩
        refine List.pairwise_cons.2 ⟨?_, h⟩
        intro z hz
        rcases List.mem_cons.1 hz with rfl | hz
        · exact hxy
        · exact Nat.lt_trans hxy ((List.pairwise_cons.1 h).1 z hz)
      · intro h
        exact ⟨(List.pairwise_cons.1 h).1 y (List.mem_cons_self ..), (List.pairwise_cons.1 h).2⟩

/-- What a write lists: its own address, and what was listed. -/
theorem Memory.mem_write (m : Memory) (k : Nat) (v : Byte) (x : Host.Cell) (h : x ∈ m.write k v) : x = (k, v) ∨ x ∈ m := by
  induction m with
  | nil => simp_all [Memory.write]
  | cons y rest ih =>
    obtain ⟨a, b⟩ := y
    simp only [Memory.write] at h
    split at h
    · simpa using h
    · split at h
      · rcases List.mem_cons.1 h with h | h
        · exact .inl h
        · exact .inr (List.mem_cons_of_mem _ h)
      · rcases List.mem_cons.1 h with h | h
        · exact .inr (h ▸ List.mem_cons_self ..)
        · rcases ih h with h | h
          · exact .inl h
          · exact .inr (List.mem_cons_of_mem _ h)

/-- A write keeps the canonical form. -/
theorem Memory.wf_write (m : Memory) (k : Nat) (v : Byte) (h : m.wf = true) : (m.write k v).wf = true := by
  rw [Memory.wf_iff] at h ⊢
  induction m with
  | nil => simp [Memory.write]
  | cons y rest ih =>
    obtain ⟨a, b⟩ := y
    obtain ⟨hy, hr⟩ := List.pairwise_cons.1 h
    simp only [Memory.write]
    split
    · rename_i hk
      refine List.pairwise_cons.2 ⟨?_, h⟩
      intro z hz
      rcases List.mem_cons.1 hz with rfl | hz
      · exact hk
      · exact Nat.lt_trans hk (hy z hz)
    · split
      · subst k
        exact List.pairwise_cons.2 ⟨hy, hr⟩
      · refine List.pairwise_cons.2 ⟨?_, ih hr⟩
        intro z hz
        rcases Memory.mem_write _ _ _ _ hz with rfl | hz
        · simp only; omega
        · exact hy z hz

/-- Cells of different rings have different keys. -/
theorem cellAddr_ne (c : Config) (ch k : ChanId) (d e : Dir) (z w : Nat) (h : ¬(ch = k ∧ d = e)) :
    cellAddr c ch d z ≠ cellAddr c k e w := by
  intro heq
  apply h
  have hz : (z - c.zmin) % 65536 < 65536 := Nat.mod_lt _ (by decide)
  have hw : (w - c.zmin) % 65536 < 65536 := Nat.mod_lt _ (by decide)
  unfold cellAddr at heq
  have hd : ch.val * 2 + d.num = k.val * 2 + e.num := by omega
  cases d <;> cases e <;> simp only [Dir.num] at hd <;> first
    | exact ⟨Fin.ext (by omega), rfl⟩
    | omega

/-- Different Z values of a configuration name different cells of a ring (R51). -/
theorem cellAddr_inj (c : Config) (ch : ChanId) (d : Dir) (z w : Nat) (hz : c.zmin ≤ z) (hw : c.zmin ≤ w)
    (hz' : z < c.zmin + c.zlen) (hw' : w < c.zmin + c.zlen) (hc : c.zlen ≤ 65536)
    (h : cellAddr c ch d z = cellAddr c ch d w) : z = w := by
  unfold cellAddr at h
  have h1 : (z - c.zmin) % 65536 = z - c.zmin := Nat.mod_eq_of_lt (by omega)
  have h2 : (w - c.zmin) % 65536 = w - c.zmin := Nat.mod_eq_of_lt (by omega)
  omega

end Sys2Proof.Machine
end

