-- ==== Sys2Proof/Laws/Line.lean ====
section
/-! SUPPORT. What the line side and the timer can do to a state, said once: `LineFrame s t` holds between a state and the state
after any of their steps (R60, R195). -/

namespace Sys2Proof.Machine

/-- What no step of the line side or of the timer writes. -/
structure LineFrame (s t : State) : Prop where
  cfg : t.cfg = s.cfg
  ctl : t.ctl = s.ctl
  chan : t.chan = s.chan
  port : t.port = s.port
  own : t.own = s.own
  slotReg : t.slotReg = s.slotReg
  sel : t.sel = s.sel
  evq : t.evq = s.evq
  diagq : t.diagq = s.diagq
  lineq : t.lineq = s.lineq
  resp : t.resp = s.resp
  /-- the block's side of a transmit ring -/
  tx : ∀ c, (t.ring c .tx).z2 = (s.ring c .tx).z2 ∧ (t.ring c .tx).f1 = (s.ring c .tx).f1
    ∧ (t.ring c .tx).fend = (s.ring c .tx).fend
  /-- the block's side of a receive ring -/
  rx : ∀ c, (t.ring c .rx).z2 = (s.ring c .rx).z2 ∧ (t.ring c .rx).f2 = (s.ring c .rx).f2
  /-- no cell of a transmit ring is written -/
  cell : ∀ c z, t.cell c .tx z = s.cell c .tx z
  inputs : t.env.inputs = s.env.inputs
  sched : t.env.sched = s.env.sched
  reads : t.env.reads = s.env.reads
  checks : t.env.checks = s.env.checks
  readLog : t.env.readLog = s.env.readLog

theorem LineFrame.refl (s : State) : LineFrame s s := by
  constructor <;> intros <;> first | rfl | exact ⟨rfl, rfl, rfl⟩ | exact ⟨rfl, rfl⟩

theorem LineFrame.trans {s t u : State} (h : LineFrame s t) (k : LineFrame t u) : LineFrame s u where
  cfg := k.cfg.trans h.cfg
  ctl := k.ctl.trans h.ctl
  chan := k.chan.trans h.chan
  port := k.port.trans h.port
  own := k.own.trans h.own
  slotReg := k.slotReg.trans h.slotReg
  sel := k.sel.trans h.sel
  evq := k.evq.trans h.evq
  diagq := k.diagq.trans h.diagq
  lineq := k.lineq.trans h.lineq
  resp := k.resp.trans h.resp
  tx c := ⟨(k.tx c).1.trans (h.tx c).1, (k.tx c).2.1.trans (h.tx c).2.1, (k.tx c).2.2.trans (h.tx c).2.2⟩
  rx c := ⟨(k.rx c).1.trans (h.rx c).1, (k.rx c).2.trans (h.rx c).2⟩
  cell c z := (k.cell c z).trans (h.cell c z)
  inputs := k.inputs.trans h.inputs
  sched := k.sched.trans h.sched
  reads := k.reads.trans h.reads
  checks := k.checks.trans h.checks
  readLog := k.readLog.trans h.readLog

/-- The channel records, through their accessor. -/
theorem LineFrame.ch {s t : State} (h : LineFrame s t) : t.ch = s.ch := by funext c; simp only [State.ch, h.chan]

/-- The port records, through their accessor. -/
theorem LineFrame.pt {s t : State} (h : LineFrame s t) : t.pt = s.pt := by funext c; simp only [State.pt, h.port]

/-- Drawing a byte writes the model's own fields only. -/
theorem State.drawByte_env (s : State) : ∃ e, s.drawByte.2 = s.setEnv e ∧ e.inputs = s.env.inputs ∧ e.sched = s.env.sched
    ∧ e.reads = s.env.reads ∧ e.checks = s.env.checks ∧ e.readLog = s.env.readLog := by
  unfold State.drawByte; split <;> exact ⟨_, rfl, rfl, rfl, rfl, rfl, rfl⟩

/-- Drawing a status writes the model's own fields only, and the status is not 0x00 (R128, U3). -/
theorem State.drawStatus_env (s : State) : s.drawStatus.1 ≠ 0 ∧ ∃ e, s.drawStatus.2 = s.setEnv e ∧ e.inputs = s.env.inputs
    ∧ e.sched = s.env.sched ∧ e.reads = s.env.reads ∧ e.checks = s.env.checks ∧ e.readLog = s.env.readLog := by
  have nz : ∀ x : Fin 255, BitVec.ofNat 8 (x.val + 1) ≠ 0 := by
    intro x h
    have h' : (x.val + 1) % 2 ^ 8 = 0 := congrArg BitVec.toNat h
    have := x.isLt
    omega
  unfold State.drawStatus
  split
  · exact ⟨nz _, _, rfl, rfl, rfl, rfl, rfl, rfl⟩
  · exact ⟨nz _, _, rfl, rfl, rfl, rfl, rfl, rfl⟩

/-- Drawing the outcome of a stable read writes the model's own fields only. -/
theorem State.drawReadFails_env (s : State) : ∃ e, s.drawReadFails.2 = s.setEnv e ∧ e.inputs = s.env.inputs
    ∧ e.sched = s.env.sched ∧ e.checks = s.env.checks := by
  unfold State.drawReadFails; split <;> exact ⟨_, rfl, rfl, rfl, rfl⟩

/-- A stable read's state: only the environment's fields are written, and of them neither inputs nor scheduled bursts. -/
theorem readNow_env (k : LineCounter) (s : State) : ∃ e, (readNow k s).2 = s.setEnv e ∧ e.inputs = s.env.inputs
    ∧ e.sched = s.env.sched := by
  obtain ⟨e, he, hi, hs, -⟩ := s.drawReadFails_env
  show ∃ e', s.drawReadFails.2.logRead k s.drawReadFails.1 = s.setEnv e' ∧ _
  unfold State.logRead
  rw [he]
  cases (s.setEnv e).sel with
  | none => exact ⟨e, rfl, hi, hs⟩
  | some r => exact ⟨_, rfl, hi, hs⟩

/-- Drawing the bring-up answers writes the model's own fields only. -/
theorem State.drawChecks_env (s : State) : ∃ e, s.drawChecks.2 = s.setEnv e ∧ e.inputs = s.env.inputs := by
  unfold State.drawChecks; split <;> exact ⟨_, rfl, rfl⟩

/-- Reading a cell writes the model's own fields at most. -/
theorem State.readCell_env (s : State) (c : ChanId) (d : Dir) (z : Nat) : ∃ e, (s.readCell c d z).2 = s.setEnv e
    ∧ e.inputs = s.env.inputs ∧ e.sched = s.env.sched ∧ e.reads = s.env.reads ∧ e.checks = s.env.checks ∧ e.readLog = s.env.readLog := by
  unfold State.readCell
  split
  · exact ⟨s.env, rfl, rfl, rfl, rfl, rfl, rfl⟩
  · exact s.drawByte_env

/-- A step that writes only the model's own fields, other than what is scheduled, is within the frame. -/
theorem LineFrame.ofEnv (s : State) (e : Env) (h : e.inputs = s.env.inputs ∧ e.sched = s.env.sched ∧ e.reads = s.env.reads
    ∧ e.checks = s.env.checks ∧ e.readLog = s.env.readLog) : LineFrame s (s.setEnv e) where
  cfg := rfl
  ctl := rfl
  chan := rfl
  port := rfl
  own := rfl
  slotReg := rfl
  sel := rfl
  evq := rfl
  diagq := rfl
  lineq := rfl
  resp := rfl
  tx _ := ⟨rfl, rfl, rfl⟩
  rx _ := ⟨rfl, rfl⟩
  cell _ _ := rfl
  inputs := h.1
  sched := h.2.1
  reads := h.2.2.1
  checks := h.2.2.2.1
  readLog := h.2.2.2.2

/-- Reading a cell is within the frame. -/
theorem LineFrame.readCell (s : State) (c : ChanId) (d : Dir) (z : Nat) : LineFrame s (s.readCell c d z).2 := by
  obtain ⟨e, he, h⟩ := s.readCell_env c d z
  rw [he]; exact LineFrame.ofEnv s e h

/-- Handing out a symbol is within the frame. -/
theorem LineFrame.handOut (s : State) (c : ChanId) (y : LineSymbol) : LineFrame s (s.handOut c y) :=
  LineFrame.ofEnv s _ ⟨rfl, rfl, rfl, rfl, rfl⟩

/-- Latching status bits is within the frame. -/
theorem LineFrame.setStatus (s : State) (x : Status) : LineFrame s (s.setStatus x) := by
  constructor <;> intros <;> simp [State.cell]

theorem LineFrame.setReady (s : State) (c : ChanId) (d : Dir) (b : Bool) : LineFrame s (s.setReady c d b) := by
  cases d <;> exact LineFrame.setStatus _ _

theorem LineFrame.setOvf (s : State) (c : ChanId) (b : Bool) : LineFrame s (s.setOvf c b) := by
  constructor <;> intros <;> simp [State.cell]

theorem LineFrame.setLineIn (s : State) (p : PortId) (x : LineIn) : LineFrame s (s.setLineIn p x) := by
  constructor <;> intros <;> simp [State.cell]

/-- Writing the line's counters of a transmit ring is within the frame. -/
theorem LineFrame.setTx (s : State) (c : ChanId) (r : Ring) (h : r.z2 = (s.ring c .tx).z2 ∧ r.f1 = (s.ring c .tx).f1
    ∧ r.fend = (s.ring c .tx).fend) : LineFrame s (s.setRing c .tx r) := by
  constructor <;> intros <;> simp [State.cell]
  rename_i k; by_cases hk : c = k
  · subst hk; simpa using h
  · simp [hk]

/-- Writing the line's counters of a receive ring is within the frame. -/
theorem LineFrame.setRx (s : State) (c : ChanId) (r : Ring) (h : r.z2 = (s.ring c .rx).z2 ∧ r.f2 = (s.ring c .rx).f2) :
    LineFrame s (s.setRing c .rx r) := by
  constructor <;> intros <;> simp [State.cell]
  rename_i k; by_cases hk : c = k
  · subst hk; simpa using h
  · simp [hk]

/-- Storing a byte in a receive ring is within the frame. -/
theorem LineFrame.writeRx (s : State) (c : ChanId) (z : Nat) (b : Byte) : LineFrame s (s.writeCell c .rx z b) := by
  constructor <;> intros <;> simp [State.cell]
  rename_i k w
  intro h
  exact absurd h (cellAddr_ne s.cfg c k .rx .tx z w (by simp))

theorem lineTxTake_frame (c : ChanId) (s : State) : LineFrame s (lineTxTake c s) := by
  have hb : LineFrame s (takeByte c s) := by
    have h := LineFrame.readCell s c .tx (s.ring c .tx).z1
    refine h.trans (LineFrame.trans (LineFrame.setTx _ _ _ ?_) (LineFrame.handOut _ _ _))
    simp [(h.tx c).1, (h.tx c).2]
  have ht : LineFrame s (takeTail c s) := (LineFrame.readCell s c .tx _).trans (LineFrame.handOut _ _ _)
  have hf : LineFrame s (takeFrameEnd c s) := by
    refine LineFrame.trans (LineFrame.trans (LineFrame.setTx s c _ ?_) (LineFrame.setReady _ _ _ _)) (LineFrame.handOut _ _ _)
    exact ⟨rfl, rfl, rfl⟩
  unfold lineTxTake
  repeat' split
  all_goals first | exact hb | exact ht | exact hf | exact LineFrame.handOut _ _ _

theorem lineRxPut_frame (c : ChanId) (b : Byte) (s : State) : LineFrame s (lineRxPut c b s) := by
  unfold lineRxPut
  repeat' split
  · exact LineFrame.refl s
  · exact LineFrame.refl s
  · exact (LineFrame.setOvf _ _ _).trans (LineFrame.setStatus _ _)
  · exact (LineFrame.writeRx _ _ _ _).trans (LineFrame.setRx _ _ _ ⟨rfl, rfl⟩)

theorem closeFrame_frame (c : ChanId) (b : Byte) (s : State) : LineFrame s (closeFrame c b s) := by
  refine LineFrame.trans (LineFrame.trans (LineFrame.trans (LineFrame.writeRx _ _ _ _) (LineFrame.setRx _ _ _ ?_))
    (LineFrame.setOvf _ _ _)) (LineFrame.setReady _ _ _ _)
  exact ⟨rfl, rfl⟩

theorem lineRxEnd_frame (c : ChanId) (b : Byte) (s : State) : LineFrame s (lineRxEnd c b s) := by
  unfold lineRxEnd
  repeat' split
  · exact LineFrame.refl s
  · exact LineFrame.refl s
  · exact (LineFrame.setOvf _ _ _).trans (LineFrame.setStatus _ _)
  · rename_i st' s' h
    obtain ⟨-, e, he, hx⟩ := s.drawStatus_env
    rw [h] at he
    have hs : LineFrame s s' := by
      have : s' = s.setEnv e := he
      rw [this]; exact LineFrame.ofEnv s e hx
    exact hs.trans (closeFrame_frame _ _ _)
  · exact closeFrame_frame _ _ _

/-- Every step of the line side and of the timer is within the frame (R60, R195). -/
theorem applyStimulus_frame (st : Stimulus) (s : State) : LineFrame s (applyStimulus st s) := by
  cases st <;> simp only [applyStimulus]
  case lineTxTake c => exact lineTxTake_frame c s
  case lineRxPut c b => exact lineRxPut_frame c b s
  case lineRxEnd c b => exact lineRxEnd_frame c b s
  case ready c d => exact LineFrame.setReady _ _ _ _
  case lineState p x =>
    unfold Machine.lineState
    split
    · exact (LineFrame.setLineIn _ _ _).trans (LineFrame.setStatus _ _)
    · exact LineFrame.refl s
  case lineE1State p v =>
    unfold Machine.lineE1State
    split
    · exact (LineFrame.setLineIn _ _ _).trans (LineFrame.setStatus _ _)
    · exact LineFrame.refl s
  case lineSync p a b =>
    unfold Machine.lineSync
    split
    · exact LineFrame.setLineIn _ _ _
    · exact LineFrame.refl s
  case lineAlarm p b =>
    unfold Machine.lineAlarm
    split
    · exact LineFrame.setLineIn _ _ _
    · exact LineFrame.refl s
  case timerTick => exact LineFrame.setStatus _ _
  case tone => exact LineFrame.setStatus _ _

theorem runStimuli_frame (l : List Stimulus) (s : State) : LineFrame s (runStimuli l s) := by
  induction l generalizing s with
  | nil => exact LineFrame.refl s
  | cons st rest ih => exact (applyStimulus_frame st s).trans (ih _)

/-- With nothing scheduled no line-side step lands inside a command. -/
@[simp] theorem State.yield_of_sched_nil (s : State) (h : s.env.sched = []) : s.yield = s := by
  unfold State.yield; rw [h]

/-- A property that every step of the line side and of the timer keeps, and that does not read the schedule, holds at the next
access. -/
theorem State.yield_keeps {P : State → Prop} (hst : ∀ st s, P s → P (applyStimulus st s))
    (hsched : ∀ s sched, P s → P (s.setEnv { s.env with sched := sched })) (s : State) (h : P s) : P s.yield := by
  have run : ∀ l s, P s → P (runStimuli l s) := by
    intro l
    induction l with
    | nil => exact fun s h => h
    | cons st rest ih => exact fun s h => ih _ (hst st s h)
  unfold State.yield
  split
  · exact h
  · exact run _ _ (hsched _ _ h)

/-- The point before an access: the schedule advances, and what happens there is within the line side's frame (R57). -/
theorem State.yield_frame (s : State) : ∃ sched, LineFrame (s.setEnv { s.env with sched := sched }) s.yield := by
  unfold State.yield
  split
  · exact ⟨s.env.sched, LineFrame.refl s⟩
  · exact ⟨_, runStimuli_frame _ _⟩

section
variable (s : State)

@[simp] theorem State.yield_cfg : s.yield.cfg = s.cfg := by obtain ⟨_, h⟩ := s.yield_frame; exact h.cfg
@[simp] theorem State.yield_ctl : s.yield.ctl = s.ctl := by obtain ⟨_, h⟩ := s.yield_frame; exact h.ctl
@[simp] theorem State.yield_port : s.yield.port = s.port := by obtain ⟨_, h⟩ := s.yield_frame; exact h.port
@[simp] theorem State.yield_own : s.yield.own = s.own := by obtain ⟨_, h⟩ := s.yield_frame; exact h.own
@[simp] theorem State.yield_slotReg : s.yield.slotReg = s.slotReg := by obtain ⟨_, h⟩ := s.yield_frame; exact h.slotReg
@[simp] theorem State.yield_sel : s.yield.sel = s.sel := by obtain ⟨_, h⟩ := s.yield_frame; exact h.sel
@[simp] theorem State.yield_evq : s.yield.evq = s.evq := by obtain ⟨_, h⟩ := s.yield_frame; exact h.evq
@[simp] theorem State.yield_diagq : s.yield.diagq = s.diagq := by obtain ⟨_, h⟩ := s.yield_frame; exact h.diagq
@[simp] theorem State.yield_lineq : s.yield.lineq = s.lineq := by obtain ⟨_, h⟩ := s.yield_frame; exact h.lineq
@[simp] theorem State.yield_resp : s.yield.resp = s.resp := by obtain ⟨_, h⟩ := s.yield_frame; exact h.resp
@[simp] theorem State.yield_inputs : s.yield.env.inputs = s.env.inputs := by obtain ⟨_, h⟩ := s.yield_frame; exact h.inputs
@[simp] theorem State.yield_chan : s.yield.chan = s.chan := by obtain ⟨_, h⟩ := s.yield_frame; exact h.chan
@[simp] theorem State.yield_ch : s.yield.ch = s.ch := by obtain ⟨_, h⟩ := s.yield_frame; exact h.ch
@[simp] theorem State.yield_pt : s.yield.pt = s.pt := by obtain ⟨_, h⟩ := s.yield_frame; exact h.pt
@[simp] theorem State.yield_ownAt : s.yield.ownAt = s.ownAt := by funext i; simp only [State.ownAt, State.yield_own]
@[simp] theorem State.yield_regAt : s.yield.regAt = s.regAt := by funext i; simp only [State.regAt, State.yield_slotReg]
@[simp] theorem State.yield_cell_tx (c : ChanId) (z : Nat) : s.yield.cell c .tx z = s.cell c .tx z := by
  obtain ⟨_, h⟩ := s.yield_frame; exact h.cell c z
@[simp] theorem State.yield_tx_z2 (c : ChanId) : (s.yield.ring c .tx).z2 = (s.ring c .tx).z2 := by
  obtain ⟨_, h⟩ := s.yield_frame; exact (h.tx c).1
@[simp] theorem State.yield_tx_f1 (c : ChanId) : (s.yield.ring c .tx).f1 = (s.ring c .tx).f1 := by
  obtain ⟨_, h⟩ := s.yield_frame; exact (h.tx c).2.1
@[simp] theorem State.yield_rx_z2 (c : ChanId) : (s.yield.ring c .rx).z2 = (s.ring c .rx).z2 := by
  obtain ⟨_, h⟩ := s.yield_frame; exact (h.rx c).1
@[simp] theorem State.yield_rx_f2 (c : ChanId) : (s.yield.ring c .rx).f2 = (s.ring c .rx).f2 := by
  obtain ⟨_, h⟩ := s.yield_frame; exact (h.rx c).2

end

end Sys2Proof.Machine
end

