-- ==== Sys2Proof/Laws/Engine.lean ====
section
/-! SUPPORT. What transmit_fill and receive_drain can do to a state, said once: a property that every atomic access, every step of
the line side and every bookkeeping update keeps is kept by the whole procedure (R102, R113). -/

namespace Sys2Proof.Machine

/-- A property that everything the engine does on channel `c` keeps. -/
structure EngineKeeps (c : ChanId) (P : State → Prop) : Prop where
  yield : ∀ s, P s → P s.yield
  env : ∀ s e, e.inputs = s.env.inputs → e.sched = s.env.sched → P s → P (s.setEnv e)
  select : ∀ s d, P s → P (s.select c d)
  diag : ∀ s d, P s → P (s.diag d)
  txDone : ∀ s, P s → P (s.emit (.txDone c))
  rx : ∀ s b, P s → P (s.emit (.rx c b))
  push : ∀ s b, s.sel = some (c, .tx) → P s → P (pushNow b s)
  commit : ∀ s, s.sel = some (c, .tx) → P s → P (commitNow s)
  pop : ∀ s, s.sel = some (c, .rx) → P s → P (popNow s).2
  ack : ∀ s, s.sel = some (c, .rx) → P s → P (frameAckNow s)
  reset : ∀ s d, s.sel = some (c, d) → P s → P (resetNow s)
  edit : ∀ s f, (∀ x, Channel.sameProgramming x (f x)) → P s → P (s.modChan c f)

/-- An update of the bookkeeping fields of a channel record. -/
theorem sameProgramming_rfl (x : Channel) : Channel.sameProgramming x x := rfl

theorem readCell_sel (s : State) (c : ChanId) (d : Dir) (z : Nat) : (s.readCell c d z).2.sel = s.sel := by
  obtain ⟨e, he, -⟩ := s.readCell_env c d z
  rw [he]; rfl

section
variable {c : ChanId} {P : State → Prop} (k : EngineKeeps c P)
include k

theorem EngineKeeps.yieldSel {s : State} {o : Option (ChanId × Dir)} (h : P s ∧ s.sel = o) : P s.yield ∧ s.yield.sel = o :=
  ⟨k.yield s h.1, s.yield_sel.trans h.2⟩

theorem EngineKeeps.drawByte {s : State} {o : Option (ChanId × Dir)} (h : P s ∧ s.sel = o) :
    P s.drawByte.2 ∧ s.drawByte.2.sel = o := by
  obtain ⟨e, he, hi, hs, -⟩ := s.drawByte_env
  rw [he]; exact ⟨k.env _ _ hi hs h.1, h.2⟩

theorem EngineKeeps.stableRead {s : State} {o : Option (ChanId × Dir)} (r : LineCounter) (h : P s ∧ s.sel = o) :
    P (stableRead r s).2 ∧ (stableRead r s).2.sel = o := by
  have hy := k.yieldSel h
  obtain ⟨e, he, hi, hs⟩ := readNow_env r s.yield
  unfold Machine.stableRead
  rw [he]; exact ⟨k.env _ _ hi hs hy.1, hy.2⟩

theorem EngineKeeps.ringPush {s : State} (b : Byte) (h : P s ∧ s.sel = some (c, .tx)) :
    P (ringPush b s) ∧ (ringPush b s).sel = some (c, .tx) := by
  have hy := k.yieldSel h
  exact ⟨k.push _ b hy.2 hy.1, by simp [Machine.ringPush, pushNow, h.2]⟩

theorem EngineKeeps.ringCommit {s : State} (h : P s ∧ s.sel = some (c, .tx)) :
    P (ringCommit s) ∧ (ringCommit s).sel = some (c, .tx) := by
  have hy := k.yieldSel h
  exact ⟨k.commit _ hy.2 hy.1, by simp [Machine.ringCommit, commitNow, h.2]⟩

theorem EngineKeeps.ringPop {s : State} (h : P s ∧ s.sel = some (c, .rx)) :
    P (ringPop s).2 ∧ (ringPop s).2.sel = some (c, .rx) := by
  have hy := k.yieldSel h
  exact ⟨k.pop _ hy.2 hy.1, by simp [Machine.ringPop, popNow, h.2, readCell_sel]⟩

theorem EngineKeeps.ringFrameAck {s : State} (h : P s ∧ s.sel = some (c, .rx)) :
    P (ringFrameAck s) ∧ (ringFrameAck s).sel = some (c, .rx) := by
  have hy := k.yieldSel h
  exact ⟨k.ack _ hy.2 hy.1, by simp [Machine.ringFrameAck, frameAckNow, h.2]⟩

theorem EngineKeeps.ringReset {s : State} {d : Dir} (h : P s ∧ s.sel = some (c, d)) :
    P (ringReset s) ∧ (ringReset s).sel = some (c, d) := by
  have hy := k.yieldSel h
  refine ⟨k.reset _ d hy.2 hy.1, ?_⟩
  cases d <;> simp [Machine.ringReset, resetNow, h.2]

theorem EngineKeeps.modChan {s : State} {o : Option (ChanId × Dir)} (f : Channel → Channel)
    (hf : ∀ x, Channel.sameProgramming x (f x)) (h : P s ∧ s.sel = o) : P (s.modChan c f) ∧ (s.modChan c f).sel = o :=
  ⟨k.edit _ f hf h.1, h.2⟩

theorem EngineKeeps.pushBytes {l : List Byte} {s : State} (h : P s ∧ s.sel = some (c, .tx)) :
    P (pushBytes c l s) ∧ (pushBytes c l s).sel = some (c, .tx) := by
  induction l generalizing s with
  | nil => exact h
  | cons b rest ih => exact ih (k.modChan _ (fun _ => rfl) (k.ringPush b h))

theorem EngineKeeps.frameSpaceStep {s : State} (h : P s ∧ s.sel = some (c, .tx)) :
    P (frameSpaceStep c s).2 ∧ (frameSpaceStep c s).2.sel = some (c, .tx) := by
  have hr := k.stableRead .txF2 h
  unfold Machine.frameSpaceStep
  split
  · split
    · rename_i s' he; rw [he] at hr; exact ⟨k.diag _ _ hr.1, hr.2⟩
    · rename_i f2s s' he; rw [he] at hr; exact hr
  · exact h

theorem EngineKeeps.byteSpaceStep {s : State} (h : P s ∧ s.sel = some (c, .tx)) :
    P (byteSpaceStep c s).2 ∧ (byteSpaceStep c s).2.sel = some (c, .tx) := by
  have hr := k.stableRead .txZ1 h
  unfold Machine.byteSpaceStep
  split
  · rename_i s' he; rw [he] at hr; exact ⟨k.diag _ _ hr.1, hr.2⟩
  · rename_i f2s s' he; rw [he] at hr; exact hr

theorem EngineKeeps.fillSnapshot {s : State} (h : P s ∧ s.sel = some (c, .tx)) :
    P (fillSnapshot c s).2 ∧ (fillSnapshot c s).2.sel = some (c, .tx) := by
  have hr := k.frameSpaceStep h
  unfold Machine.fillSnapshot
  split
  · rename_i s' he; rw [he] at hr; exact hr
  · rename_i s' he; rw [he] at hr; exact k.byteSpaceStep hr

theorem EngineKeeps.nothingLeft {s : State} (zs : Nat) (h : P s ∧ s.sel = some (c, .tx)) :
    P (nothingLeft c zs s) ∧ (nothingLeft c zs s).sel = some (c, .tx) := by
  unfold Machine.nothingLeft
  refine k.modChan _ (fun _ => rfl) ?_
  split
  · exact k.ringPush _ h
  · exact h

theorem EngineKeeps.writeFrame {s : State} (fr : List Byte) (zs : Nat) (h : P s ∧ s.sel = some (c, .tx)) :
    P (writeFrame c fr zs s) ∧ (writeFrame c fr zs s).sel = some (c, .tx) :=
  k.modChan _ (fun _ => rfl) (k.pushBytes h)

theorem EngineKeeps.disconnectHighway {s : State} (h : P s ∧ s.sel = some (c, .tx)) :
    P (disconnectHighway c s) ∧ (disconnectHighway c s).sel = some (c, .tx) := by
  unfold Machine.disconnectHighway
  split
  · exact k.modChan _ (fun _ => rfl) h
  · exact h

theorem EngineKeeps.completeFrame {s : State} (rest : List (List Byte)) (h : P s ∧ s.sel = some (c, .tx)) :
    P (completeFrame c rest s) ∧ (completeFrame c rest s).sel = some (c, .tx) := by
  have h1 : P (if (s.ch c).proto = .hdlc then Machine.ringCommit s else s)
      ∧ (if (s.ch c).proto = .hdlc then Machine.ringCommit s else s).sel = some (c, .tx) := by
    split
    · exact k.ringCommit h
    · exact h
  have h2 := k.modChan (fun x => { x with txq := rest, cursor := 0 }) (fun _ => rfl) h1
  exact ⟨k.txDone _ h2.1, h2.2⟩

theorem EngineKeeps.fillLoop {q : List (List Byte)} {s : State} (h : P s ∧ s.sel = some (c, .tx)) :
    P (fillLoop c q s) ∧ (fillLoop c q s).sel = some (c, .tx) := by
  induction q generalizing s with
  | nil =>
    have hs := k.fillSnapshot h
    unfold Machine.fillLoop
    split
    · rename_i s' he; rw [he] at hs; exact hs
    · rename_i zs s' he; rw [he] at hs
      split
      · exact k.modChan _ (fun _ => rfl) hs
      · exact k.nothingLeft zs hs
  | cons fr rest ih =>
    have hs := k.fillSnapshot h
    unfold Machine.fillLoop
    split
    · rename_i s' he; rw [he] at hs; exact hs
    · rename_i zs s' he; rw [he] at hs
      have hw := k.writeFrame fr zs (k.disconnectHighway hs)
      dsimp only
      split
      · exact hw
      · split
        · exact k.nothingLeft zs (k.completeFrame rest hw)
        · exact ih (k.completeFrame rest hw)

/-- What every access, line-side step and bookkeeping update keeps, transmit_fill keeps (R102). -/
theorem transmitFill_keeps {s : State} (h : P s) : P (transmitFill c s) := by
  unfold transmitFill
  split
  · exact h
  · refine (k.fillLoop ?_).1
    have hsel : P (s.select c .tx) ∧ (s.select c .tx).sel = some (c, .tx) := ⟨k.select s .tx h, rfl⟩
    unfold deferredReset
    split
    · exact k.modChan _ (fun _ => rfl) (k.ringReset hsel)
    · exact hsel

theorem EngineKeeps.frameBoundary {s : State} (h : P s ∧ s.sel = some (c, .rx)) :
    P (frameBoundary c s).2 ∧ (frameBoundary c s).2.sel = some (c, .rx) := by
  have hr := k.stableRead .rxF1 h
  unfold Machine.frameBoundary
  split
  · split
    · rename_i s' he; rw [he] at hr; exact ⟨k.diag _ _ hr.1, hr.2⟩
    · rename_i f2s s' he; rw [he] at hr; exact hr
  · exact h

theorem EngineKeeps.drainSnapshot {s : State} (h : P s ∧ s.sel = some (c, .rx)) :
    P (drainSnapshot c s).2 ∧ (drainSnapshot c s).2.sel = some (c, .rx) := by
  have hb := k.frameBoundary h
  unfold Machine.drainSnapshot
  split
  · rename_i s' he; rw [he] at hb; exact hb
  · rename_i complete s' he; rw [he] at hb
    have hr := k.stableRead .rxZ1rep hb
    split
    · rename_i s'' he'; rw [he'] at hr; exact ⟨k.diag _ _ hr.1, hr.2⟩
    · rename_i zs s'' he'; rw [he'] at hr; exact hr

theorem EngineKeeps.popBytes {n : Nat} {s : State} (h : P s ∧ s.sel = some (c, .rx)) :
    P (popBytes c n s) ∧ (popBytes c n s).sel = some (c, .rx) := by
  induction n generalizing s with
  | zero => exact h
  | succ n ih => exact ih (k.modChan _ (fun _ => rfl) (k.ringPop h))

theorem EngineKeeps.finishFrame {s : State} (h : P s ∧ s.sel = some (c, .rx)) :
    P (finishFrame c s) ∧ (finishFrame c s).sel = some (c, .rx) := by
  unfold Machine.finishFrame
  refine k.modChan _ (fun _ => rfl) ?_
  split
  · exact ⟨k.diag _ _ h.1, h.2⟩
  · split
    · exact ⟨k.diag _ _ h.1, h.2⟩
    · exact ⟨k.rx _ _ h.1, h.2⟩

theorem EngineKeeps.deliverTransparent {s : State} (h : P s ∧ s.sel = some (c, .rx)) :
    P (deliverTransparent c s) ∧ (deliverTransparent c s).sel = some (c, .rx) := by
  unfold Machine.deliverTransparent
  split
  · exact k.modChan _ (fun _ => rfl) ⟨k.rx _ _ h.1, h.2⟩
  · exact h

theorem EngineKeeps.dropOversize {s : State} (h : P s ∧ s.sel = some (c, .rx)) :
    P (dropOversize c s) ∧ (dropOversize c s).sel = some (c, .rx) := by
  have hr := k.ringReset (k.modChan (fun x => { x with rxbuf := [] }) (fun _ => rfl) h)
  exact ⟨k.diag _ _ hr.1, hr.2⟩

theorem EngineKeeps.drainLoop {n : Nat} {s : State} (h : P s ∧ s.sel = some (c, .rx)) :
    P (drainLoop c n s) ∧ (drainLoop c n s).sel = some (c, .rx) := by
  induction n generalizing s with
  | zero => exact h
  | succ n ih =>
    have hs := k.drainSnapshot h
    unfold Machine.drainLoop
    split
    · rename_i s' he; rw [he] at hs; exact hs
    · rename_i complete avail s' he; rw [he] at hs
      repeat' split
      · exact hs
      · exact k.dropOversize hs
      · exact k.deliverTransparent (k.popBytes hs)
      · exact k.popBytes hs
      · exact ih (k.finishFrame (k.ringFrameAck (k.popBytes hs)))

/-- What every access, line-side step and bookkeeping update keeps, receive_drain keeps (R113). -/
theorem receiveDrain_keeps {s : State} (h : P s) : P (receiveDrain c s) := by
  unfold receiveDrain
  split
  · exact h
  · exact (k.drainLoop ⟨k.select s .rx h, rfl⟩).1

/-- The same of SERVICE's two procedures (R123). -/
theorem serve_keeps {s : State} (tx rx : Bool) (h : P s) : P (serve c tx rx s) := by
  have ht : P (if tx then transmitFill c s else s) := by
    split
    · exact transmitFill_keeps k h
    · exact h
  unfold serve
  split
  · exact receiveDrain_keeps k ht
  · exact ht

end

/-- What the engine leaves of a state, whatever the line side does meanwhile (R110, R113). -/
structure EngineFrame (c : ChanId) (s t : State) : Prop where
  cfg : t.cfg = s.cfg
  ctl : t.ctl = s.ctl
  port : t.port = s.port
  own : t.own = s.own
  slotReg : t.slotReg = s.slotReg
  lineq : t.lineq = s.lineq
  resp : t.resp = s.resp
  inputs : t.env.inputs = s.env.inputs
  others : ∀ k, k ≠ c → t.ch k = s.ch k
  self : Channel.sameProgramming (s.ch c) (t.ch c)

theorem EngineFrame.refl (c : ChanId) (s : State) : EngineFrame c s s := by
  constructor <;> intros <;> rfl

/-- A state that agrees with `t` on all the frame speaks of is in the frame when `t` is. -/
theorem EngineFrame.of_agree {c : ChanId} {s t u : State} (h : EngineFrame c s t) (hcfg : u.cfg = t.cfg) (hctl : u.ctl = t.ctl)
    (hport : u.port = t.port) (hown : u.own = t.own) (hreg : u.slotReg = t.slotReg) (hlq : u.lineq = t.lineq)
    (hresp : u.resp = t.resp) (hin : u.env.inputs = t.env.inputs) (hch : u.ch = t.ch) : EngineFrame c s u where
  cfg := hcfg.trans h.cfg
  ctl := hctl.trans h.ctl
  port := hport.trans h.port
  own := hown.trans h.own
  slotReg := hreg.trans h.slotReg
  lineq := hlq.trans h.lineq
  resp := hresp.trans h.resp
  inputs := hin.trans h.inputs
  others k hk := by rw [hch]; exact h.others k hk
  self := by rw [hch]; exact h.self

theorem sameProgramming_trans {x y z : Channel} (h : Channel.sameProgramming x y) (k : Channel.sameProgramming y z) :
    Channel.sameProgramming x z := by
  unfold Channel.sameProgramming at *
  rw [k, h]

/-- Everything the engine does on channel `c` is within the frame of `c`. -/
theorem engineFrame_keeps (c : ChanId) (s : State) : EngineKeeps c (EngineFrame c s) where
  yield t h := by
    obtain ⟨_, f⟩ := t.yield_frame
    exact h.of_agree f.cfg f.ctl f.port f.own f.slotReg f.lineq f.resp f.inputs f.ch
  env t e he _ h := h.of_agree rfl rfl rfl rfl rfl rfl rfl he rfl
  select t d h := h.of_agree rfl rfl rfl rfl rfl rfl rfl rfl rfl
  diag t d h := h.of_agree rfl rfl rfl rfl rfl rfl rfl rfl rfl
  txDone t h := h.of_agree rfl rfl rfl rfl rfl rfl rfl rfl rfl
  rx t b h := h.of_agree rfl rfl rfl rfl rfl rfl rfl rfl rfl
  push t b hs h := by unfold pushNow; rw [hs]; exact h.of_agree rfl rfl rfl rfl rfl rfl rfl rfl rfl
  commit t hs h := by unfold commitNow; rw [hs]; exact h.of_agree rfl rfl rfl rfl rfl rfl rfl rfl rfl
  pop t hs h := by
    unfold popNow; rw [hs]
    have f := LineFrame.readCell t c .rx (t.ring c .rx).z2
    have h' := h.of_agree f.cfg f.ctl f.port f.own f.slotReg f.lineq f.resp f.inputs f.ch
    exact h'.of_agree rfl rfl rfl rfl rfl rfl rfl rfl rfl
  ack t hs h := by unfold frameAckNow; rw [hs]; exact h.of_agree rfl rfl rfl rfl rfl rfl rfl rfl rfl
  reset t d hs h := by
    unfold resetNow; rw [hs]
    cases d <;> exact h.of_agree rfl rfl rfl rfl rfl rfl rfl rfl rfl
  edit t f hf h := by
    refine ⟨h.cfg, h.ctl, h.port, h.own, h.slotReg, h.lineq, h.resp, h.inputs, ?_, ?_⟩
    · intro k hk; rw [State.modChan_ch, if_neg (Ne.symm hk)]; exact h.others k hk
    · rw [State.modChan_ch, if_pos rfl]; exact sameProgramming_trans h.self (hf _)

/-- transmit_fill's frame (R110). -/
theorem transmitFill_frame (c : ChanId) (s : State) : EngineFrame c s (transmitFill c s) :=
  transmitFill_keeps (engineFrame_keeps c s) (EngineFrame.refl c s)

/-- receive_drain's frame (R113). -/
theorem receiveDrain_frame (c : ChanId) (s : State) : EngineFrame c s (receiveDrain c s) :=
  receiveDrain_keeps (engineFrame_keeps c s) (EngineFrame.refl c s)

/-- SERVICE's frame (R123). -/
theorem serve_frame (c : ChanId) (tx rx : Bool) (s : State) : EngineFrame c s (serve c tx rx s) :=
  serve_keeps (engineFrame_keeps c s) tx rx (EngineFrame.refl c s)

end Sys2Proof.Machine
end

