-- ==== Sys2Proof/Laws/Dispatch.lean ====
section
/-! SUPPORT. What a DISPATCH can do to a state, said once: a property that the engine, the line-state machines and the clearing of
status bits keep is kept by the whole body (R221). -/

namespace Sys2Proof.Machine

/-- A property, of states with configuration `g`, that every part of a DISPATCH keeps. -/
structure DispatchKeeps (g : Config) (P : State → Prop) : Prop where
  cfg : ∀ s, P s → s.cfg = g
  engine : ∀ c, EngineKeeps c P
  clearSummaries : ∀ s, P s → P (clearSummaries s)
  clearBlock : ∀ s b, P s → P (s.clearBlock b)
  tone : ∀ s, P s → P (s.emit .toneReady)
  ntReport : ∀ s p, portKind g p = some .nt → P s → P (ntReport p (s.inp p).repState s)
  ntCountdown : ∀ s p, portKind g p = some .nt → P s → P (ntCountdown p s)
  teReport : ∀ s p, portKind g p = some .te → P s → P (teReport p (s.inp p).repState s)
  e1Report : ∀ s p, portKind g p = some .trunk → P s → P (e1Report p s)
  trunkSyncPoll : ∀ s p, portKind g p = some .trunk → P s → P (trunkSyncPoll p s)
  trunkAlarmPoll : ∀ s p, portKind g p = some .trunk → P s → P (trunkAlarmPoll p s)

/-- A fold over steps that each keep a property keeps it. -/
theorem foldl_keeps {α : Type} {P : State → Prop} (f : State → α → State) (l : List α)
    (h : ∀ a ∈ l, ∀ s, P s → P (f s a)) (s : State) (hs : P s) : P (l.foldl f s) := by
  induction l generalizing s with
  | nil => exact hs
  | cons a rest ih =>
    exact ih (fun b hb => h b (List.mem_cons_of_mem _ hb)) _ (h a (List.mem_cons_self ..) s hs)

/-- Step 1's clearing writes only status bits. -/
theorem clearSummaries_status (s : State) : ∃ x, clearSummaries s = s.setStatus x := ⟨_, rfl⟩

/-- Clearing a block's bitmap writes only status bits. -/
theorem clearBlock_status (s : State) (b : BlockId) : ∃ x, s.clearBlock b = s.setStatus x := by
  have h : ∀ l : List (Fin 4), ∃ x,
      l.foldl (fun s k => (s.setReady (blockChan b k) .tx false).setReady (blockChan b k) .rx false) s = s.setStatus x := by
    intro l
    refine foldl_keeps (P := fun t => ∃ x, t = s.setStatus x) _ l ?_ s ⟨s.status, rfl⟩
    rintro k _ t ⟨x, rfl⟩
    exact ⟨_, rfl⟩
  exact h _

theorem isPtp_kind {c : Config} {p : PortId} (h : isPtp c p = true) :
    portKind c p = some .nt ∨ portKind c p = some .te := by
  unfold isPtp at h
  simpa using h

theorem isTrunk_kind {c : Config} {p : PortId} (h : isTrunk c p = true) : portKind c p = some .trunk := by
  unfold isTrunk at h
  simpa using h

theorem pendingPtp_kind {s : State} {p : PortId} (h : p ∈ pendingPtp s) :
    portKind s.cfg p = some .nt ∨ portKind s.cfg p = some .te := by
  unfold pendingPtp at h
  simp only [List.mem_filter, Bool.and_eq_true] at h
  exact isPtp_kind h.2.1

theorem pendingTrunk_kind {s : State} {p : PortId} (h : p ∈ pendingTrunk s) : portKind s.cfg p = some .trunk := by
  unfold pendingTrunk at h
  simp only [List.mem_filter, Bool.and_eq_true] at h
  exact isTrunk_kind h.2.1

section
variable {g : Config} {P : State → Prop} (k : DispatchKeeps g P)
include k

theorem DispatchKeeps.yield {s : State} (h : P s) : P s.yield := (k.engine 0).yield s h

theorem DispatchKeeps.channelTick {s : State} (h : P s) : P (channelTick s) := by
  refine foldl_keeps _ _ ?_ s h
  intro c _ s hs
  unfold tickChannel
  split
  · exact receiveDrain_keeps (k.engine c) (transmitFill_keeps (k.engine c) hs)
  · exact hs

theorem DispatchKeeps.tickStep {s : State} (h : P s) : P (tickStep s) := by
  unfold Machine.tickStep
  have h1 : P ((trunkPorts s.cfg).foldl (fun s p => trunkPolls p s.yield) s) := by
    refine foldl_keeps _ _ ?_ s h
    intro p hp t ht
    have hk : portKind g p = some .trunk := by
      unfold trunkPorts at hp
      rw [← k.cfg s h]
      exact isTrunk_kind (List.mem_filter.1 hp).2
    exact k.trunkAlarmPoll _ p hk (k.trunkSyncPoll _ p hk (k.yield ht))
  refine foldl_keeps _ _ ?_ _ (k.channelTick h1)
  intro p hp t ht
  have hk : portKind g p = some .nt := by
    unfold ntPorts at hp
    rw [← k.cfg s h]
    simpa using (List.mem_filter.1 hp).2
  exact k.ntCountdown _ p hk ht

theorem DispatchKeeps.serveBlock {s : State} (b : BlockId) (h : P s) : P (serveBlock b s) := by
  refine foldl_keeps _ _ ?_ _ (k.clearBlock s b h)
  intro i _ t ht
  unfold serveReady
  split
  · exact serve_keeps (k.engine _) _ _ ht
  · exact ht

theorem DispatchKeeps.dispatchSteps {s : State} {Q T : List PortId} {B : List BlockId} (l t n : Bool)
    (hQ : ∀ p ∈ Q, portKind g p = some .nt ∨ portKind g p = some .te) (hT : ∀ p ∈ T, portKind g p = some .trunk)
    (h : P s) : P (dispatchSteps Q T l t n B s) := by
  unfold Machine.dispatchSteps
  have h2 : P (Q.foldl (fun s p => ptpStateChange p s.yield) s) := by
    refine foldl_keeps _ _ ?_ s h
    intro p hp t ht
    have hy := k.yield ht
    unfold ptpStateChange
    rw [k.cfg _ hy]
    split
    · rename_i hk; exact k.ntReport _ p hk hy
    · rename_i hk; exact k.teReport _ p ((hQ p hp).resolve_left hk) hy
  have h3 : P (if l then (Q.foldl (fun s p => ptpStateChange p s.yield) s).diag .lostData
      else Q.foldl (fun s p => ptpStateChange p s.yield) s) := by
    split
    · exact (k.engine 0).diag _ _ h2
    · exact h2
  have h4 := foldl_keeps (fun s p => Machine.e1Report p s.yield) T (fun p hp s hs => k.e1Report _ p (hT p hp) (k.yield hs)) _ h3
  refine foldl_keeps _ _ (fun b _ s hs => k.serveBlock b (k.yield hs)) _ ?_
  split <;> split
  · exact k.tone _ (k.tickStep h4)
  · exact k.tone _ h4
  · exact k.tickStep h4
  · exact h4

/-- What every part of a DISPATCH keeps, the DISPATCH keeps (R221). -/
theorem dispatchBody_keeps {s : State} (h : P s) : P (dispatchBody s) := by
  unfold dispatchBody
  split
  · exact h
  · refine k.dispatchSteps _ _ _ ?_ ?_ (k.clearSummaries s h)
    · intro p hp; rw [← k.cfg s h]; exact pendingPtp_kind hp
    · intro p hp; rw [← k.cfg s h]; exact pendingTrunk_kind hp

end

theorem alarmBit_keeps {P : State → Prop} (p : PortId) (h1 : ∀ s x, P s → P (s.setPort p x))
    (h2 : ∀ s e, P s → P (s.emit e)) (s : State) (b : Fin 4) (h : P s) : P (alarmBit p s b) := by
  simp only [alarmBit]
  repeat' split
  · exact h
  · exact h1 _ _ h
  · exact h2 _ _ (h1 _ _ h)

/-- A property that the engine keeps and that every update of the status bits, a port, the events and the line actions and the
clearing of a D channel keep, every part of a DISPATCH keeps. -/
theorem dispatchKeeps_of_updates {g : Config} {P : State → Prop} (hcfg : ∀ s, P s → s.cfg = g) (he : ∀ c, EngineKeeps c P)
  (hst : ∀ s x, P s → P (s.setStatus x)) (hp : ∀ s p x, P s → P (s.setPort p x)) (hem : ∀ s e, P s → P (s.emit e))
  (hl : ∀ s a, P s → P (s.lineAct a)) (hfresh : ∀ s d, P s → P (s.modChan d freshDChannel)) : DispatchKeeps g P := by
  have act : ∀ s p, P s → P (s.activate p) := by
    intro s p h; unfold State.activate; split
    · exact h
    · exact hem _ _ (hp _ _ _ h)
  have deact : ∀ s p, P s → P (s.deactivate p) := by
    intro s p h; unfold State.deactivate; split
    · exact hem _ _ (hp _ _ _ h)
    · exact h
  have enter : ∀ s p x, P s → P (ntEnter p x s) := by
    intro s p x h; simp only [ntEnter]; split
    · apply act; split
      · exact hp _ _ _ h
      · exact hfresh _ _ (hp _ _ _ h)
    · exact deact _ _ (hp _ _ _ h)
  refine ⟨hcfg, he, ?_, ?_, ?_, ?_, ?_, ?_, ?_, ?_, ?_⟩
  · intro s h; exact hst _ _ h
  · intro s b h
    refine foldl_keeps _ _ ?_ s h
    intro k _ s h
    exact hst _ _ (hst _ _ h)
  · intro s h; exact hem _ _ h
  · intro s p _ h; unfold ntReport; repeat' split
    · exact h
    · exact h
    · exact enter _ _ _ h
  · intro s p _ h; unfold ntCountdown; repeat' split
    · exact h
    · exact enter _ _ _ (hl _ _ (hp _ _ _ h))
    · exact hp _ _ _ h
    · exact h
  · intro s p _ h; unfold teReport teEvent; repeat' split
    · exact h
    · exact hem _ _ (hp _ _ _ h)
    · exact deact _ _ (hp _ _ _ h)
    · exact hem _ _ (hp _ _ _ h)
    · exact act _ _ (hp _ _ _ h)
    · exact hem _ _ (hp _ _ _ h)
    · exact hp _ _ _ h
  · intro s p _ h; simp only [e1Report]; split
    · exact act _ _ (hp _ _ _ h)
    · exact deact _ _ (hp _ _ _ h)
  · intro s p _ h; unfold trunkSyncPoll; repeat' split
    · exact hp _ _ _ h
    all_goals first | exact hp _ _ _ (hl _ _ h) | exact hp _ _ _ h
  · intro s p _ h
    exact foldl_keeps _ _ (fun b _ s hs => alarmBit_keeps p (fun s x => hp s p x) hem s b hs) s h

end Sys2Proof.Machine
end

