-- ==== Sys2Proof/Laws/Encoding.lean ====
section
/-! SUPPORT. Reading a field of an encoded word is arithmetic on the opcode and the operand bits. -/

namespace Sys2Proof

theorem toNat_lt (b : Bool) : b.toNat < 2 := by cases b <;> decide

theorem bitsOfProto_lt (p : ProtoField) : bitsOfProto p < 4 := by cases p <;> decide

/-- A field of a word given as a number. -/
theorem bitsOf_ofNat (n lo k : Nat) (h : n < 2 ^ 32) : bitsOf (BitVec.ofNat 32 n) lo k = n / 2 ^ lo % 2 ^ k := by
  unfold bitsOf; rw [BitVec.toNat_ofNat, show n % 2 ^ 32 = n from Nat.mod_eq_of_lt h]

/-- The operands of every format fit bits 27:0 (R72 to R81). -/
theorem operandBits_lt (i : Instr) : operandBits i < 2 ^ 28 := by
  cases i with
  | init => decide
  | dispatch => decide
  | openCh ch => have := ch.isLt; simp only [operandBits]; omega
  | close ch => have := ch.isLt; simp only [operandBits]; omega
  | confSplit ch => have := ch.isLt; simp only [operandBits]; omega
  | confJoin ch conf => have := ch.isLt; have := conf.isLt; simp only [operandBits]; omega
  | submit ch len payload => have := ch.isLt; have := len.isLt; simp only [operandBits]; omega
  | service ch tx rx => have := ch.isLt; have := toNat_lt tx; have := toNat_lt rx; simp only [operandBits]; omega
  | setMode ch proto tv txSlot txBank rv rxSlot rxBank eb =>
    have := ch.isLt
    have := bitsOfProto_lt proto
    have := toNat_lt tv
    have := toNat_lt rv
    have := toNat_lt eb
    have := txSlot.isLt
    have := rxSlot.isLt
    have := txBank.isLt
    have := rxBank.isLt
    simp only [operandBits]
    omega

theorem opcodeOf_lt (i : Instr) : opcodeOf i < 2 ^ 4 := by cases i <;> simp [opcodeOf]

/-- A field of an encoded command's word. -/
theorem bitsOf_encode (i : Instr) (lo k : Nat) :
    bitsOf (encode i).1 lo k = (opcodeOf i * 2 ^ 28 + operandBits i) / 2 ^ lo % 2 ^ k := by
  have h1 := operandBits_lt i
  have h2 := opcodeOf_lt i
  exact bitsOf_ofNat _ _ _ (by omega)

end Sys2Proof
end

