-- ==== Sys2Proof/Laws/LineState.lean ====
section
/-! SUPPORT. What the entry to an NT state does to each field and accessor (R184). -/

namespace Sys2Proof.Machine

variable (s : State)

/-- The record of a port that enters an NT state. -/
theorem ntEnter_pt (p q : PortId) (x : Fin 16) :
    (ntEnter p x s).pt q =
      if p = q then
        { s.pt p with lstate := x, timer := if x = 2 then some s.cfg.ntT1 else none, active := decide (x = 3) }
      else s.pt q := by
  simp only [ntEnter]
  by_cases hx : x = 3
  · rw [if_pos hx]
    split <;> by_cases hq : p = q <;> simp [hq, hx]
  · rw [if_neg hx]
    by_cases hq : p = q <;> simp [hq, hx]

/-- The events of an entry to an NT state. -/
theorem ntEnter_evq (p : PortId) (x : Fin 16) :
    (ntEnter p x s).evq = s.evq ++ if x = 3 then (if (s.pt p).active then [] else [.activate p])
      else if (s.pt p).active then [.deactivate p] else [] := by
  simp only [ntEnter]
  by_cases hx : x = 3
  · rw [if_pos hx, if_pos hx]
    split <;> simp
  · rw [if_neg hx, if_neg hx]
    simp

/-- The channel records after an entry to an NT state (R184, R186). -/
theorem ntEnter_ch (p : PortId) (x : Fin 16) (k : ChanId) :
    (ntEnter p x s).ch k = if x = 3 ∧ dch s.cfg p = some k then freshDChannel (s.ch k) else s.ch k := by
  simp only [ntEnter]
  by_cases hx : x = 3
  · rw [if_pos hx]
    split
    · rename_i hd; simp [hd]
    · rename_i d hd
      by_cases hk : d = k
      · subst hk; simp [hx, hd]
      · simp [hd, hk]
  · rw [if_neg hx]; simp [hx]

@[simp] theorem ntEnter_cfg (p : PortId) (x : Fin 16) : (ntEnter p x s).cfg = s.cfg := by
  simp only [ntEnter]; repeat' split
  all_goals simp
@[simp] theorem ntEnter_ctl (p : PortId) (x : Fin 16) : (ntEnter p x s).ctl = s.ctl := by
  simp only [ntEnter]; repeat' split
  all_goals simp
@[simp] theorem ntEnter_mem (p : PortId) (x : Fin 16) : (ntEnter p x s).mem = s.mem := by
  simp only [ntEnter]; repeat' split
  all_goals simp
@[simp] theorem ntEnter_status (p : PortId) (x : Fin 16) : (ntEnter p x s).status = s.status := by
  simp only [ntEnter]; repeat' split
  all_goals simp
@[simp] theorem ntEnter_sel (p : PortId) (x : Fin 16) : (ntEnter p x s).sel = s.sel := by
  simp only [ntEnter]; repeat' split
  all_goals simp
@[simp] theorem ntEnter_diagq (p : PortId) (x : Fin 16) : (ntEnter p x s).diagq = s.diagq := by
  simp only [ntEnter]; repeat' split
  all_goals simp
@[simp] theorem ntEnter_lineq (p : PortId) (x : Fin 16) : (ntEnter p x s).lineq = s.lineq := by
  simp only [ntEnter]; repeat' split
  all_goals simp
@[simp] theorem ntEnter_resp (p : PortId) (x : Fin 16) : (ntEnter p x s).resp = s.resp := by
  simp only [ntEnter]; repeat' split
  all_goals simp
@[simp] theorem ntEnter_env (p : PortId) (x : Fin 16) : (ntEnter p x s).env = s.env := by
  simp only [ntEnter]; repeat' split
  all_goals simp
@[simp] theorem ntEnter_lineIn (p : PortId) (x : Fin 16) : (ntEnter p x s).lineIn = s.lineIn := by
  simp only [ntEnter]; repeat' split
  all_goals simp
@[simp] theorem ntEnter_txRing (p : PortId) (x : Fin 16) : (ntEnter p x s).txRing = s.txRing := by
  simp only [ntEnter]; repeat' split
  all_goals simp
@[simp] theorem ntEnter_rxRing (p : PortId) (x : Fin 16) : (ntEnter p x s).rxRing = s.rxRing := by
  simp only [ntEnter]; repeat' split
  all_goals simp
@[simp] theorem ntEnter_rxOvf (p : PortId) (x : Fin 16) : (ntEnter p x s).rxOvf = s.rxOvf := by
  simp only [ntEnter]; repeat' split
  all_goals simp
@[simp] theorem ntEnter_own (p : PortId) (x : Fin 16) : (ntEnter p x s).own = s.own := by
  simp only [ntEnter]; repeat' split
  all_goals simp
@[simp] theorem ntEnter_slotReg (p : PortId) (x : Fin 16) : (ntEnter p x s).slotReg = s.slotReg := by
  simp only [ntEnter]; repeat' split
  all_goals simp
@[simp] theorem ntEnter_ring (p : PortId) (x : Fin 16) : (ntEnter p x s).ring = s.ring := by
  simp only [ntEnter]; repeat' split
  all_goals simp
@[simp] theorem ntEnter_ovf (p : PortId) (x : Fin 16) : (ntEnter p x s).ovf = s.ovf := by
  simp only [ntEnter]; repeat' split
  all_goals simp

end Sys2Proof.Machine
end

