-- ==== Sys2Proof/Laws/PerInstr.lean ====
section
/-! SUPPORT. Per command: its encoded word carries its opcode and has every reserved bit zero (R71, R73 to R81, R83). -/

namespace Sys2Proof.Laws.Form

/-- The reserved field of a command's format: its lowest bit and its width (R73, R74, R75, R79, R80, R81). -/
def reservedField : Instr → Nat × Nat
  | .init => (0, 28)
  | .openCh _ => (0, 23)
  | .close _ => (0, 23)
  | .setMode _ _ _ _ _ _ _ _ _ => (0, 0)
  | .confJoin _ _ => (0, 19)
  | .confSplit _ => (0, 23)
  | .submit _ _ _ => (16, 7)
  | .service _ _ _ => (2, 21)
  | .dispatch => (0, 28)

/-- The encoded word has the command's opcode in bits 31:28 and zeros in the reserved field of its format. -/
def Statement (i : Instr) : Prop :=
  bitsOf (encode i).1 28 4 = opcodeOf i ∧ bitsOf (encode i).1 (reservedField i).1 (reservedField i).2 = 0

theorem init : Statement .init := ⟨rfl, rfl⟩

theorem dispatch : Statement .dispatch := ⟨rfl, rfl⟩

theorem openCh (ch : ChanId) : Statement (.openCh ch) := by
  have h := operandBits_lt (.openCh ch)
  unfold Statement
  rw [bitsOf_encode, bitsOf_encode]
  simp only [opcodeOf, operandBits, reservedField] at h ⊢
  constructor <;> omega

theorem close (ch : ChanId) : Statement (.close ch) := by
  have h := operandBits_lt (.close ch)
  unfold Statement
  rw [bitsOf_encode, bitsOf_encode]
  simp only [opcodeOf, operandBits, reservedField] at h ⊢
  constructor <;> omega

theorem confSplit (ch : ChanId) : Statement (.confSplit ch) := by
  have h := operandBits_lt (.confSplit ch)
  unfold Statement
  rw [bitsOf_encode, bitsOf_encode]
  simp only [opcodeOf, operandBits, reservedField] at h ⊢
  constructor <;> omega

theorem confJoin (ch : ChanId) (conf : Fin 16) : Statement (.confJoin ch conf) := by
  have h := operandBits_lt (.confJoin ch conf)
  unfold Statement
  rw [bitsOf_encode, bitsOf_encode]
  simp only [opcodeOf, operandBits, reservedField] at h ⊢
  constructor <;> omega

theorem submit (ch : ChanId) (len : Fin 65536) (payload : List Byte) : Statement (.submit ch len payload) := by
  have h := operandBits_lt (.submit ch len payload)
  have h' := len.isLt
  unfold Statement
  rw [bitsOf_encode, bitsOf_encode]
  simp only [opcodeOf, operandBits, reservedField] at h ⊢
  constructor <;> omega

theorem service (ch : ChanId) (tx rx : Bool) : Statement (.service ch tx rx) := by
  have h := operandBits_lt (.service ch tx rx)
  have ht := toNat_lt tx
  have hr := toNat_lt rx
  unfold Statement
  rw [bitsOf_encode, bitsOf_encode]
  simp only [opcodeOf, operandBits, reservedField] at h ⊢
  constructor <;> omega

theorem setMode (ch : ChanId) (proto : ProtoField) (tv : Bool) (txSlot : Slot) (txBank : Bank) (rv : Bool) (rxSlot : Slot)
    (rxBank : Bank) (eb : Bool) : Statement (.setMode ch proto tv txSlot txBank rv rxSlot rxBank eb) := by
  have h := operandBits_lt (.setMode ch proto tv txSlot txBank rv rxSlot rxBank eb)
  unfold Statement
  rw [bitsOf_encode, bitsOf_encode]
  simp only [opcodeOf, operandBits, reservedField] at h ⊢
  constructor <;> omega

end Sys2Proof.Laws.Form
end

