-- ==== Sys2Proof/Laws/Quiet.lean ====
section
/-! SUPPORT. The engine's loops in closed form when no line-side step lands inside the command (`s.env.sched = []`), and the counter
arithmetic they use (R15, R51, R107, R116). -/

namespace Sys2Proof.Machine

/-- Counting up from a Z value of the configuration (R15). -/
theorem incZ_iterate (c : Config) (z n : Nat) (h : c.zmin ≤ z) (h' : z < c.zmin + c.zlen) :
    (incZ c)^[n] z = c.zmin + (z - c.zmin + n) % c.zlen := by
  induction n with
  | zero => rw [Nat.add_zero, Nat.mod_eq_of_lt (by omega)]; simp only [Function.iterate_zero, id_eq]; omega
  | succ n ih =>
    rw [Function.iterate_succ_apply', ih, ← Nat.add_assoc]
    have hlt : (z - c.zmin + n) % c.zlen < c.zlen := Nat.mod_lt _ (by omega)
    unfold incZ
    rw [Nat.add_mod (z - c.zmin + n) 1 c.zlen]
    split
    · rw [Nat.mod_eq_of_lt (a := (z - c.zmin + n) % c.zlen + 1 % c.zlen)] <;>
        rw [Nat.mod_eq_of_lt (a := 1) (by omega)] <;> omega
    · have h1 : (z - c.zmin + n) % c.zlen = c.zlen - 1 := by omega
      rw [h1]
      rcases Nat.lt_or_ge 1 c.zlen with h2 | h2
      · rw [Nat.mod_eq_of_lt (a := 1) h2, show c.zlen - 1 + 1 = c.zlen by omega, Nat.mod_self]; omega
      · have : c.zlen = 1 := by omega
        rw [this]; simp

/-- Fewer than `ZLEN` steps from a Z value reach different Z values. -/
theorem incZ_iterate_inj (c : Config) (z i j : Nat) (h : c.zmin ≤ z) (h' : z < c.zmin + c.zlen) (hi : i < c.zlen) (hj : j < c.zlen)
    (he : (incZ c)^[i] z = (incZ c)^[j] z) : i = j := by
  rw [incZ_iterate c z i h h', incZ_iterate c z j h h'] at he
  have h1 : (z - c.zmin + i) % c.zlen = (z - c.zmin + j) % c.zlen := by omega
  have h2 : i ≡ j [MOD c.zlen] := Nat.ModEq.add_left_cancel' (z - c.zmin) h1
  exact Nat.ModEq.eq_of_lt_of_lt h2 hi hj

/-- Counting up stays among the Z values. -/
theorem incZ_iterate_inRange (c : Config) (z n : Nat) (h : c.zmin ≤ z) (h' : z < c.zmin + c.zlen) :
    c.zmin ≤ (incZ c)^[n] z ∧ (incZ c)^[n] z < c.zmin + c.zlen := by
  rw [incZ_iterate c z n h h']
  have := Nat.mod_lt (z - c.zmin + n) (show 0 < c.zlen by omega)
  omega

/-- The outcome of a stable read of channel `ch`'s selected ring whose draw is listed. -/
theorem stableRead_quiet (k : LineCounter) (s : State) (ch : ChanId) (d : Dir) (b : Bool) (more : List Bool)
    (hs : s.env.sched = []) (hsel : s.sel = some (ch, d)) (hr : s.env.reads = b :: more) :
    stableRead k s = (if b then none else some (counterOf s.cfg (s.ring ch d) k),
      s.setEnv { s.env with reads := more, readLog := s.env.readLog ++ [⟨ch, k, b⟩] }) := by
  unfold stableRead readNow State.drawReadFails State.logRead State.selRing
  rw [State.yield_of_sched_nil s hs, hr, hsel]
  simp only [State.setEnv_sel, hsel]
  rfl

/-- A push with no line-side step before it. -/
theorem ringPush_quiet (b : Byte) (s : State) (ch : ChanId) (hs : s.env.sched = []) (hsel : s.sel = some (ch, .tx)) :
    ringPush b s = (s.writeCell ch .tx (s.ring ch .tx).z2 b).setRing ch .tx
      { s.ring ch .tx with z2 := incZ s.cfg (s.ring ch .tx).z2 } := by
  unfold ringPush pushNow
  rw [State.yield_of_sched_nil s hs, hsel]

/-- Frame space reads only the configuration and the rings (R103). -/
theorem frameSpaceTx_congr {s t : State} (ch : ChanId) (x : Nat) (hc : t.cfg = s.cfg) (hr : t.ring = s.ring) :
    frameSpaceTx t ch x = frameSpaceTx s ch x := by
  unfold frameSpaceTx
  rw [hc, hr]

/-- What pushing `l` does, when no line-side step lands inside. -/
structure Pushed (ch : ChanId) (l : List Byte) (s t : State) : Prop where
  /-- only the channel table, the transmit rings and the memory are written -/
  rest : t = { s with chan := t.chan, txRing := t.txRing, mem := t.mem }
  record : ∀ k, t.ch k = if ch = k then { s.ch ch with cursor := (s.ch ch).cursor + l.length } else s.ch k
  rings : ∀ k d, t.ring k d =
    if ch = k ∧ d = .tx then { s.ring ch .tx with z2 := (incZ s.cfg)^[l.length] (s.ring ch .tx).z2 } else s.ring k d
  off : ∀ a, (∀ i < l.length, a ≠ cellAddr s.cfg ch .tx ((incZ s.cfg)^[i] (s.ring ch .tx).z2)) → t.mem.read a = s.mem.read a
  stored : s.cfg.zlen ≤ 65536 → l.length < s.cfg.zlen → s.cfg.zmin ≤ (s.ring ch .tx).z2 → (s.ring ch .tx).z2 < s.cfg.zmin + s.cfg.zlen →
    ∀ i < l.length, t.cell ch .tx ((incZ s.cfg)^[i] (s.ring ch .tx).z2) = l[i]?

theorem pushBytes_quiet (ch : ChanId) (l : List Byte) (s : State) (hs : s.env.sched = []) (hsel : s.sel = some (ch, .tx)) :
    Pushed ch l s (pushBytes ch l s) := by
  induction l generalizing s with
  | nil =>
    refine ⟨rfl, ?_, ?_, fun _ _ => rfl, fun _ _ _ _ i hi => absurd hi (Nat.not_lt_zero _)⟩
    · intro k; simp only [pushBytes, List.length_nil, Nat.add_zero]
      split
      · rename_i h; subst h; rfl
      · rfl
    · intro k d; simp only [pushBytes, List.length_nil, Function.iterate_zero, id_eq]
      split
      · rename_i h; obtain ⟨rfl, rfl⟩ := h; rfl
      · rfl
  | cons b rest ih =>
    simp only [pushBytes, ringPush_quiet b s ch hs hsel]
    have h := ih (((s.writeCell ch .tx (s.ring ch .tx).z2 b).setRing ch .tx
      { s.ring ch .tx with z2 := incZ s.cfg (s.ring ch .tx).z2 }).modChan ch fun c => { c with cursor := c.cursor + 1 }) hs hsel
    refine ⟨?_, ?_, ?_, ?_, ?_⟩
    · rw [h.rest]; rfl
    · intro k
      rw [h.record k]
      by_cases hk : ch = k
      · subst hk; simp; omega
      · simp [hk]
    · intro k d
      rw [h.rings k d]
      by_cases hk : ch = k ∧ d = .tx
      · obtain ⟨rfl, rfl⟩ := hk
        simp
      · rw [if_neg hk, if_neg hk, State.modChan_ring]
        by_cases hk' : ch = k
        · subst hk'
          cases d
          · exact absurd ⟨rfl, rfl⟩ hk
          · simp
        · cases d <;> simp [hk']
    · intro a ha
      rw [h.off a]
      · have h0 := ha 0 (by simp)
        simp only [Function.iterate_zero, id_eq] at h0
        simp [Ne.symm h0]
      · intro i hi
        have := ha (i + 1) (by simpa using hi)
        simpa [Function.iterate_succ_apply] using this
    · intro hc hl hz hz' i hi
      cases i with
      | zero =>
        have hoff := h.off (cellAddr s.cfg ch .tx (s.ring ch .tx).z2) (by
          intro j hj he
          have := cellAddr_inj s.cfg ch .tx _ _ hz (by
            have := incZ_iterate_inRange s.cfg _ (j + 1) hz hz'
            simpa [Function.iterate_succ_apply] using this.1) hz' (by
            have := incZ_iterate_inRange s.cfg _ (j + 1) hz hz'
            simpa [Function.iterate_succ_apply] using this.2) hc (by simpa using he)
          have h0 := incZ_iterate_inj s.cfg (s.ring ch .tx).z2 0 (j + 1) hz hz' (by omega) (by simp at hl; omega)
            (by simpa [Function.iterate_succ_apply] using this)
          omega)
        have hcfg : (pushBytes ch rest (((s.writeCell ch .tx (s.ring ch .tx).z2 b).setRing ch .tx
            { s.ring ch .tx with z2 := incZ s.cfg (s.ring ch .tx).z2 }).modChan ch
              fun c => { c with cursor := c.cursor + 1 })).cfg = s.cfg := by rw [h.rest]; rfl
        simp only [Function.iterate_zero, id_eq, State.cell, hcfg]
        rw [hoff]
        simp
      | succ j =>
        have hcfg : (pushBytes ch rest (((s.writeCell ch .tx (s.ring ch .tx).z2 b).setRing ch .tx
            { s.ring ch .tx with z2 := incZ s.cfg (s.ring ch .tx).z2 }).modChan ch
              fun c => { c with cursor := c.cursor + 1 })).cfg = s.cfg := by rw [h.rest]; rfl
        have hz1 := incZ_iterate_inRange s.cfg _ 1 hz hz'
        simp only [Function.iterate_one] at hz1
        have := h.stored (by simpa using hc) (by simp at hl ⊢; omega) (by simpa using hz1.1) (by simpa using hz1.2) j
          (by simpa using hi)
        simpa [Function.iterate_succ_apply] using this

/-- A pop of a written cell with no line-side step before it. -/
theorem ringPop_quiet (b : Byte) (s : State) (ch : ChanId) (hs : s.env.sched = []) (hsel : s.sel = some (ch, .rx))
    (hb : s.cell ch .rx (s.ring ch .rx).z2 = some b) :
    ringPop s = (b, s.setRing ch .rx { s.ring ch .rx with z2 := incZ s.cfg (s.ring ch .rx).z2 }) := by
  unfold ringPop popNow State.readCell
  rw [State.yield_of_sched_nil s hs, hsel]
  simp only [hb]

/-- What popping the bytes `l` does, when no line-side step lands inside and all their cells are written. -/
structure Popped (ch : ChanId) (l : List Byte) (s t : State) : Prop where
  /-- only the channel table and the receive rings are written -/
  rest : t = { s with chan := t.chan, rxRing := t.rxRing }
  record : ∀ k, t.ch k = if ch = k then { s.ch ch with rxbuf := (s.ch ch).rxbuf ++ l } else s.ch k
  rings : ∀ k d, t.ring k d =
    if ch = k ∧ d = .rx then { s.ring ch .rx with z2 := (incZ s.cfg)^[l.length] (s.ring ch .rx).z2 } else s.ring k d

theorem popBytes_quiet (ch : ChanId) (l : List Byte) (s : State) (hs : s.env.sched = []) (hsel : s.sel = some (ch, .rx))
    (hb : ∀ i < l.length, s.cell ch .rx ((incZ s.cfg)^[i] (s.ring ch .rx).z2) = l[i]?) :
    Popped ch l s (popBytes ch l.length s) := by
  induction l generalizing s with
  | nil =>
    refine ⟨rfl, ?_, ?_⟩
    · intro k; simp only [List.length_nil, popBytes, List.append_nil]
      split
      · rename_i h; subst h; rfl
      · rfl
    · intro k d; simp only [List.length_nil, popBytes, Function.iterate_zero, id_eq]
      split
      · rename_i h; obtain ⟨rfl, rfl⟩ := h; rfl
      · rfl
  | cons b rest ih =>
    have h0 : s.cell ch .rx (s.ring ch .rx).z2 = some b := by simpa using hb 0 (by simp)
    simp only [List.length_cons, popBytes, ringPop_quiet b s ch hs hsel h0]
    have h := ih ((s.setRing ch .rx { s.ring ch .rx with z2 := incZ s.cfg (s.ring ch .rx).z2 }).modChan ch
      fun c => { c with rxbuf := c.rxbuf ++ [b] }) hs hsel (by
        intro i hi
        have := hb (i + 1) (by simpa using hi)
        simpa [Function.iterate_succ_apply, State.cell] using this)
    refine ⟨?_, ?_, ?_⟩
    · rw [h.rest]; rfl
    · intro k
      rw [h.record k]
      by_cases hk : ch = k
      · subst hk; simp
      · simp [hk]
    · intro k d
      rw [h.rings k d]
      by_cases hk : ch = k ∧ d = .rx
      · obtain ⟨rfl, rfl⟩ := hk
        simp
      · rw [if_neg hk, if_neg hk, State.modChan_ring]
        by_cases hk' : ch = k
        · subst hk'
          cases d
          · simp
          · exact absurd ⟨rfl, rfl⟩ hk
        · cases d <;> simp [hk']

end Sys2Proof.Machine
end

