-- ==== Sys2Proof/Laws/Router.lean ====
section
/-! SUPPORT. What SetModeCore does to each table, said once: the channel record, the two routing tables, the diagnostics and the
rings (R151 to R159). -/

namespace Sys2Proof.Machine

/-- Different slots or directions have different routing entries (R39). -/
theorem routeIx_inj {a b : Slot} {d e : Dir} : routeIx a d = routeIx b e ↔ a = b ∧ d = e := by
  constructor
  · intro h
    have h' : a.val * 2 + d.num = b.val * 2 + e.num := congrArg Fin.val h
    cases d <;> cases e <;> simp only [Dir.num] at h' <;> first
      | exact ⟨Fin.ext (by omega), rfl⟩
      | omega
  · rintro ⟨rfl, rfl⟩; rfl

@[simp] theorem Channel.setSlot_slot (c : Channel) (d e : Dir) (x : Option Slot) :
    (c.setSlot d x).slot e = if d = e then x else c.slot e := by
  cases d <;> cases e <;> rfl

@[simp] theorem Channel.setBank_slot (c : Channel) (d e : Dir) (x : Bank) : (c.setBank d x).slot e = c.slot e := by
  cases d <;> cases e <;> rfl

section
variable (s : State)

@[simp] theorem resetNow_cfg : (resetNow s).cfg = s.cfg := by unfold resetNow; split <;> rfl
@[simp] theorem resetNow_ctl : (resetNow s).ctl = s.ctl := by unfold resetNow; split <;> rfl
@[simp] theorem resetNow_port : (resetNow s).port = s.port := by unfold resetNow; split <;> rfl
@[simp] theorem resetNow_own : (resetNow s).own = s.own := by unfold resetNow; split <;> rfl
@[simp] theorem resetNow_slotReg : (resetNow s).slotReg = s.slotReg := by unfold resetNow; split <;> rfl
@[simp] theorem resetNow_sel : (resetNow s).sel = s.sel := by unfold resetNow; split <;> rfl
@[simp] theorem resetNow_evq : (resetNow s).evq = s.evq := by unfold resetNow; split <;> rfl
@[simp] theorem resetNow_diagq : (resetNow s).diagq = s.diagq := by unfold resetNow; split <;> rfl
@[simp] theorem resetNow_lineq : (resetNow s).lineq = s.lineq := by unfold resetNow; split <;> rfl
@[simp] theorem resetNow_resp : (resetNow s).resp = s.resp := by unfold resetNow; split <;> rfl
@[simp] theorem resetNow_mem : (resetNow s).mem = s.mem := by unfold resetNow; split <;> rfl
@[simp] theorem resetNow_status : (resetNow s).status = s.status := by unfold resetNow; split <;> rfl
@[simp] theorem resetNow_lineIn : (resetNow s).lineIn = s.lineIn := by unfold resetNow; split <;> rfl
@[simp] theorem resetNow_env : (resetNow s).env = s.env := by unfold resetNow; split <;> rfl
@[simp] theorem resetNow_chan : (resetNow s).chan = s.chan := by unfold resetNow; split <;> rfl
@[simp] theorem resetNow_ch : (resetNow s).ch = s.ch := by unfold resetNow; split <;> rfl
@[simp] theorem resetNow_pt : (resetNow s).pt = s.pt := by unfold resetNow; split <;> rfl
@[simp] theorem resetNow_ownAt : (resetNow s).ownAt = s.ownAt := by unfold resetNow; split <;> rfl
@[simp] theorem resetNow_regAt : (resetNow s).regAt = s.regAt := by unfold resetNow; split <;> rfl

end

/-! ### Release (R153) -/

theorem releaseSlot_ch (ch : ChanId) (d : Dir) (new : Option Slot) (s : State) (k : ChanId) :
    (releaseSlot ch d new s).ch k =
      if ch = k then (s.ch ch).setSlot d (if new = (s.ch ch).slot d then new else none) else s.ch k := by
  unfold releaseSlot
  by_cases hk : ch = k
  · subst hk
    cases h : (s.ch ch).slot d with
    | none =>
      have hn : (if new = none then new else none) = none := by split <;> simp_all
      rw [hn]
      cases d <;> simp only [Channel.slot] at h <;> simp [Channel.setSlot, ← h]
    | some old =>
      simp only
      split
      · rename_i hn; cases d <;> simp only [Channel.slot] at h <;> simp [Channel.setSlot, hn, ← h]
      · split <;> simp
  · simp only [hk, if_false]
    split
    · rfl
    · split
      · rfl
      · split <;> simp [hk]

theorem releaseSlot_ownAt (ch : ChanId) (d : Dir) (new : Option Slot) (s : State) (slot : Slot) (e : Dir) :
    (releaseSlot ch d new s).ownAt (routeIx slot e) =
      if d = e ∧ (s.ch ch).slot d = some slot ∧ new ≠ some slot ∧ s.ownAt (routeIx slot d) = some ch then none
      else s.ownAt (routeIx slot e) := by
  unfold releaseSlot
  split
  · rename_i h; simp [h]
  · rename_i old h
    split
    · rename_i hn
      rw [if_neg]; rintro ⟨-, h1, h2, -⟩; rw [h] at h1; exact h2 (hn.trans h1)
    · rename_i hn
      split
      · rename_i ho
        simp only [State.modChan_ownAt, State.setOwn_ownAt, State.setSlotReg_ownAt, routeIx_inj, h, Option.some.injEq]
        by_cases hx : old = slot ∧ d = e
        · obtain ⟨rfl, rfl⟩ := hx
          simp [hn, ho]
        · rw [if_neg hx, if_neg]; rintro ⟨h1, h2, -⟩; exact hx ⟨h2, h1⟩
      · rename_i ho
        simp only [State.modChan_ownAt, State.diag_ownAt]
        rw [if_neg]; rintro ⟨-, h1, -, h4⟩; rw [h] at h1; cases h1; exact ho h4

theorem releaseSlot_regAt (ch : ChanId) (d : Dir) (new : Option Slot) (s : State) (slot : Slot) (e : Dir) :
    (releaseSlot ch d new s).regAt (routeIx slot e) =
      if d = e ∧ (s.ch ch).slot d = some slot ∧ new ≠ some slot ∧ s.ownAt (routeIx slot d) = some ch then none
      else s.regAt (routeIx slot e) := by
  unfold releaseSlot
  split
  · rename_i h; simp [h]
  · rename_i old h
    split
    · rename_i hn
      rw [if_neg]; rintro ⟨-, h1, h2, -⟩; rw [h] at h1; exact h2 (hn.trans h1)
    · rename_i hn
      split
      · rename_i ho
        simp only [State.modChan_regAt, State.setOwn_regAt, State.setSlotReg_regAt, routeIx_inj, h, Option.some.injEq]
        by_cases hx : old = slot ∧ d = e
        · obtain ⟨rfl, rfl⟩ := hx
          simp [hn, ho]
        · rw [if_neg hx, if_neg]; rintro ⟨h1, h2, -⟩; exact hx ⟨h2, h1⟩
      · rename_i ho
        simp only [State.modChan_regAt, State.diag_regAt]
        rw [if_neg]; rintro ⟨-, h1, -, h4⟩; rw [h] at h1; cases h1; exact ho h4

theorem releaseSlot_diagq (ch : ChanId) (d : Dir) (new : Option Slot) (s : State) :
    (releaseSlot ch d new s).diagq = s.diagq ++
      match (s.ch ch).slot d with
      | none => []
      | some old => if new = some old ∨ s.ownAt (routeIx old d) = some ch then [] else [.staleOwner ch old d] := by
  unfold releaseSlot
  cases (s.ch ch).slot d with
  | none => simp
  | some old =>
    by_cases hn : new = some old
    · simp [hn]
    · by_cases ho : s.ownAt (routeIx old d) = some ch <;> simp [hn, ho]

/-! ### Programming (R154) -/

theorem programSlot_ch (ch : ChanId) (d : Dir) (new : Option Slot) (bank : Bank) (s : State) (k : ChanId) :
    (programSlot ch d new bank s).ch k =
      if ch = k then ((s.ch ch).setBank d bank).setSlot d (new.or ((s.ch ch).slot d)) else s.ch k := by
  unfold programSlot
  by_cases hk : ch = k
  · subst hk
    cases new with
    | none => cases d <;> simp [Channel.setSlot, Channel.setBank, Channel.slot]
    | some slot => simp
  · cases new <;> simp [hk]

theorem programSlot_ownAt (ch : ChanId) (d : Dir) (new : Option Slot) (bank : Bank) (s : State) (slot : Slot) (e : Dir) :
    (programSlot ch d new bank s).ownAt (routeIx slot e) =
      if d = e ∧ new = some slot then some ch else s.ownAt (routeIx slot e) := by
  unfold programSlot
  cases new with
  | none => simp
  | some x => simp [routeIx_inj, and_comm]

theorem programSlot_regAt (ch : ChanId) (d : Dir) (new : Option Slot) (bank : Bank) (s : State) (slot : Slot) (e : Dir) :
    (programSlot ch d new bank s).regAt (routeIx slot e) =
      if d = e ∧ new = some slot then some ⟨ch, routeMode (s.ch ch).conf bank, bank⟩ else s.regAt (routeIx slot e) := by
  unfold programSlot
  cases new with
  | none => simp
  | some x => simp [routeIx_inj, and_comm]

/-! ### Fields no part of SetModeCore writes -/

/-- What SetModeCore leaves of a state, whatever the line side does meanwhile (R151). -/
structure RouterFrame (ch : ChanId) (s t : State) : Prop where
  cfg : t.cfg = s.cfg
  ctl : t.ctl = s.ctl
  port : t.port = s.port
  evq : t.evq = s.evq
  lineq : t.lineq = s.lineq
  resp : t.resp = s.resp
  inputs : t.env.inputs = s.env.inputs
  others : ∀ k, k ≠ ch → t.ch k = s.ch k
  isOpen : (t.ch ch).isOpen = (s.ch ch).isOpen
  conf : (t.ch ch).conf = (s.ch ch).conf
  txq : (t.ch ch).txq = (s.ch ch).txq
  /-- with no line-side step inside: what only the line side writes -/
  quiet : s.env.sched = [] → t.mem = s.mem ∧ t.lineIn = s.lineIn ∧ t.status = s.status ∧ t.env = s.env
    ∧ (∀ k d, ¬(k = ch ∧ d = .rx) → t.ring k d = s.ring k d) ∧ ∀ k, k ≠ ch → t.ovf k = s.ovf k

theorem RouterFrame.refl (ch : ChanId) (s : State) : RouterFrame ch s s := by
  constructor <;> intros <;> first | rfl | exact ⟨rfl, rfl, rfl, rfl, fun _ _ _ => rfl, fun _ _ => rfl⟩

theorem RouterFrame.trans {ch : ChanId} {s t u : State} (h : RouterFrame ch s t) (k : RouterFrame ch t u) : RouterFrame ch s u where
  cfg := k.cfg.trans h.cfg
  ctl := k.ctl.trans h.ctl
  port := k.port.trans h.port
  evq := k.evq.trans h.evq
  lineq := k.lineq.trans h.lineq
  resp := k.resp.trans h.resp
  inputs := k.inputs.trans h.inputs
  others x hx := (k.others x hx).trans (h.others x hx)
  isOpen := k.isOpen.trans h.isOpen
  conf := k.conf.trans h.conf
  txq := k.txq.trans h.txq
  quiet hs := by
    obtain ⟨h1, h2, h3, h4, h5, h6⟩ := h.quiet hs
    obtain ⟨k1, k2, k3, k4, k5, k6⟩ := k.quiet (h4 ▸ hs)
    exact ⟨k1.trans h1, k2.trans h2, k3.trans h3, k4.trans h4, fun x d hx => (k5 x d hx).trans (h5 x d hx),
      fun x hx => (k6 x hx).trans (h6 x hx)⟩

/-- An update of the channel's own record that leaves `open`, the conference and the queue is within the frame. -/
theorem RouterFrame.modChan (ch : ChanId) (s : State) (f : Channel → Channel)
    (hf : ∀ c, (f c).isOpen = c.isOpen ∧ (f c).conf = c.conf ∧ (f c).txq = c.txq) : RouterFrame ch s (s.modChan ch f) := by
  constructor
  case others => intro k hk; simp [Ne.symm hk]
  case isOpen => simp [(hf _).1]
  case conf => simp [(hf _).2.1]
  case txq => simp [(hf _).2.2]
  case quiet => intro _; simp
  all_goals simp

theorem RouterFrame.setOwn (ch : ChanId) (s : State) (i : RouteIx) (x : Option ChanId) : RouterFrame ch s (s.setOwn i x) := by
  constructor <;> intros <;> simp

theorem RouterFrame.setSlotReg (ch : ChanId) (s : State) (i : RouteIx) (x : Option Route) :
    RouterFrame ch s (s.setSlotReg i x) := by
  constructor <;> intros <;> simp

theorem RouterFrame.diag (ch : ChanId) (s : State) (x : Diag) : RouterFrame ch s (s.diag x) := by
  constructor <;> intros <;> simp

theorem Channel.setSlot_keeps (c : Channel) (d : Dir) (x : Option Slot) :
    (c.setSlot d x).isOpen = c.isOpen ∧ (c.setSlot d x).conf = c.conf ∧ (c.setSlot d x).txq = c.txq := by
  cases d <;> exact ⟨rfl, rfl, rfl⟩

theorem Channel.setBank_keeps (c : Channel) (d : Dir) (x : Bank) :
    (c.setBank d x).isOpen = c.isOpen ∧ (c.setBank d x).conf = c.conf ∧ (c.setBank d x).txq = c.txq := by
  cases d <;> exact ⟨rfl, rfl, rfl⟩

theorem releaseSlot_frame (ch : ChanId) (d : Dir) (new : Option Slot) (s : State) :
    RouterFrame ch s (releaseSlot ch d new s) := by
  unfold releaseSlot
  split
  · exact RouterFrame.refl ch s
  · split
    · exact RouterFrame.refl ch s
    · refine RouterFrame.trans ?_ (RouterFrame.modChan ch _ _ fun c => Channel.setSlot_keeps c d none)
      split
      · exact (RouterFrame.setSlotReg ch s _ _).trans (RouterFrame.setOwn ch _ _ _)
      · exact RouterFrame.diag ch s _

theorem programSlot_frame (ch : ChanId) (d : Dir) (new : Option Slot) (bank : Bank) (s : State) :
    RouterFrame ch s (programSlot ch d new bank s) := by
  unfold programSlot
  split
  · exact RouterFrame.modChan ch _ _ fun c => Channel.setBank_keeps c d bank
  · rename_i slot
    refine RouterFrame.trans ((RouterFrame.setSlotReg ch s _ _).trans (RouterFrame.setOwn ch _ _ _)) (RouterFrame.modChan ch _ _ ?_)
    intro c
    have h := Channel.setSlot_keeps (c.setBank d bank) d (some slot)
    have h' := Channel.setBank_keeps c d bank
    exact ⟨h.1.trans h'.1, h.2.1.trans h'.2.1, h.2.2.trans h'.2.2⟩

theorem programFlow_keeps (g : Config) (ch : ChanId) (pe : Proto) (eb : Bool) (c : Channel) :
    (programFlow g ch pe eb c).isOpen = c.isOpen ∧ (programFlow g ch pe eb c).conf = c.conf
      ∧ (programFlow g ch pe eb c).txq = c.txq := by
  cases pe <;> exact ⟨rfl, rfl, rfl⟩

/-! ### The protocol change (R157) -/

theorem protocolChange_frame (ch : ChanId) (s : State) : RouterFrame ch s (protocolChange ch s) := by
  constructor
  case others => intro k hk; simp [protocolChange, ringReset, Ne.symm hk]
  case quiet =>
    intro hs
    have hy : ((s.modChan ch fun c => { c with txState := .resetPending, cursor := 0 }).select ch .rx).yield =
        (s.modChan ch fun c => { c with txState := .resetPending, cursor := 0 }).select ch .rx :=
      State.yield_of_sched_nil _ hs
    simp only [protocolChange, ringReset, hy]
    refine ⟨by simp, by simp, by simp, by simp, ?_, ?_⟩
    · intro k d h
      by_cases hk : ch = k
      · subst hk
        cases d
        · simp [resetNow]
        · simp at h
      · simp [resetNow, hk]
    · intro k h
      simp [resetNow, Ne.symm h]
  all_goals simp [protocolChange, ringReset]

theorem protocolChange_ch (ch : ChanId) (s : State) (k : ChanId) :
    (protocolChange ch s).ch k =
      if ch = k then { s.ch ch with txState := .resetPending, cursor := 0, rxbuf := [] } else s.ch k := by
  simp only [protocolChange, ringReset, State.modChan_ch, resetNow_ch, State.yield_ch, State.select_ch]
  by_cases hk : ch = k <;> simp [hk]

@[simp] theorem protocolChange_ownAt (ch : ChanId) (s : State) : (protocolChange ch s).ownAt = s.ownAt := by
  simp [protocolChange, ringReset]

@[simp] theorem protocolChange_regAt (ch : ChanId) (s : State) : (protocolChange ch s).regAt = s.regAt := by
  simp [protocolChange, ringReset]

@[simp] theorem protocolChange_diagq (ch : ChanId) (s : State) : (protocolChange ch s).diagq = s.diagq := by
  simp [protocolChange, ringReset]

/-- The receive ring after a protocol change, whatever the line side does before the reset. -/
theorem protocolChange_ring (ch : ChanId) (s : State) :
    (protocolChange ch s).sel = some (ch, .rx) ∧ (protocolChange ch s).ovf ch = false
      ∧ ∃ r, (protocolChange ch s).ring ch .rx = Ring.clear s.cfg r ∧ (s.env.sched = [] → r = s.ring ch .rx) := by
  refine ⟨?_, ?_, ?_⟩
  · simp [protocolChange, ringReset]
  · simp [protocolChange, ringReset, resetNow]
  · refine ⟨(((s.modChan ch fun c => { c with txState := .resetPending, cursor := 0 }).select ch .rx).yield).ring ch .rx, ?_, ?_⟩
    · simp [protocolChange, ringReset, resetNow]
    · intro hs
      rw [State.yield_of_sched_nil _ (by exact hs)]; rfl

/-! ### SetModeCore (R151) -/

/-- The channel record SetModeCore leaves (R151, R154, R156, R157, R159). -/
def modeRecord (g : Config) (ch : ChanId) (pe : Proto) (tS : Option Slot) (tB : Bank) (rS : Option Slot) (rB : Bank) (eb : Bool)
    (c : Channel) : Channel :=
  let flowing := { programFlow g ch pe eb { c with txSlot := tS, rxSlot := rS, txBank := tB, rxBank := rB } with eb := eb }
  let changed := if pe ≠ c.proto then { flowing with txState := .resetPending, cursor := 0, rxbuf := [] } else flowing
  { changed with proto := pe, txSrc := sourceAfter { changed with proto := pe } }

theorem routeSlots_frame (ch : ChanId) (tS : Option Slot) (tB : Bank) (rS : Option Slot) (rB : Bank) (s : State) :
    RouterFrame ch s (routeSlots ch tS tB rS rB s) :=
  ((releaseSlot_frame ch .tx tS s).trans (releaseSlot_frame ch .rx rS _)).trans
    ((programSlot_frame ch .tx tS tB _).trans (programSlot_frame ch .rx rS rB _))

theorem setFlow_frame (ch : ChanId) (pe : Proto) (eb : Bool) (s : State) : RouterFrame ch s (setFlow ch pe eb s) :=
  RouterFrame.modChan ch s _ fun c => programFlow_keeps s.cfg ch pe eb c

theorem storeProto_frame (ch : ChanId) (pe : Proto) (s : State) : RouterFrame ch s (storeProto ch pe s) := by
  unfold storeProto
  split
  · exact (protocolChange_frame ch s).trans (RouterFrame.modChan ch _ (fun c => { c with proto := pe }) fun c => ⟨rfl, rfl, rfl⟩)
  · exact RouterFrame.modChan ch _ (fun c => { c with proto := pe }) fun c => ⟨rfl, rfl, rfl⟩

theorem setModeCore_frame (ch : ChanId) (p : ProtoField) (tS : Option Slot) (tB : Bank) (rS : Option Slot) (rB : Bank)
    (eb : Bool) (s : State) : RouterFrame ch s (setModeCore ch p tS tB rS rB eb s) :=
  ((routeSlots_frame ch tS tB rS rB s).trans (setFlow_frame ch _ eb _)).trans
    ((storeProto_frame ch _ _).trans (RouterFrame.modChan ch _ (fun c => { c with txSrc := sourceAfter c }) fun _ => ⟨rfl, rfl, rfl⟩))

theorem routeSlots_ch (ch : ChanId) (tS : Option Slot) (tB : Bank) (rS : Option Slot) (rB : Bank) (s : State) :
    (routeSlots ch tS tB rS rB s).ch ch = { s.ch ch with txSlot := tS, rxSlot := rS, txBank := tB, rxBank := rB } := by
  cases tS <;> cases rS <;>
    simp [routeSlots, programSlot_ch, releaseSlot_ch, Channel.setSlot, Channel.setBank, Channel.slot] <;>
    exact ite_self _

theorem setModeCore_ch (ch : ChanId) (p : ProtoField) (tS : Option Slot) (tB : Bank) (rS : Option Slot) (rB : Bank)
    (eb : Bool) (s : State) :
    (setModeCore ch p tS tB rS rB eb s).ch ch = modeRecord s.cfg ch (effectiveProto p) tS tB rS rB eb (s.ch ch) := by
  have hc : ∀ (pe : Proto) (c : Channel), (programFlow s.cfg ch pe eb c).proto = c.proto := by
    intro pe c; cases pe <;> rfl
  have hp := routeSlots_ch ch tS tB rS rB s
  have hg := (routeSlots_frame ch tS tB rS rB s).cfg
  have hf : (setFlow ch (effectiveProto p) eb (routeSlots ch tS tB rS rB s)).ch ch =
      { programFlow s.cfg ch (effectiveProto p) eb { s.ch ch with txSlot := tS, rxSlot := rS, txBank := tB, rxBank := rB } with
        eb := eb } := by
    simp only [setFlow, State.modChan_ch, if_true, hp, hg]
  unfold setModeCore modeRecord storeProto
  simp only [State.modChan_ch, if_true, hf, hc]
  by_cases h : effectiveProto p = (s.ch ch).proto
  · rw [if_neg (not_not.2 h), if_neg (not_not.2 h), hf]
  · rw [if_pos h, if_pos h, protocolChange_ch, if_pos rfl, hf]

/-- One of two values, by direction. -/
def Dir.pick {α : Type} (d : Dir) (tx rx : α) : α :=
  match d with
  | .tx => tx
  | .rx => rx

@[simp] theorem Dir.pick_tx {α : Type} (x y : α) : Dir.tx.pick x y = x := rfl
@[simp] theorem Dir.pick_rx {α : Type} (x y : α) : Dir.rx.pick x y = y := rfl

/-- The routing tables after SetModeCore, at any slot and direction (R153, R154): a requested slot is the channel's; a
slot it gave up as the recorded owner is nobody's. -/
theorem setModeCore_routes (ch : ChanId) (p : ProtoField) (tS : Option Slot) (tB : Bank) (rS : Option Slot) (rB : Bank)
    (eb : Bool) (s : State) (slot : Slot) (d : Dir) :
    (setModeCore ch p tS tB rS rB eb s).ownAt (routeIx slot d) =
        (if d.pick tS rS = some slot then some ch
         else if (s.ch ch).slot d = some slot ∧ s.ownAt (routeIx slot d) = some ch then none
         else s.ownAt (routeIx slot d))
    ∧ (setModeCore ch p tS tB rS rB eb s).regAt (routeIx slot d) =
        (if d.pick tS rS = some slot then
          some ⟨ch, routeMode (s.ch ch).conf (d.pick tB rB), d.pick tB rB⟩
         else if (s.ch ch).slot d = some slot ∧ s.ownAt (routeIx slot d) = some ch then none
         else s.regAt (routeIx slot d)) := by
  have conf1 : ((releaseSlot ch .rx rS (releaseSlot ch .tx tS s)).ch ch).conf = (s.ch ch).conf :=
    ((releaseSlot_frame ch .tx tS s).trans (releaseSlot_frame ch .rx rS _)).conf
  have conf2 : ((programSlot ch .tx tS tB (releaseSlot ch .rx rS (releaseSlot ch .tx tS s))).ch ch).conf = (s.ch ch).conf :=
    (((releaseSlot_frame ch .tx tS s).trans (releaseSlot_frame ch .rx rS _)).trans (programSlot_frame ch .tx tS tB _)).conf
  have store : ∀ (pe : Proto) (t : State), (storeProto ch pe t).ownAt = t.ownAt ∧ (storeProto ch pe t).regAt = t.regAt := by
    intro pe t
    unfold storeProto
    split <;> simp
  unfold setModeCore routeSlots setFlow
  simp only [State.modChan_ownAt, State.modChan_regAt, (store _ _).1, (store _ _).2, programSlot_ownAt, programSlot_regAt,
    releaseSlot_ownAt, releaseSlot_regAt, conf1, conf2]
  cases d
  · by_cases hn : tS = some slot <;> simp [hn]
  · by_cases hn : rS = some slot <;> simp [hn, releaseSlot_ch]

theorem setModeCore_diagq (ch : ChanId) (p : ProtoField) (tS : Option Slot) (tB : Bank) (rS : Option Slot) (rB : Bank)
    (eb : Bool) (s : State) :
    (setModeCore ch p tS tB rS rB eb s).diagq = s.diagq
      ++ (match (s.ch ch).slot .tx with
          | none => []
          | some old => if tS = some old ∨ s.ownAt (routeIx old .tx) = some ch then [] else [.staleOwner ch old .tx])
      ++ (match (s.ch ch).slot .rx with
          | none => []
          | some old => if rS = some old ∨ s.ownAt (routeIx old .rx) = some ch then [] else [.staleOwner ch old .rx]) := by
  have store : ∀ (pe : Proto) (t : State), (storeProto ch pe t).diagq = t.diagq := by
    intro pe t
    unfold storeProto
    split <;> simp
  have prog : ∀ d new bank t, (programSlot ch d new bank t).diagq = t.diagq := by
    intro d new bank t; unfold programSlot; split <;> simp
  unfold setModeCore routeSlots setFlow
  simp only [State.modChan_diagq, store, prog, releaseSlot_diagq, releaseSlot_ch, if_true, releaseSlot_ownAt, Channel.setSlot_slot]
  congr 1

/-- The rings after SetModeCore (R157): untouched when the protocol stays, else the receive ring is reset. -/
theorem setModeCore_rings (ch : ChanId) (p : ProtoField) (tS : Option Slot) (tB : Bank) (rS : Option Slot) (rB : Bank)
    (eb : Bool) (s : State) :
    (effectiveProto p = (s.ch ch).proto → (setModeCore ch p tS tB rS rB eb s).txRing = s.txRing
      ∧ (setModeCore ch p tS tB rS rB eb s).rxRing = s.rxRing
      ∧ (setModeCore ch p tS tB rS rB eb s).rxOvf = s.rxOvf ∧ (setModeCore ch p tS tB rS rB eb s).sel = s.sel
      ∧ (setModeCore ch p tS tB rS rB eb s).mem = s.mem ∧ (setModeCore ch p tS tB rS rB eb s).lineIn = s.lineIn
      ∧ (setModeCore ch p tS tB rS rB eb s).status = s.status ∧ (setModeCore ch p tS tB rS rB eb s).env = s.env)
    ∧ (effectiveProto p ≠ (s.ch ch).proto → (setModeCore ch p tS tB rS rB eb s).sel = some (ch, .rx)
      ∧ (setModeCore ch p tS tB rS rB eb s).ovf ch = false
      ∧ ∃ r, (setModeCore ch p tS tB rS rB eb s).ring ch .rx = Ring.clear s.cfg r ∧ (s.env.sched = [] → r = s.ring ch .rx)) := by
  have rel : ∀ d new t, (releaseSlot ch d new t).txRing = t.txRing ∧ (releaseSlot ch d new t).rxRing = t.rxRing
      ∧ (releaseSlot ch d new t).rxOvf = t.rxOvf ∧ (releaseSlot ch d new t).sel = t.sel
      ∧ (releaseSlot ch d new t).mem = t.mem ∧ (releaseSlot ch d new t).lineIn = t.lineIn
      ∧ (releaseSlot ch d new t).status = t.status ∧ (releaseSlot ch d new t).env = t.env := by
    intro d new t
    unfold releaseSlot
    split
    · simp
    · split
      · simp
      · split <;> simp
  have prog : ∀ d new bank t, (programSlot ch d new bank t).txRing = t.txRing
      ∧ (programSlot ch d new bank t).rxRing = t.rxRing ∧ (programSlot ch d new bank t).rxOvf = t.rxOvf
      ∧ (programSlot ch d new bank t).sel = t.sel ∧ (programSlot ch d new bank t).mem = t.mem
      ∧ (programSlot ch d new bank t).lineIn = t.lineIn ∧ (programSlot ch d new bank t).status = t.status
      ∧ (programSlot ch d new bank t).env = t.env := by
    intro d new bank t
    unfold programSlot
    split <;> simp
  have hflow : ((setFlow ch (effectiveProto p) eb (routeSlots ch tS tB rS rB s)).ch ch).proto = (s.ch ch).proto := by
    simp only [setFlow, State.modChan_ch, if_true, routeSlots_ch]
    cases effectiveProto p <;> rfl
  unfold setModeCore storeProto
  rw [hflow]
  constructor
  · intro he
    rw [if_neg (not_not.2 he)]
    simp [setFlow, routeSlots, rel, prog]
  · intro he
    rw [if_pos he]
    obtain ⟨h1, h2, r, h3, h4⟩ := protocolChange_ring ch (setFlow ch (effectiveProto p) eb (routeSlots ch tS tB rS rB s))
    refine ⟨by simpa using h1, by simpa using h2, r, ?_, ?_⟩
    · simpa [setFlow, (routeSlots_frame ch tS tB rS rB s).cfg] using h3
    · intro hs
      have h5 := h4 (by simpa [setFlow, routeSlots, rel, prog] using hs)
      have h6 : (setFlow ch (effectiveProto p) eb (routeSlots ch tS tB rS rB s)).rxRing = s.rxRing := by
        simp [setFlow, routeSlots, rel, prog]
      rw [h5]
      simp only [State.ring, h6]

/-! ### Properties the router keeps -/

/-- A property that everything SetModeCore and CLOSE do on channel `c` keeps. -/
structure RouterKeeps (c : ChanId) (P : State → Prop) : Prop where
  yield : ∀ s, P s → P s.yield
  select : ∀ s d, P s → P (s.select c d)
  reset : ∀ s d, s.sel = some (c, d) → P s → P (resetNow s)
  setOwn : ∀ s i x, P s → P (s.setOwn i x)
  setSlotReg : ∀ s i x, P s → P (s.setSlotReg i x)
  diag : ∀ s d, P s → P (s.diag d)
  edit : ∀ s f, P s → P (s.modChan c f)

section
variable {c : ChanId} {P : State → Prop} (k : RouterKeeps c P)
include k

theorem RouterKeeps.resetAt {s : State} (d : Dir) (h : P s) : P (ringReset (s.select c d)) :=
  k.reset _ d (by simp) (k.yield _ (k.select s d h))

theorem RouterKeeps.release {s : State} (d : Dir) (new : Option Slot) (h : P s) : P (releaseSlot c d new s) := by
  unfold releaseSlot
  repeat' split
  · exact h
  · exact h
  · exact k.edit _ _ (k.setOwn _ _ _ (k.setSlotReg _ _ _ h))
  · exact k.edit _ _ (k.diag _ _ h)

theorem RouterKeeps.program {s : State} (d : Dir) (new : Option Slot) (bank : Bank) (h : P s) :
    P (programSlot c d new bank s) := by
  unfold programSlot
  split
  · exact k.edit _ _ h
  · exact k.edit _ _ (k.setOwn _ _ _ (k.setSlotReg _ _ _ h))

theorem RouterKeeps.protocolChange {s : State} (h : P s) : P (protocolChange c s) :=
  k.edit _ _ (k.resetAt .rx (k.edit s _ h))

/-- What each update keeps, SetModeCore keeps (R151). -/
theorem RouterKeeps.setModeCore {s : State} (p : ProtoField) (tS : Option Slot) (tB : Bank) (rS : Option Slot) (rB : Bank)
    (eb : Bool) (h : P s) : P (setModeCore c p tS tB rS rB eb s) := by
  have h1 := k.program .rx rS rB (k.program .tx tS tB (k.release .rx rS (k.release .tx tS h)))
  have h2 : P (setFlow c (effectiveProto p) eb (routeSlots c tS tB rS rB s)) := k.edit _ _ h1
  unfold Machine.setModeCore storeProto
  split
  · exact k.edit _ _ (k.edit _ _ (k.protocolChange h2))
  · exact k.edit _ _ (k.edit _ _ h2)

/-- The same of SetModeCore with the stored arguments (R163, R164). -/
theorem RouterKeeps.setModeStored {s : State} (h : P s) : P (setModeStored c s) := k.setModeCore _ _ _ _ _ _ h

/-- The same of CLOSE (R166). -/
theorem RouterKeeps.closeChannel {s : State} (h : P s) : P (closeChannel c s) := by
  have h1 : P (unroute c s) := k.setModeCore .noProto none 0 none 0 false (k.edit s (fun x => { x with conf := none }) h)
  have h2 : P (emptyRings c (unroute c s)) := k.resetAt .rx (k.resetAt .tx (k.edit _ _ h1))
  exact k.edit _ _ h2

end

/-! ### CLOSE (R166) -/

theorem emptyRings_frame (ch : ChanId) (s : State) :
    (emptyRings ch s).cfg = s.cfg ∧ (emptyRings ch s).ctl = s.ctl ∧ (emptyRings ch s).port = s.port
    ∧ (emptyRings ch s).evq = s.evq ∧ (emptyRings ch s).diagq = s.diagq ∧ (emptyRings ch s).lineq = s.lineq
    ∧ (emptyRings ch s).env.inputs = s.env.inputs
    ∧ (emptyRings ch s).ownAt = s.ownAt ∧ (emptyRings ch s).regAt = s.regAt := by
  simp [emptyRings, ringReset]

theorem emptyRings_ch (ch : ChanId) (s : State) (k : ChanId) :
    (emptyRings ch s).ch k = if ch = k then { s.ch ch with txq := [], cursor := 0, rxbuf := [] } else s.ch k := by
  simp only [emptyRings, ringReset, resetNow_ch, State.yield_ch, State.select_ch, State.modChan_ch]

theorem unroute_frame (ch : ChanId) (s : State) :
    (unroute ch s).cfg = s.cfg ∧ (unroute ch s).ctl = s.ctl ∧ (unroute ch s).port = s.port ∧ (unroute ch s).evq = s.evq
    ∧ (unroute ch s).lineq = s.lineq ∧ (unroute ch s).env.inputs = s.env.inputs
    ∧ ∀ k, k ≠ ch → (unroute ch s).ch k = s.ch k := by
  have f := setModeCore_frame ch .noProto none 0 none 0 false (s.modChan ch fun c => { c with conf := none })
  refine ⟨f.cfg, f.ctl, f.port, f.evq, f.lineq, f.inputs, fun k hk => ?_⟩
  have := f.others k hk
  rwa [State.modChan_ch, if_neg (Ne.symm hk)] at this

/-- The record CLOSE leaves is the reset record; the others stay. -/
theorem closeChannel_ch (ch : ChanId) (s : State) (k : ChanId) :
    (closeChannel ch s).ch k = if ch = k then Channel.reset else s.ch k := by
  unfold closeChannel
  by_cases hk : ch = k
  · subst hk
    have hrec : ∀ (g : Config) (c : Channel), c.conf = none →
        ({ modeRecord g ch .noProto none 0 none 0 false c with
            txq := [], cursor := 0, rxbuf := [], txState := .idle, txSrc := .fifo, isOpen := false } : Channel) = Channel.reset := by
      intro g c hc
      simp only [modeRecord, programFlow]
      split <;> simp [Channel.reset, hc]
    simp only [State.modChan_ch, if_true, emptyRings_ch]
    unfold unroute
    rw [setModeCore_ch]
    exact hrec _ _ (by simp)
  · simp only [State.modChan_ch, emptyRings_ch, hk, if_false]
    exact (unroute_frame ch s).2.2.2.2.2.2 k (Ne.symm hk)

/-- What CLOSE leaves of a state, beside the channel, its rings and its routes. -/
theorem closeChannel_fields (ch : ChanId) (s : State) :
    (closeChannel ch s).cfg = s.cfg ∧ (closeChannel ch s).ctl = s.ctl ∧ (closeChannel ch s).port = s.port
    ∧ (closeChannel ch s).evq = s.evq ∧ (closeChannel ch s).lineq = s.lineq
    ∧ (closeChannel ch s).env.inputs = s.env.inputs := by
  obtain ⟨a1, a2, a3, a4, a5, a6, -⟩ := unroute_frame ch s
  obtain ⟨b1, b2, b3, b4, -, b5, b6, -⟩ := emptyRings_frame ch (unroute ch s)
  simp only [closeChannel, State.modChan_cfg, State.modChan_ctl, State.modChan_port, State.modChan_evq, State.modChan_lineq,
    State.modChan_env]
  exact ⟨b1.trans a1, b2.trans a2, b3.trans a3, b4.trans a4, b5.trans a5, b6.trans a6⟩

/-- The routes after CLOSE: the slots the channel owns are released. -/
theorem closeChannel_routes (ch : ChanId) (s : State) (slot : Slot) (d : Dir) :
    (closeChannel ch s).ownAt (routeIx slot d) =
        (if (s.ch ch).slot d = some slot ∧ s.ownAt (routeIx slot d) = some ch then none else s.ownAt (routeIx slot d))
    ∧ (closeChannel ch s).regAt (routeIx slot d) =
        (if (s.ch ch).slot d = some slot ∧ s.ownAt (routeIx slot d) = some ch then none else s.regAt (routeIx slot d)) := by
  have r := setModeCore_routes ch .noProto none 0 none 0 false (s.modChan ch fun c => { c with conf := none }) slot d
  have hn : ¬ d.pick (none : Option Slot) none = some slot := by cases d <;> simp
  have hs : ((s.modChan ch fun c => { c with conf := none }).ch ch).slot d = (s.ch ch).slot d := by
    simp only [State.modChan_ch, if_true]; cases d <;> rfl
  rw [if_neg hn, if_neg hn, hs] at r
  obtain ⟨-, -, -, -, -, -, -, h8, h9⟩ := emptyRings_frame ch (unroute ch s)
  simp only [closeChannel, State.modChan_ownAt, State.modChan_regAt, h8, h9]
  exact r

end Sys2Proof.Machine
end

