-- ==== Sys2Proof/Laws/Step.lean ====
section
/-! SUPPORT. What a command and a step can do, said once: every case in which they give a next state, with the state they give. -/

namespace Sys2Proof.Machine

/-- What a command can do: it is rejected and changes nothing but `resp` (R253), or it has its effect under these guards. -/
inductive ExecCase (i : Instr) (s t : State) : Prop where
  | rejected (r : Resp) (h : t = s.answer r)
  | init (hi : i = .init) (hc : s.ctl = .down) (hg : configOk s.cfg = true) (h : t = initChecks s)
  | openCh (ch : ChanId) (hi : i = .openCh ch) (hc : s.ctl = .up) (hu : s.cfg.roleOf.get ch ≠ .unused)
      (ho : (s.ch ch).isOpen = false) (h : t = (s.modChan ch fun c => { c with isOpen := true }).answer .ok)
  | close (ch : ChanId) (hi : i = .close ch) (hc : s.ctl = .up) (hu : s.cfg.roleOf.get ch ≠ .unused)
      (ho : (s.ch ch).isOpen = true) (h : t = (closeChannel ch s).answer .ok)
  | setMode (ch : ChanId) (p : ProtoField) (tS : Option Slot) (tB : Bank) (rS : Option Slot) (rB : Bank) (eb : Bool)
      (hi : ∃ tv x rv y, i = .setMode ch p tv x tB rv y rB eb ∧ tS = requestedSlot tv x ∧ rS = requestedSlot rv y)
      (hc : s.ctl = .up) (hu : s.cfg.roleOf.get ch ≠ .unused) (ht : slotInRange s.cfg tS = true)
      (hr : slotInRange s.cfg rS = true)
      (h : t = (setModeCore ch p tS tB rS rB eb s).answer (if p = .unsupported then .badProtocol else .ok))
  | confJoin (ch : ChanId) (conf : Fin 16) (g : ConfId) (hi : i = .confJoin ch conf) (hc : s.ctl = .up)
      (hu : s.cfg.roleOf.get ch ≠ .unused) (hg : confOperand conf = some g)
      (h : t = (setModeStored ch (s.modChan ch fun c => { c with conf := some g })).answer .ok)
  | confSplit (ch : ChanId) (hi : i = .confSplit ch) (hc : s.ctl = .up) (hu : s.cfg.roleOf.get ch ≠ .unused)
      (h : t = (setModeStored ch (s.modChan ch fun c => { c with conf := none })).answer .ok)
  | submit (ch : ChanId) (len : Fin 65536) (payload : List Byte) (hi : i = .submit ch len payload) (hc : s.ctl = .up)
      (ho : (s.ch ch).isOpen = true) (hp : (s.ch ch).proto ≠ .noProto) (hl : len.val ≠ 0 ∧ payload.length = len.val)
      (h : t = (s.modChan ch fun c => { c with txq := c.txq ++ [payload] }).answer .ok)
  | service (ch : ChanId) (tx rx : Bool) (hi : i = .service ch tx rx) (hc : s.ctl = .up) (ho : (s.ch ch).isOpen = true)
      (hp : (s.ch ch).proto ≠ .noProto) (h : t = (serve ch tx rx s).answer .ok)
  | dispatch (hi : i = .dispatch) (hc : s.ctl = .up) (h : t = (dispatchBody s).answer .ok)

/-- Every next state of a command is one of the cases. -/
theorem exec_cases {i : Instr} {s t : State} (h : exec i s = .next t) : ExecCase i s t := by
  cases i
  case init =>
    simp only [exec, execInit] at h
    split at h
    · cases h
    · rename_i hg
      split at h
      · cases h; exact .rejected _ rfl
      · split at h
        · cases h; exact .rejected _ rfl
        · rename_i h1 h2
          cases h
          refine .init rfl ?_ (by simpa using hg) rfl
          cases hx : s.ctl <;> simp_all
  case openCh ch =>
    simp only [exec, execOpen] at h
    repeat' split at h
    all_goals cases h
    · exact .rejected _ rfl
    · exact .rejected _ rfl
    · exact .rejected _ rfl
    · rename_i h1 h2 h3; exact .openCh ch rfl (by simpa using h1) h2 (by simpa using h3) rfl
  case close ch =>
    simp only [exec, execClose] at h
    repeat' split at h
    all_goals cases h
    · exact .rejected _ rfl
    · exact .rejected _ rfl
    · exact .rejected _ rfl
    · rename_i h1 h2 h3; exact .close ch rfl (by simpa using h1) h2 (by simpa using h3) rfl
  case setMode ch p tv x tB rv y rB eb =>
    simp only [exec, execSetMode] at h
    split at h
    · cases h; exact .rejected _ rfl
    · split at h
      · cases h; exact .rejected _ rfl
      · split at h
        · cases h; exact .rejected _ rfl
        · split at h
          · cases h; exact .rejected _ rfl
          · rename_i h1 h2 h3 h4
            cases h
            exact .setMode ch p _ tB _ rB eb ⟨tv, x, rv, y, rfl, rfl, rfl⟩ (by simpa using h1) h2 (by simpa using h3)
              (by simpa using h4) rfl
  case confJoin ch conf =>
    simp only [exec, execConfJoin] at h
    split at h
    · cases h; exact .rejected _ rfl
    · split at h
      · cases h; exact .rejected _ rfl
      · split at h
        · cases h; exact .rejected _ rfl
        · rename_i h1 h2 _ g hg
          cases h; exact .confJoin ch conf g rfl (by simpa using h1) h2 hg rfl
  case confSplit ch =>
    simp only [exec, execConfSplit] at h
    split at h
    · cases h; exact .rejected _ rfl
    · split at h
      · cases h; exact .rejected _ rfl
      · rename_i h1 h2
        cases h; exact .confSplit ch rfl (by simpa using h1) h2 rfl
  case submit ch len payload =>
    simp only [exec, execSubmit] at h
    repeat' split at h
    all_goals cases h
    · exact .rejected _ rfl
    · exact .rejected _ rfl
    · exact .rejected _ rfl
    · exact .rejected _ rfl
    · rename_i h1 h2 h3 h4
      exact .submit ch len payload rfl (by simpa using h1) (by simpa using h2) h3 (by simpa [lengthOk] using h4) rfl
  case service ch tx rx =>
    simp only [exec, execService] at h
    repeat' split at h
    all_goals cases h
    · exact .rejected _ rfl
    · exact .rejected _ rfl
    · exact .rejected _ rfl
    · rename_i h1 h2 h3; exact .service ch tx rx rfl (by simpa using h1) (by simpa using h2) h3 rfl
  case dispatch =>
    simp only [exec, execDispatch] at h
    split at h
    · cases h; exact .rejected _ rfl
    · rename_i h1; cases h; exact .dispatch rfl (by simpa using h1) rfl

/-- What a step can do: wait, or take the first input and run it (R9, R61). -/
inductive StepCase (s t : State) : Prop where
  | wait (hi : s.env.inputs = []) (h : t = s)
  | illegal (w : Word) (payload : List Byte) (rest : List Input) (e : DecodeError)
      (hi : s.env.inputs = .command w payload :: rest) (hd : decode w payload = .illegal e) (h : t = s.consume.answer .illegal)
  | command (w : Word) (payload : List Byte) (rest : List Input) (i : Instr) (hi : s.env.inputs = .command w payload :: rest)
      (hd : decode w payload = .instr i) (h : ExecCase i s.consume t)
  | own (rest : List Input) (hi : s.env.inputs = .ownDispatch :: rest)
      (h : s.ctl ≠ .up ∧ t = s.consume ∨ s.ctl = .up ∧ t = dispatchBody s.consume)
  | stimulus (st : Stimulus) (rest : List Input) (hi : s.env.inputs = .stimulus st :: rest) (h : t = applyStimulus st s.consume)
  | takeEvent (rest : List Input) (hi : s.env.inputs = .takeEvent :: rest) (h : t = s.consume.takeEvent)

/-- Every next state of a step is one of the cases. -/
theorem step_cases {s t : State} (h : step s = .next t) : StepCase s t := by
  unfold step runNext at h
  split at h
  · rename_i hi; cases h; exact .wait hi rfl
  · rename_i x rest hi
    cases x with
    | command w payload =>
      simp only [runInput, runCommand] at h
      split at h
      · rename_i i hd; exact .command w payload rest i hi hd (exec_cases h)
      · rename_i e hd; cases h; exact .illegal w payload rest e hi hd rfl
    | ownDispatch =>
      simp only [runInput, ownDispatch] at h
      split at h
      · rename_i hc; cases h; exact .own rest hi (.inr ⟨hc, rfl⟩)
      · rename_i hc; cases h; exact .own rest hi (.inl ⟨hc, rfl⟩)
    | stimulus st =>
      simp only [runInput] at h
      cases h; exact .stimulus st rest hi rfl
    | takeEvent =>
      simp only [runInput] at h
      cases h; exact .takeEvent rest hi rfl

end Sys2Proof.Machine
end

