-- ==== Sys2Proof/Tests/Slice0.lean ====
section
/-! SUPPORT. Tests of the model against the spec's vectors (spec/95_test_vectors.md), the words of the encoding written out bit by
bit, and a witness for the hypotheses of every statement that has some. -/

open Sys2Proof Sys2Proof.Machine

namespace Sys2Proof.Tests

set_option Elab.async false

/-! ### Small states -/

/-- S0 of 95_test_vectors section 0, on a configuration of choice, every stable read succeeding. -/
def s0 (c : Config) : State :=
  { State.powerOn c with ctl := .up, env := { Env.reset with reads := [false, false, false, false, false, false] } }

/-- S0 under CFG-A. -/
def a0 : State := s0 Config.cfgA

/-- An open framed channel on a point-to-point port, idle. -/
def hdlcChan : Channel :=
  { Channel.reset with isOpen := true, proto := .hdlc, flowTx := .hdlc, flowRx := .hdlc, frameIrq := true, subMode := .single }

/-- An open, unrouted transparent channel, idle. -/
def rawChan : Channel := { Channel.reset with isOpen := true, proto := .raw, flowTx := .transp, flowRx := .transp }

/-- A ring of CFG-A with the given counters. -/
def ringAt (z1 z2 f1 f2 : Nat) (fend : List Nat := [0, 0, 0, 0, 0, 0, 0, 0]) : Ring := ⟨z1, z2, f1, f2, fend⟩

/-- S0 with channel `ch` as given. -/
def withChan (ch : ChanId) (x : Channel) : State := a0.setChan ch x

/-- S0 with an input next on the interface. -/
def withInput (x : Input) : State := a0.present x

/-- A test on the next state of an outcome; a stop fails it. -/
def nextHas (o : Host.Outcome State Fault Refusal) (f : State → Bool) : Bool :=
  match o with
  | .next t => f t
  | _ => false

/-- The outcome is a next state. -/
def isNext (o : Host.Outcome State Fault Refusal) : Bool := nextHas o fun _ => true

theorem exists_next {o : Host.Outcome State Fault Refusal} (h : isNext o = true) : ∃ t, o = .next t := by
  cases o with
  | next t => exact ⟨t, rfl⟩
  | fault f => cases h
  | refused r => cases h

/-! ### Words, bit by bit from the formats of R72 to R81 -/

theorem test_word_init : decode 0b0001_0000000000000000000000000000 [] = .instr .init := by decide

theorem test_word_open : decode 0b0010_00010_00000000000000000000000 [] = .instr (.openCh 2) := by decide

theorem test_word_close : decode 0b0011_11111_00000000000000000000000 [] = .instr (.close 31) := by decide

/-- The field table of section 2.1 for 0x40B0A42C. -/
theorem test_word_setMode :
    decode 0b0100_00001_01_1_0000101_00_1_0000101_10_0 [] = .instr (.setMode 1 .raw true 5 0 true 5 2 false) := by decide

/-- DE13: every field at its maximum. -/
theorem test_word_setMode_max :
    decode 0b0100_11111_11_1_1111111_11_1_1111111_11_1 [] = .instr (.setMode 31 .unsupported true 127 3 true 127 3 true) := by
  decide

theorem test_word_confJoin : decode 0b0101_00100_0011_0000000000000000000 [] = .instr (.confJoin 4 3) := by decide

theorem test_word_confSplit : decode 0b0110_11111_00000000000000000000000 [] = .instr (.confSplit 31) := by decide

theorem test_word_submit :
    decode 0b0111_00010_0000000_0000000000000010 [0x7E, 0x01] = .instr (.submit 2 2 [0x7E, 0x01]) := by decide

/-- DE18, with the payload of program P1. -/
theorem test_word_submit_vector :
    decode 0b0111_00010_0000000_0000000000000101 [0x7E, 0x01, 0x02, 0x03, 0x00] =
      .instr (.submit 2 5 [0x7E, 0x01, 0x02, 0x03, 0x00]) := by decide

theorem test_word_service : decode 0b1000_00000_000000000000000000000_1_0 [] = .instr (.service 0 true false) := by decide

theorem test_word_dispatch : decode 0b1001_0000000000000000000000000000 [] = .instr .dispatch := by decide

/-- DE1 to DE3, DE5, DE6, DE9, DE17, DE19, DE22. -/
theorem test_illegal_words :
    decode 0x00000000 [] = .illegal .reservedOpcode ∧ decode 0xA0000000 [] = .illegal .reservedOpcode
    ∧ decode 0xF0000000 [] = .illegal .reservedOpcode ∧ decode 0x10000001 [] = .illegal .reservedBits
    ∧ decode 0x98000000 [] = .illegal .reservedBits ∧ decode 0x21000001 [] = .illegal .reservedBits
    ∧ decode 0x52180001 [] = .illegal .reservedBits ∧ decode 0x71010005 [] = .illegal .reservedBits
    ∧ decode 0x80000004 [] = .illegal .reservedBits := by decide

theorem test_encode_setMode : (encode (.setMode 1 .raw true 5 0 true 5 2 false)).1 = 0x40B0A42C := by decide

/-! ### Code numbers -/

/-- The table of R251, row by row. -/
theorem test_response_codes :
    ([.ok, .illegal, .notUp, .badChannel, .badSlot, .badProtocol, .badConf, .notOpen, .alreadyOpen, .badLength, .noProtocol,
      .alreadyUp, .failed] : List Resp).map Resp.code = [0, 1, 2, 3, 4, 5, 6, 7, 8, 9, 10, 11, 12] := by decide

/-- The table of R254. -/
theorem test_fatal_codes : ([.identity, .ramTest, .noTimingRef] : List FatalCode).map FatalCode.code = [1, 2, 3] := by decide

/-! ### Well-formedness -/

theorem test_wellFormed_refuses : Instr.wellFormed (.submit 0 2 [1]) = false := by decide

theorem test_wellFormed_accepts : Instr.wellFormed (.submit 0 1 [1]) = true := by decide

/-! ### One command each -/

/-- DI6. -/
theorem test_init_up :
    nextHas (exec .init ((State.powerOn Config.cfgA).setEnv { Env.reset with checks := [⟨true, true, true⟩] }))
      (fun t => t.ctl == .up && t.resp == .ok && t.evq.isEmpty) = true := by decide +kernel

/-- DI9: the RAM test fails. -/
theorem test_init_fails :
    nextHas (exec .init ((State.powerOn Config.cfgA).setEnv { Env.reset with checks := [⟨true, false, false⟩] }))
      (fun t => t.ctl == .failed && t.resp == .failed && t.evq == [.fatal .ramTest]) = true := by decide +kernel

/-- RT14. -/
theorem test_open_twice :
    nextHas (exec (.openCh 2) a0) (fun t => (t.ch 2).isOpen && t.resp == .ok && nextHas (exec (.openCh 2) t)
      fun u => u.resp == .alreadyOpen) = true := by decide +kernel

/-- RT16: a partly written frame is dropped without TX_DONE. -/
theorem test_close :
    nextHas (exec (.close 0)
        (((withChan 0 { hdlcChan with txSlot := some 3, txState := .sending, txq := [List.replicate 18 7], cursor := 15 }).setOwn 6
          (some 0)).setSlotReg 6 (some ⟨0, .direct, 0⟩)))
      (fun t => t.ownAt 6 == none && t.regAt 6 == none && t.ch 0 == Channel.reset && t.evq.isEmpty) = true := by decide +kernel

/-- P5 step 1: bank 2 is routed LOOP, bank 0 DIRECT. -/
theorem test_setMode_routes :
    nextHas (exec (.setMode 1 .raw true 5 0 true 5 2 false) a0)
      (fun t => t.regAt 10 == some ⟨1, .direct, 0⟩ && t.regAt 11 == some ⟨1, .loop, 2⟩ && t.ownAt 11 == some 1
        && (t.ch 1).txSrc == .hwy) = true := by decide +kernel

/-- RT10: an unsupported protocol does everything and is answered BAD_PROTOCOL. -/
theorem test_setMode_unsupported :
    nextHas (exec (.setMode 2 .unsupported true 7 1 false 0 0 false) (withChan 2 hdlcChan))
      (fun t => t.resp == .badProtocol && t.ownAt 14 == some 2 && t.regAt 14 == some ⟨2, .direct, 1⟩
        && (t.ch 2).proto == .noProto && (t.ch 2).flowTx == .off && (t.ch 2).txState == .resetPending
        && (t.ch 2).txSrc == .fifo) = true := by decide +kernel

/-- RT12: a conference forces LOOP. -/
theorem test_confJoin :
    nextHas (exec (.confJoin 1 2) (withChan 1 { rawChan with txSlot := some 5 }))
      (fun t => (t.ch 1).conf == some 2 && t.regAt 10 == some ⟨1, .loop, 0⟩) = true := by decide +kernel

/-- After P5's takeover, CONF_JOIN of the previous owner of slot 5 runs SetModeCore on its stale slot (log entry 30). -/
theorem test_confJoin_stale :
    nextHas (exec (.confJoin 1 2)
        (((withChan 1 { rawChan with txSlot := some 5 }).setOwn 10 (some 4)).setSlotReg 10 (some ⟨4, .direct, 0⟩)))
      (fun t => t.ownAt 10 == some 1 && t.regAt 10 == some ⟨1, .loop, 0⟩ && t.diagq.isEmpty) = true := by decide +kernel

/-- RT13. -/
theorem test_confJoin_range : nextHas (exec (.confJoin 4 8) a0) (fun t => t.resp == .badConf) = true := by decide +kernel

/-- RT12, continued. -/
theorem test_confSplit :
    nextHas (exec (.confSplit 1) (withChan 1 { rawChan with txSlot := some 5, conf := some 2 }))
      (fun t => (t.ch 1).conf == none && t.regAt 10 == some ⟨1, .direct, 0⟩) = true := by decide +kernel

/-- SU4. -/
theorem test_submit :
    nextHas (exec (.submit 0 2 [1, 2]) (withChan 0 rawChan)) (fun t => (t.ch 0).txq == [[1, 2]] && t.resp == .ok) = true := by
  decide +kernel

/-- EX5: NOT_OPEN comes before BAD_LENGTH. -/
theorem test_submit_order : nextHas (exec (.submit 0 0 []) a0) (fun t => t.resp == .notOpen) = true := by decide +kernel

/-- TF2: four bytes of six fit. -/
theorem test_service_partial :
    nextHas (exec (.service 0 true false)
        ((withChan 0 { rawChan with txq := [[0xA0, 0xA1, 0xA2, 0xA3, 0xA4, 0xA5]] }).setRing 0 .tx (ringAt 0 11 0 0)))
      (fun t => t.cell 0 .tx 11 == some 0xA0 && t.cell 0 .tx 14 == some 0xA3 && (t.ring 0 .tx).z2 == 15 && (t.ch 0).cursor == 4
        && (t.ch 0).txState == .sending && t.evq.isEmpty) = true := by decide +kernel

/-- RD1 (S5, receive half): the frame 7E 01 02 03 with status 00. -/
theorem test_service_receive :
    nextHas (exec (.service 2 false true)
        (({ withChan 2 hdlcChan with
            mem := [(327680, 0x7E), (327681, 0x01), (327682, 0x02), (327683, 0x03), (327684, 0x00)] }).setRing 2 .rx
          (ringAt 5 0 1 0 [0, 4, 0, 0, 0, 0, 0, 0])))
      (fun t => t.evq == [.rx 2 [0x7E, 0x01, 0x02, 0x03]] && (t.ring 2 .rx).z2 == 5 && (t.ring 2 .rx).f2 == 1
        && (t.ch 2).rxbuf.isEmpty) = true := by decide +kernel

/-- P4 step 1: the NT port enters state 2 with its countdown. -/
theorem test_dispatch_nt :
    nextHas (exec .dispatch (lineState 0 2 a0))
      (fun t => (t.pt 0).lstate == 2 && (t.pt 0).timer == some 3 && t.status.psc.get 0 == false) = true := by decide +kernel

/-- P6 part b, step 1: AIS is masked. -/
theorem test_dispatch_trunk :
    nextHas (exec .dispatch
        (applyStimulus .timerTick (lineAlarm 0 0b0011 (lineSync 0 true false (lineE1State 0 true (s0 Config.cfgB))))))
      (fun t => t.evq == [.activate 0, .alarm 0 0 true] && t.lineq == [.programJitter 0 2] && (t.pt 0).latch == 0b0011
        && (t.pt 0).sync == 1) = true := by decide +kernel

/-! ### The line side -/

/-- LN7: the counter wraps. -/
theorem test_line_put_wraps :
    ((lineRxPut 0 0x5A ((withChan 0 rawChan).setRing 0 .rx (ringAt 15 3 0 0))).ring 0 .rx).z1 = 0 := by decide +kernel

/-- LN11: no room for another frame. -/
theorem test_line_end_full :
    (lineRxEnd 0 0 ((withChan 0 hdlcChan).setRing 0 .rx (ringAt 3 3 7 0))).ovf 0 = true := by decide +kernel

/-- LN4: after its last byte the frame ends and the ready bit is set. -/
theorem test_line_takes_frameEnd :
    (lineTxTake 0 ((withChan 0 hdlcChan).setRing 0 .tx (ringAt 5 5 1 0 [0, 5, 0, 0, 0, 0, 0, 0]))).env.taken = [(0, .frameEnd)] := by
  decide +kernel

/-- LN5: the tail of an empty transparent ring is repeated. -/
theorem test_line_takes_tail :
    (lineTxTake 0 ({ withChan 0 rawChan with mem := [(3, 0xFF)] }.setRing 0 .tx (ringAt 4 4 0 0))).env.taken = [(0, .byte 0xFF)] := by
  decide +kernel

/-- LS15: a trunk report to an NT port has no effect. -/
theorem test_wrong_kind : (lineE1State 0 true a0).inp 0 = LineIn.reset := by decide +kernel

/-! ### Witnesses: concrete states and operands that meet the hypotheses of each statement -/

/-- Both sides of the `if`: a SUBMIT with payload, and a word without. -/
theorem witness_EncodeOfDecodeIsIdentity :
    decode 0x71000001 [9] = .instr (.submit 2 1 [9]) ∧ decode 0x90000000 [] = .instr .dispatch := by decide

/-- The first and last word of each reserved range, and the legal words beside them. -/
theorem witness_ReservedWordsAreIllegal :
    decode 0x0FFFFFFF [] = .illegal .reservedOpcode ∧ decode 0xA0000000 [] = .illegal .reservedOpcode
    ∧ decode 0x1FFFFFFF [] = .illegal .reservedBits ∧ decode 0x90000001 [] = .illegal .reservedBits
    ∧ decode 0x20400000 [] = .illegal .reservedBits ∧ decode 0x50040000 [] = .illegal .reservedBits
    ∧ decode 0x70400000 [] = .illegal .reservedBits ∧ decode 0x80400000 [] = .illegal .reservedBits
    ∧ decode 0x20800000 [] = .instr (.openCh 1) ∧ decode 0x50080000 [] = .instr (.confJoin 0 1)
    ∧ decode 0x70800000 [] = .instr (.submit 1 0 []) ∧ decode 0x80800000 [] = .instr (.service 1 false false)
    ∧ (withInput (.command 0xA0000000 [])).env.inputs = .command 0xA0000000 [] :: [] := by decide

theorem witness_StepRunsDecodedCommand :
    (withInput (.command 0x21000000 [])).env.inputs = .command 0x21000000 [] :: [] ∧ decode 0x21000000 [] = .instr (.openCh 2) := by
  decide

theorem witness_StepTakesOtherInputs :
    (withInput (.stimulus .tone)).env.inputs = .stimulus .tone :: [] ∧ (withInput .takeEvent).env.inputs = .takeEvent :: []
    ∧ a0.env.inputs = [] := by decide

theorem witness_OwnDispatchWritesNoResponse :
    (withInput .ownDispatch).env.inputs = .ownDispatch :: [] ∧ (withInput .ownDispatch).ctl = .up
    ∧ (State.reset.present .ownDispatch).env.inputs = .ownDispatch :: [] ∧ (State.reset.present .ownDispatch).ctl ≠ .up := by decide

/-- A step that changes something: OPEN of channel 2. -/
theorem witness_step : ∃ t, step (withInput (.command 0x21000000 [])) = .next t := exists_next (by decide +kernel)

theorem witness_StepKeepsConfiguration : ∃ t, step (withInput (.stimulus (.lineState 0 3))) = .next t :=
  exists_next (by decide +kernel)

theorem cfgA_ok : configOk Config.cfgA = true := by decide +kernel

theorem witness_PowerOnMeetsInvariants : configOk Config.cfgA = true ∧ configOk Config.cfgB = true := by decide +kernel

/-- A DOWN controller about to answer the three checks. -/
def beforeInit (k : Checks) : State := (State.powerOn Config.cfgA).setEnv { Env.reset with checks := [k] }

theorem witness_InitResult :
    configOk (beforeInit ⟨true, true, true⟩).cfg = true ∧ (beforeInit ⟨true, true, true⟩).ctl = .down
    ∧ (beforeInit ⟨true, true, true⟩).env.sched = [] ∧ (beforeInit ⟨true, true, true⟩).env.checks = ⟨true, true, true⟩ :: [] := by
  decide +kernel

theorem witness_InitResult_fails :
    configOk (beforeInit ⟨true, true, false⟩).cfg = true ∧ (beforeInit ⟨true, true, false⟩).ctl = .down
    ∧ (beforeInit ⟨true, true, false⟩).env.sched = []
    ∧ (beforeInit ⟨true, true, false⟩).env.checks = ⟨true, true, false⟩ :: [] := by decide +kernel

theorem witness_InitResult_rejected :
    configOk a0.cfg = true ∧ a0.ctl = .up ∧ configOk (a0.setCtl .failed).cfg = true ∧ (a0.setCtl .failed).ctl = .failed := by
  decide +kernel

/-- CFG-A with every role B: no port has a D channel. -/
def noDChannel : Config := { Config.cfgA with roleOf := Vector.replicate 32 .b }

theorem witness_InitRefusesBadLayout_noD :
    ¬(∀ p, portKind noDChannel p ≠ none → ∃! ch, noDChannel.portOf.get ch = some p ∧ noDChannel.roleOf.get ch = .d) := by
  intro h
  obtain ⟨ch, ⟨_, h2⟩, _⟩ := h 0 (by decide)
  revert h2; revert ch; decide

/-- CFG-A with every role D: port 0 has three D channels. -/
def manyDChannels : Config := { Config.cfgA with roleOf := Vector.replicate 32 .d }

theorem witness_InitRefusesBadLayout_manyD :
    ¬(∀ p, portKind manyDChannels p ≠ none → ∃! ch, manyDChannels.portOf.get ch = some p ∧ manyDChannels.roleOf.get ch = .d) := by
  intro h
  obtain ⟨ch, _, hu⟩ := h 0 (by decide)
  exact absurd ((hu 0 (by decide)).trans (hu 1 (by decide)).symm) (by decide)

/-- CFG-A with channel 3, which has no port, given role B. -/
def roleWithoutPort : Config := { Config.cfgA with roleOf := Config.cfgA.roleOf.set 3 .b }

theorem witness_InitRefusesBadLayout_role :
    ¬(∀ ch, roleWithoutPort.portOf.get ch = none ↔ roleWithoutPort.roleOf.get ch = .unused) := by
  intro h
  exact absurd ((h 3).1 (by decide)) (by decide)

theorem witness_FailedControllerIsStuck : (a0.setCtl .failed).ctl = .failed ∧ configOk (a0.setCtl .failed).cfg = true := by
  decide +kernel

/-- A step that changes `ctl`, and one that leaves it. -/
theorem witness_OnlyInitChangesController :
    nextHas (step ((beforeInit ⟨true, true, true⟩).present (.command 0x10000000 []))) (fun t => t.ctl != .down) = true
    ∧ nextHas (step (withInput (.command 0x10000000 []))) (fun t => t.ctl == .up) = true := by decide +kernel

/-- The ends of each check's range: power-on is not UP; channel 3 is UNUSED; slot 32 and conference 8 are the first out of range,
slot 127 and conference 15 the last; an open channel, a closed one, one without protocol, and both bad lengths. -/
theorem witness_FirstFailingCheckIsAnswered :
    State.reset.ctl ≠ .up ∧ a0.ctl = .up ∧ a0.cfg.roleOf.get 3 = .unused ∧ a0.cfg.roleOf.get 0 ≠ .unused
    ∧ hwSlots a0.cfg ≤ (32 : Slot).val ∧ hwSlots a0.cfg ≤ (127 : Slot).val ∧ 8 ≤ (8 : Fin 16).val ∧ 8 ≤ (15 : Fin 16).val
    ∧ (a0.ch 0).isOpen = false ∧ ((withChan 0 rawChan).ch 0).isOpen = true ∧ ((withChan 0 rawChan).ch 0).proto ≠ .noProto
    ∧ ((withChan 0 { Channel.reset with isOpen := true }).ch 0).proto = .noProto
    ∧ ((withChan 0 { Channel.reset with isOpen := true }).ch 0).isOpen = true
    ∧ (0 : Fin 65536).val = 0 ∧ ([] : List Byte).length ≠ (1 : Fin 65536).val := by decide +kernel

theorem witness_RejectionChangesOnlyResponse :
    nextHas (exec (.close 1) a0) (fun t => t.resp != .ok && t.resp != .badProtocol) = true ∧ a0.ctl ≠ .down
    ∧ nextHas (exec .init a0) (fun t => t.resp != .ok && t.resp != .badProtocol) = true := by decide +kernel

theorem witness_OpenBindsChannel : a0.ctl = .up ∧ a0.cfg.roleOf.get 2 ≠ .unused ∧ (a0.ch 2).isOpen = false := by decide +kernel

/-- Slot 31, the last of HW_SLOTS, in both directions; also for SetModeRouting and SetModeRingEffect. -/
theorem witness_SetModeChannelRecord :
    a0.ctl = .up ∧ a0.cfg.roleOf.get 0 ≠ .unused ∧ (31 : Slot).val < hwSlots a0.cfg ∧ a0.env.sched = []
    ∧ ∀ proto : ProtoField, ∃ pe : Proto, ∃ flow : Flow,
      (proto = .noProto ∨ proto = .unsupported) ∧ pe = .noProto ∧ flow = .off ∨ proto = .raw ∧ pe = .raw ∧ flow = .transp
        ∨ proto = .hdlc ∧ pe = .hdlc ∧ flow = .hdlc := by
  refine ⟨by decide, by decide, by decide, by decide, ?_⟩
  intro proto
  cases proto with
  | noProto => exact ⟨.noProto, .off, by decide⟩
  | unsupported => exact ⟨.noProto, .off, by decide⟩
  | raw => exact ⟨.raw, .transp, by decide⟩
  | hdlc => exact ⟨.hdlc, .hdlc, by decide⟩

/-- A requested slot, a given-up slot that the channel owns, one that another channel owns, and no request. -/
theorem witness_SetModeRouting :
    (((withChan 0 { rawChan with txSlot := some 3 }).setOwn 6 (some 0)).ch 0).slot .tx = some 3
    ∧ ((withChan 0 { rawChan with txSlot := some 3 }).setOwn 6 (some 0)).ownAt (routeIx 3 .tx) = some 0
    ∧ ((withChan 0 { rawChan with txSlot := some 3 }).setOwn 6 (some 4)).ownAt (routeIx 3 .tx) ≠ some 0
    ∧ (a0.ch 0).slot .rx ≠ some 31 ∧ (31 : Slot).val < hwSlots a0.cfg ∧ a0.cfg.roleOf.get 0 ≠ .unused := by decide +kernel

/-- A SET_MODE that changes the protocol, and one that does not. -/
theorem witness_SetModeRingEffect :
    effectiveProto .hdlc ≠ (a0.ch 0).proto ∧ effectiveProto .unsupported = (a0.ch 0).proto ∧ a0.env.sched = [] ∧ a0.ctl = .up
    ∧ a0.cfg.roleOf.get 0 ≠ .unused ∧ (31 : Slot).val < hwSlots a0.cfg := by decide +kernel

theorem witness_SetModeIsIdempotent : ∃ t, exec (.setMode 0 .raw true 31 3 false 0 2 true) a0 = .next t :=
  exists_next (by decide +kernel)

/-- The first and the last conference group; a stored slot and its absence; the flow control of each protocol. -/
theorem witness_ConfJoinRoutesLoop :
    a0.ctl = .up ∧ a0.cfg.roleOf.get 1 ≠ .unused ∧ (0 : ConfId).val = (0 : Fin 16).val ∧ (7 : ConfId).val = (7 : Fin 16).val
    ∧ ((withChan 1 { rawChan with txSlot := some 5, rxSlot := some 0 }).ch 1).txSlot = some 5
    ∧ ((withChan 1 { rawChan with txSlot := some 5, rxSlot := some 0 }).ch 1).rxSlot = some 0
    ∧ ((withChan 1 rawChan).ch 1).slot .tx ≠ some 5
    ∧ ∀ x ∈ ([(Channel.reset, .off), (rawChan, .transp), (hdlcChan, .hdlc)] : List (Channel × Flow)),
      ((withChan 1 x.1).ch 1).proto = .noProto ∧ x.2 = .off ∨ ((withChan 1 x.1).ch 1).proto = .raw ∧ x.2 = .transp
        ∨ ((withChan 1 x.1).ch 1).proto = .hdlc ∧ x.2 = .hdlc := by decide +kernel

/-- Banks 1 and 2, on either side of the bound; the flow control of a transparent channel. -/
theorem witness_ConfSplitRoutesByBank :
    a0.ctl = .up ∧ a0.cfg.roleOf.get 1 ≠ .unused
    ∧ ((withChan 1 { rawChan with txSlot := some 5, txBank := 1, rxSlot := some 5, rxBank := 2 }).ch 1).txSlot = some 5
    ∧ ((withChan 1 { rawChan with txSlot := some 5, txBank := 1, rxSlot := some 5, rxBank := 2 }).ch 1).rxSlot = some 5
    ∧ ((withChan 1 { rawChan with txSlot := some 5, txBank := 1, rxSlot := some 5, rxBank := 2 }).ch 1).proto = .raw := by
  decide +kernel

/-- An open channel with an owned slot; and a slot it does not own. -/
theorem witness_CloseClearsChannel :
    ((withChan 0 { rawChan with txSlot := some 3 }).setOwn 6 (some 0)).ctl = .up
    ∧ (((withChan 0 { rawChan with txSlot := some 3 }).setOwn 6 (some 0)).ch 0).isOpen = true
    ∧ (((withChan 0 { rawChan with txSlot := some 3 }).setOwn 6 (some 0)).ch 0).slot .tx = some 3
    ∧ ((withChan 0 { rawChan with txSlot := some 3 }).setOwn 6 (some 0)).ownAt (routeIx 3 .tx) = some 0
    ∧ ((withChan 0 { rawChan with txSlot := some 3 }).setOwn 6 (some 0)).ownAt (routeIx 4 .tx) ≠ some 0
    ∧ a0.cfg.roleOf.get 0 ≠ .unused := by decide +kernel

theorem witness_RouterFrame :
    isNext (exec (.openCh 0) a0) = true ∧ isNext (exec (.close 0) (withChan 0 rawChan)) = true
    ∧ isNext (exec (.confSplit 0) a0) = true ∧ isNext (exec (.confJoin 0 7) a0) = true
    ∧ isNext (exec (.setMode 0 .hdlc false 0 0 false 0 0 false) a0) = true ∧ a0.env.sched = [] := by decide +kernel

theorem witness_SubmitQueuesPayload :
    (withChan 0 rawChan).ctl = .up ∧ ((withChan 0 rawChan).ch 0).isOpen = true ∧ ((withChan 0 rawChan).ch 0).proto ≠ .noProto
    ∧ (1 : Fin 65536).val ≠ 0 ∧ ([0x7E] : List Byte).length = (1 : Fin 65536).val := by decide +kernel

theorem witness_SubmitQueuesPayload_longest :
    (65535 : Fin 65536).val ≠ 0 ∧ (List.replicate 65535 (0 : Byte)).length = (65535 : Fin 65536).val := by
  exact ⟨by decide, List.length_replicate⟩

/-- Also for PendingResetComesFirst, FailedReadDefers and DrainBoundIsEnough. -/
theorem witness_ServiceCompletesWithinFrame :
    (withChan 2 hdlcChan).ctl = .up ∧ ((withChan 2 hdlcChan).ch 2).isOpen = true ∧ ((withChan 2 hdlcChan).ch 2).proto ≠ .noProto := by
  decide +kernel

/-- Every choice of the two bits answers a next state; an address that is no transmit cell of channel 2. -/
theorem witness_ServiceMemoryFrame :
    (withChan 2 hdlcChan).env.sched = [] ∧ (∀ tx rx : Bool, isNext (exec (.service 2 tx rx) (withChan 2 hdlcChan)) = true)
    ∧ ∀ z, 0 ≠ cellAddr Config.cfgA 2 .tx z := by
  refine ⟨by decide, by decide +kernel, ?_⟩
  intro z
  simp only [cellAddr, Dir.num]
  omega

theorem witness_PendingResetComesFirst :
    ((withChan 2 { hdlcChan with txState := .resetPending }).ch 2).txState = .resetPending
    ∧ ((withChan 2 { hdlcChan with txState := .resetPending }).ch 2).isOpen = true
    ∧ ((withChan 2 { hdlcChan with txState := .resetPending }).ch 2).proto ≠ .noProto
    ∧ (withChan 2 { hdlcChan with txState := .resetPending }).env.sched = []
    ∧ (withChan 2 { hdlcChan with txState := .resetPending }).ctl = .up := by decide +kernel

/-- A ring of CFG-A is in range: the predicate unfolded, so that it can be evaluated. -/
theorem inRange_of {r : Ring}
    (h : (Config.cfgA.zmin ≤ r.z1 ∧ r.z1 < Config.cfgA.zmin + Config.cfgA.zlen)
      ∧ (Config.cfgA.zmin ≤ r.z2 ∧ r.z2 < Config.cfgA.zmin + Config.cfgA.zlen) ∧ r.f1 < Config.cfgA.flen ∧ r.f2 < Config.cfgA.flen
      ∧ r.fend.length = Config.cfgA.flen ∧ ∀ z ∈ r.fend, Config.cfgA.zmin ≤ z ∧ z < Config.cfgA.zmin + Config.cfgA.zlen) :
    Ring.inRange Config.cfgA r := h

/-- The one queued frame on an empty ring at its reset values (S5, transmit half). -/
def oneFrame : State := withChan 0 { hdlcChan with txq := [[0x7E, 0x01, 0x02, 0x03, 0x00]] }

/-- One state for each clause: a framed channel's new frame; its resumed frame with another one queued; a transparent frame with room
after it; one that fills the ring exactly (TF3); a transparent frame with another one queued. With each the rest of the queue and the
bytes left of the head frame. -/
def wholeFrames : List (State × List Byte × List (List Byte) × Nat) :=
  [(oneFrame, [0x7E, 0x01, 0x02, 0x03, 0x00], [], 5),
   (withChan 0 { hdlcChan with txq := [[1, 2, 3, 4, 5], [6]], cursor := 2, txState := .sending }, [1, 2, 3, 4, 5], [[6]], 3),
   (withChan 0 { rawChan with txq := [[1, 2]] }, [1, 2], [], 2),
   ((withChan 0 { rawChan with txq := [[1, 2, 3, 4]] }).setRing 0 .tx (ringAt 0 11 0 0), [1, 2, 3, 4], [], 4),
   (withChan 0 { rawChan with txq := [[1, 2], [3]] }, [1, 2], [[3]], 2)]

theorem witness_FillSendsWholeFrame : ∀ x ∈ wholeFrames,
    configOk x.1.cfg = true ∧ x.1.ctl = .up ∧ (x.1.ch 0).isOpen = true ∧ (x.1.ch 0).proto ≠ .noProto
    ∧ (x.1.ch 0).txState ≠ .resetPending ∧ (x.1.ch 0).txq = x.2.1 :: x.2.2.1 ∧ (x.1.ch 0).cursor ≤ x.2.1.length ∧ x.1.env.sched = []
    ∧ x.1.env.reads = (if (x.1.ch 0).proto = .hdlc then [false, false] else [false])
        ++ (if (x.1.ch 0).proto = .hdlc then [false, false, false, false] else [false, false, false, false, false])
    ∧ ((x.1.ch 0).proto = .hdlc → frameSpaceTx x.1 0 (x.1.ring 0 .tx).f2 ≠ 0)
    ∧ 4 ≤ byteSpace x.1.cfg (x.1.ring 0 .tx).z1 (x.1.ring 0 .tx).z2 ∧ x.2.2.2 = x.2.1.length - (x.1.ch 0).cursor
    ∧ x.2.2.2 ≤ byteSpace x.1.cfg (x.1.ring 0 .tx).z1 (x.1.ring 0 .tx).z2 := by decide +kernel

/-- The clauses' own conditions: the exact fit, room for the silence byte, and the transparent frames' protocol. -/
theorem witness_FillSendsWholeFrame_clauses :
    4 = byteSpace Config.cfgA 0 11 ∧ 2 < byteSpace Config.cfgA 0 0 ∧ ((withChan 0 rawChan).ch 0).proto = .raw
    ∧ (oneFrame.ch 0).proto = .hdlc ∧ ([[6]] : List (List Byte)) ≠ [] := by decide +kernel

theorem witness_FillSendsWholeFrame_range :
    Ring.inRange Config.cfgA (oneFrame.ring 0 .tx) ∧ Ring.inRange Config.cfgA (ringAt 0 11 0 0) :=
  ⟨inRange_of (by decide +kernel), inRange_of (by decide +kernel)⟩

/-- TF2: exactly the margin of byte space, and a frame one byte longer. -/
def partFrame : State := (withChan 0 { rawChan with txq := [[1, 2, 3, 4, 5]] }).setRing 0 .tx (ringAt 0 11 0 0)

theorem witness_FillWritesPartOfFrame :
    configOk partFrame.cfg = true ∧ partFrame.ctl = .up ∧ (partFrame.ch 0).isOpen = true ∧ (partFrame.ch 0).proto ≠ .noProto
    ∧ (partFrame.ch 0).txState ≠ .resetPending ∧ (partFrame.ch 0).txq = [1, 2, 3, 4, 5] :: [] ∧ partFrame.env.sched = []
    ∧ partFrame.env.reads = false :: false :: [false, false, false, false]
    ∧ ((partFrame.ch 0).proto = .hdlc → frameSpaceTx partFrame 0 (partFrame.ring 0 .tx).f2 ≠ 0)
    ∧ 4 = byteSpace partFrame.cfg (partFrame.ring 0 .tx).z1 (partFrame.ring 0 .tx).z2
    ∧ (partFrame.ch 0).cursor + 4 < ([1, 2, 3, 4, 5] : List Byte).length := by decide +kernel

theorem witness_FillWritesPartOfFrame_range : Ring.inRange partFrame.cfg (partFrame.ring 0 .tx) :=
  inRange_of (by decide +kernel)

/-- A framed D channel with a committed frame in flight; a framed B channel with frame space and three bytes of byte space; a transparent
channel one byte below the margin (TF4). -/
def deferD : State := (withChan 2 hdlcChan).setRing 2 .tx (ringAt 0 5 1 0)

def deferB : State := (withChan 0 hdlcChan).setRing 0 .tx (ringAt 0 12 0 0)

def deferRaw : State := (withChan 0 rawChan).setRing 0 .tx (ringAt 0 12 0 0)

theorem witness_FillDefersWithoutSpace :
    (deferD.ctl = .up ∧ (deferD.ch 2).isOpen = true ∧ (deferD.ch 2).txState ≠ .resetPending ∧ deferD.env.sched = []
      ∧ (deferD.ch 2).proto = .hdlc ∧ frameSpaceTx deferD 2 (deferD.ring 2 .tx).f2 = 0
      ∧ deferD.env.reads = false :: [false, false, false, false, false])
    ∧ (deferB.ctl = .up ∧ (deferB.ch 0).isOpen = true ∧ (deferB.ch 0).txState ≠ .resetPending ∧ deferB.env.sched = []
      ∧ (deferB.ch 0).proto = .hdlc ∧ frameSpaceTx deferB 0 (deferB.ring 0 .tx).f2 ≠ 0
      ∧ byteSpace deferB.cfg (deferB.ring 0 .tx).z1 (deferB.ring 0 .tx).z2 = 3
      ∧ deferB.env.reads = false :: false :: [false, false, false, false])
    ∧ (deferRaw.ctl = .up ∧ (deferRaw.ch 0).isOpen = true ∧ (deferRaw.ch 0).txState ≠ .resetPending ∧ deferRaw.env.sched = []
      ∧ (deferRaw.ch 0).proto = .raw ∧ byteSpace deferRaw.cfg (deferRaw.ring 0 .tx).z1 (deferRaw.ring 0 .tx).z2 = 3
      ∧ deferRaw.env.reads = false :: [false, false, false, false, false]) := by decide +kernel

/-- An idle framed D channel whose next stable reads fail as given. -/
def readsAre (l : List Bool) : State := (withChan 2 hdlcChan).setEnv { Env.reset with reads := l }

/-- The first read fails, and the second; and the first of a transparent channel. -/
theorem witness_FailedReadDefers :
    (readsAre [true]).env.reads = true :: [] ∧ (readsAre [false, true]).env.reads = false :: true :: []
    ∧ (∀ l ∈ ([[true], [false, true]] : List (List Bool)),
      (readsAre l).ctl = .up ∧ ((readsAre l).ch 2).isOpen = true ∧ ((readsAre l).ch 2).proto = .hdlc ∧ (readsAre l).env.sched = []
      ∧ ((readsAre l).ch 2).txState ≠ .resetPending ∧ frameSpaceTx (readsAre l) 2 ((readsAre l).ring 2 .tx).f2 ≠ 0)
    ∧ ((withChan 0 rawChan).setEnv { Env.reset with reads := [true] }).env.reads = true :: []
    ∧ (((withChan 0 rawChan).setEnv { Env.reset with reads := [true] }).ch 0).proto = .raw := by
  decide +kernel

/-- P2, second SERVICE: an empty ring at 4. -/
def routedEmpty : State := (withChan 0 { rawChan with txSlot := some 5 }).setRing 0 .tx (ringAt 4 4 0 0)

theorem witness_FillReconnectsHighway :
    routedEmpty.ctl = .up ∧ (routedEmpty.ch 0).isOpen = true ∧ (routedEmpty.ch 0).proto = .raw ∧ (routedEmpty.ch 0).txSlot ≠ none
    ∧ (routedEmpty.ch 0).txState ≠ .resetPending ∧ (routedEmpty.ch 0).txq = [] ∧ routedEmpty.env.sched = []
    ∧ routedEmpty.env.reads = false :: [false, false, false, false, false]
    ∧ 4 ≤ byteSpace routedEmpty.cfg (routedEmpty.ring 0 .tx).z1 (routedEmpty.ring 0 .tx).z2
    ∧ txPending routedEmpty.cfg (routedEmpty.ring 0 .tx) = 0 := by decide +kernel

/-- An unrouted channel with exactly the margin, and a routed one with bytes still in its ring (TF12). -/
def unroutedMargin : State := (withChan 0 rawChan).setRing 0 .tx (ringAt 0 11 0 0)

theorem witness_FillAddsSilenceByte :
    unroutedMargin.ctl = .up ∧ (unroutedMargin.ch 0).isOpen = true ∧ (unroutedMargin.ch 0).proto = .raw
    ∧ (unroutedMargin.ch 0).txState ≠ .resetPending ∧ (unroutedMargin.ch 0).txq = [] ∧ unroutedMargin.env.sched = []
    ∧ unroutedMargin.env.reads = false :: [false, false, false, false, false]
    ∧ 4 ≤ byteSpace unroutedMargin.cfg (unroutedMargin.ring 0 .tx).z1 (unroutedMargin.ring 0 .tx).z2
    ∧ (unroutedMargin.ch 0).txSlot = none := by decide +kernel

theorem witness_FillAddsSilenceByte_routed :
    ((routedEmpty.setRing 0 .tx (ringAt 0 3 0 0)).ch 0).txSlot ≠ none
    ∧ txPending Config.cfgA ((routedEmpty.setRing 0 .tx (ringAt 0 3 0 0)).ring 0 .tx) ≠ 0
    ∧ 4 ≤ byteSpace Config.cfgA 0 3 := by decide +kernel

theorem witness_FillAcknowledgesEachFrameOnce : ∃ t, exec (.service 0 true false) oneFrame = .next t :=
  exists_next (by decide +kernel)

/-- A receive ring of channel 2 with one closed frame in cells 0 up, of `bytes` with the status byte last, and behind it the bytes of
`closed` as a second closed frame and those of `tail` as an open one. -/
def rxFrame (bytes : List Byte) (closed tail : List Byte := []) : State :=
  { withChan 2 hdlcChan with
    mem := ((bytes ++ closed ++ tail).zipIdx).map fun (x : Byte × Nat) => ((327680 + x.2, x.1) : Host.Cell) }.setRing 2 .rx
    (ringAt (bytes.length + closed.length + tail.length) 0 (if closed = [] then 1 else 2) 0
      [0, bytes.length - 1, bytes.length + closed.length - 1, 0, 0, 0, 0, 0])

/-- Each outcome at its boundary: three bytes are short (RX_MIN_LEN is 4); four with status 01 fail; four with status 00 are
delivered; eleven, MAXLEN + 3, are still no oversize. A second closed frame, or bytes of an open one, may stand behind it. -/
def closedFrames : List (State × List Byte × Byte) :=
  [(rxFrame [1, 2, 0], [1, 2], 0), (rxFrame [1, 2, 3, 1], [1, 2, 3], 1), (rxFrame [1, 2, 3, 0], [1, 2, 3], 0),
   (rxFrame [0, 1, 2, 3, 4, 5, 6, 7, 8, 9, 0], [0, 1, 2, 3, 4, 5, 6, 7, 8, 9], 0),
   (rxFrame [1, 2, 3, 0] [4, 5, 6, 0], [1, 2, 3], 0), (rxFrame [1, 2, 3, 0] [] [4, 5], [1, 2, 3], 0)]

theorem witness_DrainConsumesFrame : ∀ x ∈ closedFrames,
    x.1.ctl = .up ∧ (x.1.ch 2).isOpen = true ∧ (x.1.ch 2).proto = .hdlc ∧ x.1.env.sched = []
    ∧ x.1.env.reads = false :: false :: [false, false, false, false]
    ∧ (x.1.ring 2 .rx).f1 ≠ (x.1.ring 2 .rx).f2 ∧ (x.1.ring 2 .rx).fend[incF x.1.cfg (x.1.ring 2 .rx).f2]? = some x.2.1.length
    ∧ (x.2.1 ++ [x.2.2]).length = zmod x.1.cfg ((x.2.1.length : Int) - (x.1.ring 2 .rx).z2) + 1
    ∧ (∀ i < (x.2.1 ++ [x.2.2]).length, x.1.cell 2 .rx ((incZ x.1.cfg)^[i] (x.1.ring 2 .rx).z2) = (x.2.1 ++ [x.2.2])[i]?)
    ∧ (x.1.ch 2).rxbuf ++ (x.2.1 ++ [x.2.2]) = x.2.1 ++ [x.2.2] ∧ x.2.1.length + 1 ≤ x.1.cfg.maxlen + 3 := by decide +kernel

/-- The last clause's own conditions: nothing stands behind the frame. -/
theorem witness_DrainConsumesFrame_last :
    ((rxFrame [1, 2, 3, 0]).ring 2 .rx).f1 = incF Config.cfgA ((rxFrame [1, 2, 3, 0]).ring 2 .rx).f2
    ∧ ((rxFrame [1, 2, 3, 0]).ring 2 .rx).z1 = incZ Config.cfgA 3
    ∧ (rxFrame [1, 2, 3, 0]).env.reads = false :: false :: false :: false :: [false, false] := by decide +kernel

/-- R119 (c): both closed frames are handled in one call, and each read is recorded. -/
theorem test_drain_two_frames :
    nextHas (exec (.service 2 false true) (rxFrame [1, 2, 3, 0] [4, 5, 6, 0])) (fun t =>
      t.evq == [.rx 2 [1, 2, 3], .rx 2 [4, 5, 6]] && (t.ring 2 .rx).f2 == 2 && (t.ring 2 .rx).z2 == 8
        && t.env.readLog == [⟨2, .rxF1, false⟩, ⟨2, .rxZ1rep, false⟩, ⟨2, .rxF1, false⟩, ⟨2, .rxZ1rep, false⟩, ⟨2, .rxF1, false⟩,
          ⟨2, .rxZ1rep, false⟩]) = true := by decide +kernel

theorem witness_DrainConsumesFrame_range : Ring.inRange Config.cfgA ((rxFrame [1, 2, 3, 0]).ring 2 .rx) :=
  inRange_of (by decide +kernel)

/-- A receive ring of channel `ch` with the unread bytes `bytes` in cells 0 up and no closed frame. -/
def rxOpen (ch : ChanId) (x : Channel) (bytes : List Byte) : State :=
  { withChan ch x with
    mem := (bytes.zipIdx).map fun (y : Byte × Nat) => ((ch.val * 131072 + 65536 + y.2, y.1) : Host.Cell) }.setRing ch .rx (ringAt bytes.length 0 0 0)

theorem witness_DrainKeepsPartialFrame :
    (rxOpen 2 hdlcChan [0x7E, 1]).ctl = .up ∧ ((rxOpen 2 hdlcChan [0x7E, 1]).ch 2).isOpen = true
    ∧ ((rxOpen 2 hdlcChan [0x7E, 1]).ch 2).proto = .hdlc ∧ (rxOpen 2 hdlcChan [0x7E, 1]).env.sched = []
    ∧ (rxOpen 2 hdlcChan [0x7E, 1]).env.reads = false :: false :: [false, false, false, false]
    ∧ ((rxOpen 2 hdlcChan [0x7E, 1]).ring 2 .rx).f1 = ((rxOpen 2 hdlcChan [0x7E, 1]).ring 2 .rx).f2
    ∧ 2 = rxUnread Config.cfgA ((rxOpen 2 hdlcChan [0x7E, 1]).ring 2 .rx)
    ∧ (∀ i < 2, (rxOpen 2 hdlcChan [0x7E, 1]).cell 2 .rx ((incZ Config.cfgA)^[i] 0) = ([0x7E, 1] : List Byte)[i]?)
    ∧ ((rxOpen 2 hdlcChan [0x7E, 1]).ch 2).rxbuf.length + 2 ≤ Config.cfgA.maxlen + 3 := by decide +kernel

theorem witness_DrainKeepsPartialFrame_range : Ring.inRange Config.cfgA ((rxOpen 2 hdlcChan [0x7E, 1]).ring 2 .rx) :=
  inRange_of (by decide +kernel)

/-- RD8 at its boundary: three bytes stay below the threshold of four, four reach it. -/
theorem witness_DrainDeliversTransparent :
    ∀ bytes ∈ ([[1, 2, 3], [1, 2, 3, 4]] : List (List Byte)),
      (rxOpen 0 rawChan bytes).ctl = .up ∧ ((rxOpen 0 rawChan bytes).ch 0).isOpen = true
      ∧ ((rxOpen 0 rawChan bytes).ch 0).proto = .raw ∧ (rxOpen 0 rawChan bytes).env.sched = []
      ∧ (rxOpen 0 rawChan bytes).env.reads = false :: [false, false, false, false, false]
      ∧ ((rxOpen 0 rawChan bytes).ring 0 .rx).f1 = ((rxOpen 0 rawChan bytes).ring 0 .rx).f2
      ∧ bytes.length = rxUnread Config.cfgA ((rxOpen 0 rawChan bytes).ring 0 .rx) ∧ bytes ≠ []
      ∧ (∀ i < bytes.length, (rxOpen 0 rawChan bytes).cell 0 .rx ((incZ Config.cfgA)^[i] 0) = bytes[i]?)
      ∧ ((rxOpen 0 rawChan bytes).ch 0).rxbuf.length + bytes.length ≤ Config.cfgA.maxlen + 3 := by decide +kernel

/-- Nothing unread, with the buffer empty and at the threshold. -/
theorem witness_DrainDeliversTransparent_nothing :
    ∀ buf ∈ ([[], [1, 2, 3, 4]] : List (List Byte)),
      (rxOpen 0 { rawChan with rxbuf := buf } []).ctl = .up ∧ ((rxOpen 0 { rawChan with rxbuf := buf } []).ch 0).isOpen = true
      ∧ ((rxOpen 0 { rawChan with rxbuf := buf } []).ch 0).proto = .raw ∧ (rxOpen 0 { rawChan with rxbuf := buf } []).env.sched = []
      ∧ (rxOpen 0 { rawChan with rxbuf := buf } []).env.reads = false :: [false, false, false, false, false]
      ∧ ((rxOpen 0 { rawChan with rxbuf := buf } []).ring 0 .rx).f1 = ((rxOpen 0 { rawChan with rxbuf := buf } []).ring 0 .rx).f2
      ∧ ([] : List Byte).length = rxUnread Config.cfgA ((rxOpen 0 { rawChan with rxbuf := buf } []).ring 0 .rx) := by decide +kernel

theorem witness_DrainDeliversTransparent_threshold :
    Config.cfgA.transpThreshold = 4 ∧ Ring.inRange Config.cfgA ((rxOpen 0 rawChan [1, 2, 3, 4]).ring 0 .rx) :=
  ⟨rfl, inRange_of (by decide +kernel)⟩

/-- RD6: a closed frame of twelve, one more than MAXLEN + 3; and a transparent channel with eleven buffered and one unread. -/
theorem witness_DrainDiscardsOversize :
    (∀ bytes ∈ ([[0, 1, 2, 3, 4, 5, 6, 7, 8, 9, 10, 0]] : List (List Byte)),
      (rxFrame bytes).ctl = .up ∧ ((rxFrame bytes).ch 2).isOpen = true ∧ ((rxFrame bytes).ch 2).proto ≠ .noProto
      ∧ (rxFrame bytes).env.sched = [] ∧ (rxFrame bytes).env.reads = false :: false :: [false, false, false, false]
      ∧ 12 = zmod Config.cfgA ((z1rep Config.cfgA ((rxFrame bytes).ring 2 .rx) : Int) - ((rxFrame bytes).ring 2 .rx).z2)
        + (if ((rxFrame bytes).ch 2).proto = .hdlc ∧ ((rxFrame bytes).ring 2 .rx).f1 ≠ ((rxFrame bytes).ring 2 .rx).f2 then 1 else 0)
      ∧ Config.cfgA.maxlen + 3 < ((rxFrame bytes).ch 2).rxbuf.length + 12)
    ∧ Config.cfgA.maxlen + 3
        < ((rxOpen 0 { rawChan with rxbuf := [0, 1, 2, 3, 4, 5, 6, 7, 8, 9, 10] } [1]).ch 0).rxbuf.length + 1 := by decide +kernel

theorem witness_DrainBoundIsEnough :
    configOk a0.cfg = true ∧ ((withChan 2 hdlcChan).ch 2).proto ≠ .noProto
    ∧ Ring.inRange Config.cfgA ((withChan 2 hdlcChan).ring 2 .rx) :=
  ⟨by decide +kernel, by decide, inRange_of (by decide +kernel)⟩

/-- One stimulus for each clause, to a port of the right kind (NT 0 and TE 1 of CFG-A, trunk 0 of CFG-B), to one of the wrong kind and
to a number that names no port. -/
theorem witness_LineStepFrame :
    (∀ st ∈ ([.lineRxPut 0 1, .ready 2 .tx, .ready 2 .rx, .lineState 0 3, .lineState 1 7, .lineState 31 3, .lineE1State 0 true,
        .lineSync 0 true false, .lineAlarm 0 0b0011, .timerTick, .tone] : List Stimulus),
      (withInput (.stimulus st)).env.inputs = .stimulus st :: [] ∧ isNext (step (withInput (.stimulus st))) = true)
    ∧ (∀ st ∈ ([.lineState 0 3, .lineE1State 0 true, .lineSync 0 true false, .lineAlarm 0 0b0011] : List Stimulus),
      ((s0 Config.cfgB).present (.stimulus st)).env.inputs = .stimulus st :: []
      ∧ isNext (step ((s0 Config.cfgB).present (.stimulus st))) = true)
    ∧ portKind Config.cfgA 0 = some .nt ∧ portKind Config.cfgA 1 = some .te ∧ portKind Config.cfgA 31 = none
    ∧ portKind Config.cfgB 0 = some .trunk := by decide +kernel

/-- A state for every clause of LINE_TX_TAKE: OFF, HWY, framed empty, framed with a byte, framed at its end, transparent with a byte,
transparent empty. -/
theorem witness_LineTakesSymbol :
    (a0.ch 0).flowTx = .off ∧ ((withChan 0 { rawChan with txSrc := .hwy }).ch 0).txSrc = .hwy
    ∧ ((withChan 0 hdlcChan).ring 0 .tx).f1 = ((withChan 0 hdlcChan).ring 0 .tx).f2
    ∧ (ringAt 4 5 1 0 [0, 5, 0, 0, 0, 0, 0, 0]).f1 ≠ (ringAt 4 5 1 0 [0, 5, 0, 0, 0, 0, 0, 0]).f2
    ∧ (ringAt 4 5 1 0 [0, 5, 0, 0, 0, 0, 0, 0]).fend[incF Config.cfgA 0]? = some 5
    ∧ (ringAt 4 5 1 0 [0, 5, 0, 0, 0, 0, 0, 0]).z1 ≠ 5 ∧ (ringAt 5 5 1 0 [0, 5, 0, 0, 0, 0, 0, 0]).z1 = 5
    ∧ ({ withChan 0 hdlcChan with mem := [(4, 9)] }).cell 0 .tx 4 = some 9
    ∧ 0 < txPending Config.cfgA (ringAt 15 0 0 0) ∧ txPending Config.cfgA (ringAt 0 0 0 0) = 0
    ∧ decZ Config.cfgA 0 = 15 ∧ ({ withChan 0 rawChan with mem := [(15, 9)] }).cell 0 .tx 15 = some 9 := by decide +kernel

/-- OFF, routed, a full ring (ZLEN - 1 unread) and one with the last byte of room. -/
theorem witness_LineStoresByte :
    (a0.ch 0).flowRx = .off ∧ ((withChan 0 { rawChan with rxSlot := some 5 }).ch 0).rxSlot ≠ none
    ∧ (withChan 0 { rawChan with rxSlot := some 5 }).cfg.rxFifoWhenRouted = false ∧ ((withChan 0 rawChan).ch 0).flowRx ≠ .off
    ∧ ((withChan 0 rawChan).ch 0).rxSlot = none ∧ rxUnread Config.cfgA (ringAt 15 0 0 0) = Config.cfgA.zlen - 1
    ∧ rxUnread Config.cfgA (ringAt 14 0 0 0) ≠ Config.cfgA.zlen - 1 := by decide +kernel

/-- A receive flow that is not HDLC; a routed channel; a full ring; `FLEN - 1` frames; and room for one more byte and one more frame, with
`ovf` clear and set. -/
theorem witness_LineClosesFrame :
    ((withChan 0 rawChan).ch 0).flowRx ≠ .hdlc
    ∧ ((withChan 0 { hdlcChan with rxSlot := some 5 }).ch 0).rxSlot ≠ none ∧ a0.cfg.rxFifoWhenRouted = false
    ∧ ((withChan 0 hdlcChan).ch 0).flowRx = .hdlc ∧ ((withChan 0 hdlcChan).ch 0).rxSlot = none
    ∧ rxUnread Config.cfgA (ringAt 15 0 0 0) = Config.cfgA.zlen - 1 ∧ rxFrames Config.cfgA (ringAt 15 0 0 0) ≠ Config.cfgA.flen - 1
    ∧ rxFrames Config.cfgA (ringAt 3 0 7 0) = Config.cfgA.flen - 1 ∧ rxUnread Config.cfgA (ringAt 3 0 7 0) ≠ Config.cfgA.zlen - 1
    ∧ rxUnread Config.cfgA (ringAt 14 0 6 0) ≠ Config.cfgA.zlen - 1 ∧ rxFrames Config.cfgA (ringAt 14 0 6 0) ≠ Config.cfgA.flen - 1
    ∧ ((withChan 0 hdlcChan).setRing 0 .rx (ringAt 14 0 6 0)).ovf 0 = false
    ∧ (((withChan 0 hdlcChan).setRing 0 .rx (ringAt 14 0 6 0)).setOvf 0 true).ovf 0 = true := by decide +kernel

/-- Reports 4 and 5 at the bound, the same state, a change, and entry to state 3 with its D channel. -/
theorem witness_NtReportEntersState :
    (4 : Fin 16) < 5 ∧ (4 : Fin 16) ≤ 4 ∧ (0 : Fin 16) = (a0.pt 0).lstate ∧ (4 : Fin 16) ≠ (a0.pt 0).lstate
    ∧ (3 : Fin 16) ≤ 4 ∧ (3 : Fin 16) ≠ (a0.pt 0).lstate ∧ dch a0.cfg 0 = some 2 := by decide +kernel

/-- Not in state 2; two ticks left; one tick left. -/
theorem witness_NtCountdownExpires :
    (a0.pt 0).lstate ≠ 2
    ∧ ((a0.setPort 0 { Port.reset with lstate := 2, timer := some 2 }).pt 0).timer = some (0 + 2)
    ∧ ((a0.setPort 0 { Port.reset with lstate := 2, timer := some 1 }).pt 0).timer = some 1
    ∧ ((a0.setPort 0 { Port.reset with lstate := 2, timer := some 1 }).pt 0).lstate = 2 := by decide +kernel

theorem witness_TeReportMapsStates : ∀ x ∈ ([1, 3, 5, 6, 7, 8, 15] : List (Fin 16)), x ≠ (a0.pt 1).lstate := by decide +kernel

/-- A step that emits the activation of port 0, takes no event and leaves `ctl`. -/
theorem witness_ActivationEventsAlternate :
    nextHas (step ((lineState 0 3 a0).present (.command 0x90000000 []))) (fun t => t.ctl == .up && t.evq == [.activate 0]) = true
    ∧ ((lineState 0 3 a0).present (.command 0x90000000 [])).env.inputs.head? ≠ some .takeEvent := by decide +kernel

theorem witness_DispatchWithNothingPending :
    a0.ctl = .up ∧ (∀ p, isPtp a0.cfg p = true → a0.status.psc.get p = false)
    ∧ (∀ p, isTrunk a0.cfg p = true → a0.status.tsc.get p = false) ∧ a0.status.lostData = false ∧ a0.status.tick = false
    ∧ a0.status.toneReady = false ∧ (∀ ch, a0.readyBit ch .tx = false ∧ a0.readyBit ch .rx = false) := by decide +kernel

theorem witness_DispatchClearsStatusBits :
    (lineState 0 3 a0).ctl = .up ∧ (lineState 0 3 a0).env.sched = [] ∧ (lineState 0 3 a0).status.psc.get 0 = true := by decide +kernel

/-- Every clause of DISPATCH's effects: a state change of NT port 0, of TE port 1 and of the trunk port; lost data; tone; a tick with both
point-to-point ports changed; and the ready bits of an active and of a closed channel. -/
theorem witness_DispatchRunsNtMachine :
    (∀ t ∈ ([lineState 0 2 a0, lineState 1 7 a0, lineE1State 0 true (s0 Config.cfgB), a0.latchLostData, applyStimulus .tone a0,
        applyStimulus .timerTick (lineState 1 7 (lineState 0 2 a0)), (withChan 2 hdlcChan).setReady 2 .tx true,
        a0.setReady 2 .rx true] : List State), t.ctl = .up ∧ t.env.sched = [])
    ∧ (lineState 0 2 a0).status = { Status.reset with psc := Status.reset.psc.set 0 true }
    ∧ (lineState 1 7 a0).status = { Status.reset with psc := Status.reset.psc.set 1 true }
    ∧ (lineE1State 0 true (s0 Config.cfgB)).status = { Status.reset with tsc := Status.reset.tsc.set 0 true }
    ∧ portKind Config.cfgA 0 = some .nt ∧ portKind Config.cfgA 1 = some .te ∧ portKind Config.cfgB 0 = some .trunk
    ∧ a0.latchLostData.status = { Status.reset with lostData := true }
    ∧ (applyStimulus .tone a0).status = { Status.reset with toneReady := true }
    ∧ (applyStimulus .timerTick (lineState 1 7 (lineState 0 2 a0))).status =
        { Status.reset with tick := true, psc := (Status.reset.psc.set 0 true).set 1 true }
    ∧ (∀ p : PortId, ((Status.reset.psc.set 0 true).set 1 true).get p = true → isPtp Config.cfgA p = true)
    ∧ ((withChan 2 hdlcChan).setReady 2 .tx true).status =
        { Status.reset with readyTx := Status.reset.readyTx.set 2 true, readyRx := Status.reset.readyRx.set 2 false }
    ∧ ((withChan 2 hdlcChan).ch 2).isOpen = true ∧ ((withChan 2 hdlcChan).ch 2).proto ≠ .noProto
    ∧ (a0.setReady 2 .rx true).status =
        { Status.reset with readyTx := Status.reset.readyTx.set 2 false, readyRx := Status.reset.readyRx.set 2 true }
    ∧ (a0.ch 2).isOpen = false := by decide +kernel

theorem witness_DispatchFrame :
    (∃ t, exec .dispatch (applyStimulus .timerTick a0) = .next t) ∧ (applyStimulus .timerTick a0).env.sched = []
    ∧ ∀ ch z, 65536 ≠ cellAddr Config.cfgA ch .tx z := by
  refine ⟨exists_next (by decide +kernel), by decide, ?_⟩
  intro ch z
  simp only [cellAddr, Dir.num]
  omega

/-- The premises of the step invariants hold of a state that takes a step. -/
theorem witness_StepKeepsMemoryCanonical :
    (withInput (.command 0x21000000 [])).mem.wf = true ∧ configOk (withInput (.command 0x21000000 [])).cfg = true := by decide +kernel

theorem witness_StepKeepsRingsInRange : (withInput (.command 0x21000000 [])).ringsInRange := by
  have h : ∀ ch : ChanId, (withInput (.command 0x21000000 [])).ring ch .tx = Ring.reset Config.cfgA
      ∧ (withInput (.command 0x21000000 [])).ring ch .rx = Ring.reset Config.cfgA := by decide +kernel
  have hr : Ring.inRange Config.cfgA (Ring.reset Config.cfgA) := inRange_of (by decide +kernel)
  intro ch d
  cases d with
  | tx => rw [(h ch).1]; exact hr
  | rx => rw [(h ch).2]; exact hr

theorem witness_StepKeepsChannelsConsistent : (withInput (.command 0x21000000 [])).channelsOk := by
  have h : ∀ ch : ChanId, (withInput (.command 0x21000000 [])).ch ch = Channel.reset := by decide +kernel
  intro ch
  rw [h ch]
  refine ⟨⟨?_, ?_, fun _ => rfl, fun _ => rfl⟩, ?_, ?_⟩
  · intro fr hf; cases hf
  · intro fr rest hf; cases hf
  · intro hf; cases hf
  · unfold Channel.flowOk; decide

theorem witness_StepKeepsRoutingInvariant :
    (withInput (.command 0x21000000 [])).routingOk ∧ (withInput (.command 0x21000000 [])).slotsInRange := by
  have h : ∀ i : RouteIx, (withInput (.command 0x21000000 [])).regAt i = none ∧ (withInput (.command 0x21000000 [])).ownAt i = none := by
    decide +kernel
  have hc : ∀ ch : ChanId, (withInput (.command 0x21000000 [])).ch ch = Channel.reset := by decide +kernel
  refine ⟨⟨fun i => iff_of_true (h i).1 (h i).2, ?_⟩, ?_⟩
  · intro slot d ch hs
    rw [(h _).2] at hs
    cases hs
  · intro ch d
    rw [hc ch]
    cases d <;> rfl

theorem witness_StepKeepsPortsConsistent : (withInput (.command 0x21000000 [])).portsOk := by
  have h : ∀ p : PortId, (withInput (.command 0x21000000 [])).pt p = Port.reset := by decide +kernel
  intro p k _
  rw [h p]
  cases k with
  | nt => exact ⟨by decide, by decide, (by intro n hn; cases hn), rfl, rfl, rfl⟩
  | te => exact ⟨rfl, rfl, rfl, rfl⟩
  | trunk => exact ⟨by decide, rfl, rfl⟩

/-! ### The fairness premises of R297 -/

/-- The environment of a fair run: in turn a tick, a DISPATCH of the sequencer, and for each channel a byte taken and a byte stored. -/
def fairInput (n : Nat) : Input :=
  if n % 66 = 0 then .stimulus .timerTick
  else if n % 66 = 1 then .ownDispatch
  else if n % 66 < 34 then .stimulus (.lineTxTake (Fin.ofNat 32 (n % 66 - 2)))
  else .stimulus (.lineRxPut (Fin.ofNat 32 (n % 66 - 34)) 0)

/-- One input is added before each step. -/
def fairFeeds (n : Nat) : Feed := ⟨[fairInput n], [], [], [], [], []⟩

/-- An input of the run is the sequencer's DISPATCH or a stimulus. -/
theorem fairInput_cases (n : Nat) : fairInput n = .ownDispatch ∨ ∃ st, fairInput n = .stimulus st := by
  unfold fairInput
  by_cases h0 : n % 66 = 0
  · exact .inr ⟨_, if_pos h0⟩
  · by_cases h1 : n % 66 = 1
    · exact .inl (by rw [if_neg h0, if_pos h1])
    · by_cases h2 : n % 66 < 34
      · exact .inr ⟨_, by rw [if_neg h0, if_neg h1, if_pos h2]⟩
      · exact .inr ⟨_, by rw [if_neg h0, if_neg h1, if_neg h2]⟩

/-- What the run keeps: every step takes the one input that was fed. -/
theorem fair_step (n : Nat) :
    (runOf State.reset fairFeeds n).env.inputs = [] ∧ (runOf State.reset fairFeeds n).env.sched = []
    ∧ (runOf State.reset fairFeeds n).ctl = .down ∧ (runOf State.reset fairFeeds n).chan = State.reset.chan
    ∧ (runOf State.reset fairFeeds n).env.readLog = [] := by
  induction n with
  | zero => exact ⟨rfl, rfl, rfl, rfl, rfl⟩
  | succ n ih =>
    have hi : (beforeStep State.reset fairFeeds n).env.inputs = [fairInput n] := by
      show (runOf State.reset fairFeeds n).env.inputs ++ [fairInput n] = _
      rw [ih.1]; rfl
    have hs : (beforeStep State.reset fairFeeds n).env.sched = [] := by
      show (runOf State.reset fairFeeds n).env.sched ++ [] = _
      rw [ih.2.1]; rfl
    have key : ∃ t, step (beforeStep State.reset fairFeeds n) = .next t ∧ t.env.inputs = [] ∧ t.env.sched = []
        ∧ t.ctl = (beforeStep State.reset fairFeeds n).ctl ∧ t.chan = (beforeStep State.reset fairFeeds n).chan
        ∧ t.env.readLog = (beforeStep State.reset fairFeeds n).env.readLog := by
      have line : ∀ st, fairInput n = .stimulus st → _ := fun st h =>
        let f := applyStimulus_frame st (beforeStep State.reset fairFeeds n).consume
        show ∃ t, step (beforeStep State.reset fairFeeds n) = .next t ∧ t.env.inputs = [] ∧ t.env.sched = []
            ∧ t.ctl = (beforeStep State.reset fairFeeds n).ctl ∧ t.chan = (beforeStep State.reset fairFeeds n).chan
            ∧ t.env.readLog = (beforeStep State.reset fairFeeds n).env.readLog from
          ⟨_, by unfold step runNext; rw [hi, h]; rfl, f.inputs.trans (congrArg List.tail hi), f.sched.trans hs, f.ctl, f.chan,
            f.readLog⟩
      obtain h1 | ⟨st, h⟩ := fairInput_cases n
      · refine ⟨(beforeStep State.reset fairFeeds n).consume, ?_, congrArg List.tail hi, hs, rfl, rfl, rfl⟩
        unfold step runNext
        rw [hi, h1]
        show Host.Outcome.next (ownDispatch _) = _
        rw [ownDispatch, if_neg]
        show (runOf State.reset fairFeeds n).ctl ≠ .up
        rw [ih.2.2.1]; decide
      · exact line st h
    obtain ⟨t, ht, h⟩ := key
    have : runOf State.reset fairFeeds (n + 1) = t := by
      show (match step (beforeStep State.reset fairFeeds n) with | .next t => t | _ => _) = t
      rw [ht]
    rw [this]
    exact ⟨h.1, h.2.1, h.2.2.1.trans ih.2.2.1, h.2.2.2.1.trans ih.2.2.2.1, h.2.2.2.2.trans ih.2.2.2.2⟩

/-- Each step takes the input fed to it. -/
theorem fair_input (n : Nat) : (beforeStep State.reset fairFeeds n).env.inputs.head? = some (fairInput n) := by
  show ((runOf State.reset fairFeeds n).env.inputs ++ [fairInput n]).head? = _
  rw [(fair_step n).1]; rfl

/-- A SERVICE makes both reads of a framed channel; the second may fail, whatever its port's state (R58, R297). -/
theorem test_makes_read :
    nextHas (exec (.service 2 true false) (readsAre [false, true])) (fun t =>
      decide (MakesRead 2 .txF2 false (readsAre [false, true]) t ∧ MakesRead 2 .txZ1 true (readsAre [false, true]) t
        ∧ ¬MakesRead 2 .txZ1 false (readsAre [false, true]) t)) = true := by
  decide +kernel

/-- The premises of R297 hold together of some run. The controller stays DOWN in it, so that of the stable reads holds because none is
made; test_makes_read shows a step that makes some. -/
theorem witness_FairRun : FairRun State.reset fairFeeds := by
  have occ : ∀ m st, fairInput m = .stimulus st → Occurs st (beforeStep State.reset fairFeeds m) (runOf State.reset fairFeeds (m + 1)) :=
    fun m st h => .inl (by rw [fair_input, h])
  have disp : ∀ m, m % 66 = 1 → TakesDispatch (beforeStep State.reset fairFeeds m) := fun m h =>
    .inl (by rw [fair_input]; simp [fairInput, h])
  refine ⟨fun n => ⟨n * 66, by omega, occ _ _ (by simp [fairInput])⟩, fun n _ => ⟨n * 66 + 67, by omega, disp _ (by omega)⟩, ?_, ?_, ?_⟩
  · intro ch k h
    obtain ⟨m, -, failed, hm⟩ := h 0
    unfold MakesRead at hm
    rw [(fair_step (m + 1)).2.2.2.2] at hm
    cases List.mem_of_mem_drop hm
  · intro ch n
    refine ⟨⟨n * 66 + 2 + ch.val, by omega, occ _ _ ?_⟩, n * 66 + 34 + ch.val, by omega, 0, .inl (occ _ _ ?_)⟩
    · have := ch.isLt
      have e : (n * 66 + 2 + ch.val) % 66 = 2 + ch.val := by omega
      simp only [fairInput, e]
      rw [if_neg (by omega), if_neg (by omega), if_pos (by omega)]
      congr 2; ext; simp
    · have := ch.isLt
      have e : (n * 66 + 34 + ch.val) % 66 = 34 + ch.val := by omega
      simp only [fairInput, e]
      rw [if_neg (by omega), if_neg (by omega), if_neg (by omega)]
      congr 2; ext; simp
  · intro n ch _ fr hf
    have : (runOf State.reset fairFeeds n).ch ch = Channel.reset := by
      unfold State.ch; rw [(fair_step n).2.2.2.1]
      simp [State.reset, State.powerOn, Vector.get_eq_getElem]
    rw [this] at hf; cases hf

end Sys2Proof.Tests
end

/-! PROOFS. The channel layout rule (R12) and the INIT that refuses a configuration which breaks it. -/

namespace Sys2Proof.Machine

@[simp] theorem isDchOf_iff (c : Config) (p : PortId) (ch : ChanId) :
    isDchOf c p ch = true ↔ c.portOf.get ch = some p ∧ c.roleOf.get ch = .d := by
  simp [isDchOf]

/-- The part of `layoutOk` that is R12's own words; the rest is that a named port exists. -/
theorem layoutOk_parts {c : Config} (h : layoutOk c = true) :
    (∀ p, portKind c p ≠ none → (allChans.filter (isDchOf c p)).length = 1)
    ∧ ∀ ch, c.portOf.get ch = none ↔ c.roleOf.get ch = .unused := by
  simp only [layoutOk, Bool.and_eq_true, List.all_eq_true, Bool.or_eq_true, Option.isNone_iff_eq_none, beq_iff_eq] at h
  obtain ⟨⟨hd, hu⟩, -⟩ := h
  refine ⟨fun p hp => (hd p (List.mem_finRange p)).resolve_left hp, fun ch => ?_⟩
  have same := Bool.eq_iff_iff.1 (hu ch (List.mem_finRange ch))
  rwa [Option.isNone_iff_eq_none, beq_iff_eq] at same

/-- R12: in an accepted layout a port has one D channel and no other. -/
theorem existsUnique_dch_of_layoutOk {c : Config} (h : layoutOk c = true) {p : PortId} (hp : portKind c p ≠ none) :
    ∃! ch, c.portOf.get ch = some p ∧ c.roleOf.get ch = .d := by
  obtain ⟨d, hd⟩ := List.length_eq_one_iff.1 ((layoutOk_parts h).1 p hp)
  have mem_iff : ∀ ch, (c.portOf.get ch = some p ∧ c.roleOf.get ch = .d) ↔ ch = d := fun ch => by
    rw [← List.mem_singleton (a := ch), ← hd]
    simp [allChans]
  exact ⟨d, (mem_iff d).2 rfl, fun ch hch => (mem_iff ch).1 hch⟩

/-- R12: INIT is refused in every controller state, before any other check, when the layout is not accepted. -/
theorem exec_init_of_not_layoutOk {s : State} (h : ¬ layoutOk s.cfg = true) : exec .init s = .refused .badConfig := by
  simp [exec, execInit, configOk, h]

/-- Settles O12: an accepted layout keeps both halves of R12, so a configuration that breaks one has no INIT step. -/
theorem initRefusesBadLayout : Obligations.InitRefusesBadLayout := by
  intro s broken
  refine exec_init_of_not_layoutOk fun ok => ?_
  rcases broken with noUniqueD | noPortMismatch
  · exact noUniqueD fun p hp => existsUnique_dch_of_layoutOk ok hp
  · exact noPortMismatch (layoutOk_parts ok).2

end Sys2Proof.Machine

/-! PROOFS. What a step keeps, said once: a property that each whole procedure and each table update keeps is kept by every step
(R9, R61). `DispatchKeeps` asks that the engine keep the property at every single access and that every event keep it; the transmit
queue's bookkeeping and the absence of FATAL events need the coarser `DispatchParts`. -/

namespace Sys2Proof.Machine

/-- A property that the two engine procedures and every other update of a DISPATCH keep. -/
structure DispatchParts (P : State → Prop) : Prop where
  yield : ∀ s, P s → P s.yield
  fill : ∀ s c, P s → P (transmitFill c s)
  drain : ∀ s c, P s → P (receiveDrain c s)
  diag : ∀ s d, P s → P (s.diag d)
  emit : ∀ s e, (∀ code, e ≠ .fatal code) → P s → P (s.emit e)
  lineAct : ∀ s a, P s → P (s.lineAct a)
  setStatus : ∀ s x, P s → P (s.setStatus x)
  setPort : ∀ s p x, P s → P (s.setPort p x)
  freshD : ∀ s d, P s → P (s.modChan d freshDChannel)

section
variable {P : State → Prop} (k : DispatchParts P)
include k

theorem DispatchParts.activate {s : State} (p : PortId) (h : P s) : P (s.activate p) := by
  unfold State.activate
  split
  · exact h
  · exact k.emit _ _ (by simp) (k.setPort _ _ _ h)

theorem DispatchParts.deactivate {s : State} (p : PortId) (h : P s) : P (s.deactivate p) := by
  unfold State.deactivate
  split
  · exact k.emit _ _ (by simp) (k.setPort _ _ _ h)
  · exact h

theorem DispatchParts.ntEnter {s : State} (p : PortId) (x : Fin 16) (h : P s) : P (ntEnter p x s) := by
  have entered := k.setPort s p { (s.pt p) with lstate := x, timer := if x = 2 then some s.cfg.ntT1 else none } h
  simp only [Machine.ntEnter]
  split
  · refine k.activate p ?_
    split
    · exact entered
    · exact k.freshD _ _ entered
  · exact k.deactivate p entered

theorem DispatchParts.ntCountdown {s : State} (p : PortId) (h : P s) : P (ntCountdown p s) := by
  unfold Machine.ntCountdown
  repeat' split
  · exact h
  · exact k.ntEnter p 4 (k.lineAct _ _ (k.setPort _ _ _ h))
  · exact k.setPort _ _ _ h
  · exact h

theorem DispatchParts.teReport {s : State} (p : PortId) (x : Fin 16) (h : P s) : P (teReport p x s) := by
  have taken := k.setPort s p { (s.pt p) with lstate := x } h
  unfold Machine.teReport teEvent
  repeat' split
  · exact h
  · exact k.emit _ _ (by simp) taken
  · exact k.deactivate p taken
  · exact k.emit _ _ (by simp) taken
  · exact k.activate p taken
  · exact k.emit _ _ (by simp) taken
  · exact taken

theorem DispatchParts.ptpStateChange {s : State} (p : PortId) (h : P s) : P (ptpStateChange p s) := by
  unfold Machine.ptpStateChange ntReport
  repeat' split
  · exact h
  · exact h
  · exact k.ntEnter p _ h
  · exact k.teReport p _ h

theorem DispatchParts.e1Report {s : State} (p : PortId) (h : P s) : P (e1Report p s) := by
  have taken := k.setPort s p { (s.pt p) with e1state := (s.inp p).e1In } h
  simp only [Machine.e1Report]
  split
  · exact k.activate p taken
  · exact k.deactivate p taken

theorem DispatchParts.trunkSyncPoll {s : State} (p : PortId) (h : P s) : P (trunkSyncPoll p s) := by
  have programmed : P (if (s.pt p).sync = 0 then s.lineAct (.programJitter p (jitterDepth s.cfg p)) else s) := by
    split
    · exact k.lineAct _ _ h
    · exact h
  unfold Machine.trunkSyncPoll
  split
  · exact k.setPort _ _ _ h
  · exact k.setPort _ _ _ programmed

theorem DispatchParts.alarmBit {s : State} (p : PortId) (b : Fin 4) (h : P s) : P (alarmBit p s b) := by
  simp only [Machine.alarmBit]
  repeat' split
  · exact h
  · exact k.setPort _ _ _ h
  · exact k.emit _ _ (by simp) (k.setPort _ _ _ h)

theorem DispatchParts.trunkPolls {s : State} (p : PortId) (h : P s) : P (trunkPolls p s) :=
  foldl_keeps _ _ (fun b _ _ hs => k.alarmBit p b hs) _ (k.trunkSyncPoll p h)

theorem DispatchParts.serve {s : State} (c : ChanId) (tx rx : Bool) (h : P s) : P (serve c tx rx s) := by
  have filled : P (if tx then transmitFill c s else s) := by
    split
    · exact k.fill s c h
    · exact h
  unfold Machine.serve
  split
  · exact k.drain _ c filled
  · exact filled

theorem DispatchParts.tickChannel {s : State} (c : ChanId) (h : P s) : P (tickChannel s c) := by
  unfold Machine.tickChannel
  split
  · exact k.drain _ c (k.fill s c h)
  · exact h

theorem DispatchParts.tickStep {s : State} (h : P s) : P (tickStep s) := by
  have polled := foldl_keeps (fun s p => Machine.trunkPolls p s.yield) (trunkPorts s.cfg)
    (fun p _ _ hs => k.trunkPolls p (k.yield _ hs)) s h
  have ticked : P (channelTick _) := foldl_keeps _ _ (fun c _ _ hs => k.tickChannel c hs) _ polled
  exact foldl_keeps (fun s p => Machine.ntCountdown p s) _ (fun p _ _ hs => k.ntCountdown p hs) _ ticked

theorem DispatchParts.serveBlock {s : State} (b : BlockId) (h : P s) : P (serveBlock b s) := by
  obtain ⟨x, hx⟩ := clearBlock_status s b
  refine foldl_keeps _ _ ?_ _ (hx ▸ k.setStatus s x h)
  intro i _ t ht
  unfold serveReady
  split
  · exact k.serve _ _ _ ht
  · exact ht

/-- What its parts keep, a DISPATCH keeps (R221). -/
theorem DispatchParts.dispatchBody {s : State} (h : P s) : P (dispatchBody s) := by
  unfold Machine.dispatchBody
  split
  · exact h
  · simp only [dispatchSteps]
    have cleared : P (clearSummaries s) := k.setStatus s _ h
    have reported := foldl_keeps (fun s p => Machine.ptpStateChange p s.yield) (pendingPtp s)
      (fun p _ _ hs => k.ptpStateChange p (k.yield _ hs)) _ cleared
    refine foldl_keeps _ _ (fun b _ _ hs => k.serveBlock b (k.yield _ hs)) _ ?_
    have trunks : ∀ t, P t → P ((pendingTrunk s).foldl (fun s p => Machine.e1Report p s.yield) t) :=
      foldl_keeps _ _ fun p _ _ hs => k.e1Report p (k.yield _ hs)
    have ticked : ∀ t, P t → P (if s.status.tick then Machine.tickStep t else t) := by
      intro t ht
      split
      · exact k.tickStep ht
      · exact ht
    have toned : ∀ t, P t → P (if s.status.toneReady then t.emit .toneReady else t) := by
      intro t ht
      split
      · exact k.emit _ _ (by simp) ht
      · exact ht
    refine toned _ (ticked _ (trunks _ ?_))
    split
    · exact k.diag _ _ reported
    · exact reported

end

/-- A property that every effect of a step other than a bring-up keeps. -/
structure StepParts (P : State → Prop) : Prop extends DispatchParts P where
  setEnv : ∀ s e, P s → P (s.setEnv e)
  answer : ∀ s r, P s → P (s.answer r)
  takeEvent : ∀ s, P s → P s.takeEvent
  stimulus : ∀ s st, P s → P (applyStimulus st s)
  openCh : ∀ s c, P s → P (s.modChan c fun x => { x with isOpen := true })
  close : ∀ s c, P s → P (closeChannel c s)
  setMode : ∀ s c p tS tB rS rB eb, slotInRange s.cfg tS = true → slotInRange s.cfg rS = true → P s →
    P (setModeCore c p tS tB rS rB eb s)
  conf : ∀ s c g, P s → P (setModeStored c (s.modChan c fun x => { x with conf := g }))
  submit : ∀ s c payload, payload ≠ [] → P s → P (s.modChan c fun x => { x with txq := x.txq ++ [payload] })

/-- The step takes an INIT word on a DOWN controller. -/
def TakesInit (s : State) : Prop :=
  s.ctl = .down ∧ ∃ w payload rest, s.env.inputs = .command w payload :: rest ∧ decode w payload = .instr .init

section
variable {P : State → Prop} (k : StepParts P) {s t : State}
include k

theorem StepParts.exec {i : Instr} (hs : P s) (h : ExecCase i s t) :
    P t ∨ i = .init ∧ s.ctl = .down ∧ configOk s.cfg = true ∧ t = initChecks s := by
  cases h with
  | init hi hc hg h => exact .inr ⟨hi, hc, hg, h⟩
  | rejected r h => exact .inl (h ▸ k.answer _ _ hs)
  | openCh ch hi hc hu ho h => exact .inl (h ▸ k.answer _ _ (k.openCh _ _ hs))
  | close ch hi hc hu ho h => exact .inl (h ▸ k.answer _ _ (k.close _ _ hs))
  | setMode ch p tS tB rS rB eb hi hc hu ht hr h =>
    exact .inl (h ▸ k.answer _ _ (k.setMode _ _ _ _ _ _ _ _ ht hr hs))
  | confJoin ch conf g hi hc hu hg h => exact .inl (h ▸ k.answer _ _ (k.conf _ _ _ hs))
  | confSplit ch hi hc hu h => exact .inl (h ▸ k.answer _ _ (k.conf _ _ _ hs))
  | submit ch len payload hi hc ho hp hl h =>
    have hne : payload ≠ [] := fun he => hl.1 (by rw [← hl.2, he]; rfl)
    exact .inl (h ▸ k.answer _ _ (k.submit _ _ _ hne hs))
  | service ch tx rx hi hc ho hp h => exact .inl (h ▸ k.answer _ _ (k.serve _ _ _ hs))
  | dispatch hi hc h => exact .inl (h ▸ k.answer _ _ (k.dispatchBody hs))

/-- A step keeps what its parts keep, or is a bring-up. -/
theorem StepParts.step_or_init (h : step s = .next t) (hs : P s) :
    P t ∨ TakesInit s ∧ configOk s.cfg = true ∧ t = initChecks s.consume := by
  have consumed : P s.consume := k.setEnv _ _ hs
  cases step_cases h with
  | wait hi h => exact .inl (h ▸ hs)
  | illegal w payload rest e hi hd h => exact .inl (h ▸ k.answer _ _ consumed)
  | command w payload rest i hi hd h =>
    rcases k.exec consumed h with kept | ⟨rfl, hc, hg, ht⟩
    · exact .inl kept
    · exact .inr ⟨⟨hc, w, payload, rest, hi, hd⟩, hg, ht⟩
  | own rest hi h =>
    rcases h with ⟨-, h⟩ | ⟨-, h⟩
    · exact .inl (h ▸ consumed)
    · exact .inl (h ▸ k.dispatchBody consumed)
  | stimulus st rest hi h => exact .inl (h ▸ k.stimulus _ _ consumed)
  | takeEvent rest hi h => exact .inl (h ▸ k.takeEvent _ consumed)

/-- What the reset of INIT establishes and the settle wait, the draws and the verdict keep, holds after INIT (R231). -/
theorem StepParts.initChecks (hctl : ∀ s x, P s → P (s.setCtl x)) (hfatal : ∀ s code, P s → P (s.emit (.fatal code)))
    (hs : P s.reinit) : P (initChecks s) := by
  have fails : ∀ code t, P t → P (bringUpFails code t) := fun code t ht => k.answer _ _ (hfatal _ _ (hctl _ _ ht))
  have drawn : P s.reinit.yield.drawChecks.2 := by
    obtain ⟨e, he, -⟩ := s.reinit.yield.drawChecks_env
    exact he ▸ k.setEnv _ _ (k.yield _ hs)
  unfold Machine.initChecks bringUp
  repeat' split
  · exact fails _ _ drawn
  · exact fails _ _ drawn
  · exact fails _ _ drawn
  · exact k.answer _ _ (hctl _ _ drawn)

/-- What every part of a step keeps, bring-up included, a step keeps. -/
theorem StepParts.step (hctl : ∀ s x, P s → P (s.setCtl x)) (hfatal : ∀ s code, P s → P (s.emit (.fatal code)))
    (hreset : ∀ s, configOk s.cfg = true → P s → P s.reinit) (h : step s = .next t) (hs : P s) : P t := by
  rcases k.step_or_init h hs with kept | ⟨-, hg, rfl⟩
  · exact kept
  · exact k.initChecks hctl hfatal (hreset _ hg (k.setEnv _ _ hs))

end

end Sys2Proof.Machine

/-! PROOFS. The ranges of the ring counters and frame ends (R35, R36, R55): each ring operation keeps them, hence each step. -/

namespace Sys2Proof.Machine

/-- The ranges of R11 that the ring counters rest on. -/
theorem configOk_ring {g : Config} (h : configOk g = true) : 5 ≤ g.zlen ∧ 2 ≤ g.flen := by
  simp only [configOk, rangesOk, Bool.and_eq_true, decide_eq_true_eq] at h
  omega

theorem incZ_inRange {g : Config} {z : Nat} (h : zInRange g z) : zInRange g (incZ g z) := by
  unfold zInRange at *
  unfold incZ
  split <;> omega

section
variable {g : Config} {r : Ring}

theorem incF_lt (h : 0 < g.flen) (f : Nat) : incF g f < g.flen := Nat.mod_lt _ h

theorem Ring.inRange.incZ1 (h : r.inRange g) : Ring.inRange g { r with z1 := incZ g r.z1 } :=
  ⟨incZ_inRange h.1, h.2⟩

theorem Ring.inRange.incZ2 (h : r.inRange g) : Ring.inRange g { r with z2 := incZ g r.z2 } :=
  ⟨h.1, incZ_inRange h.2.1, h.2.2⟩

theorem Ring.inRange.incF2 (h : r.inRange g) : Ring.inRange g { r with f2 := incF g r.f2 } := by
  obtain ⟨hz1, hz2, hf1, -, hends⟩ := h
  exact ⟨hz1, hz2, hf1, incF_lt (Nat.zero_lt_of_lt hf1) _, hends⟩

/-- Closing a frame at an in-range position keeps the ring in range. -/
theorem Ring.inRange.closeAt (h : r.inRange g) {z : Nat} (hz : zInRange g z) :
    Ring.inRange g { r with fend := r.fend.set (incF g r.f1) z, f1 := incF g r.f1 } := by
  obtain ⟨hz1, hz2, hf1, hf2, hlen, hends⟩ := h
  refine ⟨hz1, hz2, incF_lt (Nat.zero_lt_of_lt hf1) _, hf2, by simpa using hlen, fun w hw => ?_⟩
  rcases List.mem_or_eq_of_mem_set hw with hw | rfl
  · exact hends w hw
  · exact hz

theorem Ring.inRange.commit (h : r.inRange g) : Ring.inRange g (r.commit g) := h.closeAt h.2.1

theorem Ring.inRange.clear (hg : configOk g = true) (h : r.inRange g) : Ring.inRange g (r.clear g) := by
  obtain ⟨hz, hf⟩ := configOk_ring hg
  obtain ⟨-, -, -, -, hlen, hends⟩ := h
  have hmin : zInRange g g.zmin := ⟨Nat.le_refl _, by omega⟩
  have hzero : 0 < g.flen := by omega
  exact ⟨hmin, hmin, hzero, hzero, hlen, hends⟩

theorem Ring.reset_inRange (hg : configOk g = true) : Ring.inRange g (Ring.reset g) := by
  obtain ⟨hz, hf⟩ := configOk_ring hg
  have hmin : zInRange g g.zmin := ⟨Nat.le_refl _, by omega⟩
  have hzero : 0 < g.flen := by omega
  refine ⟨hmin, hmin, hzero, hzero, List.length_replicate, fun z hz => ?_⟩
  rwa [(List.mem_replicate.1 hz).2]

end

theorem powerOn_ring (c : Config) (ch : ChanId) (d : Dir) : (State.powerOn c).ring ch d = Ring.reset c := by
  cases d <;> simp [State.powerOn, State.ring, Vector.get_eq_getElem]

theorem powerOn_ringsInRange {c : Config} (h : configOk c = true) : (State.powerOn c).ringsInRange := by
  intro ch d
  rw [powerOn_ring]
  exact Ring.reset_inRange h

/-- The configuration is `g` and every ring is in its range. -/
def State.ringsIn (g : Config) (s : State) : Prop := s.cfg = g ∧ ∀ ch d, Ring.inRange g (s.ring ch d)

section
variable {g : Config} {s t : State}

theorem State.ringsIn.congr (h : s.ringsIn g) (hc : t.cfg = s.cfg) (hr : t.ring = s.ring) : t.ringsIn g :=
  ⟨hc.trans h.1, hr ▸ h.2⟩

theorem State.ringsIn.setRing (h : s.ringsIn g) (ch : ChanId) (d : Dir) {r : Ring} (hr : r.inRange g) :
    (s.setRing ch d r).ringsIn g := by
  refine ⟨by simpa using h.1, fun c e => ?_⟩
  rw [State.setRing_ring]
  split
  · exact hr
  · exact h.2 c e

theorem State.ringsIn.readCell (h : s.ringsIn g) (ch : ChanId) (d : Dir) (z : Nat) : (s.readCell ch d z).2.ringsIn g := by
  obtain ⟨e, he, -⟩ := s.readCell_env ch d z
  exact he ▸ h

theorem State.ringsIn.lineTxTake (h : s.ringsIn g) (ch : ChanId) : (lineTxTake ch s).ringsIn g := by
  have byte : (takeByte ch s).ringsIn g :=
    (h.readCell ch .tx _).setRing ch .tx (h.1 ▸ (h.2 ch .tx).incZ1)
  have tail : (takeTail ch s).ringsIn g := h.readCell ch .tx _
  have frameEnd : (takeFrameEnd ch s).ringsIn g := h.setRing ch .tx (h.1 ▸ (h.2 ch .tx).incF2)
  unfold Machine.lineTxTake
  repeat' split
  · exact h
  · exact h
  · exact h
  · exact byte
  · exact frameEnd
  · exact byte
  · exact tail

theorem State.ringsIn.lineRxPut (h : s.ringsIn g) (ch : ChanId) (b : Byte) : (lineRxPut ch b s).ringsIn g := by
  unfold Machine.lineRxPut
  repeat' split
  · exact h
  · exact h
  · exact h
  · exact State.ringsIn.setRing (s := s.writeCell ch .rx _ b) h ch .rx (h.1 ▸ (h.2 ch .rx).incZ1)

theorem State.ringsIn.closeFrame (h : s.ringsIn g) (ch : ChanId) (st : Byte) : (closeFrame ch st s).ringsIn g :=
  State.ringsIn.setRing (s := s.writeCell ch .rx _ st) h ch .rx (h.1 ▸ ((h.2 ch .rx).closeAt (h.2 ch .rx).1).incZ1)

theorem State.ringsIn.lineRxEnd (h : s.ringsIn g) (ch : ChanId) (st : Byte) : (lineRxEnd ch st s).ringsIn g := by
  unfold Machine.lineRxEnd
  repeat' split
  · exact h
  · exact h
  · exact h
  · rename_i st' s' hd
    obtain ⟨-, e, he, -⟩ := s.drawStatus_env
    rw [hd] at he
    have drawn : s'.ringsIn g := (show s' = s.setEnv e from he) ▸ h
    exact drawn.closeFrame ch st'
  · exact h.closeFrame ch st

theorem State.ringsIn.applyStimulus (h : s.ringsIn g) (st : Stimulus) : (applyStimulus st s).ringsIn g := by
  cases st with
  | lineTxTake ch => exact h.lineTxTake ch
  | lineRxPut ch b => exact h.lineRxPut ch b
  | lineRxEnd ch b => exact h.lineRxEnd ch b
  | ready ch d => exact h.congr (by simp [Machine.applyStimulus]) (by simp [Machine.applyStimulus])
  | lineState p x => simp only [Machine.applyStimulus, Machine.lineState]; split <;> exact h
  | lineE1State p v => simp only [Machine.applyStimulus, Machine.lineE1State]; split <;> exact h
  | lineSync p clk frm => simp only [Machine.applyStimulus, Machine.lineSync]; split <;> exact h
  | lineAlarm p bits => simp only [Machine.applyStimulus, Machine.lineAlarm]; split <;> exact h
  | timerTick => exact h
  | tone => exact h

theorem State.ringsIn.yield (h : s.ringsIn g) : s.yield.ringsIn g :=
  State.yield_keeps (fun st _ h => h.applyStimulus st) (fun _ _ h => h) s h

theorem State.ringsIn.resetNow (hg : configOk g = true) (h : s.ringsIn g) : (resetNow s).ringsIn g := by
  have cleared : ∀ ch d, (s.setRing ch d ((s.ring ch d).clear s.cfg)).ringsIn g := by
    intro ch d
    rw [h.1]
    exact h.setRing ch d ((h.2 ch d).clear hg)
  unfold Machine.resetNow
  split
  · exact h
  · exact cleared _ .tx
  · exact cleared _ .rx

end

/-- Every access of the engine keeps the ranges (R56). -/
theorem ringsIn_engine {g : Config} (hg : configOk g = true) (c : ChanId) : EngineKeeps c (State.ringsIn g) where
  yield _ h := h.yield
  env _ _ _ _ h := h
  select _ _ h := h
  diag _ _ h := h
  txDone _ h := h
  rx _ _ h := h
  push s b hsel h := by
    unfold pushNow; rw [hsel]
    exact State.ringsIn.setRing (s := s.writeCell c .tx _ b) h c .tx (h.1 ▸ (h.2 c .tx).incZ2)
  commit s hsel h := by unfold commitNow; rw [hsel]; exact h.setRing c .tx (h.1 ▸ (h.2 c .tx).commit)
  pop s hsel h := by unfold popNow; rw [hsel]; exact (h.readCell c .rx _).setRing c .rx (h.1 ▸ (h.2 c .rx).incZ2)
  ack s hsel h := by unfold frameAckNow; rw [hsel]; exact h.setRing c .rx (h.1 ▸ (h.2 c .rx).incF2)
  reset _ _ _ h := h.resetNow hg
  edit _ _ _ h := h

/-- So does everything the router does (R151, R157, R166). -/
theorem ringsIn_router {g : Config} (hg : configOk g = true) (c : ChanId) : RouterKeeps c (State.ringsIn g) where
  yield _ h := h.yield
  select _ _ h := h
  reset _ _ _ h := h.resetNow hg
  setOwn _ _ _ h := h
  setSlotReg _ _ _ h := h
  diag _ _ h := h
  edit _ _ h := h

theorem ringsIn_stepParts {g : Config} (hg : configOk g = true) : StepParts (State.ringsIn g) where
  yield _ h := h.yield
  fill _ c h := transmitFill_keeps (ringsIn_engine hg c) h
  drain _ c h := receiveDrain_keeps (ringsIn_engine hg c) h
  diag _ _ h := h
  emit _ _ _ h := h
  lineAct _ _ h := h
  setStatus _ _ h := h
  setPort _ _ _ h := h
  freshD _ _ h := h
  setEnv _ _ h := h
  answer _ _ h := h
  takeEvent _ h := h
  stimulus _ st h := h.applyStimulus st
  openCh _ _ h := h
  close _ c h := (ringsIn_router hg c).closeChannel h
  setMode _ c _ _ _ _ _ _ _ _ h := (ringsIn_router hg c).setModeCore _ _ _ _ _ _ h
  conf s c g' h := (ringsIn_router hg c).setModeStored (s := s.modChan c fun x => { x with conf := g' }) h
  submit _ _ _ _ h := h

/-- Settles O57: every ring operation keeps the ranges, and INIT's reset gives values in them. -/
theorem stepKeepsRingsInRange : Obligations.StepKeepsRingsInRange := by
  intro s t hg hs h
  have kept : t.ringsIn s.cfg :=
    (ringsIn_stepParts hg).step (fun _ _ h => h) (fun _ _ h => h)
      (fun u hu h => ⟨h.1, fun ch d => h.1 ▸ powerOn_ringsInRange hu ch d⟩) h ⟨rfl, hs⟩
  intro ch d
  rw [kept.1]
  exact kept.2 ch d

end Sys2Proof.Machine

/-! PROOFS. The routing invariant (R161) and the range of the stored slots (R22, R77): only SetModeCore and the reset write what they
speak of. -/

namespace Sys2Proof.Machine

theorem exists_routeIx (i : RouteIx) : ∃ slot d, i = routeIx slot d := by
  have h := i.isLt
  rcases Nat.mod_two_eq_zero_or_one i.val with even | odd
  · exact ⟨⟨i.val / 2, by omega⟩, .tx, Fin.ext (by simp only [routeIx, Dir.num]; omega)⟩
  · exact ⟨⟨i.val / 2, by omega⟩, .rx, Fin.ext (by simp only [routeIx, Dir.num]; omega)⟩

/-- `t` agrees with `s` on the configuration, the routing tables and the stored slots. -/
structure RoutingSame (s t : State) : Prop where
  cfg : t.cfg = s.cfg
  own : t.ownAt = s.ownAt
  reg : t.regAt = s.regAt
  slot : ∀ c d, (t.ch c).slot d = (s.ch c).slot d

theorem RoutingSame.routingOk {s t : State} (h : RoutingSame s t) (hs : s.routingOk) : t.routingOk := by
  unfold State.routingOk
  simp only [h.own, h.reg, h.slot]
  exact hs

theorem RoutingSame.slotsInRange {s t : State} (h : RoutingSame s t) (hs : s.slotsInRange) : t.slotsInRange := by
  intro ch d
  rw [h.cfg, h.slot]
  exact hs ch d

theorem RoutingSame.ofTables {s t : State} (hc : t.cfg = s.cfg) (ho : t.own = s.own) (hr : t.slotReg = s.slotReg)
    (hch : t.ch = s.ch) : RoutingSame s t :=
  ⟨hc, by funext i; simp only [State.ownAt, ho], by funext i; simp only [State.regAt, hr], by simp [hch]⟩

theorem RoutingSame.modChan (s : State) (c : ChanId) (f : Channel → Channel) (hf : ∀ x d, (f x).slot d = x.slot d) :
    RoutingSame s (s.modChan c f) := by
  refine ⟨rfl, rfl, rfl, fun k d => ?_⟩
  rw [State.modChan_ch]
  split
  · rename_i hk; rw [hf, hk]
  · rfl

theorem RoutingSame.ofLine {s t : State} (h : LineFrame s t) : RoutingSame s t := .ofTables h.cfg h.own h.slotReg h.ch

theorem sameProgramming_slot {x y : Channel} (h : Channel.sameProgramming x y) (d : Dir) : y.slot d = x.slot d := by
  unfold Channel.sameProgramming at h
  rw [h]
  cases d <;> rfl

theorem RoutingSame.ofEngine {c : ChanId} {s t : State} (h : EngineFrame c s t) : RoutingSame s t := by
  refine ⟨h.cfg, by funext i; simp only [State.ownAt, h.own], by funext i; simp only [State.regAt, h.slotReg], fun k d => ?_⟩
  by_cases hk : k = c
  · exact hk ▸ sameProgramming_slot h.self d
  · rw [h.others k hk]

theorem freshDChannel_sameProgramming (x : Channel) : Channel.sameProgramming x (freshDChannel x) := by
  unfold freshDChannel
  split <;> rfl

/-- A property of the routing tables and the slots alone that SetModeCore keeps, every part of a step keeps. A slot SetModeCore is
given is in range or stored already, which is so of SET_MODE, CLOSE and the two conference commands. -/
theorem stepParts_of_routing {P : State → Prop} (same : ∀ s t, RoutingSame s t → P s → P t)
    (mode : ∀ s c p tS tB rS rB eb,
      (∀ d : Dir, slotInRange s.cfg (d.pick tS rS) = true ∨ d.pick tS rS = (s.ch c).slot d) → P s →
        P (setModeCore c p tS tB rS rB eb s)) : StepParts P where
  yield s := same _ _ (.ofTables (by simp) (by simp) (by simp) (by simp))
  fill s c := same _ _ (.ofEngine (transmitFill_frame c s))
  drain s c := same _ _ (.ofEngine (receiveDrain_frame c s))
  diag _ _ := same _ _ (.ofTables rfl rfl rfl rfl)
  emit _ _ _ := same _ _ (.ofTables rfl rfl rfl rfl)
  lineAct _ _ := same _ _ (.ofTables rfl rfl rfl rfl)
  setStatus _ _ := same _ _ (.ofTables rfl rfl rfl rfl)
  setPort _ _ _ := same _ _ (.ofTables rfl rfl rfl rfl)
  freshD s d := same _ _ (.modChan s d _ fun x => sameProgramming_slot (freshDChannel_sameProgramming x))
  setEnv _ _ := same _ _ (.ofTables rfl rfl rfl rfl)
  answer _ _ := same _ _ (.ofTables rfl rfl rfl rfl)
  takeEvent _ := same _ _ (.ofTables rfl rfl rfl rfl)
  stimulus s st := same _ _ (.ofLine (applyStimulus_frame st s))
  openCh s c := same _ _ (.modChan s c _ fun _ d => by cases d <;> rfl)
  close s c h := by
    have left : P (s.modChan c fun x => { x with conf := none }) := same _ _ (.modChan s c _ fun _ d => by cases d <;> rfl) h
    have unrouted : P (unroute c s) := mode _ c _ _ _ _ _ _ (fun d => .inl (by cases d <;> rfl)) left
    have emptied := same _ ((unroute c s).modChan c fun x => { x with txq := [], cursor := 0, rxbuf := [] })
      (.modChan _ c _ fun _ d => by cases d <;> rfl) unrouted
    refine same _ _ (.modChan _ c _ fun _ d => by cases d <;> rfl) (same _ _ (.ofTables ?_ ?_ ?_ ?_) emptied) <;>
      simp [emptyRings, ringReset]
  setMode _ _ _ _ _ _ _ _ ht hr := mode _ _ _ _ _ _ _ _ fun d => .inl (by cases d <;> assumption)
  conf s c g h := mode _ _ _ _ _ _ _ _ (fun d => .inr (by cases d <;> rfl))
    (same _ _ (.modChan s c _ fun _ d => by cases d <;> rfl) h)
  submit s c _ _ := same _ _ (.modChan s c _ fun _ d => by cases d <;> rfl)

theorem setModeCore_slot (ch : ChanId) (p : ProtoField) (tS : Option Slot) (tB : Bank) (rS : Option Slot) (rB : Bank) (eb : Bool)
    (s : State) (d : Dir) : ((setModeCore ch p tS tB rS rB eb s).ch ch).slot d = d.pick tS rS := by
  have flow : ∀ (pe : Proto) (x : Channel), (programFlow s.cfg ch pe eb x).slot d = x.slot d := by
    intro pe x; cases pe <;> cases d <;> rfl
  have record : (modeRecord s.cfg ch (effectiveProto p) tS tB rS rB eb (s.ch ch)).slot d =
      (programFlow s.cfg ch (effectiveProto p) eb
        { s.ch ch with txSlot := tS, rxSlot := rS, txBank := tB, rxBank := rB }).slot d := by
    simp only [modeRecord]
    split <;> cases d <;> rfl
  rw [setModeCore_ch, record, flow]
  cases d <;> rfl

/-- SetModeCore keeps R161: what it routes it owns and stores, and what it releases nobody owns (R153, R154). -/
theorem setModeCore_routingOk (ch : ChanId) (p : ProtoField) (tS : Option Slot) (tB : Bank) (rS : Option Slot) (rB : Bank)
    (eb : Bool) {s : State} (h : s.routingOk) : (setModeCore ch p tS tB rS rB eb s).routingOk := by
  obtain ⟨agree, owned⟩ := h
  have routes := setModeCore_routes ch p tS tB rS rB eb s
  refine ⟨fun i => ?_, fun slot d k hk => ?_⟩
  · obtain ⟨slot, d, rfl⟩ := exists_routeIx i
    rw [(routes slot d).1, (routes slot d).2]
    split
    · simp
    · split
      · simp
      · exact agree _
  · rw [(routes slot d).1] at hk
    rw [(routes slot d).2]
    split at hk
    · rename_i requested
      cases hk
      exact ⟨⟨_, _, if_pos requested⟩, (setModeCore_slot ch p tS tB rS rB eb s d).trans requested⟩
    · rename_i unrequested
      split at hk
      · cases hk
      · rename_i kept
        obtain ⟨reg, stored⟩ := owned slot d k hk
        have other : k ≠ ch := by rintro rfl; exact kept ⟨stored, hk⟩
        rw [if_neg unrequested, if_neg kept, (setModeCore_frame ch p tS tB rS rB eb s).others k other]
        exact ⟨reg, stored⟩

/-- SetModeCore stores the slots it is given (R154). -/
theorem setModeCore_slotsInRange (ch : ChanId) (p : ProtoField) (tS : Option Slot) (tB : Bank) (rS : Option Slot) (rB : Bank)
    (eb : Bool) {s : State} (hnew : ∀ d : Dir, slotInRange s.cfg (d.pick tS rS) = true ∨ d.pick tS rS = (s.ch ch).slot d)
    (h : s.slotsInRange) : (setModeCore ch p tS tB rS rB eb s).slotsInRange := by
  intro k d
  have f := setModeCore_frame ch p tS tB rS rB eb s
  rw [f.cfg]
  by_cases hk : k = ch
  · rw [hk, setModeCore_slot]
    rcases hnew d with inRange | stored
    · exact inRange
    · rw [stored]; exact h ch d
  · rw [f.others k hk]; exact h k d

theorem powerOn_ch (c : Config) (ch : ChanId) : (State.powerOn c).ch ch = Channel.reset := by
  simp [State.powerOn, State.ch, Vector.get_eq_getElem]

theorem powerOn_ownAt (c : Config) (i : RouteIx) : (State.powerOn c).ownAt i = none := by
  simp [State.powerOn, State.ownAt, Vector.get_eq_getElem]

theorem powerOn_regAt (c : Config) (i : RouteIx) : (State.powerOn c).regAt i = none := by
  simp [State.powerOn, State.regAt, Vector.get_eq_getElem]

theorem powerOn_routingOk (c : Config) : (State.powerOn c).routingOk := by
  refine ⟨fun i => by simp [powerOn_ownAt, powerOn_regAt], fun slot d ch h => ?_⟩
  rw [powerOn_ownAt] at h
  cases h

theorem powerOn_slotsInRange (c : Config) : (State.powerOn c).slotsInRange := by
  intro ch d
  rw [powerOn_ch]
  cases d <;> rfl

/-- INIT's reset leaves the tables as power-on does (R231). -/
theorem RoutingSame.reinit (s : State) : RoutingSame (State.powerOn s.cfg) s.reinit := .ofTables rfl rfl rfl rfl

/-- Settles O59: SetModeCore keeps both invariants, the reset establishes them, and nothing else writes what they speak of. -/
theorem stepKeepsRoutingInvariant : Obligations.StepKeepsRoutingInvariant := by
  intro s t h
  constructor
  · have parts : StepParts State.routingOk :=
      stepParts_of_routing (fun _ _ e => e.routingOk) fun _ _ _ _ _ _ _ _ _ => setModeCore_routingOk _ _ _ _ _ _ _
    exact parts.step (fun _ _ h => h) (fun _ _ h => h) (fun u _ _ => (RoutingSame.reinit u).routingOk (powerOn_routingOk _)) h
  · have parts : StepParts State.slotsInRange :=
      stepParts_of_routing (fun _ _ e => e.slotsInRange) fun _ _ _ _ _ _ _ _ => setModeCore_slotsInRange _ _ _ _ _ _ _
    exact parts.step (fun _ _ h => h) (fun _ _ h => h)
      (fun u _ _ => (RoutingSame.reinit u).slotsInRange (powerOn_slotsInRange _)) h

end Sys2Proof.Machine

/-! PROOFS. The consistency of a channel record (R28, R29, R31, R156): what each kind of update of a record keeps, what the two engine
procedures do to the records, and the step. -/

namespace Sys2Proof.Machine

/-- One channel record is consistent: `State.channelsOk` says it of every channel. -/
def Channel.consistent (x : Channel) : Prop := x.queueOk ∧ x.sourceOk ∧ x.flowOk

theorem Channel.reset_consistent : Channel.reset.consistent := by
  refine ⟨⟨?_, ?_, fun _ => rfl, fun _ => rfl⟩, ?_, ?_⟩ <;> simp [Channel.reset, Channel.sourceOk, Channel.flowOk]

/-- SetModeCore picks the highway only for a routed raw channel (R159). -/
theorem sourceAfter_hwy {x : Channel} (h : sourceAfter x = .hwy) : x.txSlot ≠ none ∧ x.proto = .raw := by
  unfold sourceAfter at h
  split at h
  · rename_i routed
    obtain ⟨raw, slot, -⟩ := routed
    exact ⟨Option.isSome_iff_ne_none.1 slot, raw⟩
  · cases h

section
variable {x : Channel} (h : x.consistent)
include h

/-- `open`, the conference and the receive buffer are no part of what is consistent. -/
theorem Channel.consistent.of_update {y : Channel} (hy : y = { x with isOpen := y.isOpen, conf := y.conf, rxbuf := y.rxbuf }) :
    y.consistent := by
  rw [hy]
  exact h

theorem Channel.consistent.idle : Channel.consistent { x with txState := .idle } := by
  obtain ⟨⟨frames, head, empty, -⟩, source, flow⟩ := h
  exact ⟨⟨frames, head, empty, fun e => by cases e⟩, source, flow⟩

theorem Channel.consistent.fifo : Channel.consistent { x with txSrc := .fifo } := ⟨h.1, fun e => (by cases e), h.2.2⟩

theorem Channel.consistent.highway (hr : x.routedRaw = true) : Channel.consistent { x with txSrc := .hwy, txState := .idle } := by
  obtain ⟨queue, -, flow⟩ := h.idle
  refine ⟨queue, fun _ => ?_, flow⟩
  simp only [Channel.routedRaw, Bool.and_eq_true, beq_iff_eq, Option.isSome_iff_ne_none] at hr
  exact ⟨hr.2, hr.1⟩

/-- A cursor within the head frame is consistent while the channel is sending (R29). -/
theorem Channel.consistent.sending {fr : List Byte} {rest : List (List Byte)} (hq : x.txq = fr :: rest) {n : Nat}
    (hn : n ≤ fr.length) : Channel.consistent { x with cursor := n, txState := .sending } := by
  obtain ⟨⟨frames, -, -, -⟩, source, flow⟩ := h
  refine ⟨⟨frames, fun fr' rest' he => ?_, fun he => ?_, fun he => by cases he⟩, source, flow⟩
  · cases hq.symm.trans he
    exact hn
  · cases hq.symm.trans he

/-- Taking the head frame off the queue is consistent with a cursor of 0 (R108). -/
theorem Channel.consistent.acknowledged {fr : List Byte} {rest : List (List Byte)} (hq : x.txq = fr :: rest) :
    Channel.consistent { x with txq := rest, cursor := 0 } := by
  obtain ⟨⟨frames, -, -, -⟩, source, flow⟩ := h
  refine ⟨⟨fun f hf => frames f ?_, fun _ _ _ => Nat.zero_le _, fun _ => rfl, fun _ => rfl⟩, source, flow⟩
  rw [hq]
  exact List.mem_cons_of_mem _ hf

/-- Queueing a frame that is not empty (R121). -/
theorem Channel.consistent.queued {payload : List Byte} (hne : payload ≠ []) :
    Channel.consistent { x with txq := x.txq ++ [payload] } := by
  obtain ⟨⟨frames, head, empty, pending⟩, source, flow⟩ := h
  refine ⟨⟨fun f hf => ?_, fun fr rest he => ?_, fun he => ?_, pending⟩, source, flow⟩
  · rcases List.mem_append.1 hf with hf | hf
    · exact frames f hf
    · rwa [List.mem_singleton.1 hf]
  · cases hq : x.txq with
    | nil => rw [empty hq]; exact Nat.zero_le _
    | cons fr' rest' =>
      simp only [hq, List.cons_append, List.cons.injEq] at he
      exact he.1 ▸ head fr' rest' hq
  · simp at he

/-- Clearing a D channel on entry to NT state 3 (R184, R186). -/
theorem Channel.consistent.fresh : (freshDChannel x).consistent := by
  unfold freshDChannel
  split
  · obtain ⟨⟨frames, -, -, -⟩, source, flow⟩ := h
    exact ⟨⟨frames, fun _ _ _ => Nat.zero_le _, fun _ => rfl, fun _ => rfl⟩, source, flow⟩
  · exact h.of_update rfl

/-- The record SetModeCore leaves is consistent (R156, R157, R159). -/
theorem Channel.consistent.mode (g : Config) (ch : ChanId) (pe : Proto) (tS : Option Slot) (tB : Bank) (rS : Option Slot)
    (rB : Bank) (eb : Bool) : (modeRecord g ch pe tS tB rS rB eb x).consistent := by
  obtain ⟨frames, head, empty, pending⟩ := h.1
  refine ⟨?_, ?_, ?_⟩
  · simp only [modeRecord]
    split
    · cases pe <;> exact ⟨frames, fun _ _ _ => Nat.zero_le _, fun _ => rfl, fun _ => rfl⟩
    · cases pe <;> exact ⟨frames, head, empty, pending⟩
  · exact fun hwy => sourceAfter_hwy hwy
  · simp only [modeRecord]
    split <;> cases pe <;> simp [programFlow, Channel.flowOk]

end

section
variable {s t : State}

theorem State.channelsOk.congr (h : s.channelsOk) (hch : t.ch = s.ch) : t.channelsOk := by
  intro k
  rw [hch]
  exact h k

/-- An update of one record that is consistent afterwards. -/
theorem State.channelsOk.modChan (h : s.channelsOk) (c : ChanId) (f : Channel → Channel)
    (hf : (s.ch c).consistent → (f (s.ch c)).consistent) : (s.modChan c f).channelsOk := by
  intro k
  rw [State.modChan_ch]
  split
  · exact hf (h c)
  · exact h k

end

/-! ### What the ring accesses leave of the records -/

section
variable (s : State)

@[simp] theorem pushNow_ch (b : Byte) : (pushNow b s).ch = s.ch := by unfold pushNow; split <;> simp
@[simp] theorem commitNow_ch : (commitNow s).ch = s.ch := by unfold commitNow; split <;> simp
@[simp] theorem frameAckNow_ch : (frameAckNow s).ch = s.ch := by unfold frameAckNow; split <;> simp

@[simp] theorem popNow_ch : (popNow s).2.ch = s.ch := by
  unfold popNow
  split
  · obtain ⟨e, he, -⟩ := s.drawByte_env
    rw [he]; simp
  · simp [(LineFrame.readCell s _ _ _).ch]

@[simp] theorem ringPush_ch (b : Byte) : (ringPush b s).ch = s.ch := by simp [ringPush]
@[simp] theorem ringCommit_ch : (ringCommit s).ch = s.ch := by simp [ringCommit]
@[simp] theorem ringPop_ch : (ringPop s).2.ch = s.ch := by simp [ringPop]
@[simp] theorem ringFrameAck_ch : (ringFrameAck s).ch = s.ch := by simp [ringFrameAck]
@[simp] theorem ringReset_ch : (ringReset s).ch = s.ch := by simp [ringReset]

@[simp] theorem stableRead_ch (r : LineCounter) : (stableRead r s).2.ch = s.ch := by
  obtain ⟨e, he, -⟩ := readNow_env r s.yield
  simp [stableRead, he]

end

section
variable {ch : ChanId} {s s' : State}

theorem stableRead_next_ch {r : LineCounter} {o : Option Nat} (h : stableRead r s = (o, s')) : s'.ch = s.ch := by
  rw [← stableRead_ch s r, h]

theorem frameSpaceStep_ch (ch : ChanId) (s : State) : (frameSpaceStep ch s).2.ch = s.ch := by
  unfold frameSpaceStep
  split
  · split <;> rename_i hr <;> simpa using stableRead_next_ch hr
  · rfl

theorem byteSpaceStep_ch (ch : ChanId) (s : State) : (byteSpaceStep ch s).2.ch = s.ch := by
  unfold byteSpaceStep
  split <;> rename_i hr <;> simpa using stableRead_next_ch hr

theorem fillSnapshot_ch {o : Option Nat} (h : fillSnapshot ch s = (o, s')) : s'.ch = s.ch := by
  have space := frameSpaceStep_ch ch s
  unfold fillSnapshot at h
  split at h <;> rename_i next hf <;> rw [hf] at space
  · cases h; exact space
  · have bytes := byteSpaceStep_ch ch next
    rw [h] at bytes
    exact bytes.trans space

theorem frameBoundary_ch (ch : ChanId) (s : State) : (frameBoundary ch s).2.ch = s.ch := by
  unfold frameBoundary
  split
  · split <;> rename_i hr <;> simpa using stableRead_next_ch hr
  · rfl

theorem drainSnapshot_ch {o : Option (Bool × Nat)} (h : drainSnapshot ch s = (o, s')) : s'.ch = s.ch := by
  have boundary := frameBoundary_ch ch s
  unfold drainSnapshot at h
  split at h <;> rename_i hf <;> rw [hf] at boundary
  · cases h; exact boundary
  · split at h <;> rename_i hr <;> cases h <;> simpa [boundary] using stableRead_next_ch hr

/-- The copy advances the cursor by the bytes pushed and writes no other field of a record (R107). -/
theorem pushBytes_ch (ch : ChanId) (l : List Byte) (s : State) (k : ChanId) :
    (pushBytes ch l s).ch k = if ch = k then { s.ch ch with cursor := (s.ch ch).cursor + l.length } else s.ch k := by
  induction l generalizing s with
  | nil => unfold pushBytes; split <;> simp_all
  | cons b rest ih =>
    unfold pushBytes
    rw [ih]
    by_cases hk : ch = k <;> simp [hk, Nat.add_assoc, Nat.add_comm 1]

end

/-! ### transmit_fill and receive_drain -/

section
variable {ch : ChanId} {s : State}

theorem State.channelsOk.nothingLeft (h : s.channelsOk) (zs : Nat) : (nothingLeft ch zs s).channelsOk := by
  unfold Machine.nothingLeft
  refine State.channelsOk.modChan ?_ ch _ fun x => x.idle
  split
  · exact h.congr (by simp)
  · exact h

theorem disconnectHighway_queue (ch : ChanId) (s : State) : ((disconnectHighway ch s).ch ch).txq = (s.ch ch).txq := by
  unfold disconnectHighway
  split <;> simp

theorem State.channelsOk.disconnectHighway (h : s.channelsOk) : (disconnectHighway ch s).channelsOk := by
  unfold Machine.disconnectHighway
  split
  · exact h.modChan ch _ fun x => x.fifo
  · exact h

theorem writeFrame_queue (ch : ChanId) (fr : List Byte) (zs : Nat) (s : State) :
    ((writeFrame ch fr zs s).ch ch).txq = (s.ch ch).txq := by
  simp [writeFrame, pushBytes_ch]

/-- What is pushed of the head frame leaves the cursor within it (R107). -/
theorem State.channelsOk.writeFrame (h : s.channelsOk) {fr : List Byte} {rest : List (List Byte)} (hq : (s.ch ch).txq = fr :: rest)
    (zs : Nat) : (writeFrame ch fr zs s).channelsOk := by
  intro k
  simp only [Machine.writeFrame, State.modChan_ch, pushBytes_ch, if_true]
  by_cases hk : ch = k
  · simp only [hk, if_true]
    have head : (s.ch ch).cursor ≤ fr.length := (h ch).1.2.1 fr rest hq
    refine Channel.consistent.sending (h k) (hk ▸ hq) ?_
    rw [hk] at head
    simp only [List.length_take, List.length_drop]
    omega
  · simp only [hk, if_false]
    exact h k

theorem completeFrame_queue (ch : ChanId) (rest : List (List Byte)) (s : State) :
    ((completeFrame ch rest s).ch ch).txq = rest := by
  simp [completeFrame]

theorem State.channelsOk.completeFrame (h : s.channelsOk) {fr : List Byte} {rest : List (List Byte)}
    (hq : (s.ch ch).txq = fr :: rest) : (completeFrame ch rest s).channelsOk := by
  have records : (if (s.ch ch).proto = .hdlc then ringCommit s else s).ch = s.ch := by split <;> simp
  have committed := h.congr records
  exact committed.modChan ch (fun x => { x with txq := rest, cursor := 0 }) fun x => x.acknowledged (records ▸ hq)

/-- The loop keeps every record consistent when it is given the channel's own queue. -/
theorem State.channelsOk.fillLoop {q : List (List Byte)} (h : s.channelsOk) (hq : (s.ch ch).txq = q) :
    (fillLoop ch q s).channelsOk := by
  induction q generalizing s with
  | nil =>
    unfold Machine.fillLoop
    split <;> rename_i hs
    · exact h.congr (fillSnapshot_ch hs)
    · have snapped := h.congr (fillSnapshot_ch hs)
      split
      · rename_i routed
        exact snapped.modChan ch _ fun x => x.highway routed.2
      · exact snapped.nothingLeft _
  | cons fr rest ih =>
    unfold Machine.fillLoop
    split <;> rename_i hs
    · exact h.congr (fillSnapshot_ch hs)
    · rename_i zs s'
      have queue : ((Machine.disconnectHighway ch s').ch ch).txq = fr :: rest := by
        rw [disconnectHighway_queue, fillSnapshot_ch hs, hq]
      have written := (h.congr (fillSnapshot_ch hs)).disconnectHighway.writeFrame queue zs
      have completed := written.completeFrame ((writeFrame_queue ch fr zs _).trans queue)
      dsimp only
      split
      · exact written
      · split
        · exact completed.nothingLeft zs
        · exact ih completed (completeFrame_queue ch rest _)

theorem State.channelsOk.transmitFill (h : s.channelsOk) (ch : ChanId) : (transmitFill ch s).channelsOk := by
  have selected : (s.select ch .tx).channelsOk := h
  unfold Machine.transmitFill deferredReset
  split
  · exact h
  · split
    · refine State.channelsOk.fillLoop ?_ (by simp)
      exact (selected.congr (ringReset_ch _)).modChan ch _ fun x => x.idle
    · exact selected.fillLoop rfl

/-- The receive buffer is no part of what is consistent (R30). -/
theorem State.channelsOk.setBuffer (h : s.channelsOk) (ch : ChanId) (buf : Channel → List Byte) :
    (s.modChan ch fun x => { x with rxbuf := buf x }).channelsOk :=
  h.modChan ch _ fun x => x.of_update rfl

theorem State.channelsOk.popBytes (h : s.channelsOk) (n : Nat) : (popBytes ch n s).channelsOk := by
  induction n generalizing s with
  | zero => exact h
  | succ n ih => exact ih ((h.congr (ringPop_ch s)).setBuffer ch _)

theorem State.channelsOk.finishFrame (h : s.channelsOk) : (finishFrame ch s).channelsOk := by
  unfold Machine.finishFrame
  refine State.channelsOk.setBuffer ?_ ch _
  repeat' split
  · exact h
  · exact h
  · exact h

theorem State.channelsOk.deliverTransparent (h : s.channelsOk) : (deliverTransparent ch s).channelsOk := by
  unfold Machine.deliverTransparent
  split
  · exact State.channelsOk.setBuffer (s := s.emit _) h ch _
  · exact h

theorem State.channelsOk.dropOversize (h : s.channelsOk) : (dropOversize ch s).channelsOk :=
  (h.setBuffer ch fun _ => []).congr (ringReset_ch _)

theorem State.channelsOk.drainLoop (h : s.channelsOk) (n : Nat) : (drainLoop ch n s).channelsOk := by
  induction n generalizing s with
  | zero => exact h
  | succ n ih =>
    unfold Machine.drainLoop
    split <;> rename_i hs
    · exact h.congr (drainSnapshot_ch hs)
    · have snapped := h.congr (drainSnapshot_ch hs)
      repeat' split
      · exact snapped
      · exact snapped.dropOversize
      · exact (snapped.popBytes _).deliverTransparent
      · exact snapped.popBytes _
      · exact ih ((snapped.popBytes _).congr (ringFrameAck_ch _)).finishFrame

theorem State.channelsOk.receiveDrain (h : s.channelsOk) (ch : ChanId) : (receiveDrain ch s).channelsOk := by
  unfold Machine.receiveDrain
  split
  · exact h
  · exact State.channelsOk.drainLoop (s := s.select ch .rx) h _

end

/-! ### The step -/

theorem State.channelsOk.setModeCore {s : State} (h : s.channelsOk) (ch : ChanId) (p : ProtoField) (tS : Option Slot) (tB : Bank)
    (rS : Option Slot) (rB : Bank) (eb : Bool) : (setModeCore ch p tS tB rS rB eb s).channelsOk := by
  intro k
  by_cases hk : k = ch
  · rw [hk, setModeCore_ch]
    exact Channel.consistent.mode (h ch) _ _ _ _ _ _ _ _
  · rw [(setModeCore_frame ch p tS tB rS rB eb s).others k hk]
    exact h k

theorem State.channelsOk.closeChannel {s : State} (h : s.channelsOk) (ch : ChanId) : (closeChannel ch s).channelsOk := by
  intro k
  rw [closeChannel_ch]
  split
  · exact Channel.reset_consistent
  · exact h k

theorem powerOn_channelsOk (c : Config) : (State.powerOn c).channelsOk := by
  intro ch
  rw [powerOn_ch]
  exact Channel.reset_consistent

theorem channelsOk_stepParts : StepParts State.channelsOk where
  yield _ h := h.congr (State.yield_ch _)
  fill _ c h := h.transmitFill c
  drain _ c h := h.receiveDrain c
  diag _ _ h := h
  emit _ _ _ h := h
  lineAct _ _ h := h
  setStatus _ _ h := h
  setPort _ _ _ h := h
  freshD _ d h := h.modChan d _ fun x => x.fresh
  setEnv _ _ h := h
  answer _ _ h := h
  takeEvent _ h := h
  stimulus s st h := h.congr (applyStimulus_frame st s).ch
  openCh _ c h := h.modChan c _ fun x => x.of_update rfl
  close _ c h := h.closeChannel c
  setMode _ c _ _ _ _ _ _ _ _ h := h.setModeCore c _ _ _ _ _ _
  conf _ c g h := State.channelsOk.setModeCore
    (h.modChan c (fun x => { x with conf := g }) fun x => x.of_update rfl) c _ _ _ _ _ _
  submit _ c _ hne h := h.modChan c _ fun x => x.queued hne

/-- Settles O58: every update of a record leaves it consistent; the cursor advances only by bytes of the head frame. -/
theorem stepKeepsChannelsConsistent : Obligations.StepKeepsChannelsConsistent := fun _ _ hs h =>
  channelsOk_stepParts.step (fun _ _ h => h) (fun _ _ h => h) (fun u _ _ => powerOn_channelsOk u.cfg) h hs

end Sys2Proof.Machine

/-! PROOFS. The configuration and the controller state over a step (R21, R49, R234, R254, R256), the other inputs of a step (R44, R88)
and power-on (R280). -/

namespace Sys2Proof.Machine

theorem cfg_stepParts (g : Config) : StepParts fun s => s.cfg = g where
  yield s h := s.yield_cfg.trans h
  fill s c h := (transmitFill_frame c s).cfg.trans h
  drain s c h := (receiveDrain_frame c s).cfg.trans h
  diag _ _ h := h
  emit _ _ _ h := h
  lineAct _ _ h := h
  setStatus _ _ h := h
  setPort _ _ _ h := h
  freshD _ _ h := h
  setEnv _ _ h := h
  answer _ _ h := h
  takeEvent _ h := h
  stimulus s st h := (applyStimulus_frame st s).cfg.trans h
  openCh _ _ h := h
  close s c h := (closeChannel_fields c s).1.trans h
  setMode s c p tS tB rS rB eb _ _ h := (setModeCore_frame c p tS tB rS rB eb s).cfg.trans h
  conf _ c _ h := (setModeCore_frame c _ _ _ _ _ _ _).cfg.trans h
  submit _ _ _ _ h := h

/-- Settles O8: no part of a step writes the configuration, and the reset of INIT takes it over. -/
theorem stepKeepsConfiguration : Obligations.StepKeepsConfiguration := fun s _ h =>
  (cfg_stepParts s.cfg).step (fun _ _ h => h) (fun _ _ h => h) (fun _ _ h => h) h rfl

/-! ### The controller state and FATAL -/

/-- `t` has the controller state of `s` and no FATAL event that `s` has not. -/
def AddsNoFatal (s t : State) : Prop :=
  t.ctl = s.ctl ∧ ∀ code : FatalCode, t.evq.count (.fatal code) ≤ s.evq.count (.fatal code)

section
variable {s t u : State}

theorem AddsNoFatal.congr (h : AddsNoFatal s t) (hc : u.ctl = t.ctl) (he : u.evq = t.evq) : AddsNoFatal s u :=
  ⟨hc.trans h.1, he ▸ h.2⟩

theorem AddsNoFatal.emit (h : AddsNoFatal s t) {e : Event} (he : ∀ code, e ≠ .fatal code) : AddsNoFatal s (t.emit e) := by
  refine ⟨h.1, fun code => ?_⟩
  have counted : (t.emit e).evq.count (.fatal code) = t.evq.count (.fatal code) := by
    simp [State.emit, List.count_append, he code]
  exact counted ▸ h.2 code

theorem AddsNoFatal.takeEvent (h : AddsNoFatal s t) : AddsNoFatal s t.takeEvent :=
  ⟨h.1, fun code => ((List.tail_sublist t.evq).count_le _).trans (h.2 code)⟩

end

/-- The engine's events are TX_DONE and RX. -/
theorem addsNoFatal_engine (c : ChanId) (s : State) : EngineKeeps c (AddsNoFatal s) where
  yield _ h := h.congr (by simp) (by simp)
  env _ _ _ _ h := h
  select _ _ h := h
  diag _ _ h := h
  txDone _ h := h.emit (by simp)
  rx _ _ h := h.emit (by simp)
  push _ _ hsel h := by unfold pushNow; rw [hsel]; exact h
  commit _ hsel h := by unfold commitNow; rw [hsel]; exact h
  pop t hsel h := by
    unfold popNow; rw [hsel]
    have f := LineFrame.readCell t c .rx (t.ring c .rx).z2
    exact h.congr f.ctl f.evq
  ack _ hsel h := by unfold frameAckNow; rw [hsel]; exact h
  reset _ _ _ h := h.congr (by simp) (by simp)
  edit _ _ _ h := h

theorem addsNoFatal_stepParts (s : State) : StepParts (AddsNoFatal s) where
  yield _ h := h.congr (by simp) (by simp)
  fill _ c h := transmitFill_keeps (addsNoFatal_engine c s) h
  drain _ c h := receiveDrain_keeps (addsNoFatal_engine c s) h
  diag _ _ h := h
  emit _ _ he h := h.emit he
  lineAct _ _ h := h
  setStatus _ _ h := h
  setPort _ _ _ h := h
  freshD _ _ h := h
  setEnv _ _ h := h
  answer _ _ h := h
  takeEvent _ h := h.takeEvent
  stimulus t st h := have f := applyStimulus_frame st t; h.congr f.ctl f.evq
  openCh _ _ h := h
  close t c h := by
    obtain ⟨-, hc, -, he, -⟩ := closeChannel_fields c t
    exact h.congr hc he
  setMode t c p tS tB rS rB eb _ _ h := have f := setModeCore_frame c p tS tB rS rB eb t; h.congr f.ctl f.evq
  conf _ c _ h := have f := setModeCore_frame c _ _ _ _ _ _ _; h.congr f.ctl f.evq
  submit _ _ _ _ h := h

/-- A bring-up ends UP or FAILED (R231, R254). -/
theorem initChecks_ctl_ne_down (s : State) : (initChecks s).ctl ≠ .down := by
  unfold initChecks bringUp
  repeat' split
  all_goals simp [bringUpFails]

/-- Settles O14: a step that is no bring-up keeps `ctl` and emits no FATAL, and a bring-up leaves DOWN. -/
theorem onlyInitChangesController : Obligations.OnlyInitChangesController := by
  intro s t h
  rcases (addsNoFatal_stepParts s).step_or_init h ⟨rfl, fun _ => Nat.le_refl _⟩ with ⟨sameCtl, noFatal⟩ | ⟨⟨down, word⟩, -, rfl⟩
  · exact ⟨fun changed => absurd sameCtl changed, fun code _ => noFatal code⟩
  · exact ⟨fun _ => ⟨down, word⟩, fun _ same => absurd (same.trans down) (initChecks_ctl_ne_down _)⟩

/-! ### The inputs of a step -/

/-- A step takes the first input off the list and runs it on the state without it. -/
theorem step_of_inputs_cons {s : State} {x : Input} {rest : List Input} (h : s.env.inputs = x :: rest) :
    step s = runInput x { s with env := { s.env with inputs := rest } } := by
  simp [step, runNext, h, State.consume, State.setEnv]

theorem step_of_inputs_nil {s : State} (h : s.env.inputs = []) : step s = .next s := by
  simp [step, runNext, h]

/-- Settles O6, by what a step does with its first input. -/
theorem stepTakesOtherInputs : Obligations.StepTakesOtherInputs := by
  intro s rest
  exact ⟨fun _ h => step_of_inputs_cons h, fun h => step_of_inputs_cons h, step_of_inputs_nil⟩

/-! ### Power-on -/

section
variable (c : Config)

theorem powerOn_pt (p : PortId) : (State.powerOn c).pt p = Port.reset := by
  simp [State.powerOn, State.pt, Vector.get_eq_getElem]

theorem powerOn_readyBit (ch : ChanId) (d : Dir) : (State.powerOn c).readyBit ch d = false := by
  cases d <;> simp [State.powerOn, State.readyBit, Status.reset, Vector.get_eq_getElem]

theorem powerOn_stateChange (p : PortId) :
    (State.powerOn c).status.psc.get p = false ∧ (State.powerOn c).status.tsc.get p = false := by
  simp [State.powerOn, Status.reset, Vector.get_eq_getElem]

theorem powerOn_portsOk : (State.powerOn c).portsOk := by
  intro p kind _
  rw [powerOn_pt]
  cases kind <;> simp [Port.lineOk, Port.reset]

end

/-- Settles O9: every table of power-on is its reset value, repeated. -/
theorem powerOnValues : Obligations.PowerOnValues := by
  intro c
  refine ⟨rfl, fun ch => ?_, fun i => ⟨powerOn_ownAt c i, powerOn_regAt c i⟩, fun ch d => ?_, fun _ _ _ => rfl, fun p => ?_,
    rfl, rfl, rfl, powerOn_stateChange c, powerOn_readyBit c, rfl, rfl, rfl, rfl, rfl⟩
  · rw [powerOn_ch]; exact ⟨rfl, rfl, rfl, rfl, rfl, rfl⟩
  · rw [powerOn_ring]; exact ⟨rfl, rfl, rfl, rfl⟩
  · rw [powerOn_pt]; exact ⟨rfl, rfl, rfl, rfl⟩

/-- Settles O10: of the six invariants only the rings' ranges need the configuration. -/
theorem powerOnMeetsInvariants : Obligations.PowerOnMeetsInvariants := fun c h =>
  ⟨rfl, powerOn_ringsInRange h, powerOn_channelsOk c, powerOn_routingOk c, powerOn_slotsInRange c, powerOn_portsOk c⟩

end Sys2Proof.Machine

/-! PROOFS. The canonical form of the cell memory (R50, R51; log entry 13): whatever a step stores, it stores by `Memory.write`, which
keeps the order of the addresses. -/

namespace Sys2Proof.Machine

/-- A step of the line side stores at most one byte, at the line's position of a receive ring (R60, R127, R128). -/
theorem applyStimulus_mem (st : Stimulus) (s : State) :
    (applyStimulus st s).mem = s.mem
    ∨ ∃ ch b, (applyStimulus st s).mem = s.mem.write (cellAddr s.cfg ch .rx (s.ring ch .rx).z1) b := by
  have closed : ∀ ch b (u : State), (closeFrame ch b u).mem = u.mem.write (cellAddr u.cfg ch .rx (u.ring ch .rx).z1) b := by
    simp [closeFrame]
  cases st with
  | lineTxTake ch =>
    have read : ∀ z, (s.readCell ch .tx z).2.mem = s.mem := fun z => by
      obtain ⟨e, he, -⟩ := s.readCell_env ch .tx z
      rw [he, State.setEnv_mem]
    left
    simp only [applyStimulus, lineTxTake]
    repeat' split
    all_goals simp [takeByte, takeTail, takeFrameEnd, read]
  | lineRxPut ch b =>
    simp only [applyStimulus, lineRxPut]
    repeat' split
    · exact .inl rfl
    · exact .inl rfl
    · exact .inl rfl
    · exact .inr ⟨ch, b, State.setRing_mem ..⟩
  | lineRxEnd ch b =>
    simp only [applyStimulus, lineRxEnd]
    repeat' split
    · exact .inl rfl
    · exact .inl rfl
    · exact .inl rfl
    · obtain ⟨-, e, he, -⟩ := s.drawStatus_env
      rw [he]
      exact .inr ⟨ch, _, closed ..⟩
    · exact .inr ⟨ch, b, closed ..⟩
  | ready ch d => exact .inl (State.setReady_mem ..)
  | lineState p x => left; simp only [applyStimulus, lineState]; split <;> rfl
  | lineE1State p v => left; simp only [applyStimulus, lineE1State]; split <;> rfl
  | lineSync p clk frm => left; simp only [applyStimulus, lineSync]; split <;> rfl
  | lineAlarm p bits => left; simp only [applyStimulus, lineAlarm]; split <;> rfl
  | timerTick => exact .inl rfl
  | tone => exact .inl rfl

/-- The memory is in canonical form. -/
def State.memWf (s : State) : Prop := s.mem.wf = true

section
variable {s t : State}

theorem State.memWf.congr (h : s.memWf) (hm : t.mem = s.mem) : t.memWf := by
  unfold State.memWf
  rwa [hm]

theorem State.memWf.writeCell (h : s.memWf) (ch : ChanId) (d : Dir) (z : Nat) (b : Byte) : (s.writeCell ch d z b).memWf :=
  Memory.wf_write _ _ _ h

theorem State.memWf.setRing (h : s.memWf) (ch : ChanId) (d : Dir) (r : Ring) : (s.setRing ch d r).memWf :=
  h.congr (State.setRing_mem ..)

theorem State.memWf.readCell (h : s.memWf) (ch : ChanId) (d : Dir) (z : Nat) : (s.readCell ch d z).2.memWf := by
  obtain ⟨e, he, -⟩ := s.readCell_env ch d z
  exact he ▸ h

theorem State.memWf.applyStimulus (h : s.memWf) (st : Stimulus) : (applyStimulus st s).memWf := by
  rcases applyStimulus_mem st s with same | ⟨ch, b, stored⟩
  · exact h.congr same
  · unfold State.memWf
    rw [stored]
    exact Memory.wf_write _ _ _ h

theorem State.memWf.yield (h : s.memWf) : s.yield.memWf :=
  State.yield_keeps (fun st _ h => h.applyStimulus st) (fun _ _ h => h) s h

end

/-- Of the engine's accesses only a push stores a byte (R56). -/
theorem memWf_engine (c : ChanId) : EngineKeeps c State.memWf where
  yield _ h := h.yield
  env _ _ _ _ h := h
  select _ _ h := h
  diag _ _ h := h
  txDone _ h := h
  rx _ _ h := h
  push _ b hsel h := by unfold pushNow; rw [hsel]; exact (h.writeCell c .tx _ b).setRing c .tx _
  commit _ hsel h := by unfold commitNow; rw [hsel]; exact h.setRing c .tx _
  pop _ hsel h := by unfold popNow; rw [hsel]; exact (h.readCell c .rx _).setRing c .rx _
  ack _ hsel h := by unfold frameAckNow; rw [hsel]; exact h.setRing c .rx _
  reset _ _ _ h := h.congr (resetNow_mem _)
  edit _ _ _ h := h

/-- The router's one ring access is a reset, which leaves the cells (R56, R157, R166). -/
theorem memWf_router (c : ChanId) : RouterKeeps c State.memWf where
  yield _ h := h.yield
  select _ _ h := h
  reset _ _ _ h := h.congr (resetNow_mem _)
  setOwn _ _ _ h := h
  setSlotReg _ _ _ h := h
  diag _ _ h := h
  edit _ _ h := h

theorem memWf_stepParts : StepParts State.memWf where
  yield _ h := h.yield
  fill _ c h := transmitFill_keeps (memWf_engine c) h
  drain _ c h := receiveDrain_keeps (memWf_engine c) h
  diag _ _ h := h
  emit _ _ _ h := h
  lineAct _ _ h := h
  setStatus _ _ h := h
  setPort _ _ _ h := h
  freshD _ _ h := h
  setEnv _ _ h := h
  answer _ _ h := h
  takeEvent _ h := h
  stimulus _ st h := h.applyStimulus st
  openCh _ _ h := h
  close _ c h := (memWf_router c).closeChannel h
  setMode _ c _ _ _ _ _ _ _ _ h := (memWf_router c).setModeCore _ _ _ _ _ _ h
  conf s c g h := (memWf_router c).setModeStored (s := s.modChan c fun x => { x with conf := g }) h
  submit _ _ _ _ h := h

/-- Settles O56: a push and a line-side step store by `Memory.write`, nothing else stores, and the reset of INIT keeps the cells. -/
theorem stepKeepsMemoryCanonical : Obligations.StepKeepsMemoryCanonical := fun _ _ hs h =>
  memWf_stepParts.step (fun _ _ h => h) (fun _ _ h => h) (fun _ _ h => h) h hs

end Sys2Proof.Machine

/-! PROOFS. A step that takes a command word (R61, R70, R84), and one that takes a stimulus: what every step of the line side leaves,
and what a stimulus to a port writes, by the kind of the port (R60, R195 to R200). -/

namespace Sys2Proof.Machine

theorem runCommand_of_decode {w : Word} {payload : List Byte} {i : Instr} (h : decode w payload = .instr i) (s : State) :
    runCommand w payload s = exec i s := by
  simp [runCommand, h]

/-- Settles O5: a step runs its first input, and a command word runs as the command it decodes to. -/
theorem stepRunsDecodedCommand : Obligations.StepRunsDecodedCommand := by
  intro s w payload rest i hi hd
  rw [step_of_inputs_cons hi]
  exact runCommand_of_decode hd _

theorem isPtp_iff (c : Config) (p : PortId) : isPtp c p = true ↔ portKind c p = some .nt ∨ portKind c p = some .te := by
  simp [isPtp]

theorem isTrunk_iff (c : Config) (p : PortId) : isTrunk c p = true ↔ portKind c p = some .trunk := by
  simp [isTrunk]

theorem not_isPtp {c : Config} {p : PortId} (h : portKind c p = some .trunk ∨ portKind c p = none) : ¬ isPtp c p = true := by
  rw [isPtp_iff]
  rcases h with h | h <;> simp [h]

theorem not_isTrunk {c : Config} {p : PortId} (h : portKind c p ≠ some .trunk) : ¬ isTrunk c p = true := by
  rwa [isTrunk_iff]

/-- Settles O42: a stimulus step is the stimulus on the state `u`, which is within the line side's frame; the clauses of the seven
stimuli that move no ring are their definitions, by the kind of the port. -/
theorem lineStepFrame : Obligations.LineStepFrame := by
  intro s t u st rest hi hu h
  rw [step_of_inputs_cons hi, ← hu] at h
  obtain rfl : applyStimulus st u = t := Host.Outcome.next.inj h
  have f := applyStimulus_frame st u
  subst hu
  refine ⟨f.ctl, f.chan, f.port, f.own, f.slotReg, f.sel, f.evq, f.diagq, f.lineq, f.resp, f.tx, f.rx, f.cell,
    ?ready_tx, ?ready_rx, ?lineState, ?lineE1State, ?lineSync, ?lineAlarm, ?timerTick, ?tone⟩
  case ready_tx => rintro ch rfl; rfl
  case ready_rx => rintro ch rfl; rfl
  case lineState =>
    rintro p x rfl
    exact ⟨fun hp => if_pos ((isPtp_iff _ _).2 hp), fun hp => if_neg (not_isPtp hp)⟩
  case lineE1State =>
    rintro p v rfl
    exact ⟨fun hp => if_pos ((isTrunk_iff _ _).2 hp), fun hp => if_neg (not_isTrunk hp)⟩
  case lineSync =>
    rintro p clk frm rfl
    exact ⟨fun hp => if_pos ((isTrunk_iff _ _).2 hp), fun hp => if_neg (not_isTrunk hp)⟩
  case lineAlarm =>
    rintro p bits rfl
    exact ⟨fun hp => if_pos ((isTrunk_iff _ _).2 hp), fun hp => if_neg (not_isTrunk hp)⟩
  case timerTick => rintro rfl; rfl
  case tone => rintro rfl; rfl

end Sys2Proof.Machine

/-! PROOFS. The engine's reads of the line-side counters when no line-side step lands inside the command (R58, R102, R113, R114), and
the call that a failed read ends. -/

namespace Sys2Proof.Machine

section
variable {s s' : State} {ch : ChanId} {more : List Bool}

/-! ### SERVICE and its two procedures past their guards -/

theorem exec_service_of_active (hup : s.ctl = .up) (hopen : (s.ch ch).isOpen = true) (hp : (s.ch ch).proto ≠ .noProto)
    (tx rx : Bool) : exec (.service ch tx rx) s = .next ((serve ch tx rx s).answer .ok) := by
  simp [exec, execService, hup, hopen, hp]

theorem serve_tx (ch : ChanId) (s : State) : serve ch true false s = transmitFill ch s := rfl

theorem serve_rx (ch : ChanId) (s : State) : serve ch false true s = receiveDrain ch s := rfl

theorem transmitFill_of_active (hp : (s.ch ch).proto ≠ .noProto) (hr : (s.ch ch).txState ≠ .resetPending) :
    transmitFill ch s = fillLoop ch (s.ch ch).txq (s.select ch .tx) := by
  simp [transmitFill, deferredReset, hp, hr]

theorem receiveDrain_of_active (hp : (s.ch ch).proto ≠ .noProto) :
    receiveDrain ch s = drainLoop ch (drainPasses ch s) (s.select ch .rx) := by
  simp [receiveDrain, hp]

/-- Without its counters a call of transmit_fill ends, whatever is queued (R102). -/
theorem fillLoop_of_no_snapshot (h : fillSnapshot ch s = (none, s')) (q : List (List Byte)) : fillLoop ch q s = s' := by
  cases q <;> simp [fillLoop, h]

/-- Without its counters a call of receive_drain ends (R113). -/
theorem drainLoop_of_no_snapshot (h : drainSnapshot ch s = (none, s')) (n : Nat) : drainLoop ch (n + 1) s = s' := by
  simp [drainLoop, h]

/-! ### The counters of a call -/

/-- After the stable reads `made` of a ring of channel `ch`, the last of them failed (R58). -/
def State.failedReads (s : State) (ch : ChanId) (d : Dir) (made : List (LineCounter × Bool)) (more : List Bool) : State :=
  (s.setEnv (s.env.afterReads ch made more)).diag (.rereadFail ch d)

/-- Reads in two lots are recorded as one. -/
theorem failedReads_afterReads (s : State) (ch : ChanId) (d : Dir) (made last : List (LineCounter × Bool))
    (rest more : List Bool) :
    (s.setEnv (s.env.afterReads ch made rest)).failedReads ch d last more = s.failedReads ch d (made ++ last) more := by
  simp [State.failedReads, State.setEnv, Env.afterReads]

theorem fillSnapshot_of_stop (h : frameSpaceStep ch s = (false, s')) : fillSnapshot ch s = (none, s') := by
  simp [fillSnapshot, h]

theorem fillSnapshot_of_go (h : frameSpaceStep ch s = (true, s')) : fillSnapshot ch s = byteSpaceStep ch s' := by
  simp [fillSnapshot, h]

theorem frameSpaceStep_raw (hp : (s.ch ch).proto = .raw) : frameSpaceStep ch s = (true, s) := by
  simp [frameSpaceStep, hp]

theorem frameBoundary_raw (hp : (s.ch ch).proto = .raw) : frameBoundary ch s = (some false, s) := by
  simp [frameBoundary, hp]

theorem drainSnapshot_of_no_boundary (h : frameBoundary ch s = (none, s')) : drainSnapshot ch s = (none, s') := by
  simp [drainSnapshot, h]

section
variable (hs : s.env.sched = []) (hsel : s.sel = some (ch, .tx))
include hs hsel

theorem frameSpaceStep_hdlc_failed (hp : (s.ch ch).proto = .hdlc) (hr : s.env.reads = true :: more) :
    frameSpaceStep ch s = (false, s.failedReads ch .tx [(.txF2, true)] more) := by
  unfold frameSpaceStep
  rw [if_pos hp, stableRead_quiet .txF2 s ch .tx true more hs hsel hr]
  rfl

theorem frameSpaceStep_hdlc_read (hp : (s.ch ch).proto = .hdlc) (hr : s.env.reads = false :: more) :
    frameSpaceStep ch s =
      (frameSpaceTx s ch (s.ring ch .tx).f2 != 0, s.setEnv (s.env.afterReads ch [(.txF2, false)] more)) := by
  unfold frameSpaceStep
  rw [if_pos hp, stableRead_quiet .txF2 s ch .tx false more hs hsel hr]
  rfl

/-- A framed channel with frame space goes on (R103). -/
theorem frameSpaceStep_hdlc_space (hp : (s.ch ch).proto = .hdlc) (hr : s.env.reads = false :: more)
    (space : frameSpaceTx s ch (s.ring ch .tx).f2 ≠ 0) :
    frameSpaceStep ch s = (true, s.setEnv (s.env.afterReads ch [(.txF2, false)] more)) := by
  rw [frameSpaceStep_hdlc_read hs hsel hp hr, bne_iff_ne.2 space]

theorem byteSpaceStep_failed (hr : s.env.reads = true :: more) :
    byteSpaceStep ch s = (none, s.failedReads ch .tx [(.txZ1, true)] more) := by
  unfold byteSpaceStep
  rw [stableRead_quiet .txZ1 s ch .tx true more hs hsel hr]
  rfl

end

section
variable (hs : s.env.sched = []) (hsel : s.sel = some (ch, .rx))
include hs hsel

theorem frameBoundary_hdlc_failed (hp : (s.ch ch).proto = .hdlc) (hr : s.env.reads = true :: more) :
    frameBoundary ch s = (none, s.failedReads ch .rx [(.rxF1, true)] more) := by
  unfold frameBoundary
  rw [if_pos hp, stableRead_quiet .rxF1 s ch .rx true more hs hsel hr]
  rfl

theorem frameBoundary_hdlc_read (hp : (s.ch ch).proto = .hdlc) (hr : s.env.reads = false :: more) :
    frameBoundary ch s =
      (some ((s.ring ch .rx).f1 != (s.ring ch .rx).f2), s.setEnv (s.env.afterReads ch [(.rxF1, false)] more)) := by
  unfold frameBoundary
  rw [if_pos hp, stableRead_quiet .rxF1 s ch .rx false more hs hsel hr]
  rfl

end

theorem fillSnapshot_failed (h : frameSpaceStep ch s = (true, s')) (hs : s'.env.sched = []) (hsel : s'.sel = some (ch, .tx))
    (hr : s'.env.reads = true :: more) : fillSnapshot ch s = (none, s'.failedReads ch .tx [(.txZ1, true)] more) := by
  rw [fillSnapshot_of_go h, byteSpaceStep_failed hs hsel hr]

theorem drainSnapshot_failed {complete : Bool} (hb : frameBoundary ch s = (some complete, s')) (hs : s'.env.sched = [])
    (hsel : s'.sel = some (ch, .rx)) (hr : s'.env.reads = true :: more) :
    drainSnapshot ch s = (none, s'.failedReads ch .rx [(.rxZ1rep, true)] more) := by
  unfold drainSnapshot
  rw [hb]
  dsimp only
  rw [stableRead_quiet .rxZ1rep s' ch .rx true more hs hsel hr]
  rfl

end

/-- Settles O33: a failed read leaves the call without its counters, which ends it; in each of the three cases the reads before the
failed one succeed and change only the environment. -/
theorem failedReadDefers : Obligations.FailedReadDefers := by
  intro s ch txMade rxMade more hup hopen hs reads
  have hp : (s.ch ch).proto ≠ .noProto := by
    rcases reads with ⟨-, raw, -⟩ | ⟨-, hdlc, -⟩ | ⟨-, hdlc, -⟩
    · simp [raw]
    · simp [hdlc]
    · simp [hdlc]
  constructor
  · intro hr space
    have fails : fillSnapshot ch (s.select ch .tx) = (none, (s.select ch .tx).failedReads ch .tx txMade more) := by
      rcases reads with ⟨hreads, raw, rfl, -⟩ | ⟨hreads, hdlc, rfl, -⟩ | ⟨hreads, hdlc, rfl, -⟩
      · exact fillSnapshot_failed (frameSpaceStep_raw (s := s.select ch .tx) raw) hs rfl hreads
      · exact fillSnapshot_of_stop (frameSpaceStep_hdlc_failed hs rfl hdlc hreads)
      · have enough : frameSpaceTx s ch (s.ring ch .tx).f2 ≠ 0 := space.resolve_left (by simp [hreads])
        have go := frameSpaceStep_hdlc_space (s := s.select ch .tx) hs rfl hdlc hreads enough
        rw [fillSnapshot_failed go hs rfl rfl, failedReads_afterReads]
        rfl
    rw [exec_service_of_active hup hopen hp, serve_tx, transmitFill_of_active hp hr, fillLoop_of_no_snapshot fails]
    rfl
  · have fails : drainSnapshot ch (s.select ch .rx) = (none, (s.select ch .rx).failedReads ch .rx rxMade more) := by
      rcases reads with ⟨hreads, raw, -, rfl⟩ | ⟨hreads, hdlc, -, rfl⟩ | ⟨hreads, hdlc, -, rfl⟩
      · exact drainSnapshot_failed (frameBoundary_raw (s := s.select ch .rx) raw) hs rfl hreads
      · exact drainSnapshot_of_no_boundary (frameBoundary_hdlc_failed hs rfl hdlc hreads)
      · have boundary := frameBoundary_hdlc_read (s := s.select ch .rx) hs rfl hdlc hreads
        rw [drainSnapshot_failed boundary hs rfl rfl, failedReads_afterReads]
        rfl
    rw [exec_service_of_active hup hopen hp, serve_rx, receiveDrain_of_active hp, drainPasses, drainLoop_of_no_snapshot fails]
    rfl

end Sys2Proof.Machine

/-! PROOFS. The decoder and the encoder read the same formats (R71 to R81): each undoes the other (R84, R85), and a word that no format
admits is ILLEGAL (R82, R83). -/

namespace Sys2Proof

open Laws.Form (reservedField)

/-! ### The fields of any word -/

theorem bitsOf_opcode (w : Word) : bitsOf w 28 4 = w.toNat / 2 ^ 28 := by
  have := w.isLt
  unfold bitsOf
  omega

/-- The bits below `lo + k` are those of a field above the bits below `lo`. -/
theorem mod_eq_bitsOf_add (w : Word) {lo k hi : Nat} (h : hi = lo + k) :
    w.toNat % 2 ^ hi = bitsOf w lo k * 2 ^ lo + w.toNat % 2 ^ lo := by
  rw [h, pow_add, Nat.mod_mul, Nat.add_comm, Nat.mul_comm]
  rfl

@[simp] theorem bitsOf_width_zero (w : Word) (lo : Nat) : bitsOf w lo 0 = 0 := Nat.mod_one _

theorem toNat_flagOf (w : Word) (lo : Nat) : (flagOf w lo).toNat = bitsOf w lo 1 := by
  have : bitsOf w lo 1 < 2 := Nat.mod_lt _ (by decide)
  unfold flagOf
  interval_cases bitsOf w lo 1 <;> rfl

theorem protoOfBits_bitsOfProto (p : ProtoField) : protoOfBits (bitsOfProto p) = p := by cases p <;> rfl

theorem bitsOfProto_protoOfBits {n : Nat} (h : n < 4) : bitsOfProto (protoOfBits n) = n := by interval_cases n <;> rfl

theorem whenZero_eq_instr {n : Nat} {i j : Instr} : whenZero n i = .instr j ↔ n = 0 ∧ i = j := by
  by_cases h : n = 0 <;> simp [whenZero, h]

theorem exists_whenZero_eq_illegal {n : Nat} {i : Instr} : (∃ e, whenZero n i = .illegal e) ↔ n ≠ 0 := by
  by_cases h : n = 0 <;> simp [whenZero, h]

/-! ### The format of a word -/

/-- `w` has the format of `i`, and its fields hold the operands of `i`: bits 27:0 are the operands and the reserved field, which alone
decides between `i` and ILLEGAL (R83). -/
structure ReadsAs (w : Word) (payload : List Byte) (i : Instr) : Prop where
  decode_eq : decode w payload = whenZero (bitsOf w (reservedField i).1 (reservedField i).2) i
  opcode : bitsOf w 28 4 = opcodeOf i
  operands : operandBits i + bitsOf w (reservedField i).1 (reservedField i).2 * 2 ^ (reservedField i).1 = w.toNat % 2 ^ 28
  payload_eq : payloadOf i = if opcodeOf i = 7 then payload else []

section
variable {w : Word} {payload : List Byte}

theorem readsAs_init (op : bitsOf w 28 4 = 1) : ReadsAs w payload .init where
  decode_eq := by simp [decode, op, reservedField]
  opcode := op
  operands := by simp only [operandBits, reservedField, bitsOf]; omega
  payload_eq := rfl

theorem readsAs_openCh (op : bitsOf w 28 4 = 2) : ReadsAs w payload (.openCh (chOf w)) where
  decode_eq := by simp [decode, op, reservedField]
  opcode := op
  operands := by simp only [operandBits, reservedField, chOf, fieldOf, bitsOf]; omega
  payload_eq := rfl

theorem readsAs_close (op : bitsOf w 28 4 = 3) : ReadsAs w payload (.close (chOf w)) where
  decode_eq := by simp [decode, op, reservedField]
  opcode := op
  operands := by simp only [operandBits, reservedField, chOf, fieldOf, bitsOf]; omega
  payload_eq := rfl

theorem readsAs_setMode (op : bitsOf w 28 4 = 4) :
    ReadsAs w payload (.setMode (chOf w) (protoOfBits (bitsOf w 21 2)) (flagOf w 20) (fieldOf w 13 7) (fieldOf w 11 2)
      (flagOf w 10) (fieldOf w 3 7) (fieldOf w 1 2) (flagOf w 0)) where
  decode_eq := by simp [decode, op, reservedField, whenZero]
  opcode := op
  operands := by
    have hproto : bitsOfProto (protoOfBits (bitsOf w 21 2)) = bitsOf w 21 2 :=
      bitsOfProto_protoOfBits (Nat.mod_lt _ (by decide))
    simp only [operandBits, reservedField, chOf, fieldOf, toNat_flagOf, hproto, bitsOf_width_zero]
    rw [mod_eq_bitsOf_add w (show 28 = 23 + 5 from rfl), mod_eq_bitsOf_add w (show 23 = 21 + 2 from rfl),
      mod_eq_bitsOf_add w (show 21 = 20 + 1 from rfl), mod_eq_bitsOf_add w (show 20 = 13 + 7 from rfl),
      mod_eq_bitsOf_add w (show 13 = 11 + 2 from rfl), mod_eq_bitsOf_add w (show 11 = 10 + 1 from rfl),
      mod_eq_bitsOf_add w (show 10 = 3 + 7 from rfl), mod_eq_bitsOf_add w (show 3 = 1 + 2 from rfl),
      mod_eq_bitsOf_add w (show 1 = 0 + 1 from rfl)]
    omega
  payload_eq := rfl

theorem readsAs_confJoin (op : bitsOf w 28 4 = 5) : ReadsAs w payload (.confJoin (chOf w) (fieldOf w 19 4)) where
  decode_eq := by simp [decode, op, reservedField]
  opcode := op
  operands := by simp only [operandBits, reservedField, chOf, fieldOf, bitsOf]; omega
  payload_eq := rfl

theorem readsAs_confSplit (op : bitsOf w 28 4 = 6) : ReadsAs w payload (.confSplit (chOf w)) where
  decode_eq := by simp [decode, op, reservedField]
  opcode := op
  operands := by simp only [operandBits, reservedField, chOf, fieldOf, bitsOf]; omega
  payload_eq := rfl

theorem readsAs_submit (op : bitsOf w 28 4 = 7) : ReadsAs w payload (.submit (chOf w) (fieldOf w 0 16) payload) where
  decode_eq := by simp [decode, op, reservedField]
  opcode := op
  operands := by simp only [operandBits, reservedField, chOf, fieldOf, bitsOf]; omega
  payload_eq := rfl

theorem readsAs_service (op : bitsOf w 28 4 = 8) : ReadsAs w payload (.service (chOf w) (flagOf w 1) (flagOf w 0)) where
  decode_eq := by simp [decode, op, reservedField]
  opcode := op
  operands := by simp only [operandBits, reservedField, chOf, fieldOf, toNat_flagOf, bitsOf]; omega
  payload_eq := rfl

theorem readsAs_dispatch (op : bitsOf w 28 4 = 9) : ReadsAs w payload .dispatch where
  decode_eq := by simp [decode, op, reservedField]
  opcode := op
  operands := by simp only [operandBits, reservedField, bitsOf]; omega
  payload_eq := rfl

theorem ReadsAs.decode_eq_instr {i : Instr} (h : ReadsAs w payload i)
    (reserved : bitsOf w (reservedField i).1 (reservedField i).2 = 0) : decode w payload = .instr i :=
  h.decode_eq.trans (whenZero_eq_instr.2 ⟨reserved, rfl⟩)

/-- Every word has the format of one command or a reserved opcode (R82). -/
theorem reservedOpcode_or_readsAs (w : Word) (payload : List Byte) :
    ((w.toNat / 2 ^ 28 = 0 ∨ 10 ≤ w.toNat / 2 ^ 28) ∧ decode w payload = .illegal .reservedOpcode)
      ∨ ∃ i, ReadsAs w payload i := by
  rw [← bitsOf_opcode]
  match op : bitsOf w 28 4 with
  | 0 => exact .inl ⟨.inl rfl, by simp [decode, op]⟩
  | 1 => exact .inr ⟨_, readsAs_init op⟩
  | 2 => exact .inr ⟨_, readsAs_openCh op⟩
  | 3 => exact .inr ⟨_, readsAs_close op⟩
  | 4 => exact .inr ⟨_, readsAs_setMode op⟩
  | 5 => exact .inr ⟨_, readsAs_confJoin op⟩
  | 6 => exact .inr ⟨_, readsAs_confSplit op⟩
  | 7 => exact .inr ⟨_, readsAs_submit op⟩
  | 8 => exact .inr ⟨_, readsAs_service op⟩
  | 9 => exact .inr ⟨_, readsAs_dispatch op⟩
  | n + 10 => exact .inl ⟨.inr (by omega), by simp [decode, op]⟩

/-- A word that decodes to a command has its format, with the reserved field zero. -/
theorem readsAs_of_decode {i : Instr} (h : decode w payload = .instr i) :
    ReadsAs w payload i ∧ bitsOf w (reservedField i).1 (reservedField i).2 = 0 := by
  obtain ⟨-, illegal⟩ | ⟨j, reads⟩ := reservedOpcode_or_readsAs w payload
  · simp [h] at illegal
  · obtain ⟨reserved, rfl⟩ := whenZero_eq_instr.1 (reads.decode_eq.symm.trans h)
    exact ⟨reads, reserved⟩

end

theorem toNat_encode (i : Instr) : (encode i).1.toNat = opcodeOf i * 2 ^ 28 + operandBits i := by
  have := operandBits_lt i
  have := opcodeOf_lt i
  exact (BitVec.toNat_ofNat _ _).trans (Nat.mod_eq_of_lt (by omega))

/-! ### The fields of an encoded word -/

/-- A field inside bits 27:0 of an encoded word is read from the operand bits alone. -/
theorem bitsOf_encode_operand (i : Instr) {lo k : Nat} (h : lo + k ≤ 28) :
    bitsOf (encode i).1 lo k = operandBits i / 2 ^ lo % 2 ^ k := by
  have weight : 2 ^ 28 = 2 ^ k * 2 ^ (28 - lo - k) * 2 ^ lo := by
    rw [← pow_add, ← pow_add]
    congr 1
    omega
  have word : opcodeOf i * 2 ^ 28 + operandBits i
      = operandBits i + 2 ^ k * (opcodeOf i * 2 ^ (28 - lo - k)) * 2 ^ lo := by
    rw [weight]
    ring
  rw [bitsOf_encode, word, Nat.add_mul_div_right _ _ (Nat.two_pow_pos lo), Nat.add_mul_mod_self_left]

section
variable {i : Instr}

/-! What an encoded field holds, given that the operand bits hold it there: linear arithmetic in every format, closed at each use. -/

theorem fieldOf_encode (lo k : Nat) (v : Fin (2 ^ k)) (h : lo + k ≤ 28 := by decide)
    (hv : operandBits i / 2 ^ lo % 2 ^ k = v.val := by simp only [operandBits]; omega) : fieldOf (encode i).1 lo k = v :=
  Fin.ext ((bitsOf_encode_operand i h).trans hv)

theorem chOf_encode (ch : ChanId) (h : operandBits i / 2 ^ 23 % 2 ^ 5 = ch.val := by simp only [operandBits]; omega) :
    chOf (encode i).1 = ch :=
  fieldOf_encode 23 5 ch (by decide) h

theorem flagOf_encode (lo : Nat) (b : Bool) (h : lo + 1 ≤ 28 := by decide)
    (hb : operandBits i / 2 ^ lo % 2 ^ 1 = b.toNat := by simp only [operandBits]; omega) : flagOf (encode i).1 lo = b := by
  unfold flagOf
  rw [bitsOf_encode_operand i h, hb]
  cases b <;> rfl

theorem protoOfBits_encode (p : ProtoField)
    (h : operandBits i / 2 ^ 21 % 2 ^ 2 = bitsOfProto p := by simp only [operandBits]; omega) :
    protoOfBits (bitsOf (encode i).1 21 2) = p := by
  rw [bitsOf_encode_operand i (by decide), h, protoOfBits_bitsOfProto]

end

/-- SET_MODE fills all of bits 27:0; each of its nine fields reads back the operand encoded there (R75). -/
theorem decode_encode_setMode (ch : ChanId) (proto : ProtoField) (tv : Bool) (txSlot : Slot) (txBank : Bank) (rv : Bool)
    (rxSlot : Slot) (rxBank : Bank) (eb : Bool) (payload : List Byte) :
    decode (encode (.setMode ch proto tv txSlot txBank rv rxSlot rxBank eb)).1 payload
      = .instr (.setMode ch proto tv txSlot txBank rv rxSlot rxBank eb) := by
  obtain ⟨op, reserved⟩ := Laws.Form.setMode ch proto tv txSlot txBank rv rxSlot rxBank eb
  have h := readsAs_setMode (payload := payload) op
  have := bitsOfProto_lt proto
  have := toNat_lt tv
  have := toNat_lt rv
  have := toNat_lt eb
  have := ch.isLt
  rw [chOf_encode ch, protoOfBits_encode proto, flagOf_encode 20 tv, fieldOf_encode 13 7 txSlot, fieldOf_encode 11 2 txBank,
    flagOf_encode 10 rv, fieldOf_encode 3 7 rxSlot, fieldOf_encode 1 2 rxBank, flagOf_encode 0 eb] at h
  exact h.decode_eq_instr reserved

/-- Settles O1: the encoded word has the command's opcode and no reserved bit set (`Laws.Form`), so it reads as a command of the same
format, and each field holds the operand that was encoded there. -/
theorem decodeOfEncodeIsIdentity : Obligations.DecodeOfEncodeIsIdentity := by
  intro i
  cases i with
  | init => rfl
  | dispatch => rfl
  | openCh ch =>
    obtain ⟨op, reserved⟩ := Laws.Form.openCh ch
    have h := readsAs_openCh (payload := []) op
    rw [chOf_encode ch] at h
    exact h.decode_eq_instr reserved
  | close ch =>
    obtain ⟨op, reserved⟩ := Laws.Form.close ch
    have h := readsAs_close (payload := []) op
    rw [chOf_encode ch] at h
    exact h.decode_eq_instr reserved
  | confSplit ch =>
    obtain ⟨op, reserved⟩ := Laws.Form.confSplit ch
    have h := readsAs_confSplit (payload := []) op
    rw [chOf_encode ch] at h
    exact h.decode_eq_instr reserved
  | confJoin ch conf =>
    obtain ⟨op, reserved⟩ := Laws.Form.confJoin ch conf
    have h := readsAs_confJoin (payload := []) op
    rw [chOf_encode ch, fieldOf_encode 19 4 conf] at h
    exact h.decode_eq_instr reserved
  | submit ch len payload =>
    obtain ⟨op, reserved⟩ := Laws.Form.submit ch len payload
    have h := readsAs_submit (payload := payload) op
    rw [chOf_encode ch, fieldOf_encode 0 16 len] at h
    exact h.decode_eq_instr reserved
  | service ch tx rx =>
    obtain ⟨op, reserved⟩ := Laws.Form.service ch tx rx
    have h := readsAs_service (payload := []) op
    have := toNat_lt tx
    have := toNat_lt rx
    rw [chOf_encode ch, flagOf_encode 1 tx, flagOf_encode 0 rx] at h
    exact h.decode_eq_instr reserved
  | setMode ch proto tv txSlot txBank rv rxSlot rxBank eb =>
    exact decode_encode_setMode ch proto tv txSlot txBank rv rxSlot rxBank eb []

/-- Settles O2: the word's opcode, operands and payload are those of the command it reads as, and its reserved field is zero, so
nothing of it is left that the command's encoding does not hold. -/
theorem encodeOfDecodeIsIdentity : Obligations.EncodeOfDecodeIsIdentity := by
  intro w payload i h
  obtain ⟨⟨-, opcode, operands, payload_eq⟩, reserved⟩ := readsAs_of_decode h
  rw [reserved, Nat.zero_mul, Nat.add_zero] at operands
  constructor
  · apply BitVec.eq_of_toNat_eq
    rw [toNat_encode, operands, ← opcode, bitsOf_opcode, Nat.div_add_mod']
  · rwa [← bitsOf_opcode, opcode]

/-! ### ILLEGAL words -/

/-- A word with a command's format is ILLEGAL exactly when the reserved field is not zero (R83). -/
theorem ReadsAs.illegal_iff {w : Word} {payload : List Byte} {i : Instr} (h : ReadsAs w payload i) :
    (∃ e, decode w payload = .illegal e) ↔ bitsOf w (reservedField i).1 (reservedField i).2 ≠ 0 := by
  rw [h.decode_eq, exists_whenZero_eq_illegal]

end Sys2Proof

namespace Sys2Proof.Machine

theorem runCommand_of_illegal {w : Word} {payload : List Byte} {e : DecodeError} (h : decode w payload = .illegal e) (s : State) :
    runCommand w payload s = .next { s with resp := .illegal } := by
  simp [runCommand, h, State.answer]

/-- Settles O3: a reserved opcode is ILLEGAL, and a word with a command's format is by that format's reserved field. -/
theorem reservedWordsAreIllegal : Obligations.ReservedWordsAreIllegal := by
  intro s w payload
  constructor
  · obtain ⟨op, illegal⟩ | ⟨i, reads⟩ := reservedOpcode_or_readsAs w payload
    · exact iff_of_true ⟨_, illegal⟩ (op.imp_right .inl)
    · have op := reads.opcode
      rw [bitsOf_opcode] at op
      rw [reads.illegal_iff]
      -- the opcode of `i` leaves one disjunct, which names the reserved field of its format
      cases i <;> simp only [op, opcodeOf, Laws.Form.reservedField, bitsOf] <;> simp [Nat.mod_one]
  · intro e illegal
    refine ⟨runCommand_of_illegal illegal s, fun rest hi => ?_⟩
    rw [step_of_inputs_cons hi]
    exact runCommand_of_illegal illegal _

end Sys2Proof.Machine

namespace Sys2Proof

/-- Settles O4, by running the decoder on each word. -/
theorem sampleWordsDecode : Obligations.SampleWordsDecode := by
  unfold Obligations.SampleWordsDecode
  decide

end Sys2Proof

/-! PROOFS. What LINE_TX_TAKE, LINE_RX_PUT and LINE_RX_END do (R125, R127, R128), and SUBMIT (R121). -/

namespace Sys2Proof.Machine

section
variable {s : State} {ch : ChanId}

/-! ### Transmit side (R125) -/

theorem takeByte_of_written {b : Byte} (h : s.cell ch .tx (s.ring ch .tx).z1 = some b) :
    takeByte ch s = (s.setRing ch .tx { s.ring ch .tx with z1 := incZ s.cfg (s.ring ch .tx).z1 }).handOut ch (.byte b) := by
  simp [takeByte, State.readCell, h]

theorem takeTail_of_written {b : Byte} (h : s.cell ch .tx (decZ s.cfg (s.ring ch .tx).z1) = some b) :
    takeTail ch s = s.handOut ch (.byte b) := by
  simp [takeTail, State.readCell, h]

/-- A framed channel that is not on the highway: idle, a byte of the oldest committed frame, or its end. -/
theorem lineTxTake_hdlc (flow : (s.ch ch).flowTx = .hdlc) (src : (s.ch ch).txSrc = .fifo) :
    lineTxTake ch s =
      if (s.ring ch .tx).f1 = (s.ring ch .tx).f2 then s.handOut ch .idle
      else if (s.ring ch .tx).z1 ≠ (s.ring ch .tx).fend.getD (incF s.cfg (s.ring ch .tx).f2) s.cfg.zmin then takeByte ch s
      else takeFrameEnd ch s := by
  simp [lineTxTake, flow, src]

/-- A transparent channel that is not on the highway: the next byte, or the tail of an empty ring again. -/
theorem lineTxTake_transp (flow : (s.ch ch).flowTx = .transp) (src : (s.ch ch).txSrc = .fifo) :
    lineTxTake ch s = if 0 < txPending s.cfg (s.ring ch .tx) then takeByte ch s else takeTail ch s := by
  simp [lineTxTake, flow, src]

/-! ### Receive side (R127, R128) -/

theorem rxToHighway_iff : rxToHighway s ch = true ↔ (s.ch ch).rxSlot ≠ none ∧ s.cfg.rxFifoWhenRouted = false := by
  simp [rxToHighway, Option.isSome_iff_ne_none]

theorem not_rxToHighway (h : (s.ch ch).rxSlot = none ∨ s.cfg.rxFifoWhenRouted = true) : ¬ rxToHighway s ch = true := by
  rw [rxToHighway_iff]
  rcases h with h | h <;> simp [h]

theorem rxRingFull_iff : rxRingFull s ch = true ↔ rxUnread s.cfg (s.ring ch .rx) = s.cfg.zlen - 1 := beq_iff_eq

theorem rxFramesFull_iff : rxFramesFull s ch = true ↔ rxFrames s.cfg (s.ring ch .rx) = s.cfg.flen - 1 := beq_iff_eq

/-- The status byte stored when a frame is closed: the line's, or a draw after lost bytes (R128, U3). -/
def storedStatus (s : State) (ch : ChanId) (st : Byte) : Byte := if s.ovf ch then s.drawStatus.1 else st

theorem storedStatus_ne_zero (h : s.ovf ch = true) (st : Byte) : storedStatus s ch st ≠ 0 := by
  rw [storedStatus, if_pos h]
  exact s.drawStatus_env.1

/-- A frame end that is not lost closes the frame with the stored status, the draw taken. -/
theorem lineRxEnd_stores (st : Byte) (flow : (s.ch ch).flowRx = .hdlc) (here : ¬ rxToHighway s ch = true)
    (space : ¬ rxRingFull s ch = true) (frames : ¬ rxFramesFull s ch = true) :
    ∃ e, lineRxEnd ch st s = closeFrame ch (storedStatus s ch st) (s.setEnv e) := by
  unfold lineRxEnd storedStatus
  rw [if_neg (not_not.2 flow), if_neg here, if_neg (by simp [space, frames])]
  split
  · obtain ⟨-, e, he, -⟩ := s.drawStatus_env
    exact ⟨e, by rw [← he]⟩
  · exact ⟨s.env, rfl⟩

end

/-- Settles O43, by R125's branches. -/
theorem lineTakesSymbol : Obligations.LineTakesSymbol := by
  intro s ch b
  refine ⟨fun flow => if_pos flow, fun flow src => ?_, fun flow src => ⟨fun none_closed => ?_, fun e closed head => ⟨?_, ?_⟩⟩,
    fun flow src => ⟨fun pending written => ?_, fun drained written => ?_⟩⟩
  · exact (if_neg flow).trans (if_pos src)
  · exact (lineTxTake_hdlc flow src).trans (if_pos none_closed)
  all_goals simp only [applyStimulus]
  · intro inside written
    rw [lineTxTake_hdlc flow src, if_neg closed, if_pos (by simpa [head] using inside), takeByte_of_written written]
  · intro atEnd
    rw [lineTxTake_hdlc flow src, if_neg closed, if_neg (by simpa [head] using atEnd)]
    rfl
  · rw [lineTxTake_transp flow src, if_pos pending, takeByte_of_written written]
  · rw [lineTxTake_transp flow src, if_neg (by omega), takeTail_of_written written]

/-- Settles O44, by R127's branches. -/
theorem lineStoresByte : Obligations.LineStoresByte := by
  intro s ch b
  simp only [applyStimulus, lineRxPut]
  refine ⟨fun off => if_pos off, fun slot away => ?_, fun flow here => ⟨fun full => ?_, fun space => ?_⟩⟩
  · rw [if_pos (rxToHighway_iff.2 ⟨slot, away⟩), ite_self]
  · rw [if_neg flow, if_neg (not_rxToHighway here), if_pos (rxRingFull_iff.2 full)]
    rfl
  · rw [if_neg flow, if_neg (not_rxToHighway here), if_neg (mt rxRingFull_iff.1 space)]

/-- Settles O45: the ignored and the lost frame end are R128's branches, and a stored one is `closeFrame`. -/
theorem lineClosesFrame : Obligations.LineClosesFrame := by
  intro s ch st
  simp only [applyStimulus]
  refine ⟨fun flow => if_pos flow, fun slot away => ?_, fun flow here => ⟨fun full => ?_, fun space frames => ?_⟩⟩
  · rw [lineRxEnd, if_pos (rxToHighway_iff.2 ⟨slot, away⟩), ite_self]
  · rw [lineRxEnd, if_neg (not_not.2 flow), if_neg (not_rxToHighway here),
      if_pos (by simpa [rxRingFull_iff, rxFramesFull_iff] using full)]
    rfl
  · obtain ⟨e, closed⟩ := lineRxEnd_stores st flow (not_rxToHighway here) (mt rxRingFull_iff.1 space)
      (mt rxFramesFull_iff.1 frames)
    refine ⟨storedStatus s ch st, fun kept => by simp [storedStatus, kept], fun lost => storedStatus_ne_zero lost st, ?_⟩
    rw [closed]
    simp [closeFrame, State.cell, State.readyBit, Vector.get_eq_getElem]

theorem exec_submit_of_accepted {s : State} {ch : ChanId} {len : Fin 65536} {payload : List Byte} (hup : s.ctl = .up)
    (hopen : (s.ch ch).isOpen = true) (hp : (s.ch ch).proto ≠ .noProto) (accepted : lengthOk len payload = true) :
    exec (.submit ch len payload) s = .next ((s.modChan ch fun c => { c with txq := c.txq ++ [payload] }).answer .ok) := by
  simp [exec, execSubmit, hup, hopen, hp, accepted]

/-- Settles O26: SUBMIT past its four guards. -/
theorem submitQueuesPayload : Obligations.SubmitQueuesPayload := fun _ _ _ _ hup hopen hp hlen hpayload =>
  exec_submit_of_accepted hup hopen hp (by simp [lengthOk, hlen, hpayload])

end Sys2Proof.Machine

/-! PROOFS. What a call of the engine on one channel leaves, in one direction: `EngineKeeps` lets a property see the accesses of both
rings, so what one direction leaves, and what each event stands for, needs the procedures apart (R102, R113). -/

namespace Sys2Proof.Machine

/-! ### transmit_fill -/

/-- A property that what transmit_fill does between two acknowledgements keeps, with ring (`c`, TX) selected. -/
structure FillParts (c : ChanId) (P : State → Prop) : Prop where
  read : ∀ s k, P s → P (stableRead k s).2
  diag : ∀ s d, P s → P (s.diag d)
  push : ∀ s b, P s → P (ringPush b s)
  edit : ∀ s f, (∀ x, (f x).txq = x.txq) → P s → P (s.modChan c f)

section
variable {c : ChanId} {P : State → Prop} (k : FillParts c P) {s : State}
include k

theorem FillParts.frameSpaceStep (h : P s) : P (frameSpaceStep c s).2 := by
  have read := k.read s .txF2 h
  unfold Machine.frameSpaceStep
  split
  · split <;> rename_i hr <;> rw [hr] at read
    · exact k.diag _ _ read
    · exact read
  · exact h

theorem FillParts.byteSpaceStep (h : P s) : P (byteSpaceStep c s).2 := by
  have read := k.read s .txZ1 h
  unfold Machine.byteSpaceStep
  split <;> rename_i hr <;> rw [hr] at read
  · exact k.diag _ _ read
  · exact read

theorem FillParts.fillSnapshot (h : P s) {o : Option Nat} {s' : State} (hs : fillSnapshot c s = (o, s')) : P s' := by
  have space := k.frameSpaceStep h
  unfold Machine.fillSnapshot at hs
  split at hs <;> rename_i hf <;> rw [hf] at space
  · cases hs; exact space
  · have bytes := k.byteSpaceStep space
    rwa [hs] at bytes

theorem FillParts.pushBytes (h : P s) (l : List Byte) : P (pushBytes c l s) := by
  induction l generalizing s with
  | nil => exact h
  | cons b rest ih => exact ih (k.edit _ _ (fun _ => rfl) (k.push _ b h))

theorem FillParts.writeFrame (h : P s) (fr : List Byte) (zs : Nat) : P (writeFrame c fr zs s) :=
  k.edit _ _ (fun _ => rfl) (k.pushBytes h _)

theorem FillParts.disconnectHighway (h : P s) : P (disconnectHighway c s) := by
  unfold Machine.disconnectHighway
  split
  · exact k.edit _ _ (fun _ => rfl) h
  · exact h

theorem FillParts.nothingLeft (h : P s) (zs : Nat) : P (nothingLeft c zs s) := by
  unfold Machine.nothingLeft
  refine k.edit _ _ (fun _ => rfl) ?_
  split
  · exact k.push _ _ h
  · exact h

theorem FillParts.fillLoop_nil (h : P s) : P (fillLoop c [] s) := by
  unfold Machine.fillLoop
  split <;> rename_i hs
  · exact k.fillSnapshot h hs
  · split
    · exact k.edit _ _ (fun _ => rfl) (k.fillSnapshot h hs)
    · exact k.nothingLeft (k.fillSnapshot h hs) _

/-- What the acknowledgement of a frame keeps too, the whole loop keeps. -/
theorem FillParts.fillLoop (complete : ∀ s rest, P s → P (completeFrame c rest s)) (h : P s) (q : List (List Byte)) :
    P (fillLoop c q s) := by
  induction q generalizing s with
  | nil => exact k.fillLoop_nil h
  | cons fr rest ih =>
    unfold Machine.fillLoop
    split <;> rename_i hs
    · exact k.fillSnapshot h hs
    · have written := fun zs => k.writeFrame (k.disconnectHighway (k.fillSnapshot h hs)) fr zs
      dsimp only
      repeat' split
      · exact written _
      · exact k.nothingLeft (complete _ _ (written _)) _
      · exact ih (complete _ _ (written _))

end

/-! ### receive_drain -/

/-- A property that what one pass of receive_drain does to its ring before a frame is acknowledged keeps, with ring (`c`, RX)
selected. -/
structure DrainParts (c : ChanId) (P : State → Prop) : Prop where
  read : ∀ s k, P s → P (stableRead k s).2
  diag : ∀ s d, P s → P (s.diag d)
  pop : ∀ s, P s → P (ringPop s).2
  buffer : ∀ s (f : Channel → List Byte), P s → P (s.modChan c fun x => { x with rxbuf := f x })

section
variable {c : ChanId} {P : State → Prop} (k : DrainParts c P) {s : State}
include k

theorem DrainParts.frameBoundary (h : P s) : P (frameBoundary c s).2 := by
  have read := k.read s .rxF1 h
  unfold Machine.frameBoundary
  split
  · split <;> rename_i hr <;> rw [hr] at read
    · exact k.diag _ _ read
    · exact read
  · exact h

theorem DrainParts.drainSnapshot (h : P s) {o : Option (Bool × Nat)} {s' : State} (hs : drainSnapshot c s = (o, s')) : P s' := by
  have boundary := k.frameBoundary h
  unfold Machine.drainSnapshot at hs
  split at hs <;> rename_i hf <;> rw [hf] at boundary
  · cases hs; exact boundary
  · have read := k.read _ .rxZ1rep boundary
    split at hs <;> rename_i hr <;> rw [hr] at read <;> cases hs
    · exact k.diag _ _ read
    · exact read

theorem DrainParts.popBytes (h : P s) (n : Nat) : P (popBytes c n s) := by
  induction n generalizing s with
  | zero => exact h
  | succ n ih => exact ih (k.buffer _ _ (k.pop s h))

theorem DrainParts.finishFrame (emit : ∀ s e, P s → P (s.emit e)) (h : P s) : P (finishFrame c s) := by
  unfold Machine.finishFrame
  refine k.buffer _ (fun _ => []) ?_
  repeat' split
  · exact k.diag _ _ h
  · exact k.diag _ _ h
  · exact emit _ _ h

/-- What delivery, a reset and an acknowledgement keep too, the whole loop keeps. -/
theorem DrainParts.drainLoop (emit : ∀ s e, P s → P (s.emit e)) (reset : ∀ s, P s → P (ringReset s))
    (ack : ∀ s, P s → P (ringFrameAck s)) (h : P s) (n : Nat) : P (drainLoop c n s) := by
  induction n generalizing s with
  | zero => exact h
  | succ n ih =>
    unfold Machine.drainLoop
    split <;> rename_i hs
    · exact k.drainSnapshot h hs
    · have snapped := k.drainSnapshot h hs
      have delivered : ∀ t, P t → P (deliverTransparent c t) := by
        intro t ht
        unfold deliverTransparent
        split
        · exact k.buffer _ (fun _ => []) (emit _ _ ht)
        · exact ht
      repeat' split
      · exact snapped
      · exact k.diag _ _ (reset _ (k.buffer _ (fun _ => []) snapped))
      · exact delivered _ (k.popBytes snapped _)
      · exact k.popBytes snapped _
      · exact ih (k.finishFrame emit (ack _ (k.popBytes snapped _)))

end

/-! ### SERVICE: its frame (R110, R123) -/

/-- Settles O27: past SERVICE's guards it is `serve`, whose frame holds under any interleaving. -/
theorem serviceCompletesWithinFrame : Obligations.ServiceCompletesWithinFrame := by
  intro s ch tx rx hup hopen hp
  have f := serve_frame ch tx rx s
  refine ⟨_, exec_service_of_active hup hopen hp tx rx, rfl, f.ctl, f.port, f.own, f.slotReg, f.lineq, f.inputs, f.others, f.self, ?_⟩
  rintro rfl rfl
  rfl

/-- A SERVICE is rejected or is `serve`. -/
theorem exec_service_cases {s t : State} {ch : ChanId} {tx rx : Bool} (h : exec (.service ch tx rx) s = .next t) :
    (∃ r, t = s.answer r) ∨ t = (serve ch tx rx s).answer .ok := by
  cases exec_cases h with
  | rejected r h => exact .inl ⟨r, h⟩
  | service c x y hi hc ho hp h => cases hi; exact .inr h
  | setMode c p tS tB rS rB eb hi hc hu ht hr h => obtain ⟨_, _, _, _, hi, -⟩ := hi; contradiction
  | _ => contradiction

/-! ### SERVICE: its memory and ring frame when no line-side step lands inside -/

/-- `t` comes from `s`, with nothing scheduled, by accesses to rings of `T` alone: only the counters and the `ovf` of those rings and the
cells of the transmit rings among them may differ. -/
def QuietFrame (T : ChanId → Dir → Prop) (s t : State) : Prop :=
  t.env.sched = [] ∧ t.cfg = s.cfg ∧ t.status = s.status ∧ t.lineIn = s.lineIn
  ∧ (∀ k e, ¬T k e → t.ring k e = s.ring k e) ∧ (∀ k, ¬T k .rx → t.ovf k = s.ovf k)
  ∧ ∀ a, (∀ k z, T k .tx → a ≠ cellAddr s.cfg k .tx z) → t.mem.read a = s.mem.read a

section
variable {T : ChanId → Dir → Prop} {c : ChanId} {d : Dir} {s t : State}

theorem QuietFrame.refl (T : ChanId → Dir → Prop) (h : s.env.sched = []) : QuietFrame T s s :=
  ⟨h, rfl, rfl, rfl, fun _ _ _ => rfl, fun _ _ => rfl, fun _ _ => rfl⟩

theorem QuietFrame.yield (h : QuietFrame T s t) : t.yield = t := State.yield_of_sched_nil t h.1

theorem QuietFrame.setRing (h : QuietFrame T s t) (hT : T c d) (r : Ring) : QuietFrame T s (t.setRing c d r) := by
  obtain ⟨hs, hc, hst, hin, hring, hovf, hmem⟩ := h
  refine ⟨by simpa using hs, by simpa using hc, by simpa using hst, by simpa using hin, fun k e hk => ?_, by simpa using hovf,
    by simpa using hmem⟩
  have other : ¬(c = k ∧ d = e) := by rintro ⟨rfl, rfl⟩; exact hk hT
  rw [State.setRing_ring, if_neg other]
  exact hring k e hk

theorem QuietFrame.setOvf (h : QuietFrame T s t) (hT : T c .rx) (b : Bool) : QuietFrame T s (t.setOvf c b) := by
  obtain ⟨hs, hc, hst, hin, hring, hovf, hmem⟩ := h
  refine ⟨hs, hc, hst, hin, hring, fun k hk => ?_, hmem⟩
  have other : c ≠ k := by rintro rfl; exact hk hT
  rw [State.setOvf_ovf, if_neg other]
  exact hovf k hk

theorem QuietFrame.writeCell (h : QuietFrame T s t) (hT : T c .tx) (z : Nat) (b : Byte) : QuietFrame T s (t.writeCell c .tx z b) := by
  obtain ⟨hs, hc, hst, hin, hring, hovf, hmem⟩ := h
  refine ⟨hs, hc, hst, hin, hring, hovf, fun a ha => ?_⟩
  rw [State.writeCell_mem, Memory.read_write, hc, if_neg (Ne.symm (ha c z hT))]
  exact hmem a ha

/-! ### Each access of the window, in terms of the three writes above -/

theorem QuietFrame.read (h : QuietFrame T s t) (k : LineCounter) : QuietFrame T s (stableRead k t).2 := by
  obtain ⟨e, he, -, hs⟩ := readNow_env k t
  rw [stableRead, h.yield, he]
  exact ⟨hs.trans h.1, h.2⟩

theorem QuietFrame.push (h : QuietFrame T s t) (hT : T c .tx) (hsel : t.sel = some (c, .tx)) (b : Byte) :
    QuietFrame T s (ringPush b t) := by
  rw [ringPush_quiet b t c h.1 hsel]
  exact (h.writeCell hT _ b).setRing hT _

theorem QuietFrame.commit (h : QuietFrame T s t) (hT : T c d) (hsel : t.sel = some (c, d)) : QuietFrame T s (ringCommit t) := by
  rw [ringCommit, h.yield, commitNow, hsel]
  exact h.setRing hT _

theorem QuietFrame.pop (h : QuietFrame T s t) (hT : T c d) (hsel : t.sel = some (c, d)) : QuietFrame T s (ringPop t).2 := by
  rw [ringPop, h.yield, popNow, hsel]
  obtain ⟨e, he, -, hs, -⟩ := t.readCell_env c d (t.ring c d).z2
  dsimp only
  rw [he]
  exact QuietFrame.setRing (t := t.setEnv e) ⟨hs.trans h.1, h.2⟩ hT _

theorem QuietFrame.ack (h : QuietFrame T s t) (hT : T c d) (hsel : t.sel = some (c, d)) : QuietFrame T s (ringFrameAck t) := by
  rw [ringFrameAck, h.yield, frameAckNow, hsel]
  exact h.setRing hT _

theorem QuietFrame.reset (h : QuietFrame T s t) (hT : T c d) (hsel : t.sel = some (c, d)) : QuietFrame T s (ringReset t) := by
  rw [ringReset, h.yield, resetNow, hsel]
  cases d with
  | tx => exact h.setRing hT _
  | rx => exact (h.setRing hT _).setOvf hT false

end

/-! ### No access changes the selection -/

section
variable (s : State)

@[simp] theorem pushNow_sel (b : Byte) : (pushNow b s).sel = s.sel := by unfold pushNow; split <;> simp
@[simp] theorem commitNow_sel : (commitNow s).sel = s.sel := by unfold commitNow; split <;> simp
@[simp] theorem frameAckNow_sel : (frameAckNow s).sel = s.sel := by unfold frameAckNow; split <;> simp

@[simp] theorem popNow_sel : (popNow s).2.sel = s.sel := by
  unfold popNow
  split
  · obtain ⟨e, he, -⟩ := s.drawByte_env
    rw [he]; simp
  · simp [readCell_sel]

@[simp] theorem ringPush_sel (b : Byte) : (ringPush b s).sel = s.sel := by simp [ringPush]
@[simp] theorem ringCommit_sel : (ringCommit s).sel = s.sel := by simp [ringCommit]
@[simp] theorem ringPop_sel : (ringPop s).2.sel = s.sel := by simp [ringPop]
@[simp] theorem ringFrameAck_sel : (ringFrameAck s).sel = s.sel := by simp [ringFrameAck]
@[simp] theorem ringReset_sel : (ringReset s).sel = s.sel := by simp [ringReset]

@[simp] theorem stableRead_sel (r : LineCounter) : (stableRead r s).2.sel = s.sel := by
  obtain ⟨e, he, -⟩ := readNow_env r s.yield
  simp [stableRead, he]

end

section
variable {T : ChanId → Dir → Prop} {c : ChanId} {s t : State}

theorem quietFrame_fillParts (hT : T c .tx) (s : State) :
    FillParts c fun t => QuietFrame T s t ∧ t.sel = some (c, .tx) where
  read _ k h := ⟨h.1.read k, (stableRead_sel _ k).trans h.2⟩
  diag _ _ h := h
  push _ b h := ⟨h.1.push hT h.2 b, (ringPush_sel _ b).trans h.2⟩
  edit _ _ _ h := h

theorem quietFrame_drainParts (hT : T c .rx) (s : State) :
    DrainParts c fun t => QuietFrame T s t ∧ t.sel = some (c, .rx) where
  read _ k h := ⟨h.1.read k, (stableRead_sel _ k).trans h.2⟩
  diag _ _ h := h
  pop _ h := ⟨h.1.pop hT h.2, (ringPop_sel _).trans h.2⟩
  buffer _ _ h := h

/-- transmit_fill touches the transmit ring of its channel alone (R110). -/
theorem QuietFrame.transmitFill (hT : T c .tx) (h : QuietFrame T s t) : QuietFrame T s (transmitFill c t) := by
  have selected : QuietFrame T s (t.select c .tx) ∧ (t.select c .tx).sel = some (c, .tx) := ⟨h, rfl⟩
  unfold Machine.transmitFill
  split
  · exact h
  · refine ((quietFrame_fillParts hT s).fillLoop ?_ ?_ _).1
    · rintro u rest ⟨hu, hsel⟩
      unfold completeFrame
      split
      · exact ⟨hu.commit hT hsel, (ringCommit_sel u).trans hsel⟩
      · exact ⟨hu, hsel⟩
    · unfold deferredReset
      split
      · exact ⟨selected.1.reset hT selected.2, ringReset_sel _⟩
      · exact selected

/-- receive_drain touches the receive ring of its channel alone, and stores nothing (R113, R116). -/
theorem QuietFrame.receiveDrain (hT : T c .rx) (h : QuietFrame T s t) : QuietFrame T s (receiveDrain c t) := by
  unfold Machine.receiveDrain
  split
  · exact h
  · refine ((quietFrame_drainParts hT s).drainLoop (fun _ _ h => h) ?_ ?_ (s := t.select c .rx) ⟨h, rfl⟩ _).1
    · exact fun u hu => ⟨hu.1.reset hT hu.2, (ringReset_sel u).trans hu.2⟩
    · exact fun u hu => ⟨hu.1.ack hT hu.2, (ringFrameAck_sel u).trans hu.2⟩

theorem QuietFrame.serve {tx rx : Bool} (htx : tx = true → T c .tx) (hrx : rx = true → T c .rx) (h : QuietFrame T s t) :
    QuietFrame T s (serve c tx rx t) := by
  have filled : QuietFrame T s (if tx then Machine.transmitFill c t else t) := by
    split
    · rename_i on; exact h.transmitFill (htx on)
    · exact h
  unfold Machine.serve
  split
  · rename_i on; exact filled.receiveDrain (hrx on)
  · exact filled

end

/-- The rings that SERVICE with these bits serves (R123). -/
def served (ch : ChanId) (tx rx : Bool) (k : ChanId) : Dir → Prop
  | .tx => k = ch ∧ tx = true
  | .rx => k = ch ∧ rx = true

/-- Settles O28: a rejected SERVICE changes `resp` alone, and each procedure accesses its own ring alone. -/
theorem serviceMemoryFrame : Obligations.ServiceMemoryFrame := by
  intro s t ch tx rx hs h
  have frame : QuietFrame (served ch tx rx) s t := by
    obtain ⟨r, rfl⟩ | rfl := exec_service_cases h
    · exact QuietFrame.refl _ hs
    · exact (QuietFrame.refl _ hs).serve (fun on => ⟨rfl, on⟩) (fun on => ⟨rfl, on⟩)
  obtain ⟨-, -, hst, hin, hring, hovf, hmem⟩ := frame
  refine ⟨fun a ha => hmem a ?_, fun k d htx hrx => hring k d ?_, fun k hrx => hovf k ?_, hst, hin⟩
  · rintro k z ⟨rfl, on⟩
    exact ha on z
  · cases d with
    | tx => rintro ⟨rfl, on⟩; simp [htx rfl rfl] at on
    | rx => rintro ⟨rfl, on⟩; simp [hrx rfl rfl] at on
  · rintro ⟨rfl, on⟩
    simp [hrx rfl] at on

/-! ### Acknowledgements (R108, R122) -/

/-- `t` has the events of `s` and as much of the queue of channel `c`. -/
def SameQueue (c : ChanId) (s t : State) : Prop := t.evq = s.evq ∧ (t.ch c).txq = (s.ch c).txq

section
variable {c : ChanId} {s t : State}

theorem SameQueue.congr {u : State} (h : SameQueue c s t) (he : u.evq = t.evq) (hch : u.ch = t.ch) : SameQueue c s u :=
  ⟨he.trans h.1, by rw [hch]; exact h.2⟩

theorem SameQueue.edit (h : SameQueue c s t) {f : Channel → Channel} (hf : ∀ x, (f x).txq = x.txq) :
    SameQueue c s (t.modChan c f) := by
  refine ⟨h.1, ?_⟩
  rw [State.modChan_ch, if_pos rfl, hf]
  exact h.2

end

@[simp] theorem stableRead_evq (s : State) (r : LineCounter) : (stableRead r s).2.evq = s.evq := by
  obtain ⟨e, he, -⟩ := readNow_env r s.yield
  simp [stableRead, he]

@[simp] theorem ringPush_evq (s : State) (b : Byte) : (ringPush b s).evq = s.evq := by
  unfold ringPush pushNow
  split <;> simp

@[simp] theorem ringCommit_evq (s : State) : (ringCommit s).evq = s.evq := by
  unfold ringCommit commitNow
  split <;> simp

@[simp] theorem ringReset_evq (s : State) : (ringReset s).evq = s.evq := by simp [ringReset]

theorem sameQueue_fillParts (c : ChanId) (s : State) : FillParts c (SameQueue c s) where
  read _ k h := h.congr (stableRead_evq _ k) (stableRead_ch _ k)
  diag _ _ h := h
  push _ b h := h.congr (ringPush_evq _ b) (ringPush_ch _ b)
  edit _ _ hf h := h.edit hf

theorem completeFrame_evq (c : ChanId) (rest : List (List Byte)) (s : State) :
    (completeFrame c rest s).evq = s.evq ++ [.txDone c] := by
  unfold completeFrame
  split <;> simp

/-- The first `n` frames of `s`'s queue on channel `c` have left it, each with its TX_DONE, and no other event. -/
def Acknowledged (c : ChanId) (n : Nat) (s t : State) : Prop :=
  n ≤ (s.ch c).txq.length ∧ (t.ch c).txq = (s.ch c).txq.drop n ∧ t.evq = s.evq ++ List.replicate n (.txDone c)

theorem SameQueue.acknowledged {c : ChanId} {s t : State} (h : SameQueue c s t) : Acknowledged c 0 s t :=
  ⟨Nat.zero_le _, h.2, by simpa using h.1⟩

theorem fillLoop_acknowledged (c : ChanId) (q : List (List Byte)) (s : State) (hq : (s.ch c).txq = q) :
    ∃ n, Acknowledged c n s (fillLoop c q s) := by
  have parts := fun s => sameQueue_fillParts c s
  induction q generalizing s with
  | nil => exact ⟨0, ((parts s).fillLoop_nil ⟨rfl, rfl⟩).acknowledged⟩
  | cons fr rest ih =>
    unfold Machine.fillLoop
    split <;> rename_i hs
    · exact ⟨0, ((parts s).fillSnapshot ⟨rfl, rfl⟩ hs).acknowledged⟩
    · rename_i zs s'
      have written := (parts s).writeFrame ((parts s).disconnectHighway ((parts s).fillSnapshot ⟨rfl, rfl⟩ hs)) fr zs
      have done : ∀ n t, Acknowledged c n (completeFrame c rest (writeFrame c fr zs (disconnectHighway c s'))) t →
          Acknowledged c (n + 1) s t := by
        rintro n t ⟨hn, hq', he⟩
        rw [completeFrame_queue] at hn hq'
        rw [completeFrame_evq, written.1] at he
        refine ⟨?_, ?_, ?_⟩
        · simpa [hq] using hn
        · simpa [hq] using hq'
        · simpa [List.replicate_succ] using he
      dsimp only
      repeat' split
      · exact ⟨0, written.acknowledged⟩
      · exact ⟨1, done 0 _ ((parts _).nothingLeft ⟨rfl, rfl⟩ zs).acknowledged⟩
      · obtain ⟨n, hn⟩ := ih _ (completeFrame_queue c rest _)
        exact ⟨n + 1, done n _ hn⟩

theorem transmitFill_acknowledged (c : ChanId) (s : State) : ∃ n, Acknowledged c n s (transmitFill c s) := by
  unfold transmitFill
  split
  · exact ⟨0, SameQueue.acknowledged ⟨rfl, rfl⟩⟩
  · have ready : SameQueue c s (deferredReset c (s.select c .tx)) := by
      unfold deferredReset
      split
      · exact SameQueue.edit ⟨by simp, by simp⟩ fun _ => rfl
      · exact ⟨rfl, rfl⟩
    obtain ⟨n, hn, hq, he⟩ := fillLoop_acknowledged c _ _ ready.2
    rw [ready.2] at hn hq
    rw [ready.1] at he
    exact ⟨n, hn, hq, he⟩

/-- Settles O36: a rejected SERVICE acknowledges nothing; a call acknowledges as its loop does. -/
theorem fillAcknowledgesEachFrameOnce : Obligations.FillAcknowledgesEachFrameOnce := by
  intro s t ch h
  obtain ⟨r, rfl⟩ | rfl := exec_service_cases h
  · exact ⟨0, SameQueue.acknowledged ⟨rfl, rfl⟩⟩
  · exact transmitFill_acknowledged ch s

end Sys2Proof.Machine

/-! PROOFS. The bound on the passes of receive_drain (R113; log entry 16): a pass that goes on has consumed a closed frame, and only a
line-side step closes one, so the closed frames and the steps still to land bound the passes. -/

namespace Sys2Proof.Machine

/-! ### The counter arithmetic of R14, R15 and R38 without remainders -/

theorem toNat_sub_emod {a b n : Nat} (hab : a < b + n) (hba : b ≤ a + n) :
    (((a : Int) - b) % (n : Int)).toNat = if b ≤ a then a - b else a + n - b := by
  split
  · rw [Int.emod_eq_of_lt (by omega) (by omega)]
    omega
  · rw [← Int.add_emod_right, Int.emod_eq_of_lt (by omega) (by omega)]
    omega

theorem incF_eq {c : Config} {f : Nat} (h : f < c.flen) : incF c f = if f + 1 < c.flen then f + 1 else 0 := by
  unfold incF
  split
  · rename_i lt
    exact Nat.mod_eq_of_lt lt
  · rw [show f + 1 = c.flen by omega, Nat.mod_self]

section
variable {c : Config} {r : Ring} (h1 : r.f1 < c.flen) (h2 : r.f2 < c.flen)
include h1 h2

theorem rxFrames_eq : rxFrames c r = if r.f2 ≤ r.f1 then r.f1 - r.f2 else r.f1 + c.flen - r.f2 :=
  toNat_sub_emod (by omega) (by omega)

theorem rxFrames_pos_iff : 0 < rxFrames c r ↔ r.f1 ≠ r.f2 := by
  rw [rxFrames_eq h1 h2]
  split <;> omega

/-- Closing a frame adds one, while there is frame space (R38, R128). -/
theorem rxFrames_close (space : rxFrames c r ≠ c.flen - 1) {r' : Ring} (e1 : r'.f1 = incF c r.f1) (e2 : r'.f2 = r.f2) :
    rxFrames c r' = rxFrames c r + 1 := by
  have h1' : r'.f1 < c.flen := e1 ▸ incF_lt (by omega) _
  rw [rxFrames_eq h1' (e2 ▸ h2), rxFrames_eq h1 h2, e1, e2, incF_eq h1]
  rw [rxFrames_eq h1 h2] at space
  split_ifs at space ⊢ <;> omega

/-- Acknowledging a frame takes one off, while there is one (R38, R56). -/
theorem rxFrames_ack (some_closed : r.f1 ≠ r.f2) {r' : Ring} (e1 : r'.f1 = r.f1) (e2 : r'.f2 = incF c r.f2) :
    rxFrames c r' + 1 = rxFrames c r := by
  have h2' : r'.f2 < c.flen := e2 ▸ incF_lt (by omega) _
  rw [rxFrames_eq (e1 ▸ h1) h2', rxFrames_eq h1 h2, e1, e2, incF_eq h2]
  split_ifs <;> omega

end

/-! ### What the line does to the closed frames -/

theorem lineTxTake_rx (ch k : ChanId) (s : State) : (lineTxTake ch s).ring k .rx = s.ring k .rx := by
  have read : ∀ z, (s.readCell ch .tx z).2.ring = s.ring := fun z => by
    obtain ⟨e, he, -⟩ := s.readCell_env ch .tx z
    rw [he, State.setEnv_ring]
  unfold lineTxTake
  repeat' split
  all_goals simp [takeByte, takeTail, takeFrameEnd, read]

/-- A stimulus leaves `f1` of a receive ring, or closes a frame where there is frame space (R128). -/
theorem applyStimulus_rx_f1 (st : Stimulus) (s : State) (k : ChanId) :
    ((applyStimulus st s).ring k .rx).f1 = (s.ring k .rx).f1
    ∨ rxFrames s.cfg (s.ring k .rx) ≠ s.cfg.flen - 1
      ∧ ((applyStimulus st s).ring k .rx).f1 = incF s.cfg (s.ring k .rx).f1 := by
  cases st with
  | lineTxTake ch => exact .inl (by rw [applyStimulus, lineTxTake_rx])
  | lineRxPut ch b =>
    left
    simp only [applyStimulus, lineRxPut]
    repeat' split
    · rfl
    · rfl
    · rfl
    · by_cases hk : ch = k <;> simp [hk]
  | lineRxEnd ch b =>
    by_cases flow : (s.ch ch).flowRx = .hdlc
    · by_cases away : rxToHighway s ch = true
      · exact .inl (by simp [applyStimulus, lineRxEnd, away])
      · by_cases full : (rxRingFull s ch || rxFramesFull s ch) = true
        · exact .inl (by simp [applyStimulus, lineRxEnd, flow, away, full])
        · simp only [Bool.or_eq_true, not_or] at full
          obtain ⟨e, closed⟩ := lineRxEnd_stores b flow away full.1 full.2
          rw [applyStimulus, closed]
          by_cases hk : ch = k
          · subst hk
            exact .inr ⟨mt rxFramesFull_iff.2 full.2, by simp [closeFrame]⟩
          · exact .inl (by simp [closeFrame, hk])
    · exact .inl (by simp [applyStimulus, lineRxEnd, flow])
  | ready ch d => exact .inl (by simp [applyStimulus])
  | lineState p x => left; simp only [applyStimulus, lineState]; split <;> rfl
  | lineE1State p v => left; simp only [applyStimulus, lineE1State]; split <;> rfl
  | lineSync p clk frm => left; simp only [applyStimulus, lineSync]; split <;> rfl
  | lineAlarm p bits => left; simp only [applyStimulus, lineAlarm]; split <;> rfl
  | timerTick => exact .inl rfl
  | tone => exact .inl rfl

/-! ### The measure -/

/-- The receive ring of channel `c` has at least `lo` closed frames, and with `owed` more at most `hi`. -/
def FramesWithin (g : Config) (c : ChanId) (lo hi owed : Nat) (s : State) : Prop :=
  s.cfg = g ∧ (s.ring c .rx).f1 < g.flen ∧ (s.ring c .rx).f2 < g.flen
    ∧ lo ≤ rxFrames g (s.ring c .rx) ∧ rxFrames g (s.ring c .rx) + owed ≤ hi

section
variable {g : Config} {c : ChanId} {lo hi owed : Nat} {s t : State}

theorem FramesWithin.congr (h : FramesWithin g c lo hi owed s) (hc : t.cfg = s.cfg)
    (h1 : (t.ring c .rx).f1 = (s.ring c .rx).f1) (h2 : (t.ring c .rx).f2 = (s.ring c .rx).f2) :
    FramesWithin g c lo hi owed t := by
  unfold FramesWithin rxFrames at *
  rwa [hc, h1, h2]

/-- One stimulus closes at most one frame, and opens none. -/
theorem FramesWithin.applyStimulus (st : Stimulus) (h : FramesWithin g c lo hi (owed + 1) s) :
    FramesWithin g c lo hi owed (applyStimulus st s) := by
  have f := applyStimulus_frame st s
  have f2 := (f.rx c).2
  obtain ⟨rfl, h1, h2, hlo, hhi⟩ := h
  rcases applyStimulus_rx_f1 st s c with f1 | ⟨space, f1⟩
  · exact FramesWithin.congr ⟨rfl, h1, h2, hlo, by omega⟩ f.cfg f1 f2
  · have frames := rxFrames_close h1 h2 space f1 f2
    exact ⟨f.cfg, f1 ▸ incF_lt (by omega) _, f2 ▸ h2, by omega, by omega⟩

theorem FramesWithin.runStimuli (l : List Stimulus) (h : FramesWithin g c lo hi (owed + l.length) s) :
    FramesWithin g c lo hi owed (runStimuli l s) := by
  induction l generalizing s with
  | nil => exact h
  | cons st rest ih => exact ih (FramesWithin.applyStimulus st h)

/-- What is owed at an access: the stimuli still to land. -/
theorem FramesWithin.yield (h : FramesWithin g c lo hi (pendingStimuli s) s) :
    FramesWithin g c lo hi (pendingStimuli s.yield) s.yield := by
  cases hs : s.env.sched with
  | nil => rwa [State.yield_of_sched_nil s hs]
  | cons burst rest =>
    simp only [State.yield, hs]
    have left : pendingStimuli (Machine.runStimuli burst (s.setEnv { s.env with sched := rest })) = (rest.map List.length).sum := by
      rw [pendingStimuli, (runStimuli_frame burst _).sched]
      rfl
    rw [left]
    have owes : pendingStimuli s = (rest.map List.length).sum + burst.length := by simp [pendingStimuli, hs, Nat.add_comm]
    exact FramesWithin.runStimuli burst (owes ▸ h)

/-- The closed frames of the receive ring of `c`, selected, as `FramesWithin` bounds them with what is still to land. -/
def DrainBound (g : Config) (c : ChanId) (lo hi : Nat) (s : State) : Prop :=
  FramesWithin g c lo hi (pendingStimuli s) s ∧ s.sel = some (c, .rx)

theorem DrainBound.yield (h : DrainBound g c lo hi s) : DrainBound g c lo hi s.yield := ⟨h.1.yield, s.yield_sel.trans h.2⟩

theorem DrainBound.setEnv (h : DrainBound g c lo hi s) {e : Env} (he : e.sched = s.env.sched) :
    DrainBound g c lo hi (s.setEnv e) := by
  have same : pendingStimuli (s.setEnv e) = pendingStimuli s := by simp [pendingStimuli, he]
  exact ⟨same ▸ h.1, h.2⟩

theorem drainBound_parts (g : Config) (c : ChanId) (lo hi : Nat) : DrainParts c (DrainBound g c lo hi) where
  read s k h := by
    obtain ⟨e, he, -, hs⟩ := readNow_env k s.yield
    rw [stableRead, he]
    exact h.yield.setEnv hs
  diag _ _ h := h
  pop s h := by
    have hy := h.yield
    rw [ringPop, popNow, hy.2]
    obtain ⟨e, he, -, hs, -⟩ := s.yield.readCell_env c .rx (s.yield.ring c .rx).z2
    dsimp only
    rw [he]
    obtain ⟨within, hsel⟩ := hy.setEnv hs
    exact ⟨within.congr rfl (by simp) (by simp), hsel⟩
  buffer _ _ h := h

/-- The acknowledgement of a closed frame. -/
theorem DrainBound.ack (h : DrainBound g c 1 (hi + 1) s) : DrainBound g c 0 hi (ringFrameAck s) := by
  obtain ⟨⟨rfl, h1, h2, hlo, hhi⟩, hsel⟩ := h.yield
  rw [ringFrameAck, frameAckNow, hsel]
  generalize s.yield = t at *
  have closed := (rxFrames_pos_iff h1 h2).1 hlo
  have frames := rxFrames_ack h1 h2 closed (r' := { t.ring c .rx with f2 := incF t.cfg (t.ring c .rx).f2 }) rfl rfl
  refine ⟨⟨rfl, by simpa using h1, by simpa using incF_lt (by omega) _, Nat.zero_le _, ?_⟩, hsel⟩
  have owed : pendingStimuli (t.setRing c .rx { t.ring c .rx with f2 := incF t.cfg (t.ring c .rx).f2 }) = pendingStimuli t := rfl
  rw [owed, State.setRing_ring, if_pos ⟨rfl, rfl⟩]
  omega

end

/-! ### The loop -/

/-- The value of a stable read that does not fail is the counter's, in the state after the read. -/
theorem stableRead_value {k : LineCounter} {s s' : State} {c : ChanId} {d : Dir} {v : Nat} (hsel : s.sel = some (c, d))
    (h : stableRead k s = (some v, s')) : v = counterOf s'.cfg (s'.ring c d) k := by
  obtain ⟨e, he, -⟩ := readNow_env k s.yield
  have hs' : s' = s.yield.setEnv e := by rw [← he, ← stableRead, h]
  have hv : (readNow k s.yield).1 = some v := congrArg Prod.fst h
  simp only [readNow, State.selRing, State.yield_sel, hsel] at hv
  rw [hs']
  split at hv
  · cases hv
  · exact (Option.some.inj hv).symm

section
variable {g : Config} {c : ChanId} {hi : Nat} {s s' : State}

/-- A frame boundary that is found is a closed frame (R114). -/
theorem DrainBound.frameBoundary (h : DrainBound g c 0 hi s) (hb : frameBoundary c s = (some true, s')) :
    DrainBound g c 1 hi s' := by
  have kept := (drainBound_parts g c 0 hi).frameBoundary h
  rw [hb] at kept
  obtain ⟨⟨rfl, h1, h2, -, hhi⟩, hsel'⟩ := kept
  refine ⟨⟨rfl, h1, h2, ?_, hhi⟩, hsel'⟩
  refine (rxFrames_pos_iff h1 h2).2 ?_
  unfold Machine.frameBoundary at hb
  split at hb
  · split at hb
    · cases hb
    · rename_i hr
      simp only [Prod.mk.injEq, Option.some.injEq] at hb
      obtain ⟨found, rfl⟩ := hb
      rw [stableRead_value h.2 hr] at found
      exact bne_iff_ne.1 found
  · cases hb

theorem DrainBound.drainSnapshot (h : DrainBound g c 0 hi s) {avail : Nat}
    (hs : drainSnapshot c s = (some (true, avail), s')) : DrainBound g c 1 hi s' := by
  unfold Machine.drainSnapshot at hs
  split at hs
  · cases hs
  · rename_i complete t hb
    split at hs
    · cases hs
    · rename_i hr
      simp only [Prod.mk.injEq, Option.some.injEq] at hs
      obtain ⟨⟨rfl, -⟩, rfl⟩ := hs
      have read := (drainBound_parts g c 1 hi).read _ .rxZ1rep (h.frameBoundary hb)
      rwa [hr] at read

/-- Passes beyond the bound change nothing. -/
theorem drainLoop_of_bound (n m : Nat) (h : DrainBound g c 0 hi s) (hn : hi < n) (hm : hi < m) :
    drainLoop c n s = drainLoop c m s := by
  induction n generalizing m hi s with
  | zero => omega
  | succ n ih =>
    obtain _ | m := m
    · omega
    · unfold drainLoop
      split
      · rfl
      · rename_i complete avail t hs
        repeat' split
        any_goals rfl
        rename_i open_
        have whole : complete = true := by simpa using open_
        have parts := drainBound_parts g c
        have closed := (parts 1 hi).popBytes (h.drainSnapshot (whole ▸ hs)) avail
        obtain _ | hi := hi
        · obtain ⟨⟨-, -, -, hlo, hhi⟩, -⟩ := closed
          omega
        · exact ih m ((parts 0 hi).finishFrame (fun _ _ h => h) closed.ack) (by omega) (by omega)

end

/-- Settles O41: `drainPasses` is one more than what bounds the closed frames. -/
theorem drainBoundIsEnough : Obligations.DrainBoundIsEnough := by
  rintro s ch extra hg ⟨-, -, h1, h2, -⟩ hp
  rw [receiveDrain_of_active hp]
  have bound : DrainBound s.cfg ch 0 (rxFrames s.cfg (s.ring ch .rx) + pendingStimuli s) (s.select ch .rx) :=
    ⟨⟨rfl, h1, h2, Nat.zero_le _, Nat.le_refl _⟩, rfl⟩
  exact drainLoop_of_bound _ _ bound (by unfold drainPasses; omega) (by unfold drainPasses; omega)

end Sys2Proof.Machine

/-! PROOFS. transmit_fill when no line-side step lands inside (R102 to R109): the counters it reads, then what it does with them. -/

namespace Sys2Proof.Machine

/-! ### Updates of one channel's record and ring, composed -/

theorem vector_ext_get {α : Type} {n : Nat} {v w : Vector α n} (h : ∀ i : Fin n, v.get i = w.get i) : v = w :=
  Vector.ext fun i hi => h ⟨i, hi⟩

section
variable (s : State) (ch : ChanId)

theorem setChan_setChan (x y : Channel) : (s.setChan ch x).setChan ch y = s.setChan ch y := by
  simp [State.setChan]

theorem setChan_self : s.setChan ch (s.ch ch) = s := by
  have same : s.chan.set ch.val (s.ch ch) ch.isLt = s.chan := by
    refine vector_ext_get fun k => ?_
    rw [get_set_fin]
    split
    · rename_i hk; subst hk; rfl
    · rfl
  rw [State.setChan, same]

theorem modChan_setChan (x : Channel) (f : Channel → Channel) : (s.setChan ch x).modChan ch f = s.setChan ch (f x) := by
  rw [State.modChan, State.setChan_ch, if_pos rfl, setChan_setChan]

theorem setRing_setChan (k : ChanId) (d : Dir) (x : Channel) (r : Ring) :
    (s.setChan ch x).setRing k d r = (s.setRing k d r).setChan ch x := by
  cases d <;> rfl

theorem setRing_setRing (d : Dir) (r r' : Ring) : (s.setRing ch d r).setRing ch d r' = s.setRing ch d r' := by
  cases d <;> simp [State.setRing]

end

/-! ### Z arithmetic without remainders (R15, R66) -/

section
variable {c : Config} {z w n : Nat}

theorem incZ_iterate_eq (h : zInRange c z) (hn : n ≤ c.zlen) :
    (incZ c)^[n] z = if z + n < c.zmin + c.zlen then z + n else z + n - c.zlen := by
  obtain ⟨lo, hi⟩ := h
  rw [incZ_iterate c z n lo hi]
  split
  · rw [Nat.mod_eq_of_lt (by omega)]
    omega
  · rw [Nat.mod_eq_sub_mod (by omega), Nat.mod_eq_of_lt (by omega)]
    omega

theorem byteSpace_eq (hz : zInRange c z) (hw : zInRange c w) :
    byteSpace c z w = if w + 1 ≤ z then z - (w + 1) else z + c.zlen - (w + 1) := by
  obtain ⟨zlo, zhi⟩ := hz
  obtain ⟨wlo, whi⟩ := hw
  have cast : (z : Int) - w - 1 = (z : Int) - (w + 1 : Nat) := by omega
  unfold byteSpace zmod
  rw [cast]
  exact toNat_sub_emod (by omega) (by omega)

theorem byteSpace_lt (hz : zInRange c z) (hw : zInRange c w) : byteSpace c z w < c.zlen := by
  obtain ⟨zlo, zhi⟩ := id hz
  obtain ⟨wlo, whi⟩ := id hw
  rw [byteSpace_eq hz hw]
  split <;> omega

/-- Writing `n` bytes takes `n` off the byte space. -/
theorem byteSpace_iterate (hz : zInRange c z) (hw : zInRange c w) (hn : n ≤ byteSpace c z w) :
    byteSpace c z ((incZ c)^[n] w) = byteSpace c z w - n := by
  have small := byteSpace_lt hz hw
  obtain ⟨zlo, zhi⟩ := id hz
  obtain ⟨wlo, whi⟩ := id hw
  rw [byteSpace_eq hz (incZ_iterate_inRange c w n wlo whi), byteSpace_eq hz hw, incZ_iterate_eq hw (by omega)]
  rw [byteSpace_eq hz hw] at hn
  split_ifs at hn ⊢ <;> omega

end

/-! ### The counters of a call (R103, R104) -/

/-- The stable reads of a call that goes past its counters. -/
def fillReads (p : Proto) : List (LineCounter × Bool) := (if p = .hdlc then [(.txF2, false)] else []) ++ [(.txZ1, false)]

/-- Reads in two lots are recorded as one. -/
theorem afterReads_afterReads (e : Env) (ch : ChanId) (made made' : List (LineCounter × Bool)) (rest more : List Bool) :
    (e.afterReads ch made rest).afterReads ch made' more = e.afterReads ch (made ++ made') more := by
  simp [Env.afterReads]

section
variable {s s' : State} {ch : ChanId} {more : List Bool}

/-- Step 4: a byte space below the margin of four defers (R104). -/
theorem byteSpaceStep_read (hs : s.env.sched = []) (hsel : s.sel = some (ch, .tx)) (hr : s.env.reads = false :: more) :
    byteSpaceStep ch s =
      (if byteSpace s.cfg (s.ring ch .tx).z1 (s.ring ch .tx).z2 < 4 then none else some (s.ring ch .tx).z1,
        s.setEnv (s.env.afterReads ch [(.txZ1, false)] more)) := by
  unfold byteSpaceStep
  rw [stableRead_quiet .txZ1 s ch .tx false more hs hsel hr]
  rfl

/-- The state of a call on channel `ch` once its counters are read. -/
def State.snapped (s : State) (ch : ChanId) (more : List Bool) : State :=
  (s.select ch .tx).setEnv (s.env.afterReads ch (fillReads (s.ch ch).proto) more)

/-- Steps 3 and 4 of a channel with a protocol and, framed, with frame space. -/
theorem fillSnapshot_read (hp : (s.ch ch).proto ≠ .noProto) (hs : s.env.sched = [])
    (hr : s.env.reads = (if (s.ch ch).proto = .hdlc then [false, false] else [false]) ++ more)
    (space : (s.ch ch).proto = .hdlc → frameSpaceTx s ch (s.ring ch .tx).f2 ≠ 0) :
    fillSnapshot ch (s.select ch .tx) =
      (if byteSpace s.cfg (s.ring ch .tx).z1 (s.ring ch .tx).z2 < 4 then none else some (s.ring ch .tx).z1,
        s.snapped ch more) := by
  unfold State.snapped
  cases proto : (s.ch ch).proto with
  | noProto => exact absurd proto hp
  | raw =>
    rw [proto] at hr
    rw [fillSnapshot_of_go (frameSpaceStep_raw (s := s.select ch .tx) proto), byteSpaceStep_read (s := s.select ch .tx) hs rfl hr]
    rfl
  | hdlc =>
    rw [proto] at hr
    have framed := frameSpaceStep_hdlc_space (s := s.select ch .tx) (more := false :: more) hs rfl proto hr (space proto)
    have bytes := byteSpaceStep_read (ch := ch) (more := more)
      (s := (s.select ch .tx).setEnv (s.env.afterReads ch [(.txF2, false)] (false :: more))) hs rfl rfl
    rw [State.setEnv_env, afterReads_afterReads] at bytes
    exact (fillSnapshot_of_go framed).trans bytes

/-- The loop with nothing queued (R105, R109). -/
theorem fillLoop_nil_of_snapshot {zs : Nat} (h : fillSnapshot ch s = (some zs, s')) :
    fillLoop ch [] s =
      if zmod s'.cfg (((s'.ring ch .tx).z2 : Int) - zs) = 0 ∧ (s'.ch ch).routedRaw = true then
        s'.modChan ch fun c => { c with txSrc := .hwy, txState := .idle }
      else nothingLeft ch zs s' := by
  simp [fillLoop, h]

/-- The loop with a frame queued (R106, R107, R108). -/
theorem fillLoop_cons_of_snapshot {zs : Nat} (h : fillSnapshot ch s = (some zs, s')) (fr : List Byte) (rest : List (List Byte)) :
    fillLoop ch (fr :: rest) s =
      if ((writeFrame ch fr zs (disconnectHighway ch s')).ch ch).cursor < fr.length then
        writeFrame ch fr zs (disconnectHighway ch s')
      else if rest = [] then nothingLeft ch zs (completeFrame ch rest (writeFrame ch fr zs (disconnectHighway ch s')))
      else fillLoop ch rest (completeFrame ch rest (writeFrame ch fr zs (disconnectHighway ch s'))) := by
  simp [fillLoop, h]

/-- A SERVICE for transmit on a channel that is not waiting for a ring reset. -/
theorem exec_service_tx (hup : s.ctl = .up) (hopen : (s.ch ch).isOpen = true) (hp : (s.ch ch).proto ≠ .noProto)
    (hr : (s.ch ch).txState ≠ .resetPending) :
    exec (.service ch true false) s = .next ((fillLoop ch (s.ch ch).txq (s.select ch .tx)).answer .ok) := by
  rw [exec_service_of_active hup hopen hp, serve_tx, transmitFill_of_active hp hr]

end

/-! ### The deferred ring reset (R102 step 2, R282) -/

/-- The state after a deferred reset of channel `ch`'s transmit ring. -/
def State.resetDone (s : State) (ch : ChanId) : State :=
  (s.setRing ch .tx ((s.ring ch .tx).clear s.cfg)).setChan ch { s.ch ch with txState := .idle }

theorem transmitFill_resetDone {s : State} {ch : ChanId} (hp : (s.ch ch).proto ≠ .noProto)
    (pending : (s.ch ch).txState = .resetPending) (hs : s.env.sched = []) :
    transmitFill ch s = transmitFill ch (s.resetDone ch) := by
  have done : (s.resetDone ch).ch ch = { s.ch ch with txState := .idle } := by simp [State.resetDone]
  have reset : deferredReset ch (s.select ch .tx) = (s.resetDone ch).select ch .tx := by
    refine (if_pos pending).trans ?_
    rw [ringReset, State.yield_of_sched_nil (s.select ch .tx) hs]
    rfl
  rw [transmitFill_of_active (s := s.resetDone ch) (by rw [done]; exact hp) (by rw [done]; simp), done]
  unfold transmitFill
  rw [if_neg hp, reset]

/-- Settles O29: the reset of step 2 is the state stated, and a call on that state has no reset to do. -/
theorem pendingResetComesFirst : Obligations.PendingResetComesFirst := by
  intro s ch rx hup hopen hp pending hs
  show _ = exec (.service ch true rx) (s.resetDone ch)
  have done : (s.resetDone ch).ch ch = { s.ch ch with txState := .idle } := by simp [State.resetDone]
  rw [exec_service_of_active hup hopen hp,
    exec_service_of_active (s := s.resetDone ch) hup (by rw [done]; exact hopen) (by rw [done]; exact hp)]
  cases rx <;> simp only [serve, if_true, transmitFill_resetDone hp pending hs]

/-! ### A call that writes no frame -/

/-- Settles O32: without space the call is left without its counters, which ends it. -/
theorem fillDefersWithoutSpace : Obligations.FillDefersWithoutSpace := by
  intro s ch made more hup hopen hr hs full
  have hp : (s.ch ch).proto ≠ .noProto := by
    rcases full with ⟨hdlc, -⟩ | ⟨hdlc, -⟩ | ⟨raw, -⟩
    · simp [hdlc]
    · simp [hdlc]
    · simp [raw]
  have stops : fillSnapshot ch (s.select ch .tx) = (none, (s.select ch .tx).setEnv (s.env.afterReads ch made more)) := by
    rcases full with ⟨hdlc, noFrame, reads, rfl⟩ | ⟨hdlc, frame, noBytes, reads, rfl⟩ | ⟨raw, noBytes, reads, rfl⟩
    · have none_left : frameSpaceTx (s.select ch .tx) ch (s.ring ch .tx).f2 = 0 := noFrame
      refine fillSnapshot_of_stop ((frameSpaceStep_hdlc_read (s := s.select ch .tx) hs rfl hdlc reads).trans ?_)
      simp [none_left]
    · rw [fillSnapshot_read (more := more) hp hs (by simpa [hdlc] using reads) fun _ => frame, if_pos noBytes, State.snapped, hdlc]
      rfl
    · rw [fillSnapshot_read (more := more) hp hs (by simpa [raw] using reads) (by simp [raw]), if_pos noBytes, State.snapped, raw]
      rfl
  rw [exec_service_tx hup hopen hp hr, fillLoop_of_no_snapshot stops]
  rfl

/-- The counters of a call with byte space; with nothing queued they are the byte space alone (R104). -/
theorem fillSnapshot_room {s : State} {ch : ChanId} {more : List Bool} (hp : (s.ch ch).proto ≠ .noProto) (hs : s.env.sched = [])
    (hr : s.env.reads = (if (s.ch ch).proto = .hdlc then [false, false] else [false]) ++ more)
    (space : (s.ch ch).proto = .hdlc → frameSpaceTx s ch (s.ring ch .tx).f2 ≠ 0)
    (room : 4 ≤ byteSpace s.cfg (s.ring ch .tx).z1 (s.ring ch .tx).z2) :
    fillSnapshot ch (s.select ch .tx) = (some (s.ring ch .tx).z1, s.snapped ch more) := by
  rw [fillSnapshot_read hp hs hr space, if_neg (by omega)]

/-- A call on a raw channel with nothing queued: back to the highway, or the idle pattern (R105, R109). -/
theorem exec_service_nothing_queued {s : State} {ch : ChanId} {more : List Bool} (hup : s.ctl = .up)
    (hopen : (s.ch ch).isOpen = true) (raw : (s.ch ch).proto = .raw) (hr : (s.ch ch).txState ≠ .resetPending)
    (hq : (s.ch ch).txq = []) (hs : s.env.sched = []) (reads : s.env.reads = false :: more)
    (room : 4 ≤ byteSpace s.cfg (s.ring ch .tx).z1 (s.ring ch .tx).z2) :
    exec (.service ch true false) s = .next (State.answer
      (if txPending s.cfg (s.ring ch .tx) = 0 ∧ (s.ch ch).routedRaw = true then
        (s.snapped ch more).modChan ch fun c => { c with txSrc := .hwy, txState := .idle }
      else nothingLeft ch (s.ring ch .tx).z1 (s.snapped ch more)) .ok) := by
  have hp : (s.ch ch).proto ≠ .noProto := by simp [raw]
  have snap := fillSnapshot_room (more := more) hp hs (by simpa [raw] using reads) (by simp [raw]) room
  rw [exec_service_tx hup hopen hp hr, hq, fillLoop_nil_of_snapshot snap]
  rfl

theorem routedRaw_iff (c : Channel) : c.routedRaw = true ↔ c.proto = .raw ∧ c.txSlot ≠ none := by
  simp [Channel.routedRaw, Option.isSome_iff_ne_none]

/-- Settles O34: a drained ring of a routed channel is the highway branch of a call with nothing queued. -/
theorem fillReconnectsHighway : Obligations.FillReconnectsHighway := by
  intro s ch more hup hopen raw slot hr hq hs reads room drained
  rw [exec_service_nothing_queued hup hopen raw hr hq hs reads room,
    if_pos ⟨drained, (routedRaw_iff _).2 ⟨raw, slot⟩⟩, State.snapped, raw]
  rfl

/-- Nothing left on a transparent channel with byte space: one silence byte (R109). -/
theorem nothingLeft_silence {s : State} {ch : ChanId} {zs : Nat} (raw : (s.ch ch).proto = .raw) (hs : s.env.sched = [])
    (hsel : s.sel = some (ch, .tx)) (room : 1 ≤ byteSpace s.cfg zs (s.ring ch .tx).z2) :
    nothingLeft ch zs s = ((s.writeCell ch .tx (s.ring ch .tx).z2 s.cfg.silenceByte).setRing ch .tx
      { s.ring ch .tx with z2 := incZ s.cfg (s.ring ch .tx).z2 }).setChan ch { s.ch ch with txState := .idle } := by
  unfold nothingLeft
  rw [if_pos ⟨raw, room⟩, ringPush_quiet _ s ch hs hsel]
  rfl

/-- Nothing left otherwise: the channel is idle (R109). -/
theorem nothingLeft_no_silence {s : State} {ch : ChanId} {zs : Nat}
    (h : (s.ch ch).proto = .hdlc ∨ byteSpace s.cfg zs (s.ring ch .tx).z2 = 0) :
    nothingLeft ch zs s = s.setChan ch { s.ch ch with txState := .idle } := by
  unfold nothingLeft
  rw [if_neg (by rcases h with h | h <;> simp [h])]
  rfl

/-- Settles O35: the channel does not go back to the highway, so it is left with the silence byte. -/
theorem fillAddsSilenceByte : Obligations.FillAddsSilenceByte := by
  intro s ch more hup hopen raw hr hq hs reads room stays
  have not_back : ¬(txPending s.cfg (s.ring ch .tx) = 0 ∧ (s.ch ch).routedRaw = true) := by
    rw [routedRaw_iff]
    rintro ⟨drained, -, slot⟩
    exact stays.elim slot fun pending => pending drained
  have silence := nothingLeft_silence (s := s.snapped ch more) (zs := (s.ring ch .tx).z1) raw hs rfl
    (show 1 ≤ byteSpace s.cfg _ (s.ring ch .tx).z2 by omega)
  rw [exec_service_nothing_queued hup hopen raw hr hq hs reads room, if_neg not_back, silence]
  refine ⟨_, rfl, ?_, ?_, ?_, rfl, rfl, fun a ha => ?_⟩
  · simp [State.snapped]
  · simp [State.snapped, State.cell]
  · simp [State.snapped]
  · simp [State.snapped, Ne.symm ha]

end Sys2Proof.Machine

/-! PROOFS. transmit_fill on a channel with a frame queued, when no line-side step lands inside (R106 to R109, R111). -/

namespace Sys2Proof.Machine

/-! ### The head frame's bytes -/

/-- The source of the line-bound data once a frame is being written (R106). -/
def sourceForFrame (c : Channel) : TxSrc :=
  if c.cursor = 0 ∧ c.proto = .raw ∧ c.txSlot ≠ none then .fifo else c.txSrc

theorem disconnectHighway_eq (ch : ChanId) (s : State) :
    disconnectHighway ch s = s.setChan ch { s.ch ch with txSrc := sourceForFrame (s.ch ch) } := by
  unfold disconnectHighway sourceForFrame
  simp only [routedRaw_iff]
  split
  · rfl
  · exact (setChan_self s ch).symm

/-- The cells of all rings. -/
def State.setMem (s : State) (m : Memory) : State := { s with mem := m }

theorem setMem_setChan (s : State) (ch : ChanId) (x : Channel) (m : Memory) :
    (s.setChan ch x).setMem m = (s.setMem m).setChan ch x := rfl

/-- `m'` is `m` with the bytes `l` written from position `z` of channel `ch`'s transmit ring on. -/
def WrittenFrom (c : Config) (ch : ChanId) (z : Nat) (l : List Byte) (m m' : Memory) : Prop :=
  (∀ i < l.length, m'.read (cellAddr c ch .tx ((incZ c)^[i] z)) = l[i]?)
    ∧ ∀ a, (∀ i < l.length, a ≠ cellAddr c ch .tx ((incZ c)^[i] z)) → m'.read a = m.read a

/-- The ring cells of an accepted configuration have keys of their own (R11, R51). -/
theorem configOk_zlen_le {g : Config} (h : configOk g = true) : g.zlen ≤ 65536 := by
  simp only [configOk, rangesOk, Bool.and_eq_true, decide_eq_true_eq] at h
  omega

section
variable {s : State} {ch : ChanId} {l : List Byte}

/-- A quiet push of fewer than `ZLEN` bytes writes them, and else the write counter and the cursor alone. -/
theorem pushBytes_updates (hc : configOk s.cfg = true) (hz : zInRange s.cfg (s.ring ch .tx).z2) (fits : l.length < s.cfg.zlen)
    (hs : s.env.sched = []) (hsel : s.sel = some (ch, .tx)) :
    ∃ m, pushBytes ch l s = ((s.setMem m).setRing ch .tx
        { s.ring ch .tx with z2 := (incZ s.cfg)^[l.length] (s.ring ch .tx).z2 }).setChan ch
          { s.ch ch with cursor := (s.ch ch).cursor + l.length }
      ∧ WrittenFrom s.cfg ch (s.ring ch .tx).z2 l s.mem m := by
  have pushed := pushBytes_quiet ch l s hs hsel
  generalize pushBytes ch l s = t at *
  have hcfg : t.cfg = s.cfg := by rw [pushed.rest]
  have hchan : t.chan = s.chan.set ch.val { s.ch ch with cursor := (s.ch ch).cursor + l.length } ch.isLt :=
    vector_ext_get fun k => (pushed.record k).trans (get_set_fin ..).symm
  have hring : t.txRing =
      s.txRing.set ch.val { s.ring ch .tx with z2 := (incZ s.cfg)^[l.length] (s.ring ch .tx).z2 } ch.isLt := by
    refine vector_ext_get fun k => ?_
    rw [get_set_fin]
    simpa [State.ring] using pushed.rings k .tx
  refine ⟨t.mem, ?_, fun i hi => ?_, pushed.off⟩
  · have rest := pushed.rest
    rwa [hchan, hring] at rest
  · rw [← pushed.stored (configOk_zlen_le hc) fits hz.1 hz.2 i hi, State.cell, hcfg]

/-- What a call writes of its head frame, `l` being the bytes that fit (R106, R107). -/
def State.headWritten (s : State) (ch : ChanId) (l : List Byte) (m : Memory) : State :=
  ((s.setMem m).setRing ch .tx { s.ring ch .tx with z2 := (incZ s.cfg)^[l.length] (s.ring ch .tx).z2 }).setChan ch
    { s.ch ch with cursor := (s.ch ch).cursor + l.length, txState := .sending, txSrc := sourceForFrame (s.ch ch) }

theorem headWritten_ch (m : Memory) :
    (s.headWritten ch l m).ch ch =
      { s.ch ch with
        cursor := (s.ch ch).cursor + l.length, txState := .sending, txSrc := sourceForFrame (s.ch ch) } := by
  simp [State.headWritten]

theorem headWritten_ring (m : Memory) :
    (s.headWritten ch l m).ring ch .tx = { s.ring ch .tx with z2 := (incZ s.cfg)^[l.length] (s.ring ch .tx).z2 } := by
  simp [State.headWritten]

/-- Steps 6 and 7 write the bytes of the head frame that fit, and no other byte (R106, R107). -/
theorem exists_headWritten (hc : configOk s.cfg = true) (hr : Ring.inRange s.cfg (s.ring ch .tx)) (hs : s.env.sched = [])
    (hsel : s.sel = some (ch, .tx)) {fr : List Byte}
    (hl : (fr.drop (s.ch ch).cursor).take (byteSpace s.cfg (s.ring ch .tx).z1 (s.ring ch .tx).z2) = l) :
    ∃ m, writeFrame ch fr (s.ring ch .tx).z1 (disconnectHighway ch s) = s.headWritten ch l m
      ∧ WrittenFrom s.cfg ch (s.ring ch .tx).z2 l s.mem m := by
  obtain ⟨hz1, hz2, -⟩ := hr
  have fits : l.length < s.cfg.zlen := by
    rw [← hl, List.length_take]
    exact Nat.lt_of_le_of_lt (Nat.min_le_left _ _) (byteSpace_lt hz1 hz2)
  rw [disconnectHighway_eq]
  obtain ⟨m, pushed, written⟩ := pushBytes_updates (s := s.setChan ch { s.ch ch with txSrc := sourceForFrame (s.ch ch) })
    hc hz2 fits hs hsel
  refine ⟨m, ?_, written⟩
  simp only [State.setChan_ch, if_true, State.setChan_cfg, State.setChan_ring] at pushed
  simp only [Machine.writeFrame, State.setChan_ch, if_true, State.setChan_cfg, State.setChan_ring, hl]
  rw [pushed, modChan_setChan, setMem_setChan, setRing_setChan, setChan_setChan]
  rfl

end

/-- A call past its counters with frame `fr` at the head of the queue, `l` being its bytes that fit (R106, R107, R108). -/
theorem fillLoop_queued {s : State} {ch : ChanId} {more : List Bool} {fr l : List Byte} (hc : configOk s.cfg = true)
    (hr : Ring.inRange s.cfg (s.ring ch .tx)) (hs : s.env.sched = [])
    (snap : fillSnapshot ch (s.select ch .tx) = (some (s.ring ch .tx).z1, s.snapped ch more))
    (hl : (fr.drop (s.ch ch).cursor).take (byteSpace s.cfg (s.ring ch .tx).z1 (s.ring ch .tx).z2) = l) (q : List (List Byte)) :
    ∃ m, WrittenFrom s.cfg ch (s.ring ch .tx).z2 l s.mem m
      ∧ fillLoop ch (fr :: q) (s.select ch .tx) =
        if (s.ch ch).cursor + l.length < fr.length then (s.snapped ch more).headWritten ch l m
        else if q = [] then nothingLeft ch (s.ring ch .tx).z1 (completeFrame ch q ((s.snapped ch more).headWritten ch l m))
        else fillLoop ch q (completeFrame ch q ((s.snapped ch more).headWritten ch l m)) := by
  obtain ⟨m, head, written⟩ := exists_headWritten (s := s.snapped ch more) hc hr hs rfl hl
  refine ⟨m, written, ?_⟩
  have head : writeFrame ch fr (s.ring ch .tx).z1 (disconnectHighway ch (s.snapped ch more)) =
    (s.snapped ch more).headWritten ch l m := head
  rw [fillLoop_cons_of_snapshot snap, head, headWritten_ch]
  rfl

/-- Settles O31: the bytes that fit are the byte space's, so the cursor stays inside the frame and the call ends there. -/
theorem fillWritesPartOfFrame : Obligations.FillWritesPartOfFrame := by
  intro s ch fr q more n hc hr hup hopen hp hpending hq hs reads space hn room more_left
  obtain ⟨more', reads'⟩ : ∃ more', s.env.reads = (if (s.ch ch).proto = .hdlc then [false, false] else [false]) ++ more' := by
    split
    · exact ⟨more, reads⟩
    · exact ⟨false :: more, reads⟩
  have snap := fillSnapshot_room hp hs reads' space (hn ▸ room)
  obtain ⟨m, ⟨stored, off⟩, call⟩ := fillLoop_queued hc hr hs snap (l := (fr.drop (s.ch ch).cursor).take n) (by rw [hn]) q
  have len : ((fr.drop (s.ch ch).cursor).take n).length = n := by
    rw [List.length_take, List.length_drop]
    omega
  rw [len] at stored off call
  rw [exec_service_tx hup hopen hp hpending, hq, call, if_pos more_left]
  refine ⟨_, rfl, ?_, ?_, rfl, fun i hi => ?_, off⟩
  · rw [State.answer_ring, headWritten_ring, len]
    rfl
  · rw [State.answer_ch, headWritten_ch, len]
    rfl
  · refine (stored i hi).trans ?_
    rw [List.getElem?_take, if_pos hi, List.getElem?_drop]

/-! ### A frame that fits (R108, R109, R111) -/

/-- The transmit ring once the rest of a frame, `n` bytes, is written and a framed channel has committed it. -/
def Ring.sent (c : Config) (p : Proto) (n : Nat) (r : Ring) : Ring :=
  if p = .hdlc then Ring.commit c { r with z2 := (incZ c)^[n] r.z2 } else { r with z2 := (incZ c)^[n] r.z2 }

/-- The state of a call once the head frame is acknowledged, `q` being left of the queue. -/
def State.frameSent (s : State) (ch : ChanId) (q : List (List Byte)) (n : Nat) (m : Memory) (more : List Bool) : State :=
  ((((s.snapped ch more).setMem m).setRing ch .tx (Ring.sent s.cfg (s.ch ch).proto n (s.ring ch .tx))).setChan ch
    { s.ch ch with txq := q, cursor := 0, txState := .sending, txSrc := sourceForFrame (s.ch ch) }).emit (.txDone ch)

section
variable {s : State} {ch : ChanId} {q : List (List Byte)} {n : Nat} {m : Memory} {more : List Bool}

theorem frameSent_ch : (s.frameSent ch q n m more).ch ch =
    { s.ch ch with txq := q, cursor := 0, txState := .sending, txSrc := sourceForFrame (s.ch ch) } := by
  simp [State.frameSent]

theorem frameSent_ring :
    (s.frameSent ch q n m more).ring ch .tx = Ring.sent s.cfg (s.ch ch).proto n (s.ring ch .tx) := by
  simp [State.frameSent]

theorem frameSent_fields (hup : s.ctl = .up) (hs : s.env.sched = []) :
    (s.frameSent ch q n m more).ctl = .up ∧ (s.frameSent ch q n m more).env.sched = []
      ∧ (s.frameSent ch q n m more).sel = some (ch, .tx) ∧ (s.frameSent ch q n m more).cfg = s.cfg
      ∧ (s.frameSent ch q n m more).mem = m := by
  simp [State.frameSent, State.snapped, State.setMem, Env.afterReads, hup, hs]

/-- The byte space that the frame leaves. -/
theorem frameSent_byteSpace (hr : Ring.inRange s.cfg (s.ring ch .tx))
    (fits : n ≤ byteSpace s.cfg (s.ring ch .tx).z1 (s.ring ch .tx).z2) :
    byteSpace s.cfg (s.ring ch .tx).z1 ((s.frameSent ch q n m more).ring ch .tx).z2 =
      byteSpace s.cfg (s.ring ch .tx).z1 (s.ring ch .tx).z2 - n := by
  have z2 : (Ring.sent s.cfg (s.ch ch).proto n (s.ring ch .tx)).z2 = (incZ s.cfg)^[n] (s.ring ch .tx).z2 := by
    unfold Ring.sent
    split <;> rfl
  rw [frameSent_ring, z2]
  exact byteSpace_iterate hr.1 hr.2.1 fits

/-- Step 8 on a frame whose bytes are all written (R108). -/
theorem completeFrame_headWritten (hs : s.env.sched = []) {l : List Byte} :
    completeFrame ch q ((s.snapped ch more).headWritten ch l m) = s.frameSent ch q l.length m more := by
  have quiet : ((s.snapped ch more).headWritten ch l m).env.sched = [] := hs
  have sel : ((s.snapped ch more).headWritten ch l m).sel = some (ch, .tx) := rfl
  have proto : (((s.snapped ch more).headWritten ch l m).ch ch).proto = (s.ch ch).proto := by rw [headWritten_ch]; rfl
  unfold completeFrame State.frameSent Ring.sent
  rw [proto]
  by_cases framed : (s.ch ch).proto = .hdlc
  · rw [if_pos framed, if_pos framed, ringCommit, State.yield_of_sched_nil _ quiet, commitNow, sel]
    dsimp only
    rw [headWritten_ring, State.headWritten, setRing_setChan, setRing_setRing, modChan_setChan]
    rfl
  · rw [if_neg framed, if_neg framed, State.headWritten, modChan_setChan]
    rfl

end

/-- `frameSent`, every field written out. -/
theorem frameSent_eq (s : State) (ch : ChanId) (q : List (List Byte)) (n : Nat) (m : Memory) (more : List Bool) :
    s.frameSent ch q n m more =
      { s with
        chan := s.chan.set ch.val
          { s.ch ch with
            txq := q
            cursor := 0
            txState := .sending
            txSrc := if (s.ch ch).cursor = 0 ∧ (s.ch ch).proto = .raw ∧ (s.ch ch).txSlot ≠ none then .fifo else (s.ch ch).txSrc }
          ch.isLt
        txRing := s.txRing.set ch.val (Ring.sent s.cfg (s.ch ch).proto n (s.ring ch .tx)) ch.isLt
        mem := m
        sel := some (ch, .tx)
        evq := s.evq ++ [.txDone ch]
        env := s.env.afterReads ch ((if (s.ch ch).proto = .hdlc then [(.txF2, false)] else []) ++ [(.txZ1, false)]) more } := by
  simp only [State.frameSent, State.snapped, State.setMem, State.setRing, State.setChan, State.emit, State.select, State.setEnv]
  rfl

/-- Settles O30: what is left of the frame is what fits, so the call completes it; the state is then `frameSent`, and what follows is
the rest of the loop. -/
theorem fillSendsWholeFrame : Obligations.FillSendsWholeFrame := by
  intro s ch fr q more n hc hr hup hopen hp hpending hq hcur hs reads space room hn fits
  have snap := fillSnapshot_room hp hs reads space room
  obtain ⟨m, ⟨stored, off⟩, call⟩ := fillLoop_queued hc hr hs snap (fr := fr) (l := fr.drop (s.ch ch).cursor)
    (List.take_of_length_le (by rw [List.length_drop]; omega)) q
  rw [completeFrame_headWritten hs] at call
  have len : (fr.drop (s.ch ch).cursor).length = n := by rw [List.length_drop, hn]
  rw [len] at stored off call
  rw [if_neg (by omega)] at call
  have exec_s := exec_service_tx hup hopen hp hpending
  rw [hq, call] at exec_s
  have left := frameSent_byteSpace (q := q) (m := m) (more := more) hr fits
  have record := frameSent_ch (s := s) (ch := ch) (q := q) (n := n) (m := m) (more := more)
  have ring := frameSent_ring (s := s) (ch := ch) (q := q) (n := n) (m := m) (more := more)
  obtain ⟨sup, squiet, ssel, scfg, smem⟩ := frameSent_fields hup hs (ch := ch) (q := q) (n := n) (m := m) (more := more)
  have sent_eq := frameSent_eq s ch q n m more
  generalize s.frameSent ch q n m more = sent at *
  refine ⟨m, Ring.sent s.cfg (s.ch ch).proto n (s.ring ch .tx), sent, ?stored, off, ?raw, ?hdlc, sent_eq, ?next, ?idle, ?silence⟩
  case stored => exact fun i hi => (stored i hi).trans List.getElem?_drop
  case raw => exact fun raw => by simp [Ring.sent, raw]
  case hdlc => exact fun hdlc => by simp [Ring.sent, hdlc, Ring.commit]
  case next =>
    intro another
    have selected : sent.select ch .tx = sent := by rw [State.select, ← ssel]
    have exec_sent := exec_service_tx (s := sent) (ch := ch) sup (by rw [record]; exact hopen) (by rw [record]; exact hp)
      (by rw [record]; simp)
    rw [selected, record] at exec_sent
    rw [exec_s, if_neg another, exec_sent]
  case idle =>
    intro last idle
    have quiet : (sent.ch ch).proto = .hdlc ∨ byteSpace sent.cfg (s.ring ch .tx).z1 (sent.ring ch .tx).z2 = 0 := by
      rw [record, scfg, left]
      exact idle.imp id fun filled => by omega
    rw [exec_s, if_pos last, nothingLeft_no_silence quiet]
    rfl
  case silence =>
    intro last raw more_room
    have one : 1 ≤ byteSpace sent.cfg (s.ring ch .tx).z1 (sent.ring ch .tx).z2 := by
      rw [scfg, left]
      omega
    rw [exec_s, if_pos last, nothingLeft_silence (by rw [record]; exact raw) squiet ssel one, ring, ← smem, ← scfg]
    rfl

end Sys2Proof.Machine

/-! PROOFS. receive_drain when no line-side step lands inside (R113 to R118): the counters it reads, then what it does with them. -/

namespace Sys2Proof.Machine

/-! ### Z arithmetic without remainders (R14, R36) -/

section
variable {c : Config} {z w : Nat}

theorem zmod_sub_eq (hz : zInRange c z) (hw : zInRange c w) :
    zmod c ((z : Int) - w) = if w ≤ z then z - w else z + c.zlen - w := by
  obtain ⟨zlo, zhi⟩ := hz
  obtain ⟨wlo, whi⟩ := hw
  exact toNat_sub_emod (by omega) (by omega)

/-- Reading the bytes from `w` up to `z` ends at `z`. -/
theorem incZ_iterate_zmod_sub (hz : zInRange c z) (hw : zInRange c w) : (incZ c)^[zmod c ((z : Int) - w)] w = z := by
  obtain ⟨zlo, zhi⟩ := id hz
  obtain ⟨wlo, whi⟩ := id hw
  rw [zmod_sub_eq hz hw]
  split
  · rw [incZ_iterate_eq hw (by omega), if_pos (by omega)]
    omega
  · rw [incZ_iterate_eq hw (by omega), if_neg (by omega)]
    omega

end

/-! ### The counters of a call (R114) -/

/-- The stable reads of a call that goes past its counters. -/
def drainReads (p : Proto) : List (LineCounter × Bool) := (if p = .hdlc then [(.rxF1, false)] else []) ++ [(.rxZ1rep, false)]

/-- The state of a call on channel `ch` once its counters are read. -/
def State.drainSnapped (s : State) (ch : ChanId) (more : List Bool) : State :=
  (s.select ch .rx).setEnv (s.env.afterReads ch (drainReads (s.ch ch).proto) more)

/-- A framed channel's ring holds a closed frame (R114). -/
def frameClosed (s : State) (ch : ChanId) : Bool := (s.ch ch).proto == .hdlc && (s.ring ch .rx).f1 != (s.ring ch .rx).f2

/-- The available bytes of a call: those of the oldest closed frame with its status byte, else all unread ones (R114). -/
def drainAvail (s : State) (ch : ChanId) : Nat :=
  zmod s.cfg ((z1rep s.cfg (s.ring ch .rx) : Int) - (s.ring ch .rx).z2) + (frameClosed s ch).toNat

section
variable {s s' : State} {ch : ChanId} {more : List Bool}

/-- The second read, of Z1rep (R37, R114). -/
theorem drainSnapshot_of_boundary {complete : Bool} (hb : frameBoundary ch s = (some complete, s')) (hs : s'.env.sched = [])
    (hsel : s'.sel = some (ch, .rx)) (hr : s'.env.reads = false :: more) :
    drainSnapshot ch s =
      (some (complete, zmod s'.cfg ((z1rep s'.cfg (s'.ring ch .rx) : Int) - (s'.ring ch .rx).z2) + complete.toNat),
        s'.setEnv (s'.env.afterReads ch [(.rxZ1rep, false)] more)) := by
  unfold drainSnapshot
  rw [hb]
  dsimp only
  rw [stableRead_quiet .rxZ1rep s' ch .rx false more hs hsel hr]
  rfl

theorem drainSnapshot_read (hp : (s.ch ch).proto ≠ .noProto) (hs : s.env.sched = [])
    (hr : s.env.reads = (if (s.ch ch).proto = .hdlc then [false, false] else [false]) ++ more) :
    drainSnapshot ch (s.select ch .rx) = (some (frameClosed s ch, drainAvail s ch), s.drainSnapped ch more) := by
  unfold State.drainSnapped drainAvail frameClosed
  cases proto : (s.ch ch).proto with
  | noProto => exact absurd proto hp
  | raw =>
    rw [proto] at hr
    exact drainSnapshot_of_boundary (frameBoundary_raw (s := s.select ch .rx) proto) hs rfl hr
  | hdlc =>
    rw [proto] at hr
    have boundary := frameBoundary_hdlc_read (s := s.select ch .rx) (more := false :: more) hs rfl proto hr
    have counters := drainSnapshot_of_boundary (more := more) boundary hs rfl rfl
    rw [State.setEnv_env, afterReads_afterReads] at counters
    exact counters

/-- A pass of the loop past its counters (R113). -/
theorem drainLoop_of_snapshot {complete : Bool} {avail : Nat} (h : drainSnapshot ch s = (some (complete, avail), s')) (n : Nat) :
    drainLoop ch (n + 1) s =
      if avail = 0 then s'
      else if s'.cfg.maxlen + 3 < (s'.ch ch).rxbuf.length + avail then dropOversize ch s'
      else if (s'.ch ch).proto = .raw then deliverTransparent ch (popBytes ch avail s')
      else if complete = false then popBytes ch avail s'
      else drainLoop ch n (finishFrame ch (ringFrameAck (popBytes ch avail s'))) := by
  simp only [drainLoop, h]
  rfl

/-- A SERVICE for receive whose reads do not fail: its first pass, and as many more as there are closed frames. -/
theorem exec_service_rx (hup : s.ctl = .up) (hopen : (s.ch ch).isOpen = true) (hp : (s.ch ch).proto ≠ .noProto)
    (hs : s.env.sched = []) (hr : s.env.reads = (if (s.ch ch).proto = .hdlc then [false, false] else [false]) ++ more) :
    exec (.service ch false true) s = .next (State.answer
      (if drainAvail s ch = 0 then s.drainSnapped ch more
      else if s.cfg.maxlen + 3 < (s.ch ch).rxbuf.length + drainAvail s ch then dropOversize ch (s.drainSnapped ch more)
      else if (s.ch ch).proto = .raw then deliverTransparent ch (popBytes ch (drainAvail s ch) (s.drainSnapped ch more))
      else if frameClosed s ch = false then popBytes ch (drainAvail s ch) (s.drainSnapped ch more)
      else drainLoop ch (rxFrames s.cfg (s.ring ch .rx))
        (finishFrame ch (ringFrameAck (popBytes ch (drainAvail s ch) (s.drainSnapped ch more))))) .ok) := by
  have passes : drainPasses ch s = rxFrames s.cfg (s.ring ch .rx) + 1 := by simp [drainPasses, pendingStimuli, hs]
  rw [exec_service_of_active hup hopen hp, serve_rx, receiveDrain_of_active hp, passes,
    drainLoop_of_snapshot (drainSnapshot_read hp hs hr)]
  rfl

/-- A quiet pop of written cells moves the read counter and fills the buffer (R116). -/
theorem popBytes_updates {l : List Byte} (hs : s.env.sched = []) (hsel : s.sel = some (ch, .rx))
    (written : ∀ i < l.length, s.cell ch .rx ((incZ s.cfg)^[i] (s.ring ch .rx).z2) = l[i]?) :
    popBytes ch l.length s = (s.setRing ch .rx
      { s.ring ch .rx with z2 := (incZ s.cfg)^[l.length] (s.ring ch .rx).z2 }).setChan ch
        { s.ch ch with rxbuf := (s.ch ch).rxbuf ++ l } := by
  have popped := popBytes_quiet ch l s hs hsel written
  generalize popBytes ch l.length s = t at *
  have hchan : t.chan = s.chan.set ch.val { s.ch ch with rxbuf := (s.ch ch).rxbuf ++ l } ch.isLt :=
    vector_ext_get fun k => (popped.record k).trans (get_set_fin ..).symm
  have hring : t.rxRing =
      s.rxRing.set ch.val { s.ring ch .rx with z2 := (incZ s.cfg)^[l.length] (s.ring ch .rx).z2 } ch.isLt := by
    refine vector_ext_get fun k => ?_
    rw [get_set_fin]
    simpa [State.ring] using popped.rings k .rx
  have rest := popped.rest
  rwa [hchan, hring] at rest

theorem z1rep_of_none_closed {c : Config} {r : Ring} (h : r.f1 = r.f2) : z1rep c r = r.z1 := if_pos h

theorem frameClosed_of_none_closed (h : (s.ring ch .rx).f1 = (s.ring ch .rx).f2) : frameClosed s ch = false := by
  simp [frameClosed, h]

/-- With no closed frame the available bytes are the unread ones. -/
theorem drainAvail_of_none_closed (h : (s.ring ch .rx).f1 = (s.ring ch .rx).f2) :
    drainAvail s ch = rxUnread s.cfg (s.ring ch .rx) := by
  simp [drainAvail, frameClosed_of_none_closed h, z1rep_of_none_closed h, rxUnread]

end

/-! ### An open frame, and a transparent channel (R114, R116, R118) -/

section
variable {s : State} {ch : ChanId} {bytes : List Byte} {more : List Bool}

/-- The state of a call once the unread bytes are popped. -/
def State.drained (s : State) (ch : ChanId) (bytes : List Byte) (more : List Bool) : State :=
  ((s.drainSnapped ch more).setRing ch .rx { s.ring ch .rx with z2 := (s.ring ch .rx).z1 }).setChan ch
    { s.ch ch with rxbuf := (s.ch ch).rxbuf ++ bytes }

theorem popBytes_drained (hs : s.env.sched = []) (hr : Ring.inRange s.cfg (s.ring ch .rx))
    (len : bytes.length = rxUnread s.cfg (s.ring ch .rx))
    (written : ∀ i < bytes.length, s.cell ch .rx ((incZ s.cfg)^[i] (s.ring ch .rx).z2) = bytes[i]?) :
    popBytes ch bytes.length (s.drainSnapped ch more) = s.drained ch bytes more := by
  have popped := popBytes_updates (s := s.drainSnapped ch more) (ch := ch) hs rfl written
  have end_z : (incZ s.cfg)^[bytes.length] (s.ring ch .rx).z2 = (s.ring ch .rx).z1 := by
    rw [len]
    exact incZ_iterate_zmod_sub hr.1 hr.2.1
  rw [popped, State.drained, ← end_z]
  rfl

end

/-- Settles O38: with no closed frame the call ends with the pop of the unread bytes, be there any or none. -/
theorem drainKeepsPartialFrame : Obligations.DrainKeepsPartialFrame := by
  intro s ch bytes more hc hr hup hopen hdlc hs reads none_closed len written fits
  have call := exec_service_rx (more := more) hup hopen (by simp [hdlc]) hs (by simpa [hdlc] using reads)
  have framed : (s.ch ch).proto ≠ .raw := by simp [hdlc]
  rw [drainAvail_of_none_closed none_closed, ← len, if_neg (Nat.not_lt.2 fits), if_neg framed,
    if_pos (frameClosed_of_none_closed none_closed)] at call
  have popped : (if bytes.length = 0 then s.drainSnapped ch more else popBytes ch bytes.length (s.drainSnapped ch more)) =
      popBytes ch bytes.length (s.drainSnapped ch more) := by
    split
    · rename_i nothing
      rw [nothing]
      rfl
    · rfl
  rw [call, popped, popBytes_drained hs hr len written]
  refine ⟨_, rfl, ?_, ?_, rfl, rfl, ?_⟩ <;> simp [State.drained, State.drainSnapped]

/-- Settles O39: the bytes popped are all unread ones; the buffer is then delivered or kept. -/
theorem drainDeliversTransparent : Obligations.DrainDeliversTransparent := by
  intro s ch bytes more hc hr hup hopen raw hs reads none_closed len
  have call := exec_service_rx (more := more) hup hopen (by simp [raw]) hs (by simpa [raw] using reads)
  rw [drainAvail_of_none_closed none_closed, ← len] at call
  refine ⟨?_, fun some_unread written fits => ?_⟩
  · rintro rfl
    rw [call, List.length_nil, if_pos rfl, State.drainSnapped, raw]
    rfl
  · rw [if_neg (List.length_eq_zero_iff.not.2 some_unread), if_neg (Nat.not_lt.2 fits), if_pos raw,
      popBytes_drained hs hr len written] at call
    have buffer : ((s.drained ch bytes more).ch ch).rxbuf = (s.ch ch).rxbuf ++ bytes := by simp [State.drained]
    have full_iff : (s.drained ch bytes more).cfg.transpThreshold ≤ ((s.drained ch bytes more).ch ch).rxbuf.length ↔
        s.cfg.transpThreshold ≤ (s.ch ch).rxbuf.length + bytes.length := by
      rw [buffer, List.length_append]
      rfl
    refine ⟨_, call, ?_⟩
    unfold deliverTransparent
    by_cases full : s.cfg.transpThreshold ≤ (s.ch ch).rxbuf.length + bytes.length
    · rw [if_pos (full_iff.2 full), buffer]
      refine ⟨?_, ?_, rfl, fun _ => ⟨rfl, ?_⟩, fun short => by omega⟩ <;> simp [State.drained, State.drainSnapped]
    · rw [if_neg (mt full_iff.1 full)]
      refine ⟨?_, ?_, rfl, fun enough => absurd enough full, fun _ => ⟨rfl, ?_⟩⟩ <;> simp [State.drained, State.drainSnapped]

/-! ### An oversize buffer (R115) -/

theorem dropOversize_quiet {s : State} {ch : ChanId} (hs : s.env.sched = []) (hsel : s.sel = some (ch, .rx)) :
    dropOversize ch s = (((s.setChan ch { s.ch ch with rxbuf := [] }).setRing ch .rx
      ((s.ring ch .rx).clear s.cfg)).setOvf ch false).diag (.rxOversize ch) := by
  unfold dropOversize
  rw [ringReset, State.yield_of_sched_nil (s.modChan ch fun c => { c with rxbuf := [] }) hs, resetNow, State.modChan_sel, hsel]
  rfl

/-- Settles O40: past the size test the pass ends with `dropOversize`, before any byte is popped. -/
theorem drainDiscardsOversize : Obligations.DrainDiscardsOversize := by
  intro s ch more avail hup hopen hp hs reads havail some_unread oversize
  obtain ⟨more', reads'⟩ : ∃ more', s.env.reads = (if (s.ch ch).proto = .hdlc then [false, false] else [false]) ++ more' := by
    split
    · exact ⟨more, reads⟩
    · exact ⟨false :: more, reads⟩
  have same : drainAvail s ch = avail := by
    rw [havail, drainAvail, frameClosed]
    congr 1
    split <;> simp_all
  have call := exec_service_rx hup hopen hp hs reads'
  rw [same, if_neg some_unread, if_pos oversize, dropOversize_quiet (s := s.drainSnapped ch more') hs rfl] at call
  refine ⟨_, call, ?_, ?_, ?_, rfl, rfl, rfl⟩
  · simp [State.drainSnapped]
  · simp [State.drainSnapped, Ring.clear]
  · simp

end Sys2Proof.Machine

/-! PROOFS. receive_drain on a framed channel with a closed frame, when no line-side step lands inside (R114, R116, R117, R119). -/

namespace Sys2Proof.Machine

section
variable {s : State} {ch : ChanId} {bytes init : List Byte} {st : Byte} {last : Nat} {more : List Bool}

/-! ### A closed frame (R117) -/

/-- What a frame with the bytes `init` and the status byte `st` is delivered as (R117). -/
def frameEvents (ch : ChanId) (init : List Byte) (st : Byte) : List Event :=
  if 4 ≤ init.length + 1 ∧ st = 0 then [.rx ch init] else []

/-- What is diagnosed of a frame with the bytes `init` and the status byte `st` (R117). -/
def frameDiags (ch : ChanId) (init : List Byte) (st : Byte) : List Diag :=
  if init.length + 1 < 4 then [.rxShort ch (init.length + 1)] else if st ≠ 0 then [.rxCrc ch st] else []

/-- Events and diagnostics put out. -/
def State.reported (s : State) (evs : List Event) (diags : List Diag) : State :=
  { s with evq := s.evq ++ evs, diagq := s.diagq ++ diags }

theorem reported_setChan (x : Channel) (evs : List Event) (diags : List Diag) :
    (s.setChan ch x).reported evs diags = (s.reported evs diags).setChan ch x := rfl

theorem emit_eq_reported (e : Event) : s.emit e = s.reported [e] [] := by simp [State.emit, State.reported]

theorem diag_eq_reported (d : Diag) : s.diag d = s.reported [] [d] := by simp [State.diag, State.reported]

theorem finishFrame_eq (h : (s.ch ch).rxbuf = init ++ [st]) :
    finishFrame ch s =
      (s.reported (frameEvents ch init st) (frameDiags ch init st)).modChan ch fun c => { c with rxbuf := [] } := by
  have len : (init ++ [st]).length = init.length + 1 := by simp
  have status : (init ++ [st]).getLastD 0 = st := by simp
  have body : (init ++ [st]).take (init.length + 1 - rxTrailerLen) = init := by simp [rxTrailerLen]
  unfold finishFrame frameEvents frameDiags
  rw [h, len, status, body, emit_eq_reported, diag_eq_reported, diag_eq_reported]
  by_cases short : init.length + 1 < 4
  · rw [if_pos short, if_pos (show _ < rxMinLen from short), if_neg (by omega)]
  · rw [if_neg short, if_neg (show ¬ _ < rxMinLen from short)]
    by_cases ok : st = 0
    · rw [if_neg (not_not.2 ok), if_neg (not_not.2 ok), if_pos ⟨by omega, ok⟩]
    · rw [if_pos ok, if_pos ok, if_neg (fun h => ok h.2)]

theorem ringFrameAck_quiet (hs : s.env.sched = []) (hsel : s.sel = some (ch, .rx)) :
    ringFrameAck s = s.setRing ch .rx { s.ring ch .rx with f2 := incF s.cfg (s.ring ch .rx).f2 } := by
  rw [ringFrameAck, State.yield_of_sched_nil s hs, frameAckNow, hsel]

/-! ### The counters with a frame closed (R114) -/

theorem frameClosed_of_closed (hdlc : (s.ch ch).proto = .hdlc) (some_closed : (s.ring ch .rx).f1 ≠ (s.ring ch .rx).f2) :
    frameClosed s ch = true := by
  simp [frameClosed, hdlc, some_closed]

theorem z1rep_of_closed {c : Config} {r : Ring} (some_closed : r.f1 ≠ r.f2) (hlast : r.fend[incF c r.f2]? = some last) :
    z1rep c r = last := by
  rw [z1rep, if_neg some_closed, List.getD_eq_getElem?_getD, hlast]
  rfl

/-- The available bytes are those of the oldest frame, its status byte included. -/
theorem drainAvail_of_closed (hdlc : (s.ch ch).proto = .hdlc) (some_closed : (s.ring ch .rx).f1 ≠ (s.ring ch .rx).f2)
    (hlast : (s.ring ch .rx).fend[incF s.cfg (s.ring ch .rx).f2]? = some last) :
    drainAvail s ch = zmod s.cfg ((last : Int) - (s.ring ch .rx).z2) + 1 := by
  rw [drainAvail, frameClosed_of_closed hdlc some_closed, z1rep_of_closed some_closed hlast]
  rfl

/-! ### The frame eaten (R119) -/

/-- The state of a call once the oldest frame, which ends at `last` and leaves `init` and `st` in the buffer, is handled. -/
def State.frameEaten (s : State) (ch : ChanId) (last : Nat) (init : List Byte) (st : Byte) (more : List Bool) : State :=
  { s with
    chan := s.chan.set ch.val { s.ch ch with rxbuf := [] } ch.isLt
    rxRing := s.rxRing.set ch.val
      { s.ring ch .rx with z2 := incZ s.cfg last, f2 := incF s.cfg (s.ring ch .rx).f2 } ch.isLt
    sel := some (ch, .rx)
    evq := s.evq ++ frameEvents ch init st
    diagq := s.diagq ++ frameDiags ch init st
    env := s.env.afterReads ch [(.rxF1, false), (.rxZ1rep, false)] more }

theorem frameEaten_ch : (s.frameEaten ch last init st more).ch ch = { s.ch ch with rxbuf := [] } := by
  simp [State.frameEaten, State.ch, get_set_fin]

theorem frameEaten_ring : (s.frameEaten ch last init st more).ring ch .rx =
    { s.ring ch .rx with z2 := incZ s.cfg last, f2 := incF s.cfg (s.ring ch .rx).f2 } := by
  simp [State.frameEaten, State.ring, get_set_fin]

/-- The frame is popped, acknowledged and handed over (R116, R117). -/
theorem finishFrame_popped (hdlc : (s.ch ch).proto = .hdlc) (hr : Ring.inRange s.cfg (s.ring ch .rx)) (hs : s.env.sched = [])
    (hlast : (s.ring ch .rx).fend[incF s.cfg (s.ring ch .rx).f2]? = some last)
    (len : bytes.length = zmod s.cfg ((last : Int) - (s.ring ch .rx).z2) + 1)
    (written : ∀ i < bytes.length, s.cell ch .rx ((incZ s.cfg)^[i] (s.ring ch .rx).z2) = bytes[i]?)
    (buffer : (s.ch ch).rxbuf ++ bytes = init ++ [st]) :
    finishFrame ch (ringFrameAck (popBytes ch bytes.length (s.drainSnapped ch more))) =
      s.frameEaten ch last init st more := by
  obtain ⟨-, hz2, -, -, -, ends⟩ := hr
  have end_z : (incZ s.cfg)^[bytes.length] (s.ring ch .rx).z2 = incZ s.cfg last := by
    rw [len, Function.iterate_succ_apply', incZ_iterate_zmod_sub (ends last (List.mem_of_getElem? hlast)) hz2]
  have popped := popBytes_updates (s := s.drainSnapped ch more) (ch := ch) hs rfl written
  generalize ht : popBytes ch bytes.length (s.drainSnapped ch more) = t at *
  have popped : t = ((s.drainSnapped ch more).setRing ch .rx { s.ring ch .rx with z2 := incZ s.cfg last }).setChan ch
      { s.ch ch with rxbuf := init ++ [st] } := by
    rw [popped, ← buffer, ← end_z]
    rfl
  have acked : ringFrameAck t = ((s.drainSnapped ch more).setRing ch .rx
      { s.ring ch .rx with z2 := incZ s.cfg last, f2 := incF s.cfg (s.ring ch .rx).f2 }).setChan ch
      { s.ch ch with rxbuf := init ++ [st] } := by
    rw [ringFrameAck_quiet (by rw [popped]; exact hs) (by rw [popped]; rfl), popped, setRing_setChan, setRing_setRing]
    simp [State.drainSnapped]
  rw [acked, finishFrame_eq (init := init) (st := st) (by simp), reported_setChan, modChan_setChan]
  simp only [State.reported, State.frameEaten, State.drainSnapped, State.setRing, State.setChan, State.select, State.setEnv, drainReads, hdlc]
  rfl

/-- A call with a closed frame whose buffer does not pass MAXLEN + 3 handles it and goes on (R113). -/
theorem exec_service_rx_of_closed (hup : s.ctl = .up) (hopen : (s.ch ch).isOpen = true) (hdlc : (s.ch ch).proto = .hdlc)
    (hs : s.env.sched = []) (reads : s.env.reads = false :: false :: more) (hr : Ring.inRange s.cfg (s.ring ch .rx))
    (some_closed : (s.ring ch .rx).f1 ≠ (s.ring ch .rx).f2)
    (hlast : (s.ring ch .rx).fend[incF s.cfg (s.ring ch .rx).f2]? = some last)
    (len : bytes.length = zmod s.cfg ((last : Int) - (s.ring ch .rx).z2) + 1)
    (written : ∀ i < bytes.length, s.cell ch .rx ((incZ s.cfg)^[i] (s.ring ch .rx).z2) = bytes[i]?)
    (buffer : (s.ch ch).rxbuf ++ bytes = init ++ [st]) (fits : init.length + 1 ≤ s.cfg.maxlen + 3) :
    exec (.service ch false true) s =
      .next ((drainLoop ch (rxFrames s.cfg (s.ring ch .rx)) (s.frameEaten ch last init st more)).answer .ok) := by
  have buffered : (s.ch ch).rxbuf.length + bytes.length = init.length + 1 := by simpa using congrArg List.length buffer
  rw [exec_service_rx hup hopen (by simp [hdlc]) hs (by simpa [hdlc] using reads), drainAvail_of_closed hdlc some_closed hlast, ← len,
    if_neg (by omega), if_neg (by omega), if_neg (by simp [hdlc]),
    if_neg (by simp [frameClosed_of_closed hdlc some_closed]), finishFrame_popped hdlc hr hs hlast len written buffer]

/-- A call in the state that the loop has reached goes on with as many passes. -/
theorem exec_service_rx_frameEaten (hup : s.ctl = .up) (hopen : (s.ch ch).isOpen = true) (hdlc : (s.ch ch).proto = .hdlc)
    (hs : s.env.sched = []) (hr : Ring.inRange s.cfg (s.ring ch .rx)) (some_closed : (s.ring ch .rx).f1 ≠ (s.ring ch .rx).f2) :
    exec (.service ch false true) (s.frameEaten ch last init st more) =
      .next ((drainLoop ch (rxFrames s.cfg (s.ring ch .rx)) (s.frameEaten ch last init st more)).answer .ok) := by
  obtain ⟨-, -, hf1, hf2, -, -⟩ := hr
  have record := frameEaten_ch (s := s) (ch := ch) (last := last) (init := init) (st := st) (more := more)
  have ring := frameEaten_ring (s := s) (ch := ch) (last := last) (init := init) (st := st) (more := more)
  have fields : (s.frameEaten ch last init st more).ctl = .up ∧ (s.frameEaten ch last init st more).env.sched = []
      ∧ (s.frameEaten ch last init st more).sel = some (ch, .rx) ∧ (s.frameEaten ch last init st more).cfg = s.cfg := by
    simp [State.frameEaten, Env.afterReads, hup, hs]
  generalize s.frameEaten ch last init st more = eaten at *
  obtain ⟨eup, equiet, esel, ecfg⟩ := fields
  have selected : eaten.select ch .rx = eaten := by rw [State.select, ← esel]
  have active : (eaten.ch ch).proto ≠ .noProto := by rw [record]; simp [hdlc]
  have passes : drainPasses ch eaten = rxFrames s.cfg (s.ring ch .rx) := by
    rw [← rxFrames_ack (r' := eaten.ring ch .rx) hf1 hf2 some_closed (by rw [ring]) (by rw [ring]), ← ecfg]
    simp [drainPasses, pendingStimuli, equiet]
  rw [exec_service_of_active eup (by rw [record]; exact hopen) active, serve_rx, receiveDrain_of_active active, passes, selected]

/-- With nothing left in the ring a call reads its counters and ends (R114). -/
theorem exec_service_rx_of_empty (hup : s.ctl = .up) (hopen : (s.ch ch).isOpen = true) (hdlc : (s.ch ch).proto = .hdlc)
    (hs : s.env.sched = []) (reads : s.env.reads = false :: false :: more)
    (none_closed : (s.ring ch .rx).f1 = (s.ring ch .rx).f2) (none_unread : (s.ring ch .rx).z1 = (s.ring ch .rx).z2) :
    exec (.service ch false true) s = .next ((s.drainSnapped ch more).answer .ok) := by
  have nothing : rxUnread s.cfg (s.ring ch .rx) = 0 := by simp [rxUnread, none_unread, zmod]
  rw [exec_service_rx hup hopen (by simp [hdlc]) hs (by simpa [hdlc] using reads), drainAvail_of_none_closed none_closed, nothing,
    if_pos rfl]

end

/-- Settles O37: the first pass reaches `eaten`, where the passes that are left are those of a call. -/
theorem drainConsumesFrame : Obligations.DrainConsumesFrame := by
  intro s eaten ch bytes init st last more hc hr hup hopen hdlc hs reads some_closed hlast len written buffer fits heaten
  have same : eaten = s.frameEaten ch last init st more := heaten
  have goes_on : exec (.service ch false true) s = exec (.service ch false true) eaten := by
    rw [exec_service_rx_of_closed hup hopen hdlc hs reads hr some_closed hlast len written buffer fits, same,
      exec_service_rx_frameEaten hup hopen hdlc hs hr some_closed]
  refine ⟨goes_on, fun last_closed last_byte rest hmore => ?_⟩
  have record : eaten.ch ch = { s.ch ch with rxbuf := [] } := same ▸ frameEaten_ch
  have ring : eaten.ring ch .rx = { s.ring ch .rx with z2 := incZ s.cfg last, f2 := incF s.cfg (s.ring ch .rx).f2 } :=
    same ▸ frameEaten_ring
  have fields : eaten.ctl = .up ∧ eaten.env.sched = [] ∧ eaten.env.reads = more ∧ eaten.sel = some (ch, .rx) := by
    simp [same, State.frameEaten, Env.afterReads, hup, hs]
  clear same heaten
  obtain ⟨eup, equiet, ereads, esel⟩ := fields
  have framed : (eaten.ch ch).proto = .hdlc := by rw [record]; exact hdlc
  rw [goes_on, exec_service_rx_of_empty eup (by rw [record]; exact hopen) framed equiet (ereads.trans hmore)
    (by rw [ring]; exact last_closed) (by rw [ring]; exact last_byte)]
  simp [State.drainSnapped, State.select, State.setEnv, State.answer, drainReads, framed, esel]

end Sys2Proof.Machine

/-! PROOFS. OPEN, SET_MODE, CONF_JOIN and CONF_SPLIT (R150 to R165): what they leave of the channel record, the routing tables, the
diagnostics and the rings. -/

namespace Sys2Proof.Machine

/-! ### The record SetModeCore leaves (R151), field by field -/

/-- The flow control of a protocol (R156). -/
def Proto.flow : Proto → Flow
  | .noProto => .off
  | .raw => .transp
  | .hdlc => .hdlc

theorem subModeOf_eq (g : Config) (ch : ChanId) :
    subModeOf g ch =
      if kindOfChan g ch = none then .na else if kindOfChan g ch = some .trunk then .multi else .single := by
  unfold subModeOf
  cases kindOfChan g ch with
  | none => rfl
  | some kind => cases kind <;> rfl

theorem modeRecord_eq (g : Config) (ch : ChanId) (pe : Proto) (tS : Option Slot) (tB : Bank) (rS : Option Slot) (rB : Bank)
    (eb : Bool) (c : Channel) :
    modeRecord g ch pe tS tB rS rB eb c =
      { c with
        proto := pe
        txSlot := tS
        rxSlot := rS
        txBank := tB
        rxBank := rB
        eb := eb
        flowTx := pe.flow
        flowRx := pe.flow
        frameIrq := pe == .hdlc
        subMode := if pe ≠ .hdlc ∨ kindOfChan g ch = none then .na
          else if kindOfChan g ch = some .trunk then .multi else .single
        echoBypass := pe == .raw && eb
        txState := if pe = c.proto then c.txState else .resetPending
        cursor := if pe = c.proto then c.cursor else 0
        rxbuf := if pe = c.proto then c.rxbuf else []
        txSrc := if pe = .raw ∧ tS.isSome = true ∧ c.txq = [] ∧ (pe ≠ c.proto ∨ c.cursor = 0) then .hwy else .fifo } := by
  by_cases same : pe = c.proto
  · cases pe <;> simp [modeRecord, programFlow, sourceAfter, Proto.flow, subModeOf_eq, ← same]
  · cases pe <;> simp [modeRecord, programFlow, sourceAfter, Proto.flow, subModeOf_eq, same]

theorem modeRecord_modeRecord (g : Config) (ch : ChanId) (pe : Proto) (tS : Option Slot) (tB : Bank) (rS : Option Slot) (rB : Bank)
    (eb : Bool) (c : Channel) :
    modeRecord g ch pe tS tB rS rB eb (modeRecord g ch pe tS tB rS rB eb c) = modeRecord g ch pe tS tB rS rB eb c := by
  by_cases same : pe = c.proto <;> simp [modeRecord_eq, same]

/-- The rings, through their accessor. -/
theorem ring_eq_of_tables {s t : State} (tx : t.txRing = s.txRing) (rx : t.rxRing = s.rxRing) : t.ring = s.ring := by
  funext k d
  cases d
  · simp only [State.ring, tx]
  · simp only [State.ring, rx]

/-! ### SET_MODE (R150) -/

theorem slotInRange_requestedSlot {g : Config} {valid : Bool} {slot : Slot} (h : valid = true → slot.val < hwSlots g) :
    slotInRange g (requestedSlot valid slot) = true := by
  cases valid
  · rfl
  · simpa [requestedSlot, slotInRange] using h rfl

theorem requestedSlot_eq_some {valid : Bool} {slot x : Slot} : requestedSlot valid slot = some x ↔ valid = true ∧ slot = x := by
  cases valid <;> simp [requestedSlot]

theorem routeMode_eq (conf : Option ConfId) (bank : Bank) :
    routeMode conf bank = if conf ≠ none ∨ 1 < bank.val then .loop else .direct := by
  cases conf <;> simp [routeMode]

/-- The answer of a SET_MODE that fails a check, in the order of R252; it depends on the configuration and `ctl` alone. -/
def setModeRejection (g : Config) (ctl : Ctl) (ch : ChanId) (tS rS : Option Slot) : Option Resp :=
  if ctl ≠ .up then some .notUp
  else if g.roleOf.get ch = .unused then some .badChannel
  else if slotInRange g tS = false ∨ slotInRange g rS = false then some .badSlot
  else none

section
variable {s : State} {ch : ChanId} {proto : ProtoField} {tv : Bool} {tS : Slot} {tB : Bank} {rv : Bool} {rS : Slot} {rB : Bank}
  {eb : Bool}

theorem exec_setMode_of_rejected {r : Resp}
    (h : setModeRejection s.cfg s.ctl ch (requestedSlot tv tS) (requestedSlot rv rS) = some r) :
    exec (.setMode ch proto tv tS tB rv rS rB eb) s = .next (s.answer r) := by
  unfold setModeRejection at h
  simp only [exec, execSetMode]
  split_ifs at h ⊢ <;> simp_all

theorem exec_setMode_of_passed
    (h : setModeRejection s.cfg s.ctl ch (requestedSlot tv tS) (requestedSlot rv rS) = none) :
    exec (.setMode ch proto tv tS tB rv rS rB eb) s =
      .next ((setModeCore ch proto (requestedSlot tv tS) tB (requestedSlot rv rS) rB eb s).answer
        (if proto = .unsupported then .badProtocol else .ok)) := by
  unfold setModeRejection at h
  simp only [exec, execSetMode]
  split_ifs at h ⊢ <;> simp_all

theorem exec_setMode_of_accepted (hup : s.ctl = .up) (used : s.cfg.roleOf.get ch ≠ .unused)
    (txOk : tv = true → tS.val < hwSlots s.cfg) (rxOk : rv = true → rS.val < hwSlots s.cfg) :
    exec (.setMode ch proto tv tS tB rv rS rB eb) s =
      .next ((setModeCore ch proto (requestedSlot tv tS) tB (requestedSlot rv rS) rB eb s).answer
        (if proto = .unsupported then .badProtocol else .ok)) :=
  exec_setMode_of_passed
    (by simp [setModeRejection, hup, used, slotInRange_requestedSlot txOk, slotInRange_requestedSlot rxOk])

end

/-- Settles O18: the record is `modeRecord`, field by field, and the frame has the other channels. -/
theorem setModeChannelRecord : Obligations.SetModeChannelRecord := by
  intro s ch proto tv tS tB rv rS rB eb pe flow hup used txOk rxOk fields
  obtain ⟨rfl, rfl⟩ : pe = effectiveProto proto ∧ flow = (effectiveProto proto).flow := by
    rcases fields with ⟨rfl | rfl, rfl, rfl⟩ | ⟨rfl, rfl, rfl⟩ | ⟨rfl, rfl, rfl⟩ <;> exact ⟨rfl, rfl⟩
  refine ⟨_, exec_setMode_of_accepted hup used txOk rxOk, rfl, ?_, (setModeCore_frame ch proto _ tB _ rB eb s).others⟩
  rw [State.answer_ch, setModeCore_ch, modeRecord_eq]
  cases tv <;> rfl

/-- Settles O19: what SetModeCore does to the routing tables at any slot, and to the diagnostics. -/
theorem setModeRouting : Obligations.SetModeRouting := by
  intro s ch proto tv tS tB rv rS rB eb hup used txOk rxOk
  refine ⟨_, exec_setMode_of_accepted hup used txOk rxOk, ?_, ?_⟩
  · intro d valid slot bank hd
    have requested : ∀ x, d.pick (requestedSlot tv tS) (requestedSlot rv rS) = some x ↔ valid = true ∧ slot = x := by
      intro x
      rcases hd with hd | hd <;> cases hd <;> exact requestedSlot_eq_some
    have banked : d.pick tB rB = bank := by rcases hd with hd | hd <;> cases hd <;> rfl
    have routes := fun x => setModeCore_routes ch proto (requestedSlot tv tS) tB (requestedSlot rv rS) rB eb s x d
    simp only [requested, banked, routeMode_eq] at routes
    simp only [State.answer_ownAt, State.answer_regAt]
    refine ⟨fun hv => ?_, fun old stored given => ⟨fun owner => ?_, fun stale => ?_⟩, fun other away unstored => ?_⟩
    · simpa [hv] using routes slot
    · simpa [given, stored, owner] using routes old
    · simpa [given, stale] using routes old
    · simpa [away, unstored] using routes other
  · rw [State.answer_diagq, setModeCore_diagq]
    cases tx : (s.ch ch).txSlot <;> cases rx : (s.ch ch).rxSlot <;> simp [Channel.slot, requestedSlot_eq_some, tx, rx]

/-- Settles O20: SetModeCore's rings, and its frame when no line-side step lands inside. -/
theorem setModeRingEffect : Obligations.SetModeRingEffect := by
  intro s ch proto tv tS tB rv rS rB eb hup used txOk rxOk hs
  refine ⟨_, exec_setMode_of_accepted hup used txOk rxOk, ?_⟩
  have frame := setModeCore_frame ch proto (requestedSlot tv tS) tB (requestedSlot rv rS) rB eb s
  obtain ⟨kept, reset⟩ := setModeCore_rings ch proto (requestedSlot tv tS) tB (requestedSlot rv rS) rB eb s
  obtain ⟨mem, -, -, -, rings, ovfs⟩ := frame.quiet hs
  refine ⟨fun same => ?_, fun changed => ?_, ?_, fun a => ?_⟩
  · obtain ⟨tx, rx, ovf, sel, -⟩ := kept same
    exact ⟨ring_eq_of_tables tx rx, ovf, sel⟩
  · obtain ⟨sel, ovf, r, ring, unmoved⟩ := reset changed
    exact ⟨by rw [State.answer_ring, ring, unmoved hs]; rfl, ovf, sel, rings, ovfs⟩
  · rw [State.answer_ch, frame.txq]
  · rw [State.answer_mem, mem]

/-- Settles O17: OPEN past its three guards. -/
theorem openBindsChannel : Obligations.OpenBindsChannel := by
  intro s ch hup used closed
  simp [exec, execOpen, hup, used, closed, State.modChan, State.setChan, State.answer]

/-! ### Arguments already in force (R160) -/

/-- Arguments that the channel's record and the routing tables hold already leave the state as it is. -/
theorem setModeCore_of_inForce (ch : ChanId) (p : ProtoField) (tS : Option Slot) (tB : Bank) (rS : Option Slot) (rB : Bank)
    (eb : Bool) (s : State) (record : modeRecord s.cfg ch (effectiveProto p) tS tB rS rB eb (s.ch ch) = s.ch ch)
    (routed : ∀ slot d, d.pick tS rS = some slot → s.ownAt (routeIx slot d) = some ch
      ∧ s.regAt (routeIx slot d) = some ⟨ch, routeMode (s.ch ch).conf (d.pick tB rB), d.pick tB rB⟩) :
    setModeCore ch p tS tB rS rB eb s = s := by
  have proto : effectiveProto p = (s.ch ch).proto := by rw [← record]; rfl
  have stored : ∀ d, (s.ch ch).slot d = d.pick tS rS := fun d => by
    rw [← setModeCore_slot ch p tS tB rS rB eb s d, setModeCore_ch, record]
  have frame := setModeCore_frame ch p tS tB rS rB eb s
  have rings := (setModeCore_rings ch p tS tB rS rB eb s).1 proto
  have chan : (setModeCore ch p tS tB rS rB eb s).chan = s.chan := by
    refine vector_ext_get fun k => ?_
    by_cases hk : k = ch
    · rw [hk]; exact (setModeCore_ch ch p tS tB rS rB eb s).trans record
    · exact frame.others k hk
  have routes : ∀ slot d, (setModeCore ch p tS tB rS rB eb s).ownAt (routeIx slot d) = s.ownAt (routeIx slot d)
      ∧ (setModeCore ch p tS tB rS rB eb s).regAt (routeIx slot d) = s.regAt (routeIx slot d) := by
    intro slot d
    have routes := setModeCore_routes ch p tS tB rS rB eb s slot d
    by_cases requested : d.pick tS rS = some slot
    · obtain ⟨own, reg⟩ := routed slot d requested
      simpa only [if_pos requested, ← own, ← reg] using routes
    · simpa only [stored, requested, false_and, if_false] using routes
  have own : (setModeCore ch p tS tB rS rB eb s).own = s.own := by
    refine vector_ext_get fun i => ?_
    obtain ⟨slot, d, rfl⟩ := exists_routeIx i
    exact (routes slot d).1
  have slotReg : (setModeCore ch p tS tB rS rB eb s).slotReg = s.slotReg := by
    refine vector_ext_get fun i => ?_
    obtain ⟨slot, d, rfl⟩ := exists_routeIx i
    exact (routes slot d).2
  have diagq : (setModeCore ch p tS tB rS rB eb s).diagq = s.diagq := by
    rw [setModeCore_diagq, stored, stored]
    cases tS <;> cases rS <;> simp
  obtain ⟨txRing, rxRing, rxOvf, sel, mem, lineIn, status, env⟩ := rings
  have ⟨cfg, ctl, port, evq, lineq, resp, _, _, _, _, _, _⟩ := frame
  clear record routed proto stored frame routes
  generalize setModeCore ch p tS tB rS rB eb s = t at *
  cases t
  simp only at *
  subst_vars
  rfl

/-- What SetModeCore leaves is in force (R160); the answer is no part of it. -/
theorem setModeCore_setModeCore (ch : ChanId) (p : ProtoField) (tS : Option Slot) (tB : Bank) (rS : Option Slot) (rB : Bank)
    (eb : Bool) (s : State) (r : Resp) : setModeCore ch p tS tB rS rB eb ((setModeCore ch p tS tB rS rB eb s).answer r) =
      (setModeCore ch p tS tB rS rB eb s).answer r := by
  have frame := setModeCore_frame ch p tS tB rS rB eb s
  apply setModeCore_of_inForce
  · simp only [State.answer_ch, State.answer_cfg, setModeCore_ch, frame.cfg, modeRecord_modeRecord]
  · intro slot d requested
    have routes := setModeCore_routes ch p tS tB rS rB eb s slot d
    rw [if_pos requested, if_pos requested, ← frame.conf] at routes
    exact routes

/-- Settles O21: what SetModeCore leaves is in force, and what rejects a SET_MODE is the same in the state it leaves. -/
theorem setModeIsIdempotent : Obligations.SetModeIsIdempotent := by
  intro s t ch proto tv tS tB rv rS rB eb h
  cases check : setModeRejection s.cfg s.ctl ch (requestedSlot tv tS) (requestedSlot rv rS) with
  | some r =>
    rw [exec_setMode_of_rejected check] at h
    cases h
    exact exec_setMode_of_rejected check
  | none =>
    rw [exec_setMode_of_passed check] at h
    cases h
    have frame := setModeCore_frame ch proto (requestedSlot tv tS) tB (requestedSlot rv rS) rB eb s
    rw [exec_setMode_of_passed, setModeCore_setModeCore]
    · rfl
    · rw [State.answer_cfg, State.answer_ctl, frame.cfg, frame.ctl, check]

/-! ### CONF_JOIN and CONF_SPLIT (R163, R164) -/

theorem effectiveProto_protoArg (p : Proto) : effectiveProto (protoArg p) = p := by cases p <;> rfl

/-- What CONF_JOIN and CONF_SPLIT do past their guards, with `conf` the channel's new conference. -/
def setConference (ch : ChanId) (conf : Option ConfId) (s : State) : State :=
  setModeStored ch (s.modChan ch fun c => { c with conf := conf })

section
variable (ch : ChanId) (conf : Option ConfId) (s : State)

theorem setConference_eq : setConference ch conf s =
    setModeCore ch (protoArg (s.ch ch).proto) (s.ch ch).txSlot (s.ch ch).txBank (s.ch ch).rxSlot (s.ch ch).rxBank (s.ch ch).eb
      (s.modChan ch fun c => { c with conf := conf }) := by
  simp only [setConference, setModeStored, State.modChan_ch, if_true]

theorem setConference_ch : (setConference ch conf s).ch ch =
    { s.ch ch with
      conf := conf
      flowTx := (s.ch ch).proto.flow
      flowRx := (s.ch ch).proto.flow
      frameIrq := (s.ch ch).proto == .hdlc
      subMode := if (s.ch ch).proto ≠ .hdlc ∨ kindOfChan s.cfg ch = none then .na
        else if kindOfChan s.cfg ch = some .trunk then .multi else .single
      echoBypass := (s.ch ch).proto == .raw && (s.ch ch).eb
      txSrc := if (s.ch ch).proto = .raw ∧ (s.ch ch).txSlot ≠ none ∧ (s.ch ch).txq = [] ∧ (s.ch ch).cursor = 0 then .hwy
        else .fifo } := by
  rw [setConference_eq, setModeCore_ch, modeRecord_eq, effectiveProto_protoArg, State.modChan_ch, if_pos rfl]
  simp only [if_true, ne_self_iff_false, false_or, State.modChan_cfg, Option.isSome_iff_ne_none]
  congr

theorem setConference_others (k : ChanId) (hk : k ≠ ch) : (setConference ch conf s).ch k = s.ch k := by
  rw [setConference_eq, (setModeCore_frame ..).others k hk, State.modChan_ch, if_neg (Ne.symm hk)]

theorem setConference_routes (slot : Slot) (d : Dir) :
    (setConference ch conf s).ownAt (routeIx slot d) =
        (if (s.ch ch).slot d = some slot then some ch else s.ownAt (routeIx slot d))
    ∧ (setConference ch conf s).regAt (routeIx slot d) =
        (if (s.ch ch).slot d = some slot then
          some ⟨ch, routeMode conf (d.pick (s.ch ch).txBank (s.ch ch).rxBank), d.pick (s.ch ch).txBank (s.ch ch).rxBank⟩
         else s.regAt (routeIx slot d)) := by
  have stored : d.pick (s.ch ch).txSlot (s.ch ch).rxSlot = (s.ch ch).slot d := by cases d <;> rfl
  have before : ((s.modChan ch fun c => { c with conf := conf }).ch ch).slot d = (s.ch ch).slot d := by
    rw [State.modChan_ch, if_pos rfl]; cases d <;> rfl
  have routes := setModeCore_routes ch (protoArg (s.ch ch).proto) (s.ch ch).txSlot (s.ch ch).txBank (s.ch ch).rxSlot
    (s.ch ch).rxBank (s.ch ch).eb (s.modChan ch fun c => { c with conf := conf }) slot d
  rw [stored, before, State.modChan_ch, if_pos rfl] at routes
  rw [setConference_eq]
  by_cases h : (s.ch ch).slot d = some slot
  · simpa only [h, if_true] using routes
  · simpa only [h, false_and, if_false, State.modChan_ownAt, State.modChan_regAt] using routes

/-- No slot is released, so nothing is logged; the protocol stays, so no ring is reset. -/
theorem setConference_kept : (setConference ch conf s).ring = s.ring ∧ (setConference ch conf s).mem = s.mem
    ∧ (setConference ch conf s).diagq = s.diagq ∧ (setConference ch conf s).evq = s.evq := by
  rw [setConference_eq]
  obtain ⟨txRing, rxRing, -, -, mem, -⟩ := (setModeCore_rings ch (protoArg (s.ch ch).proto) (s.ch ch).txSlot (s.ch ch).txBank
    (s.ch ch).rxSlot (s.ch ch).rxBank (s.ch ch).eb (s.modChan ch fun c => { c with conf := conf })).1
      (by simp [effectiveProto_protoArg])
  refine ⟨ring_eq_of_tables txRing rxRing, mem, ?_, (setModeCore_frame ..).evq⟩
  rw [setModeCore_diagq]
  cases htx : (s.ch ch).txSlot <;> cases hrx : (s.ch ch).rxSlot <;> simp [Channel.slot, htx, hrx]

end

theorem eq_flow_of_proto {c : Channel} {flow : Flow}
    (h : c.proto = .noProto ∧ flow = .off ∨ c.proto = .raw ∧ flow = .transp ∨ c.proto = .hdlc ∧ flow = .hdlc) :
    flow = c.proto.flow := by
  rcases h with ⟨hp, rfl⟩ | ⟨hp, rfl⟩ | ⟨hp, rfl⟩ <;> rw [hp] <;> rfl

/-- Settles O22: what `setConference` leaves, with a conference. -/
theorem confJoinRoutesLoop : Obligations.ConfJoinRoutesLoop := by
  intro s ch conf g flow hup used hg hflow
  have operand : confOperand conf = some g := by
    rw [confOperand, dif_pos (hg ▸ g.isLt)]
    exact congrArg some (Fin.ext hg.symm)
  have run : exec (.confJoin ch conf) s = .next ((setConference ch (some g) s).answer .ok) := by
    simp [exec, execConfJoin, hup, used, operand, setConference]
  refine ⟨_, run, rfl, ?_, setConference_others ch (some g) s, fun slot stored => ?_, fun slot stored => ?_,
    fun slot d unstored => ?_, setConference_kept ch (some g) s⟩
  · rw [eq_flow_of_proto hflow]
    exact setConference_ch ch (some g) s
  · simpa [Channel.slot, stored, routeMode_eq] using setConference_routes ch (some g) s slot .tx
  · simpa [Channel.slot, stored, routeMode_eq] using setConference_routes ch (some g) s slot .rx
  · simpa [unstored] using setConference_routes ch (some g) s slot d

/-- Settles O23: what `setConference` leaves, without a conference. -/
theorem confSplitRoutesByBank : Obligations.ConfSplitRoutesByBank := by
  intro s ch flow hup used hflow
  have run : exec (.confSplit ch) s = .next ((setConference ch none s).answer .ok) := by
    simp [exec, execConfSplit, hup, used, setConference]
  refine ⟨_, run, rfl, ?_, setConference_others ch none s, fun slot stored => ?_, fun slot stored => ?_,
    fun slot d unstored => ?_, setConference_kept ch none s⟩
  · rw [eq_flow_of_proto hflow]
    exact setConference_ch ch none s
  · simpa [Channel.slot, stored, routeMode_eq] using setConference_routes ch none s slot .tx
  · simpa [Channel.slot, stored, routeMode_eq] using setConference_routes ch none s slot .rx
  · simpa [unstored] using setConference_routes ch none s slot d

end Sys2Proof.Machine

/-! PROOFS. CLOSE (R166), whose rings no line-side step moves once flow control is off, and the frame of all five router commands
(R151, R165, R166). -/

namespace Sys2Proof.Machine

/-! ### Rings without flow control -/

/-- Flow control is off in both directions, so the line side leaves the channel's rings (R125, R127, R128). -/
def Channel.flowsOff (c : Channel) : Prop := c.flowTx = .off ∧ c.flowRx = .off

theorem readCell_ring (s : State) (ch : ChanId) (d : Dir) (z : Nat) : (s.readCell ch d z).2.ring = s.ring := by
  obtain ⟨e, he, -⟩ := s.readCell_env ch d z
  rw [he, State.setEnv_ring]

theorem drawStatus_ring (s : State) : s.drawStatus.2.ring = s.ring := by
  obtain ⟨-, e, he, -⟩ := s.drawStatus_env
  rw [he, State.setEnv_ring]

theorem lineTxTake_ring_of_ne {ch k : ChanId} (hk : ch ≠ k) (s : State) (e : Dir) :
    (lineTxTake ch s).ring k e = s.ring k e := by
  unfold lineTxTake
  repeat' split
  all_goals simp [takeByte, takeTail, takeFrameEnd, readCell_ring, hk]

theorem lineRxPut_ring_of_ne {ch k : ChanId} (hk : ch ≠ k) (b : Byte) (s : State) (e : Dir) :
    (lineRxPut ch b s).ring k e = s.ring k e := by
  unfold lineRxPut
  repeat' split
  all_goals simp [hk]

theorem lineRxEnd_ring_of_ne {ch k : ChanId} (hk : ch ≠ k) (st : Byte) (s : State) (e : Dir) :
    (lineRxEnd ch st s).ring k e = s.ring k e := by
  have closed : ∀ (b : Byte) (u : State), (closeFrame ch b u).ring k e = u.ring k e := fun b u => by simp [closeFrame, hk]
  unfold lineRxEnd
  repeat' split
  · rfl
  · rfl
  · simp
  · rename_i b u drawn
    have draw := drawStatus_ring s
    rw [drawn] at draw
    rw [closed, draw]
  · exact closed st s

theorem applyStimulus_ring_of_flowsOff (st : Stimulus) {s : State} {k : ChanId} (off : (s.ch k).flowsOff) (e : Dir) :
    (applyStimulus st s).ring k e = s.ring k e := by
  obtain ⟨txOff, rxOff⟩ := off
  cases st with
  | lineTxTake ch =>
    by_cases hk : ch = k
    · subst hk; simp [applyStimulus, lineTxTake, txOff]
    · exact lineTxTake_ring_of_ne hk s e
  | lineRxPut ch b =>
    by_cases hk : ch = k
    · subst hk; simp [applyStimulus, lineRxPut, rxOff]
    · exact lineRxPut_ring_of_ne hk b s e
  | lineRxEnd ch b =>
    by_cases hk : ch = k
    · subst hk; simp [applyStimulus, lineRxEnd, rxOff]
    · exact lineRxEnd_ring_of_ne hk b s e
  | ready ch d => simp [applyStimulus]
  | lineState p x => simp only [applyStimulus, lineState]; split <;> rfl
  | lineE1State p v => simp only [applyStimulus, lineE1State]; split <;> rfl
  | lineSync p clk frm => simp only [applyStimulus, lineSync]; split <;> rfl
  | lineAlarm p bits => simp only [applyStimulus, lineAlarm]; split <;> rfl
  | timerTick => rfl
  | tone => rfl

theorem yield_ring_of_flowsOff {s : State} {k : ChanId} (off : (s.ch k).flowsOff) (e : Dir) :
    s.yield.ring k e = s.ring k e :=
  (State.yield_keeps (P := fun u => (u.ch k).flowsOff ∧ u.ring k e = s.ring k e)
    (fun st u ⟨uoff, same⟩ =>
      ⟨(applyStimulus_frame st u).ch ▸ uoff, (applyStimulus_ring_of_flowsOff st uoff e).trans same⟩)
    (fun _ _ h => h) s ⟨off, rfl⟩).2

/-- RingReset clears the selected ring's counters and leaves every other ring (R56). -/
theorem resetNow_ring (s : State) (k : ChanId) (e : Dir) :
    (resetNow s).ring k e = if s.sel = some (k, e) then Ring.clear s.cfg (s.ring k e) else s.ring k e := by
  cases hsel : s.sel with
  | none => simp [resetNow, hsel]
  | some selected =>
    obtain ⟨c, d⟩ := selected
    by_cases hx : c = k ∧ d = e
    · obtain ⟨rfl, rfl⟩ := hx
      cases d <;> simp [resetNow, hsel]
    · cases d <;> simp [resetNow, hsel, hx]

theorem ringReset_ring_of_flowsOff {s : State} {ch : ChanId} (off : (s.ch ch).flowsOff) (d e : Dir) :
    (ringReset (s.select ch d)).ring ch e = if d = e then Ring.clear s.cfg (s.ring ch e) else s.ring ch e := by
  have line := yield_ring_of_flowsOff (s := s.select ch d) (k := ch) off e
  simp only [ringReset, resetNow_ring, State.yield_sel, State.yield_cfg, line]
  simp

theorem Ring.clear_clear (g : Config) (r : Ring) : Ring.clear g (Ring.clear g r) = Ring.clear g r := rfl

/-! ### CLOSE -/

section
variable {s : State} {ch : ChanId}

theorem releaseSlot_ring (d : Dir) (new : Option Slot) : (releaseSlot ch d new s).ring = s.ring := by
  unfold releaseSlot
  repeat' split
  all_goals rfl

theorem programSlot_ring (d : Dir) (new : Option Slot) (bank : Bank) : (programSlot ch d new bank s).ring = s.ring := by
  unfold programSlot
  split <;> rfl

theorem storeProto_ring_of_flowsOff (off : (s.ch ch).flowsOff) (pe : Proto) (e : Dir) :
    Ring.clear s.cfg ((storeProto ch pe s).ring ch e) = Ring.clear s.cfg (s.ring ch e) := by
  unfold storeProto
  split
  · simp only [protocolChange, State.modChan_ring]
    rw [ringReset_ring_of_flowsOff (by simpa [Channel.flowsOff] using off)]
    split
    · exact Ring.clear_clear ..
    · rfl
  · rfl

theorem routeSlots_ring (tS : Option Slot) (tB : Bank) (rS : Option Slot) (rB : Bank) :
    (routeSlots ch tS tB rS rB s).ring = s.ring := by
  simp only [routeSlots, programSlot_ring, releaseSlot_ring]

/-- SetModeCore with NONE clears at most counters of the channel's rings: flow control is off before its first access (R151). -/
theorem setModeCore_noProto_ring (tS : Option Slot) (tB : Bank) (rS : Option Slot) (rB : Bank) (eb : Bool) (e : Dir) :
    Ring.clear s.cfg ((setModeCore ch .noProto tS tB rS rB eb s).ring ch e) = Ring.clear s.cfg (s.ring ch e) := by
  have off : ((setFlow ch .noProto eb (routeSlots ch tS tB rS rB s)).ch ch).flowsOff := by
    simp [setFlow, programFlow, Channel.flowsOff]
  have cfg : (setFlow ch .noProto eb (routeSlots ch tS tB rS rB s)).cfg = s.cfg :=
    ((routeSlots_frame ch tS tB rS rB s).trans (setFlow_frame ch .noProto eb _)).cfg
  have ring : (setFlow ch .noProto eb (routeSlots ch tS tB rS rB s)).ring = s.ring := by
    rw [setFlow, State.modChan_ring, routeSlots_ring]
  have stored := storeProto_ring_of_flowsOff off .noProto e
  rw [cfg, ring] at stored
  exact stored

theorem unroute_ring (e : Dir) : Ring.clear s.cfg ((unroute ch s).ring ch e) = Ring.clear s.cfg (s.ring ch e) :=
  setModeCore_noProto_ring (s := s.modChan ch fun c => { c with conf := none }) none 0 none 0 false e

theorem unroute_flowsOff : ((unroute ch s).ch ch).flowsOff := by
  rw [unroute, setModeCore_ch, modeRecord_eq]
  exact ⟨rfl, rfl⟩

theorem emptyRings_ring (off : (s.ch ch).flowsOff) (e : Dir) : (emptyRings ch s).ring ch e = Ring.clear s.cfg (s.ring ch e) := by
  unfold emptyRings
  rw [ringReset_ring_of_flowsOff (by simpa [ringReset, Channel.flowsOff] using off),
    ringReset_ring_of_flowsOff (by simpa [Channel.flowsOff] using off)]
  cases e <;> simp [ringReset]

theorem closeChannel_ring (e : Dir) : (closeChannel ch s).ring ch e = Ring.clear s.cfg (s.ring ch e) := by
  rw [closeChannel, State.modChan_ring, emptyRings_ring unroute_flowsOff, (unroute_frame ch s).1, unroute_ring]

theorem closeChannel_ovf : (closeChannel ch s).ovf ch = false := by
  simp [closeChannel, emptyRings, ringReset, resetNow]

end

/-- Settles O24: past CLOSE's guards it is `closeChannel`. -/
theorem closeClearsChannel : Obligations.CloseClearsChannel := by
  intro s ch hup used isOpen
  have run : exec (.close ch) s = .next ((closeChannel ch s).answer .ok) := by simp [exec, execClose, hup, used, isOpen]
  obtain ⟨-, -, -, evq, -⟩ := closeChannel_fields ch s
  refine ⟨_, run, rfl, ?_, fun d => ?_, ?_, fun slot d stored owner => ?_, fun slot d kept => ?_, ?_,
    fun k hk => ?_⟩
  · rw [State.answer_ch, closeChannel_ch, if_pos rfl]
  · rw [State.answer_ring, closeChannel_ring]; rfl
  · rw [State.answer_ovf, closeChannel_ovf]
  · simpa [stored, owner] using closeChannel_routes ch s slot d
  · rw [State.answer_ownAt, State.answer_regAt, (closeChannel_routes ch s slot d).1, (closeChannel_routes ch s slot d).2,
      if_neg kept, if_neg kept]
    exact ⟨rfl, rfl⟩
  · rw [State.answer_evq, evq]
  · rw [State.answer_ch, closeChannel_ch, if_neg (Ne.symm hk)]

/-! ### The frame -/

/-- What a router command on channel `ch` leaves: CLOSE is one, so nothing is said of the channel's own record and rings, of which
`RouterFrame` keeps some. -/
structure RouterRest (ch : ChanId) (s t : State) : Prop where
  ctl : t.ctl = s.ctl
  port : t.port = s.port
  evq : t.evq = s.evq
  lineq : t.lineq = s.lineq
  inputs : t.env.inputs = s.env.inputs
  others : ∀ k, k ≠ ch → t.ch k = s.ch k
  /-- with no line-side step inside: what only the line side writes -/
  quiet : s.env.sched = [] → t.mem = s.mem ∧ t.lineIn = s.lineIn ∧ t.status = s.status ∧ t.env = s.env
    ∧ ∀ k d, k ≠ ch → t.ring k d = s.ring k d ∧ t.ovf k = s.ovf k

theorem RouterRest.refl (ch : ChanId) (s : State) : RouterRest ch s s where
  ctl := rfl
  port := rfl
  evq := rfl
  lineq := rfl
  inputs := rfl
  others _ _ := rfl
  quiet _ := ⟨rfl, rfl, rfl, rfl, fun _ _ _ => ⟨rfl, rfl⟩⟩

theorem RouterRest.trans {ch : ChanId} {s t u : State} (h : RouterRest ch s t) (k : RouterRest ch t u) : RouterRest ch s u where
  ctl := k.ctl.trans h.ctl
  port := k.port.trans h.port
  evq := k.evq.trans h.evq
  lineq := k.lineq.trans h.lineq
  inputs := k.inputs.trans h.inputs
  others x hx := (k.others x hx).trans (h.others x hx)
  quiet hs := by
    obtain ⟨hmem, hline, hstatus, henv, hrings⟩ := h.quiet hs
    obtain ⟨kmem, kline, kstatus, kenv, krings⟩ := k.quiet (henv ▸ hs)
    exact ⟨kmem.trans hmem, kline.trans hline, kstatus.trans hstatus, kenv.trans henv,
      fun x d hx => ⟨(krings x d hx).1.trans (hrings x d hx).1, (krings x d hx).2.trans (hrings x d hx).2⟩⟩

theorem RouterRest.yield (ch : ChanId) (s : State) : RouterRest ch s s.yield where
  ctl := s.yield_ctl
  port := s.yield_port
  evq := s.yield_evq
  lineq := s.yield_lineq
  inputs := s.yield_inputs
  others _ _ := by rw [s.yield_ch]
  quiet hs := by rw [s.yield_of_sched_nil hs]; exact (RouterRest.refl ch s).quiet hs

/-- The fields the frame says nothing of. -/
theorem RouterRest.unseen (ch : ChanId) (s : State) (own : Vector (Option ChanId) 256) (slotReg : Vector (Option Route) 256)
    (sel : Option (ChanId × Dir)) (diagq : List Diag) (resp : Resp) :
    RouterRest ch s { s with own := own, slotReg := slotReg, sel := sel, diagq := diagq, resp := resp } where
  ctl := rfl
  port := rfl
  evq := rfl
  lineq := rfl
  inputs := rfl
  others _ _ := rfl
  quiet := (RouterRest.refl ch s).quiet

theorem RouterRest.modChan (ch : ChanId) (s : State) (f : Channel → Channel) : RouterRest ch s (s.modChan ch f) where
  ctl := rfl
  port := rfl
  evq := rfl
  lineq := rfl
  inputs := rfl
  others _ hk := by rw [State.modChan_ch, if_neg (Ne.symm hk)]
  quiet := (RouterRest.refl ch s).quiet

theorem RouterRest.resetNow {ch : ChanId} {s : State} {d : Dir} (hsel : s.sel = some (ch, d)) :
    RouterRest ch s (resetNow s) where
  ctl := resetNow_ctl s
  port := resetNow_port s
  evq := resetNow_evq s
  lineq := resetNow_lineq s
  inputs := by rw [resetNow_env]
  others _ _ := by rw [resetNow_ch]
  quiet _ := by
    refine ⟨resetNow_mem s, resetNow_lineIn s, resetNow_status s, resetNow_env s, fun k e hk => ⟨?_, ?_⟩⟩
    · rw [resetNow_ring, if_neg]
      rw [hsel]
      rintro ⟨⟩
      exact hk rfl
    · cases d <;> simp [Machine.resetNow, hsel, Ne.symm hk]

theorem routerRest_kept (ch : ChanId) (s : State) : RouterKeeps ch (RouterRest ch s) where
  yield t h := h.trans (.yield ch t)
  select _ _ h := h.trans (.unseen ch _ ..)
  reset _ _ hsel h := h.trans (.resetNow hsel)
  setOwn _ _ _ h := h.trans (.unseen ch _ ..)
  setSlotReg _ _ _ h := h.trans (.unseen ch _ ..)
  diag _ _ h := h.trans (.unseen ch _ ..)
  edit t f h := h.trans (.modChan ch t f)

theorem RouterRest.answer {ch : ChanId} {s t : State} (h : RouterRest ch s t) (r : Resp) : RouterRest ch s (t.answer r) :=
  h.trans (.unseen ch t ..)

/-- Settles O25: every update a router command makes is within `RouterRest`. -/
theorem routerFrame : Obligations.RouterFrame := by
  intro s t i ch hi h
  have kept := routerRest_kept ch s
  have start := RouterRest.refl ch s
  have rest : RouterRest ch s t := by
    cases exec_cases h with
    | rejected r ht => rw [ht]; exact start.answer r
    | openCh c hc _ _ _ ht =>
      obtain rfl : c = ch := by simpa [hc] using hi
      rw [ht]; exact (kept.edit _ _ start).answer _
    | close c hc _ _ _ ht =>
      obtain rfl : c = ch := by simpa [hc] using hi
      rw [ht]; exact (kept.closeChannel start).answer _
    | setMode c p tS tB rS rB eb hc _ _ _ _ ht =>
      obtain ⟨tv, x, rv, y, hc, -, -⟩ := hc
      obtain rfl : c = ch := by simpa [hc] using hi
      rw [ht]; exact (kept.setModeCore p tS tB rS rB eb start).answer _
    | confJoin c conf g hc _ _ _ ht =>
      obtain rfl : c = ch := by simpa [hc] using hi
      rw [ht]; exact (kept.setModeStored (kept.edit _ _ start)).answer _
    | confSplit c hc _ _ ht =>
      obtain rfl : c = ch := by simpa [hc] using hi
      rw [ht]; exact (kept.setModeStored (kept.edit _ _ start)).answer _
    | init hc => simp [hc] at hi
    | submit c len payload hc => simp [hc] at hi
    | service c tx rx hc => simp [hc] at hi
    | dispatch hc => simp [hc] at hi
  refine ⟨rest.ctl, rest.port, rest.evq, rest.lineq, rest.inputs, rest.others, fun hs => ?_⟩
  obtain ⟨mem, lineIn, status, env, rings⟩ := rest.quiet hs
  exact ⟨fun a => by rw [mem], lineIn, status, env, rings⟩

end Sys2Proof.Machine

/-! PROOFS. What a move of a line-state machine does to its port and to the event queue (R181 to R193), said once: `PortMove`. -/

namespace Sys2Proof.Machine

/-! ### The activity gate (R181) -/

/-- The event by which the gate reports that the `active` flag of port `p` went from `was` to `now` (R181). -/
def gateEvents (p : PortId) (was now : Bool) : List Event :=
  if now = was then [] else if now then [.activate p] else [.deactivate p]

/-- The event is not one of the activity gate's. -/
def Event.Ungated (e : Event) : Prop := ∀ p, e ≠ .activate p ∧ e ≠ .deactivate p

/-- From `s` to `t` port `p` alone moved, to the record `x`; the move emitted `es`, no gate event among them, and then what the gate
lets through. -/
structure PortMove (p : PortId) (x : Port) (es : List Event) (s t : State) : Prop where
  cfg : t.cfg = s.cfg
  pt : ∀ q, t.pt q = if p = q then x else s.pt q
  evq : t.evq = s.evq ++ (es ++ gateEvents p (s.pt p).active x.active)
  ungated : ∀ e ∈ es, e.Ungated

section
variable {p : PortId} {s t u : State} {x y : Port} {es fs : List Event}

@[simp] theorem gateEvents_self (b : Bool) : gateEvents p b b = [] := if_pos rfl

theorem PortMove.pt_self (h : PortMove p x es s t) : t.pt p = x := (h.pt p).trans (if_pos rfl)

theorem PortMove.pt_other (h : PortMove p x es s t) {q : PortId} (hq : q ≠ p) : t.pt q = s.pt q :=
  (h.pt q).trans (if_neg hq.symm)

/-- A move that leaves `active` adds no gate event. -/
theorem PortMove.evq_of_kept (h : PortMove p x es s t) (hx : x.active = (s.pt p).active) : t.evq = s.evq ++ es := by
  rw [h.evq, hx, gateEvents_self, List.append_nil]

/-- What leaves the configuration, the ports and the events is the move to the record the port has. -/
theorem PortMove.stay (p : PortId) (hc : t.cfg = s.cfg) (hp : t.pt = s.pt) (he : t.evq = s.evq) : PortMove p (s.pt p) [] s t where
  cfg := hc
  pt q := by
    rw [hp]
    split
    · rename_i same; rw [same]
    · rfl
  evq := by simp [he]
  ungated := by simp

theorem PortMove.setPort (p : PortId) (x : Port) (s : State) (hx : x.active = (s.pt p).active) :
    PortMove p x [] s (s.setPort p x) where
  cfg := rfl
  pt := s.setPort_pt p x
  evq := by simp [hx]
  ungated := by simp

theorem PortMove.emit (p : PortId) (s : State) {e : Event} (he : e.Ungated) : PortMove p (s.pt p) [e] s (s.emit e) where
  cfg := rfl
  pt := (PortMove.stay p rfl rfl rfl : PortMove p (s.pt p) [] s s).pt
  evq := by simp
  ungated := by simpa using he

theorem PortMove.activate (p : PortId) (s : State) : PortMove p { s.pt p with active := true } [] s (s.activate p) where
  cfg := by simp
  pt := s.activate_pt p
  evq := by cases h : (s.pt p).active <;> simp [gateEvents, h]
  ungated := by simp

theorem PortMove.deactivate (p : PortId) (s : State) : PortMove p { s.pt p with active := false } [] s (s.deactivate p) where
  cfg := by simp
  pt := s.deactivate_pt p
  evq := by cases h : (s.pt p).active <;> simp [gateEvents, h]
  ungated := by simp

theorem PortMove.lineAct (h : PortMove p x es s t) (a : LineAction) : PortMove p x es s (t.lineAct a) :=
  ⟨h.cfg, h.pt, h.evq, h.ungated⟩

/-- Two moves of a port are one, if the first leaves `active`. -/
theorem PortMove.trans (h : PortMove p x es s t) (k : PortMove p y fs t u) (hx : x.active = (s.pt p).active) :
    PortMove p y (es ++ fs) s u where
  cfg := k.cfg.trans h.cfg
  pt q := by
    rw [k.pt, h.pt]
    split <;> rfl
  evq := by rw [k.evq, h.evq_of_kept hx, h.pt_self, hx]; simp
  ungated e he := (List.mem_append.1 he).elim (h.ungated e) (k.ungated e)

end

end Sys2Proof.Machine

/-! PROOFS. The NT and TE machines (R183 to R189): what a report and the countdown do. -/

namespace Sys2Proof.Machine

section
variable (p : PortId) (x : Fin 16) (s : State)

/-! ### NT (R183, R184, R188) -/

theorem ntEnter_move : PortMove p
    { s.pt p with lstate := x, timer := if x = 2 then some s.cfg.ntT1 else none, active := decide (x = 3) } [] s (ntEnter p x s) where
  cfg := by simp
  pt q := ntEnter_pt s p q x
  evq := by
    rw [ntEnter_evq]
    by_cases hx : x = 3 <;> cases h : (s.pt p).active <;> simp [gateEvents, hx]
  ungated := by simp

theorem ntReport_of_ignored (h : 4 < x ∨ x = (s.pt p).lstate) : ntReport p x s = s := by
  unfold ntReport
  rcases h with above | same
  · exact if_pos above
  · rw [if_pos same, ite_self]

theorem ntReport_of_change (hx : x ≤ 4) (hne : x ≠ (s.pt p).lstate) : ntReport p x s = ntEnter p x s := by
  unfold ntReport
  rw [if_neg (not_lt.2 hx), if_neg hne]

theorem ntCountdown_of_idle (h : (s.pt p).lstate ≠ 2 ∨ (s.pt p).timer = none) : ntCountdown p s = s := by
  unfold ntCountdown
  split
  · rename_i two
    rw [h.resolve_left (not_not.2 two)]
  · rfl

variable {p s} in
/-- One tick of a running countdown, the last one or not (R188). -/
theorem ntCountdown_of_running {n : Nat} (two : (s.pt p).lstate = 2) (running : (s.pt p).timer = some n) :
    ntCountdown p s =
      if n - 1 = 0 then ntEnter p 4 ((s.setPort p { (s.pt p) with timer := some (n - 1) }).lineAct (.forceState p 4))
      else s.setPort p { (s.pt p) with timer := some (n - 1) } := by
  simp only [ntCountdown, if_pos two, running]

variable {p s} in
theorem ntCountdown_of_last {n : Nat} (two : (s.pt p).lstate = 2) (running : (s.pt p).timer = some n) (last : n - 1 = 0) :
    PortMove p { s.pt p with lstate := 4, timer := none, active := false } [] s (ntCountdown p s)
    ∧ (ntCountdown p s).lineq = s.lineq ++ [.forceState p 4] := by
  rw [ntCountdown_of_running two running, if_pos last]
  refine ⟨?_, by simp⟩
  have ticked := PortMove.setPort p { (s.pt p) with timer := some (n - 1) } s rfl
  have forced := ticked.lineAct (.forceState p 4)
  simpa [forced.pt_self] using forced.trans (ntEnter_move p 4 _) rfl

/-! ### TE (R189) -/

/-- `active` after a TE port with that flag reports state `x`. -/
def teActive (was : Bool) : Bool := if x = 7 then true else if x = 3 then false else was

/-- The events of a TE port's report of state `x` that are not the gate's. -/
def teNotices : List Event :=
  if x = 0 then [.loss p 0] else if x = 5 ∨ x = 6 then [.info p x] else if x = 8 then [.loss p 8] else []

theorem teEvent_move : PortMove p { s.pt p with active := teActive x (s.pt p).active } (teNotices p x) s (teEvent p x s) := by
  unfold teEvent
  split
  · rename_i h; subst h; exact .emit p s (by simp [Event.Ungated])
  split
  · rename_i h; subst h; exact .deactivate p s
  split
  · rename_i h; rcases h with rfl | rfl <;> exact .emit p s (by simp [Event.Ungated])
  split
  · rename_i h; subst h; exact .activate p s
  split
  · rename_i h; subst h; exact .emit p s (by simp [Event.Ungated])
  · rename_i not0 not3 not56 not7 not8
    have active : teActive x (s.pt p).active = (s.pt p).active := by rw [teActive, if_neg not7, if_neg not3]
    rw [active, teNotices, if_neg not0, if_neg not56, if_neg not8]
    exact .stay p rfl rfl rfl

theorem teReport_of_same : teReport p (s.pt p).lstate s = s := if_pos rfl

variable {x} in
theorem teReport_of_change (hx : x ≠ (s.pt p).lstate) :
    teReport p x s = teEvent p x (s.setPort p { (s.pt p) with lstate := x }) := if_neg hx

variable {x} in
theorem teReport_move (hx : x ≠ (s.pt p).lstate) :
    PortMove p { s.pt p with lstate := x, active := teActive x (s.pt p).active } (teNotices p x) s (teReport p x s) := by
  have taken := PortMove.setPort p { (s.pt p) with lstate := x } s rfl
  have reported := taken.trans (teEvent_move p x _) rfl
  rw [taken.pt_self] at reported
  rw [teReport_of_change p s hx]
  exact reported

theorem teEvent_ch : (teEvent p x s).ch = s.ch := by
  unfold teEvent
  repeat' split
  all_goals simp

/-- A TE report's events (R189), state by state. -/
theorem teNotices_append_gateEvents (was : Bool) : teNotices p x ++ gateEvents p was (teActive x was) =
    if x = 0 then [.loss p 0]
    else if x = 3 then (if was then [.deactivate p] else [])
    else if x = 5 then [.info p 5]
    else if x = 6 then [.info p 6]
    else if x = 7 then (if was then [] else [.activate p])
    else if x = 8 then [.loss p 8]
    else [] := by
  cases was <;> fin_cases x <;> rfl

end

/-- Settles O46: a report of another state up to 4 is an entry, and any other report is ignored. -/
theorem ntReportEntersState : Obligations.NtReportEntersState := by
  intro s p x
  refine ⟨ntReport_of_ignored p x s, fun hx hne => ?_⟩
  rw [ntReport_of_change p x s hx hne]
  have entered := ntEnter_move p x s
  refine ⟨entered.pt_self, fun q => entered.pt_other, ntEnter_evq s p x, fun d h3 hd => ?_, fun k hk => ?_⟩
  · rw [ntEnter_ch, if_pos ⟨h3, hd⟩, freshDChannel]
    split
    · rfl
    · rename_i atStart
      rw [← Nat.eq_zero_of_not_pos atStart]
  · rw [ntEnter_ch, if_neg fun h => hk.elim (· h.1) (· h.2)]

/-- Settles O47, by the three cases of the countdown: stopped, running, on its last tick. -/
theorem ntCountdownExpires : Obligations.NtCountdownExpires := by
  intro s p n
  refine ⟨ntCountdown_of_idle p s, fun two running => ?_, fun two running => ?_⟩
  · rw [ntCountdown_of_running two running, if_neg (by omega)]
    exact ⟨by simp, rfl, rfl⟩
  · obtain ⟨expired, forced⟩ := ntCountdown_of_last two running rfl
    refine ⟨expired.pt_self, forced, expired.evq.trans ?_⟩
    cases (s.pt p).active <;> rfl

/-- Settles O48: the report stores the state, then its event or the gate's follows. -/
theorem teReportMapsStates : Obligations.TeReportMapsStates := by
  intro s p x
  refine ⟨teReport_of_same p s, fun hx => ?_⟩
  have reported := teReport_move p s hx
  refine ⟨reported.pt_self, ?_, fun k => ?_⟩
  · rw [reported.evq, teNotices_append_gateEvents]
  · rw [teReport_of_change p s hx, teEvent_ch, State.setPort_ch]

end Sys2Proof.Machine

/-! PROOFS. The trunk machine (R191 to R193): the reported line state, the sync level and the alarm latches. -/

namespace Sys2Proof.Machine

section
variable (p : PortId) (s : State)

theorem e1Report_move : PortMove p { s.pt p with e1state := (s.inp p).e1In, active := (s.inp p).e1In } [] s (e1Report p s) := by
  have taken := PortMove.setPort p { (s.pt p) with e1state := (s.inp p).e1In } s rfl
  unfold e1Report
  split
  · rename_i up
    simpa [up, taken.pt_self] using taken.trans (.activate p _) rfl
  · rename_i down
    simpa [down, taken.pt_self] using taken.trans (.deactivate p _) rfl

/-- The sync level the trunk inputs give (R192). -/
def syncLevel (i : LineIn) : Fin 3 := if i.clkOk = false then 0 else if i.frameOk then 2 else 1

/-- A sync poll stores the level, and programs the jitter buffer when the clock is back on level 0 (R192). -/
theorem trunkSyncPoll_eq : trunkSyncPoll p s =
    (if (s.inp p).clkOk = true ∧ (s.pt p).sync = 0 then s.lineAct (.programJitter p (jitterDepth s.cfg p)) else s).setPort p
      { s.pt p with sync := syncLevel (s.inp p) } := by
  cases clk : (s.inp p).clkOk <;> simp [trunkSyncPoll, syncLevel, clk]

theorem trunkSyncPoll_move : PortMove p { s.pt p with sync := syncLevel (s.inp p) } [] s (trunkSyncPoll p s) := by
  rw [trunkSyncPoll_eq]
  split
  · have programmed := (PortMove.stay p rfl rfl rfl : PortMove p (s.pt p) [] s s).lineAct (.programJitter p (jitterDepth s.cfg p))
    refine programmed.trans (.setPort p _ _ ?_) rfl
    rfl
  · exact .setPort p _ s rfl

theorem trunkSyncPoll_lineq : (trunkSyncPoll p s).lineq = s.lineq ++
    (if (s.inp p).clkOk = true ∧ (s.pt p).sync = 0 then [.programJitter p (jitterDepth s.cfg p)] else []) := by
  rw [trunkSyncPoll_eq]
  split <;> simp

/-! ### Alarms (R193) -/

theorem setBit4_getLsbD (x : BitVec 4) (b i : Fin 4) (v : Bool) :
    (setBit4 x b v).getLsbD i = if i = b then v else x.getLsbD i := by
  unfold setBit4
  fin_cases b <;> fin_cases i <;> cases v <;> simp

/-- The poll finds alarm bit `b` of port `p` changed, and the configuration does not mask it (R193). -/
def alarmReported (b : Fin 4) : Bool :=
  (s.inp p).alarmIn.getLsbD b.val != (s.pt p).latch.getLsbD b.val && !(alarmMask s.cfg p).getLsbD b.val

/-- The events of a poll of the alarm bits `l` (R193). -/
def alarmEvents (l : List (Fin 4)) : List Event :=
  (l.filter (alarmReported p s)).map fun b => .alarm p b ((s.inp p).alarmIn.getLsbD b.val)

theorem alarmBit_inp (b : Fin 4) : (alarmBit p s b).inp = s.inp := by
  simp only [alarmBit]
  repeat' split
  all_goals simp

theorem alarmEvents_cons (b : Fin 4) (l : List (Fin 4)) : alarmEvents p s (b :: l) = alarmEvents p s [b] ++ alarmEvents p s l := by
  rw [alarmEvents, ← List.singleton_append, List.filter_append, List.map_append]
  rfl

theorem alarmEvents_singleton (b : Fin 4) : alarmEvents p s [b] =
    if alarmReported p s b then [.alarm p b ((s.inp p).alarmIn.getLsbD b.val)] else [] := by
  rw [alarmEvents, List.filter_singleton]
  cases alarmReported p s b <;> rfl

/-- One alarm bit: the latch takes the input, whether it changed or not (R193). -/
theorem alarmBit_move (b : Fin 4) :
    PortMove p { s.pt p with latch := setBit4 (s.pt p).latch b ((s.inp p).alarmIn.getLsbD b.val) } (alarmEvents p s [b]) s
      (alarmBit p s b) := by
  have latched := PortMove.setPort p { s.pt p with latch := setBit4 (s.pt p).latch b ((s.inp p).alarmIn.getLsbD b.val) } s rfl
  simp only [alarmBit]
  split
  · rename_i same
    have kept : setBit4 (s.pt p).latch b ((s.inp p).alarmIn.getLsbD b.val) = (s.pt p).latch := by
      refine BitVec.eq_of_getLsbD_eq fun i hi => ?_
      rw [setBit4_getLsbD _ b ⟨i, hi⟩]
      split
      · rename_i at_b; rw [same, ← at_b]
      · rfl
    have silent : alarmReported p s b = false := by rw [alarmReported, same, bne_self_eq_false, Bool.false_and]
    rw [kept, alarmEvents_singleton, silent]
    exact .stay p rfl rfl rfl
  · rename_i edge
    split
    · rename_i masked
      have silent : alarmReported p s b = false := by rw [alarmReported, masked, Bool.not_true, Bool.and_false]
      rwa [alarmEvents_singleton, silent]
    · rename_i unmasked
      have reported : alarmReported p s b = true :=
        Bool.and_eq_true_iff.2 ⟨bne_iff_ne.2 edge, by rwa [Bool.not_eq_true', ← Bool.not_eq_true]⟩
      rw [alarmEvents_singleton, reported]
      have emitted := latched.trans (.emit p _ (e := .alarm p b ((s.inp p).alarmIn.getLsbD b.val)) (by simp [Event.Ungated])) rfl
      rw [latched.pt_self] at emitted
      exact emitted

variable {p} in
/-- Polling an alarm bit leaves the edges at the other bits. -/
theorem alarmEvents_alarmBit {b : Fin 4} {l : List (Fin 4)} (hb : b ∉ l) :
    alarmEvents p (alarmBit p s b) l = alarmEvents p s l := by
  have move := alarmBit_move p s b
  have reported : ∀ i ∈ l, alarmReported p (alarmBit p s b) i = alarmReported p s i := by
    intro i hi
    have other : i ≠ b := fun h => hb (h ▸ hi)
    simp only [alarmReported, alarmBit_inp, move.cfg, move.pt_self, setBit4_getLsbD, if_neg other]
  rw [alarmEvents, List.filter_congr reported, alarmBit_inp, alarmEvents]

/-- A poll of distinct alarm bits: each of their latches takes its input. -/
theorem alarmBits_move {l : List (Fin 4)} (distinct : l.Nodup) :
    ∃ latch : BitVec 4,
      (∀ i : Fin 4, latch.getLsbD i = if i ∈ l then (s.inp p).alarmIn.getLsbD i else (s.pt p).latch.getLsbD i)
      ∧ PortMove p { s.pt p with latch := latch } (alarmEvents p s l) s (l.foldl (alarmBit p) s) := by
  induction l generalizing s with
  | nil => exact ⟨(s.pt p).latch, by simp, .stay p rfl rfl rfl⟩
  | cons b l ih =>
    obtain ⟨hb, distinct⟩ := List.nodup_cons.1 distinct
    have first := alarmBit_move p s b
    obtain ⟨latch, bits, rest⟩ := ih (alarmBit p s b) distinct
    simp only [first.pt_self, alarmBit_inp, setBit4_getLsbD] at bits
    rw [first.pt_self, alarmEvents_alarmBit s hb] at rest
    refine ⟨latch, fun i => ?_, alarmEvents_cons p s b l ▸ first.trans rest rfl⟩
    rw [bits]
    by_cases at_b : i = b <;> simp [at_b]

theorem trunkAlarmPoll_move :
    PortMove p { s.pt p with latch := (s.inp p).alarmIn } (alarmEvents p s [0, 1, 2, 3]) s (trunkAlarmPoll p s) := by
  obtain ⟨latch, bits, move⟩ := alarmBits_move p s (l := [0, 1, 2, 3]) (by decide)
  have all : latch = (s.inp p).alarmIn := by
    refine BitVec.eq_of_getLsbD_eq fun i hi => (bits ⟨i, hi⟩).trans (if_pos ?_)
    exact List.mem_finRange (n := 4) ⟨i, hi⟩
  exact all ▸ move

end

/-- Settles O49: the report goes through the gate, the sync poll stores the level its inputs give. -/
theorem trunkActivationAndSync : Obligations.TrunkActivationAndSync := by
  intro s p
  have reported := e1Report_move p s
  have polled := trunkSyncPoll_move p s
  exact ⟨reported.pt_self, reported.evq, polled.pt_self, trunkSyncPoll_lineq p s, by simpa using polled.evq_of_kept rfl⟩

/-- Settles O50: the poll visits the four bits, each once. -/
theorem alarmPollReportsEdges : Obligations.AlarmPollReportsEdges := by
  intro s p
  have polled := trunkAlarmPoll_move p s
  exact ⟨polled.pt_self, fun q => polled.pt_other, polled.evq_of_kept rfl⟩

end Sys2Proof.Machine

/-! PROOFS. What a step does to the ports and the activation events (R181, R202): besides a bring-up, it moves ports only by moves of
their machines, and only these add gate events. -/

namespace Sys2Proof.Machine

/-- Port `p`, of that kind, made a move, and the move keeps the port consistent with its kind when the countdown value is in R11's
range. -/
def MachineMove (kind : PortKind) (p : PortId) (s t : State) : Prop :=
  ∃ x es, PortMove p x es s t ∧ (1 ≤ s.cfg.ntT1 → (s.pt p).lineOk s.cfg kind → x.lineOk s.cfg kind)

section
variable (p : PortId) (s : State)

theorem MachineMove.refl (kind : PortKind) : MachineMove kind p s s := ⟨_, _, .stay p rfl rfl rfl, fun _ h => h⟩

theorem machineMove_ntReport (x : Fin 16) : MachineMove .nt p s (ntReport p x s) := by
  by_cases ignored : 4 < x ∨ x = (s.pt p).lstate
  · rw [ntReport_of_ignored p x s ignored]
    exact .refl p s .nt
  · obtain ⟨hx, hne⟩ := not_or.1 ignored
    rw [ntReport_of_change p x s (not_lt.1 hx) hne]
    refine ⟨_, _, ntEnter_move p x s, fun hT1 ok => ?_⟩
    obtain ⟨-, -, -, unused⟩ := ok
    refine ⟨by simp, ?_, ?_, unused⟩ <;> by_cases two : x = 2 <;> simp [two, hT1]

theorem machineMove_ntCountdown : MachineMove .nt p s (ntCountdown p s) := by
  by_cases two : (s.pt p).lstate = 2
  · cases timer : (s.pt p).timer with
    | none => rw [ntCountdown_of_idle p s (.inr timer)]; exact .refl p s .nt
    | some n =>
      by_cases last : n - 1 = 0
      · refine ⟨_, _, (ntCountdown_of_last two timer last).1, fun _ ok => ?_⟩
        obtain ⟨-, -, -, unused⟩ := ok
        exact ⟨by simp, by simp, by simp, unused⟩
      · rw [ntCountdown_of_running two timer, if_neg last]
        refine ⟨_, _, .setPort p _ s rfl, fun _ ok => ?_⟩
        obtain ⟨active, -, range, unused⟩ := ok
        have := range n timer
        exact ⟨active, by simp [two], by simp; omega, unused⟩
  · rw [ntCountdown_of_idle p s (.inl two)]
    exact .refl p s .nt

theorem machineMove_teReport (x : Fin 16) : MachineMove .te p s (teReport p x s) := by
  by_cases same : x = (s.pt p).lstate
  · rw [same, teReport_of_same]
    exact .refl p s .te
  · exact ⟨_, _, teReport_move p s same, fun _ ok => ok⟩

theorem machineMove_e1Report : MachineMove .trunk p s (e1Report p s) :=
  ⟨_, _, e1Report_move p s, fun _ ok => ⟨Iff.rfl, ok.2⟩⟩

theorem machineMove_trunkSyncPoll : MachineMove .trunk p s (trunkSyncPoll p s) :=
  ⟨_, _, trunkSyncPoll_move p s, fun _ ok => ok⟩

theorem machineMove_trunkAlarmPoll : MachineMove .trunk p s (trunkAlarmPoll p s) :=
  ⟨_, _, trunkAlarmPoll_move p s, fun _ ok => ok⟩

end

/-- A property of the configuration, the ports and the events that events other than the gate's and every move of a port by the machine
of its kind keep. -/
structure PortKeeps (g : Config) (P : State → Prop) : Prop where
  cfg : ∀ s, P s → s.cfg = g
  same : ∀ {s t}, P s → t.cfg = s.cfg → t.port = s.port → t.evq = s.evq → P t
  emit : ∀ {s e}, P s → e.Ungated → P (s.emit e)
  move : ∀ {s t kind p}, P s → portKind g p = some kind → MachineMove kind p s t → P t

section
variable {g : Config} {P : State → Prop} (k : PortKeeps g P) {s t : State}
include k

theorem PortKeeps.answer (hs : P s) (r : Resp) : P (s.answer r) := k.same hs rfl rfl rfl

theorem PortKeeps.setStatus (hs : P s) (x : Status) : P (s.setStatus x) := k.same hs rfl rfl rfl

theorem PortKeeps.modChan (hs : P s) (c : ChanId) (f : Channel → Channel) : P (s.modChan c f) := k.same hs rfl rfl rfl

theorem PortKeeps.engine (c : ChanId) : EngineKeeps c P where
  yield _ h := k.same h (by simp) (by simp) (by simp)
  env _ _ _ _ h := k.same h rfl rfl rfl
  select _ _ h := k.same h rfl rfl rfl
  diag _ _ h := k.same h rfl rfl rfl
  txDone _ h := k.emit h (by simp [Event.Ungated])
  rx _ _ h := k.emit h (by simp [Event.Ungated])
  push _ _ hsel h := by unfold pushNow; rw [hsel]; exact k.same h rfl rfl rfl
  commit _ hsel h := by unfold commitNow; rw [hsel]; exact k.same h rfl rfl rfl
  pop t hsel h := by
    unfold popNow; rw [hsel]
    have f := LineFrame.readCell t c .rx (t.ring c .rx).z2
    exact k.same h f.cfg f.port f.evq
  ack _ hsel h := by unfold frameAckNow; rw [hsel]; exact k.same h rfl rfl rfl
  reset _ _ _ h := k.same h (by simp) (by simp) (by simp)
  edit _ _ _ h := k.modChan h _ _

theorem PortKeeps.dispatch : DispatchKeeps g P where
  cfg := k.cfg
  engine := k.engine
  clearSummaries _ h := k.setStatus h _
  clearBlock s b h := by
    obtain ⟨x, hx⟩ := clearBlock_status s b
    exact hx ▸ k.setStatus h x
  tone _ h := k.emit h (by simp [Event.Ungated])
  ntReport s p hk h := k.move h hk (machineMove_ntReport p s _)
  ntCountdown s p hk h := k.move h hk (machineMove_ntCountdown p s)
  teReport s p hk h := k.move h hk (machineMove_teReport p s _)
  e1Report s p hk h := k.move h hk (machineMove_e1Report p s)
  trunkSyncPoll s p hk h := k.move h hk (machineMove_trunkSyncPoll p s)
  trunkAlarmPoll s p hk h := k.move h hk (machineMove_trunkAlarmPoll p s)

theorem PortKeeps.setModeCore (hs : P s) (ch : ChanId) (p : ProtoField) (tS : Option Slot) (tB : Bank) (rS : Option Slot) (rB : Bank)
    (eb : Bool) : P (setModeCore ch p tS tB rS rB eb s) :=
  have f := setModeCore_frame ch p tS tB rS rB eb s
  k.same hs f.cfg f.port f.evq

theorem PortKeeps.setModeStored (hs : P s) (ch : ChanId) : P (setModeStored ch s) := k.setModeCore hs ch _ _ _ _ _ _

/-- A command keeps the property, or is a bring-up. -/
theorem PortKeeps.exec {i : Instr} (hs : P s) (h : ExecCase i s t) : P t ∨ s.ctl = .down ∧ t = initChecks s := by
  cases h with
  | init hi hc hg ht => exact .inr ⟨hc, ht⟩
  | rejected r ht => exact .inl (ht ▸ k.answer hs _)
  | openCh ch hi hc hu ho ht => exact .inl (ht ▸ k.answer (k.modChan hs _ _) _)
  | close ch hi hc hu ho ht =>
    obtain ⟨cfg, -, port, evq, -⟩ := closeChannel_fields ch s
    exact .inl (ht ▸ k.answer (k.same hs cfg port evq) _)
  | setMode ch p tS tB rS rB eb hi hc hu htx hrx ht => exact .inl (ht ▸ k.answer (k.setModeCore hs _ _ _ _ _ _ _) _)
  | confJoin ch conf c hi hc hu hg ht => exact .inl (ht ▸ k.answer (k.setModeStored (k.modChan hs _ _) _) _)
  | confSplit ch hi hc hu ht => exact .inl (ht ▸ k.answer (k.setModeStored (k.modChan hs _ _) _) _)
  | submit ch len payload hi hc ho hp hl ht => exact .inl (ht ▸ k.answer (k.modChan hs _ _) _)
  | service ch tx rx hi hc ho hp ht => exact .inl (ht ▸ k.answer (serve_keeps (k.engine ch) tx rx hs) _)
  | dispatch hi hc ht => exact .inl (ht ▸ k.answer (dispatchBody_keeps k.dispatch hs) _)

/-- A step keeps the property, is a bring-up, or takes an event off the queue. -/
theorem PortKeeps.step (hs : P s) (h : step s = .next t) :
    P t ∨ (s.ctl = .down ∧ t = initChecks s.consume)
      ∨ (s.env.inputs.head? = some .takeEvent ∧ t = s.consume.takeEvent) := by
  have consumed : P s.consume := k.same hs rfl rfl rfl
  cases step_cases h with
  | wait hi ht => exact .inl (ht ▸ hs)
  | illegal w payload rest e hi hd ht => exact .inl (ht ▸ k.same consumed rfl rfl rfl)
  | command w payload rest i hi hd hc => exact (k.exec consumed hc).imp_right .inl
  | own rest hi hc =>
    rcases hc with ⟨-, ht⟩ | ⟨-, ht⟩
    · exact .inl (ht ▸ consumed)
    · exact .inl (ht ▸ dispatchBody_keeps k.dispatch consumed)
  | stimulus st rest hi ht =>
    have f := applyStimulus_frame st s.consume
    exact .inl (ht ▸ k.same consumed f.cfg f.port f.evq)
  | takeEvent rest hi ht => exact .inr (.inr ⟨by rw [hi]; rfl, ht⟩)

end

theorem pt_of_port {s t : State} (h : t.port = s.port) : t.pt = s.pt := by
  funext p
  simp only [State.pt, h]

end Sys2Proof.Machine

/-! PROOFS. The activation events of a port alternate (R181, R202): the gate run along the events that a step adds. -/

namespace Sys2Proof.Machine

section
variable {p q : PortId} {s t u : State}

theorem gateRun_append (a : Bool) (es fs : List Event) : gateRun p a (es ++ fs) = (gateRun p a es).bind fun b => gateRun p b fs := by
  fun_induction gateRun p a es <;> simp_all [gateRun]

theorem gateRun_of_ungated (a : Bool) {es : List Event} (h : ∀ e ∈ es, e.Ungated) : gateRun p a es = some a := by
  induction es with
  | nil => rfl
  | cons e es ih =>
    obtain ⟨he, hes⟩ := List.forall_mem_cons.1 h
    cases e with
    | activate r => exact absurd rfl (he r).1
    | deactivate r => exact absurd rfl (he r).2
    | _ => exact ih hes

/-- The gate's own events take `active` where the move takes it. -/
theorem gateRun_gateEvents_self (was now : Bool) : gateRun p was (gateEvents p was now) = some now := by
  cases was <;> cases now <;> simp [gateEvents, gateRun]

theorem gateRun_gateEvents_other (h : q ≠ p) (a was now : Bool) : gateRun p a (gateEvents q was now) = some a := by
  cases was <;> cases now <;> simp [gateEvents, gateRun, h]

/-- The events added from `s` to `t` run the gate of port `p` from its `active` flag in `s` to that in `t` (R181). -/
def GateFollows (p : PortId) (s t : State) : Prop :=
  ∃ added, t.evq = s.evq ++ added ∧ gateRun p (s.pt p).active added = some (t.pt p).active

theorem GateFollows.of_same (hp : t.pt p = s.pt p) (he : t.evq = s.evq) : GateFollows p s t :=
  ⟨[], by rw [he, List.append_nil], by rw [hp]; rfl⟩

theorem GateFollows.trans (h : GateFollows p s t) (k : GateFollows p t u) : GateFollows p s u := by
  obtain ⟨es, hes, runs⟩ := h
  obtain ⟨fs, hfs, goes⟩ := k
  refine ⟨es ++ fs, by rw [hfs, hes, List.append_assoc], ?_⟩
  rw [gateRun_append, runs]
  exact goes

theorem GateFollows.emit (s : State) {e : Event} (he : e.Ungated) : GateFollows p s (s.emit e) :=
  ⟨[e], rfl, gateRun_of_ungated _ (by simpa using he)⟩

/-- A move of any port follows the gate of port `p`. -/
theorem PortMove.gateFollows {x : Port} {es : List Event} (h : PortMove q x es s t) : GateFollows p s t := by
  refine ⟨_, h.evq, ?_⟩
  rw [gateRun_append, gateRun_of_ungated _ h.ungated, Option.bind_some]
  by_cases hq : q = p
  · subst hq
    rw [gateRun_gateEvents_self, h.pt_self]
  · rw [gateRun_gateEvents_other hq, h.pt_other (Ne.symm hq)]

end

theorem gateFollows_keeps (p : PortId) (s : State) : PortKeeps s.cfg fun t => t.cfg = s.cfg ∧ GateFollows p s t where
  cfg _ h := h.1
  same h hc hp he := ⟨hc.trans h.1, h.2.trans (.of_same (congrFun (pt_of_port hp) p) he)⟩
  emit h he := ⟨h.1, h.2.trans (.emit _ he)⟩
  move h _ hm := by
    obtain ⟨x, es, move, -⟩ := hm
    exact ⟨move.cfg.trans h.1, h.2.trans move.gateFollows⟩

/-- Settles O51: every part of a step follows the gate; a bring-up changes `ctl`, and the taking of an event is left out. -/
theorem activationEventsAlternate : Obligations.ActivationEventsAlternate := by
  intro s t p h sameCtl noTake
  have start : s.cfg = s.cfg ∧ GateFollows p s s := ⟨rfl, .of_same rfl rfl⟩
  rcases (gateFollows_keeps p s).step start h with ⟨-, follows⟩ | ⟨down, rfl⟩ | ⟨take, -⟩
  · exact follows
  · exact absurd (sameCtl.trans down) (initChecks_ctl_ne_down _)
  · exact absurd take noTake

end Sys2Proof.Machine

/-! PROOFS. Every port stays consistent with its kind (R185, R187, R189, R191, R194). -/

namespace Sys2Proof.Machine

theorem State.portsOk.congr {s t : State} (h : s.portsOk) (hc : t.cfg = s.cfg) (hp : t.port = s.port) : t.portsOk := by
  intro p kind hk
  rw [hc] at hk ⊢
  rw [pt_of_port hp]
  exact h p kind hk

theorem State.portsOk.move {s t : State} {kind : PortKind} {p : PortId} (h : s.portsOk) (hT1 : 1 ≤ s.cfg.ntT1)
    (hk : portKind s.cfg p = some kind) (hm : MachineMove kind p s t) : t.portsOk := by
  obtain ⟨x, es, move, keeps⟩ := hm
  intro q other hq
  rw [move.cfg] at hq ⊢
  by_cases at_p : q = p
  · subst at_p
    obtain rfl : kind = other := Option.some.inj (hk.symm.trans hq)
    rw [move.pt_self]
    exact keeps hT1 (h q kind hk)
  · rw [move.pt_other at_p]
    exact h q other hq

theorem portsOk_keeps {g : Config} (hT1 : 1 ≤ g.ntT1) : PortKeeps g fun t => t.cfg = g ∧ t.portsOk where
  cfg _ h := h.1
  same h hc hp _ := ⟨hc.trans h.1, h.2.congr hc hp⟩
  emit h _ := h
  move h hk hm := by
    obtain ⟨rfl, ok⟩ := h
    have ⟨_, _, move, _⟩ := hm
    exact ⟨move.cfg, ok.move hT1 hk hm⟩

/-- A bring-up leaves every port at its reset values, whatever the checks answer (R231). -/
theorem initChecks_port (s : State) :
    (initChecks s).cfg = s.cfg ∧ (initChecks s).port = (State.powerOn s.cfg).port := by
  obtain ⟨e, he, -⟩ := s.reinit.yield.drawChecks_env
  unfold initChecks bringUp
  rw [he]
  repeat' split
  all_goals simp [bringUpFails, State.reinit, State.powerOn]

theorem configOk_ntT1 {g : Config} (h : configOk g = true) : 1 ≤ g.ntT1 := by
  simp only [configOk, rangesOk, Bool.and_eq_true, decide_eq_true_eq] at h
  omega

/-- Settles O60: the machines keep their ports consistent, a bring-up resets them, and no other part of a step moves a port. -/
theorem stepKeepsPortsConsistent : Obligations.StepKeepsPortsConsistent := by
  intro s t hg hs h
  rcases (portsOk_keeps (configOk_ntT1 hg)).step ⟨rfl, hs⟩ h with ⟨-, kept⟩ | ⟨-, rfl⟩ | ⟨-, rfl⟩
  · exact kept
  · obtain ⟨cfg, port⟩ := initChecks_port s.consume
    exact (powerOn_portsOk _).congr cfg port
  · exact hs.congr rfl rfl

end Sys2Proof.Machine

/-! PROOFS. INIT of a controller in each of its states (R231, R254). -/

namespace Sys2Proof.Machine

/-- The first failing check gives the FATAL code, and any failing one a FAILED controller (R231, R254). -/
theorem bringUp_eq (k : Checks) (s : State) : bringUp k s =
    { s with
      ctl := if k.idOk ∧ k.ramOk ∧ k.refOk then .up else .failed
      resp := if k.idOk ∧ k.ramOk ∧ k.refOk then .ok else .failed
      evq := s.evq ++ (if k.idOk = false then [.fatal .identity] else if k.ramOk = false then [.fatal .ramTest]
        else if k.refOk = false then [.fatal .noTimingRef] else []) } := by
  unfold bringUp
  split
  · rename_i id; simp [id, bringUpFails, State.setCtl, State.emit, State.answer]
  · rename_i id
    split
    · rename_i ram; simp [id, ram, bringUpFails, State.setCtl, State.emit, State.answer]
    · rename_i ram
      split
      · rename_i ref; simp [id, ram, ref, bringUpFails, State.setCtl, State.emit, State.answer]
      · rename_i ref; simp [id, ram, ref, State.setCtl, State.answer]

theorem drawChecks_of_listed {s : State} {k : Checks} {rest : List Checks} (h : s.env.checks = k :: rest) :
    s.drawChecks = (k, s.setEnv { s.env with checks := rest }) := by
  simp [State.drawChecks, h]

/-- Settles O11: past the checks of INIT's guards it is `bringUp` of the answers drawn, on the reset state. -/
theorem initResult : Obligations.InitResult := by
  intro s accepted
  refine ⟨fun k rest down quiet listed => ?_, fun up => ?_, fun failed => ?_⟩
  · have drawn : s.reinit.yield.drawChecks = (k, s.reinit.setEnv { s.env with checks := rest }) := by
      rw [State.yield_of_sched_nil s.reinit quiet]
      exact drawChecks_of_listed listed
    simp only [exec, execInit, accepted, down, initChecks, drawn, bringUp_eq]
    rfl
  · simp [exec, execInit, accepted, up, State.answer]
  · simp [exec, execInit, accepted, failed, State.answer]

end Sys2Proof.Machine

/-! PROOFS. What a DISPATCH leaves (R110, R184, R221): its frame whatever the line side does meanwhile, and what else it leaves when
no line-side step lands inside. -/

namespace Sys2Proof.Machine

theorem exec_dispatch_of_up {s : State} (up : s.ctl = .up) : exec .dispatch s = .next ((dispatchBody s).answer .ok) := by
  simp [exec, execDispatch, up]

/-- What no part of a DISPATCH changes, whatever the line side does meanwhile (R110, R184, R221). -/
def DispatchRest (s t : State) : Prop :=
  t.ctl = s.ctl ∧ t.own = s.own ∧ t.slotReg = s.slotReg ∧ t.env.inputs = s.env.inputs ∧ t.resp = s.resp
  ∧ ∀ ch, Channel.sameProgramming (s.ch ch) (t.ch ch)

section
variable {s t u : State}

theorem DispatchRest.refl (s : State) : DispatchRest s s := ⟨rfl, rfl, rfl, rfl, rfl, fun _ => rfl⟩

theorem DispatchRest.yield (h : DispatchRest s t) : DispatchRest s t.yield := by
  simpa [DispatchRest] using h

/-- A call of the engine keeps the programming of its own channel and the record of every other. -/
theorem DispatchRest.engine {c : ChanId} (h : DispatchRest s t) (f : EngineFrame c t u) : DispatchRest s u := by
  obtain ⟨ctl, own, slotReg, inputs, resp, programming⟩ := h
  refine ⟨f.ctl.trans ctl, f.own.trans own, f.slotReg.trans slotReg, f.inputs.trans inputs, f.resp.trans resp, fun k => ?_⟩
  by_cases hk : k = c
  · subst hk; exact sameProgramming_trans (programming k) f.self
  · rw [f.others k hk]; exact programming k

theorem DispatchRest.freshD (h : DispatchRest s t) (d : ChanId) : DispatchRest s (t.modChan d freshDChannel) := by
  obtain ⟨ctl, own, slotReg, inputs, resp, programming⟩ := h
  refine ⟨ctl, own, slotReg, inputs, resp, fun k => ?_⟩
  rw [State.modChan_ch]
  split
  · rename_i hk; subst hk; exact sameProgramming_trans (programming d) (freshDChannel_sameProgramming _)
  · exact programming k

end

theorem dispatchRest_parts (s : State) : DispatchParts (DispatchRest s) where
  yield _ h := h.yield
  fill t c h := h.engine (transmitFill_frame c t)
  drain t c h := h.engine (receiveDrain_frame c t)
  diag _ _ h := h
  emit _ _ _ h := h
  lineAct _ _ h := h
  setStatus _ _ h := h
  setPort _ _ _ h := h
  freshD _ d h := h.freshD d

theorem dispatchBody_rest (s : State) : DispatchRest s (dispatchBody s) :=
  (dispatchRest_parts s).dispatchBody (DispatchRest.refl s)

theorem answer_of_resp {s : State} {r : Resp} (h : s.resp = r) : s.answer r = s := by
  subst h; rfl

/-- Settles O7: the command adds its answer alone to what the sequencer's own DISPATCH does, and that never writes `resp`. -/
theorem ownDispatchWritesNoResponse : Obligations.OwnDispatchWritesNoResponse := by
  intro s rest taken
  rw [step_of_inputs_cons taken]
  refine ⟨fun notUp => ?_, fun up => ⟨_, exec_dispatch_of_up up, ?_⟩⟩
  · simp [runInput, ownDispatch, notUp]
  · obtain ⟨-, -, -, -, resp, -⟩ := dispatchBody_rest { s with env := { s.env with inputs := rest } }
    rw [runInput, ownDispatch, if_pos up]
    exact congrArg Host.Outcome.next (answer_of_resp resp).symm

/-- What else no part of a DISPATCH changes when no line-side step lands inside: the line-side inputs and every byte outside the
transmit rings' cells (R110, R113). -/
def DispatchQuietRest (s t : State) : Prop :=
  t.env.sched = [] ∧ t.cfg = s.cfg ∧ t.lineIn = s.lineIn
  ∧ ∀ a, (∀ ch z, a ≠ cellAddr s.cfg ch .tx z) → t.mem.read a = s.mem.read a

theorem DispatchQuietRest.engine {s t u : State} (h : DispatchQuietRest s t) (f : QuietFrame (fun _ _ => True) t u) :
    DispatchQuietRest s u := by
  obtain ⟨-, cfg, lineIn, mem⟩ := h
  obtain ⟨quiet, ucfg, -, ulineIn, -, -, umem⟩ := f
  refine ⟨quiet, ucfg.trans cfg, ulineIn.trans lineIn, fun a ha => ?_⟩
  rw [umem a fun k z _ => by rw [cfg]; exact ha k z]
  exact mem a ha

theorem dispatchQuietRest_parts (s : State) : DispatchParts (DispatchQuietRest s) where
  yield t h := (State.yield_of_sched_nil t h.1).symm ▸ h
  fill _ _ h := h.engine ((QuietFrame.refl _ h.1).transmitFill trivial)
  drain _ _ h := h.engine ((QuietFrame.refl _ h.1).receiveDrain trivial)
  diag _ _ h := h
  emit _ _ _ h := h
  lineAct _ _ h := h
  setStatus _ _ h := h
  setPort _ _ _ h := h
  freshD _ _ h := h

/-- Settles O55: a rejected DISPATCH changes `resp` alone, and every part of an accepted one is within both frames. -/
theorem dispatchFrame : Obligations.DispatchFrame := by
  intro s t h
  cases exec_cases h with
  | rejected r ht => subst ht; exact ⟨rfl, rfl, rfl, rfl, fun _ => rfl, fun _ => ⟨rfl, fun _ _ => rfl⟩⟩
  | dispatch _ _ ht =>
    subst ht
    obtain ⟨ctl, own, slotReg, inputs, -, programming⟩ := dispatchBody_rest s
    refine ⟨ctl, own, slotReg, inputs, programming, fun quiet => ?_⟩
    have start : DispatchQuietRest s s := ⟨quiet, rfl, rfl, fun _ _ => rfl⟩
    obtain ⟨-, -, lineIn, mem⟩ := (dispatchQuietRest_parts s).dispatchBody start
    exact ⟨lineIn, mem⟩
  | setMode _ _ _ _ _ _ _ hi => obtain ⟨_, _, _, _, hi, -⟩ := hi; contradiction
  | _ => contradiction

end Sys2Proof.Machine

/-! PROOFS. The latched status bits (R41, R42, R222, R227): those a DISPATCH finds pending, and what it leaves of them when no
line-side step lands inside. -/

namespace Sys2Proof.Machine

/-! ### The channels of a block (R42) -/

theorem blockChan_inj {b c : BlockId} {j k : Fin 4} : blockChan b j = blockChan c k ↔ b = c ∧ j = k := by
  constructor
  · intro h
    have numbers : 4 * b.val + j.val = 4 * c.val + k.val := congrArg Fin.val h
    exact ⟨Fin.ext (by omega), Fin.ext (by omega)⟩
  · rintro ⟨rfl, rfl⟩
    rfl

theorem exists_blockChan (ch : ChanId) : ∃ b k, ch = blockChan b k := by
  have := ch.isLt
  exact ⟨⟨ch.val / 4, by omega⟩, ⟨ch.val % 4, by omega⟩, Fin.ext (by simp only [blockChan]; omega)⟩

theorem mem_blockSlots (k : Fin 4) : k ∈ blockSlots := by
  revert k
  decide

section
variable (s : State)

theorem setReady_readyBit (c k : ChanId) (d e : Dir) (x : Bool) :
    (s.setReady c d x).readyBit k e = if c = k ∧ d = e then x else s.readyBit k e := by
  cases d <;> cases e <;> simp [State.readyBit, get_set_fin]

theorem blockReady_iff (b : BlockId) : s.blockReady b = true ↔ ∃ k d, s.readyBit (blockChan b k) d = true := by
  simp only [State.blockReady, List.any_eq_true, Bool.or_eq_true]
  constructor
  · rintro ⟨k, -, tx | rx⟩
    · exact ⟨k, .tx, tx⟩
    · exact ⟨k, .rx, rx⟩
  · rintro ⟨k, d, ready⟩
    refine ⟨k, mem_blockSlots k, ?_⟩
    cases d with
    | tx => exact .inl ready
    | rx => exact .inr ready

/-- Clearing a block's bitmap clears the ready bits of its channels and no other (R227). -/
theorem clearBlock_readyBit (b c : BlockId) (k : Fin 4) (d : Dir) :
    (s.clearBlock b).readyBit (blockChan c k) d = if b = c then false else s.readyBit (blockChan c k) d := by
  simp only [State.clearBlock, blockSlots, List.foldl_cons, List.foldl_nil, setReady_readyBit, blockChan_inj]
  by_cases same : b = c
  · fin_cases k <;> cases d <;> simp [same]
  · simp [same]

/-- Clearing a block's bitmap leaves the state-change and the miscellaneous bits (R222). -/
theorem clearBlock_eq (b : BlockId) :
    ∃ tx rx, s.clearBlock b = s.setStatus { s.status with readyTx := tx, readyRx := rx } := by
  refine foldl_keeps (P := fun t => ∃ tx rx, t = s.setStatus { s.status with readyTx := tx, readyRx := rx }) _ _ ?_ s
    ⟨s.status.readyTx, s.status.readyRx, rfl⟩
  rintro k _ t ⟨tx, rx, rfl⟩
  exact ⟨_, _, rfl⟩

end

/-! ### What is pending (R221, R222) -/

/-- The state-change bits of the ports and the miscellaneous bits are clear. -/
def State.summariesClear (s : State) : Prop :=
  (∀ p, isPtp s.cfg p = true → s.status.psc.get p = false) ∧ (∀ p, isTrunk s.cfg p = true → s.status.tsc.get p = false)
  ∧ s.status.lostData = false ∧ s.status.tick = false ∧ s.status.toneReady = false

/-- Every ready bit that is set belongs to one of the blocks `B`. -/
def State.readyWithin (B : List BlockId) (s : State) : Prop :=
  ∀ b k d, s.readyBit (blockChan b k) d = true → b ∈ B

section
variable {s t : State} {B : List BlockId}

theorem readyWithin_nil : s.readyWithin [] ↔ ∀ ch d, s.readyBit ch d = false := by
  constructor
  · intro h ch d
    obtain ⟨b, k, rfl⟩ := exists_blockChan ch
    exact Bool.eq_false_iff.2 fun ready => List.not_mem_nil (h b k d ready)
  · intro h b k d ready
    simp [h] at ready

theorem mem_pendingPtp {p : PortId} : p ∈ pendingPtp s ↔ isPtp s.cfg p = true ∧ s.status.psc.get p = true := by
  simp [pendingPtp, allPorts]

theorem mem_pendingTrunk {p : PortId} : p ∈ pendingTrunk s ↔ isTrunk s.cfg p = true ∧ s.status.tsc.get p = true := by
  simp [pendingTrunk, allPorts]

theorem mem_pendingBlocks {b : BlockId} : b ∈ pendingBlocks s ↔ ∃ k d, s.readyBit (blockChan b k) d = true := by
  simp [pendingBlocks, allBlocks, blockReady_iff]

theorem readyWithin_pendingBlocks (s : State) : s.readyWithin (pendingBlocks s) :=
  fun _ k d ready => mem_pendingBlocks.2 ⟨k, d, ready⟩

theorem pendingPtp_eq_nil : pendingPtp s = [] ↔ ∀ p, isPtp s.cfg p = true → s.status.psc.get p = false := by
  simp [List.eq_nil_iff_forall_not_mem, mem_pendingPtp]

theorem pendingTrunk_eq_nil : pendingTrunk s = [] ↔ ∀ p, isTrunk s.cfg p = true → s.status.tsc.get p = false := by
  simp [List.eq_nil_iff_forall_not_mem, mem_pendingTrunk]

theorem pendingBlocks_eq_nil : pendingBlocks s = [] ↔ s.readyWithin [] := by
  simp [List.eq_nil_iff_forall_not_mem, mem_pendingBlocks, State.readyWithin]

theorem nothingPending_iff : nothingPending s = true ↔ s.summariesClear ∧ s.readyWithin [] := by
  simp [nothingPending, State.summariesClear, pendingPtp_eq_nil, pendingTrunk_eq_nil, pendingBlocks_eq_nil, and_assoc]

@[simp] theorem clearSummaries_cfg (s : State) : (clearSummaries s).cfg = s.cfg := by rw [clearSummaries, State.setStatus_cfg]

@[simp] theorem clearSummaries_env (s : State) : (clearSummaries s).env = s.env := by rw [clearSummaries, State.setStatus_env]

theorem clearSummaries_readyBit (s : State) : (clearSummaries s).readyBit = s.readyBit := by
  funext c d
  cases d <;> simp only [State.readyBit, clearSummaries, State.setStatus_status]

theorem readyWithin_clearSummaries : (clearSummaries s).readyWithin B ↔ s.readyWithin B := by
  rw [State.readyWithin, clearSummaries_readyBit, State.readyWithin]

theorem clearSummaries_clear (s : State) : (clearSummaries s).summariesClear := by
  refine ⟨fun p ptp => ?_, fun p trunk => ?_, rfl, rfl, rfl⟩
  · simp_all [clearSummaries, Vector.get_eq_getElem]
  · simp_all [clearSummaries, Vector.get_eq_getElem]

end

/-- Settles O52: the hypotheses are that nothing is pending, and then the body is skipped. -/
theorem dispatchWithNothingPending : Obligations.DispatchWithNothingPending := by
  intro s up psc tsc lost tick tone ready
  have nothing : nothingPending s = true := nothingPending_iff.2 ⟨⟨psc, tsc, lost, tick, tone⟩, readyWithin_nil.2 ready⟩
  rw [exec_dispatch_of_up up, dispatchBody, if_pos nothing]
  rfl

/-! ### The line-state machines and the status bits -/

/-- `t` has the configuration, the environment and the latched status bits of `s`. -/
def SameLatches (s t : State) : Prop := t.cfg = s.cfg ∧ t.env = s.env ∧ t.status = s.status

section
variable (p : PortId) (s : State)

theorem ntEnter_latches (x : Fin 16) : SameLatches s (ntEnter p x s) := by simp [SameLatches]

theorem ntReport_latches (x : Fin 16) : SameLatches s (ntReport p x s) := by
  by_cases ignored : 4 < x ∨ x = (s.pt p).lstate
  · rw [ntReport_of_ignored p x s ignored]; exact ⟨rfl, rfl, rfl⟩
  · push Not at ignored
    rw [ntReport_of_change p x s ignored.1 ignored.2]; exact ntEnter_latches p s x

theorem ntCountdown_latches : SameLatches s (ntCountdown p s) := by
  unfold ntCountdown
  repeat' split
  all_goals simp [SameLatches]

theorem teReport_latches (x : Fin 16) : SameLatches s (teReport p x s) := by
  unfold teReport teEvent
  repeat' split
  all_goals simp [SameLatches]

theorem e1Report_latches : SameLatches s (e1Report p s) := by
  simp only [e1Report]
  split <;> simp [SameLatches]

theorem trunkSyncPoll_latches : SameLatches s (trunkSyncPoll p s) := by
  unfold trunkSyncPoll
  repeat' split
  all_goals simp [SameLatches]

theorem trunkAlarmPoll_latches : SameLatches s (trunkAlarmPoll p s) := by
  refine foldl_keeps (P := SameLatches s) _ _ (fun b _ => ?_) s ⟨rfl, rfl, rfl⟩
  exact fun t h => alarmBit_keeps p (fun _ _ h => h) (fun _ _ h => h) t b h

end

/-! ### DISPATCH when no line-side step lands inside -/

/-- Nothing is scheduled, and of the status bits that a DISPATCH reads only ready bits of the blocks `B` are set. -/
def QuietLatches (g : Config) (B : List BlockId) (s : State) : Prop :=
  s.cfg = g ∧ s.env.sched = [] ∧ s.summariesClear ∧ s.readyWithin B

section
variable {g : Config} {B : List BlockId} {b : BlockId} {s t : State}

theorem QuietLatches.congr (h : QuietLatches g B s) (hc : t.cfg = s.cfg) (hs : t.env.sched = s.env.sched)
    (hst : t.status = s.status) : QuietLatches g B t := by
  have ready : t.readyBit = s.readyBit := by
    funext c d
    cases d <;> simp only [State.readyBit, hst]
  simpa only [QuietLatches, State.summariesClear, State.readyWithin, hc, hs, hst, ready] using h

theorem QuietLatches.same (h : QuietLatches g B s) (k : SameLatches s t) : QuietLatches g B t :=
  h.congr k.1 (congrArg Env.sched k.2.1) k.2.2

/-- The read-to-clear of a block's bitmap takes the block off those with a ready bit set (R227). -/
theorem QuietLatches.clearBlock (h : QuietLatches g (b :: B) s) : QuietLatches g B (s.clearBlock b) := by
  obtain ⟨cfg, quiet, clear, ready⟩ := h
  obtain ⟨tx, rx, cleared⟩ := clearBlock_eq s b
  refine ⟨?_, ?_, ?_, fun c k d set => ?_⟩
  · rw [cleared]; exact cfg
  · rw [cleared]; exact quiet
  · rw [cleared]; exact clear
  · rw [clearBlock_readyBit] at set
    split at set
    · contradiction
    · rename_i other
      exact (List.mem_cons.1 (ready c k d set)).resolve_left (Ne.symm other)

theorem quietLatches_engine (g : Config) (B : List BlockId) (c : ChanId) : EngineKeeps c (QuietLatches g B) where
  yield t h := (State.yield_of_sched_nil t h.2.1).symm ▸ h
  env _ _ _ hs h := h.congr rfl hs rfl
  select _ _ h := h
  diag _ _ h := h
  txDone _ h := h
  rx _ _ h := h
  push _ _ hsel h := by unfold pushNow; rw [hsel]; exact h
  commit _ hsel h := by unfold commitNow; rw [hsel]; exact h
  pop t hsel h := by
    unfold popNow; rw [hsel]
    obtain ⟨e, he, -, hs, -⟩ := t.readCell_env c .rx (t.ring c .rx).z2
    dsimp only
    rw [he]
    exact h.congr rfl hs rfl
  ack _ hsel h := by unfold frameAckNow; rw [hsel]; exact h
  reset t _ _ h := h.congr (resetNow_cfg t) (congrArg Env.sched (resetNow_env t)) (resetNow_status t)
  edit _ _ _ h := h

theorem quietLatches_keeps (g : Config) (B : List BlockId) : DispatchKeeps g (QuietLatches g B) where
  cfg _ h := h.1
  engine := quietLatches_engine g B
  clearSummaries s h := by
    obtain ⟨cfg, quiet, -, ready⟩ := h
    exact ⟨by simpa using cfg, by simpa using quiet, clearSummaries_clear s, readyWithin_clearSummaries.2 ready⟩
  clearBlock s b h := by
    obtain ⟨cfg, quiet, clear, ready⟩ := h
    exact QuietLatches.clearBlock ⟨cfg, quiet, clear, fun c k d set => List.mem_cons_of_mem b (ready c k d set)⟩
  tone _ h := h
  ntReport s p _ h := h.same (ntReport_latches p s _)
  ntCountdown s p _ h := h.same (ntCountdown_latches p s)
  teReport s p _ h := h.same (teReport_latches p s _)
  e1Report s p _ h := h.same (e1Report_latches p s)
  trunkSyncPoll s p _ h := h.same (trunkSyncPoll_latches p s)
  trunkAlarmPoll s p _ h := h.same (trunkAlarmPoll_latches p s)

/-- Serving a block clears its ready bits and sets none (R227). -/
theorem QuietLatches.serveBlock (h : QuietLatches g (b :: B) s) : QuietLatches g B (serveBlock b s) := by
  refine foldl_keeps _ _ (fun k _ t ht => ?_) _ h.clearBlock
  unfold serveReady
  split
  · exact serve_keeps (quietLatches_engine g B _) _ _ ht
  · exact ht

theorem QuietLatches.serveBlocks (h : QuietLatches g B s) :
    QuietLatches g [] (B.foldl (fun s b => Machine.serveBlock b s.yield) s) := by
  induction B generalizing s with
  | nil => exact h
  | cons b B ih =>
    rw [List.foldl_cons, State.yield_of_sched_nil s h.2.1]
    exact ih h.serveBlock

end

/-- What step 1 read is clear once the blocks it read as ready are served (R222, R227). -/
theorem dispatchBody_latches {s : State} (quiet : s.env.sched = []) : QuietLatches s.cfg [] (dispatchBody s) := by
  unfold dispatchBody
  split
  · rename_i nothing
    exact ⟨rfl, quiet, nothingPending_iff.1 nothing⟩
  · have cleared : QuietLatches s.cfg (pendingBlocks s) (clearSummaries s) :=
      ⟨by simp, by simpa using quiet, clearSummaries_clear s, readyWithin_clearSummaries.2 (readyWithin_pendingBlocks s)⟩
    have stepped := (quietLatches_keeps s.cfg (pendingBlocks s)).dispatchSteps (B := []) s.status.lostData s.status.tick
      s.status.toneReady (fun _ => pendingPtp_kind) (fun _ => pendingTrunk_kind) cleared
    exact stepped.serveBlocks

/-- Settles O53: the body's read-to-clears take every bit it reads, and with nothing scheduled no part of it latches one. -/
theorem dispatchClearsStatusBits : Obligations.DispatchClearsStatusBits := by
  intro s up
  refine ⟨_, exec_dispatch_of_up up, rfl, fun quiet => ?_⟩
  obtain ⟨cfg, -, ⟨psc, tsc, lost, tick, tone⟩, ready⟩ := dispatchBody_latches quiet
  rw [cfg] at psc tsc
  exact ⟨psc, tsc, lost, tick, tone, readyWithin_nil.1 ready⟩

end Sys2Proof.Machine

/-! PROOFS. What a DISPATCH does with each kind of pending bit when nothing else is pending and no line-side step lands inside
(R221 to R228). -/

namespace Sys2Proof.Machine

theorem filter_finRange_eq_singleton {n : Nat} {f : Fin n → Bool} {i : Fin n} (h : ∀ j, f j = true ↔ j = i) :
    (List.finRange n).filter f = [i] := by
  have only : f = (· == i) := funext fun j => Bool.eq_iff_iff.2 (by simpa using h j)
  rw [only, List.filter_beq, List.count_eq_one_of_mem (List.nodup_finRange n) (List.mem_finRange i)]
  rfl

theorem Channel.isActive_iff (c : Channel) : c.isActive = true ↔ c.isOpen = true ∧ c.proto ≠ .noProto := by
  simp [Channel.isActive]

/-! ### Steps 1 to 3 (R222 to R224, R226) -/

section
variable {s t : State}

theorem ofFn_and_not_of_owned {v : Vector Bool 32} {owned : PortId → Bool} (h : ∀ p, v.get p = true → owned p = true) :
    (Vector.ofFn fun p : Fin 32 => v.get p && !owned p) = Vector.replicate 32 false := by
  refine vector_ext_get fun p => ?_
  rw [Vector.get_replicate]
  simpa [Vector.get_eq_getElem] using h p

/-- Where only ports of the right kind have a state change latched, the read-to-clear leaves the ready bits alone (R222). -/
theorem clearSummaries_of_owned (psc : ∀ p, s.status.psc.get p = true → isPtp s.cfg p = true)
    (tsc : ∀ p, s.status.tsc.get p = true → isTrunk s.cfg p = true) :
    clearSummaries s = s.setStatus { Status.reset with readyTx := s.status.readyTx, readyRx := s.status.readyRx } := by
  rw [clearSummaries, ofFn_and_not_of_owned psc, ofFn_and_not_of_owned tsc]
  rfl

theorem dispatchBody_of_pending (pending : nothingPending s ≠ true) : dispatchBody s =
    dispatchSteps (pendingPtp s) (pendingTrunk s) s.status.lostData s.status.tick s.status.toneReady (pendingBlocks s)
      (clearSummaries s) :=
  if_neg pending

/-- With no ready bit latched, a DISPATCH runs its steps 2 and 3 on what step 1 read (R221). -/
theorem exec_dispatch_of_summaries (up : s.ctl = .up) {psc tsc : Vector Bool 32} {lost tick tone : Bool}
    (latched : s.status = { Status.reset with psc := psc, tsc := tsc, lostData := lost, tick := tick, toneReady := tone })
    (ptp : ∀ p, psc.get p = true → isPtp s.cfg p = true) (trunk : ∀ p, tsc.get p = true → isTrunk s.cfg p = true)
    (pending : (∃ p, psc.get p = true) ∨ (∃ p, tsc.get p = true) ∨ lost = true ∨ tick = true ∨ tone = true) :
    exec .dispatch s = .next ((dispatchSteps (allPorts.filter psc.get) (allPorts.filter tsc.get) lost tick tone []
      (s.setStatus Status.reset)).answer .ok) := by
  have hpsc : s.status.psc = psc := by rw [latched]
  have htsc : s.status.tsc = tsc := by rw [latched]
  have found : nothingPending s ≠ true := by
    rw [Ne, nothingPending_iff]
    rintro ⟨⟨noPsc, noTsc, noLost, noTick, noTone⟩, -⟩
    rw [latched] at noPsc noTsc noLost noTick noTone
    rcases pending with ⟨p, on⟩ | ⟨p, on⟩ | on | on | on
    · simp [noPsc p (ptp p on)] at on
    · simp [noTsc p (trunk p on)] at on
    · exact Bool.false_ne_true (noLost.symm.trans on)
    · exact Bool.false_ne_true (noTick.symm.trans on)
    · exact Bool.false_ne_true (noTone.symm.trans on)
  have blocks : pendingBlocks s = [] := by
    refine pendingBlocks_eq_nil.2 (readyWithin_nil.2 fun ch d => ?_)
    cases d <;> simp [State.readyBit, latched, Status.reset]
  have ports : pendingPtp s = allPorts.filter psc.get := by
    refine List.filter_congr fun p _ => Bool.eq_iff_iff.2 ?_
    simpa [hpsc] using ptp p
  have trunks : pendingTrunk s = allPorts.filter tsc.get := by
    refine List.filter_congr fun p _ => Bool.eq_iff_iff.2 ?_
    simpa [htsc] using trunk p
  have cleared : clearSummaries s = s.setStatus Status.reset := by
    rw [clearSummaries_of_owned (hpsc ▸ ptp) (htsc ▸ trunk), latched]
  rw [exec_dispatch_of_up up, dispatchBody_of_pending found, blocks, ports, trunks, cleared, latched]

/-- No bit of a table at its reset values is set. -/
theorem not_reset_get {p : PortId} {Q : Prop} (on : (Vector.replicate 32 false).get p = true) : Q := by
  simp at on

theorem reset_set_get (p q : PortId) : ((Vector.replicate 32 false).set p.val true p.isLt).get q = true ↔ q = p := by
  simp [get_set_fin, eq_comm]

theorem allPorts_filter_reset : allPorts.filter (Vector.replicate 32 false).get = [] := by
  simp

theorem allPorts_filter_one (p : PortId) : allPorts.filter ((Vector.replicate 32 false).set p.val true p.isLt).get = [p] :=
  filter_finRange_eq_singleton (reset_set_get p)

/-- A point-to-point port's state change alone runs its machine (R223). -/
theorem exec_dispatch_of_psc (up : s.ctl = .up) (quiet : s.env.sched = []) {p : PortId} (ptp : isPtp s.cfg p = true)
    (latched : s.status = { Status.reset with psc := Status.reset.psc.set p.val true p.isLt }) :
    exec .dispatch s = .next ((ptpStateChange p (s.setStatus Status.reset)).answer .ok) := by
  rw [exec_dispatch_of_summaries up latched (fun q on => (reset_set_get p q).1 on ▸ ptp) (fun _ => not_reset_get)
    (.inl ⟨p, (reset_set_get p p).2 rfl⟩)]
  simp [Status.reset, allPorts_filter_one, allPorts_filter_reset, dispatchSteps, quiet]

/-- A trunk port's state change alone runs its E1Report (R224). -/
theorem exec_dispatch_of_tsc (up : s.ctl = .up) (quiet : s.env.sched = []) {p : PortId} (trunk : isTrunk s.cfg p = true)
    (latched : s.status = { Status.reset with tsc := Status.reset.tsc.set p.val true p.isLt }) :
    exec .dispatch s = .next ((e1Report p (s.setStatus Status.reset)).answer .ok) := by
  rw [exec_dispatch_of_summaries up latched (fun _ => not_reset_get) (fun q on => (reset_set_get p q).1 on ▸ trunk)
    (.inr (.inl ⟨p, (reset_set_get p p).2 rfl⟩))]
  simp [Status.reset, allPorts_filter_one, allPorts_filter_reset, dispatchSteps, quiet]

theorem exec_dispatch_of_lostData (up : s.ctl = .up) (latched : s.status = { Status.reset with lostData := true }) :
    exec .dispatch s = .next (((s.setStatus Status.reset).diag .lostData).answer .ok) := by
  rw [exec_dispatch_of_summaries up latched (fun _ => not_reset_get) (fun _ => not_reset_get) (.inr (.inr (.inl rfl)))]
  simp [Status.reset, allPorts_filter_reset, dispatchSteps]

theorem exec_dispatch_of_toneReady (up : s.ctl = .up) (latched : s.status = { Status.reset with toneReady := true }) :
    exec .dispatch s = .next (((s.setStatus Status.reset).emit .toneReady).answer .ok) := by
  rw [exec_dispatch_of_summaries up latched (fun _ => not_reset_get) (fun _ => not_reset_get)
    (.inr (.inr (.inr (.inr rfl))))]
  simp [Status.reset, allPorts_filter_reset, dispatchSteps]

/-- No line-side step lands inside a fold over steps that schedule none. -/
theorem foldl_yield_of_quiet {α : Type} {f : α → State → State}
    (keeps : ∀ a t, DispatchQuietRest s t → DispatchQuietRest s (f a t)) (l : List α) (h : DispatchQuietRest s t) :
    l.foldl (fun t a => f a t.yield) t = l.foldl (fun t a => f a t) t := by
  induction l generalizing t with
  | nil => rfl
  | cons a l ih =>
    rw [List.foldl_cons, State.yield_of_sched_nil t h.1]
    exact ih (keeps a t h)

theorem tickStep_of_quiet (h : DispatchQuietRest s t) : tickStep t =
    (ntPorts s.cfg).foldl (fun t p => ntCountdown p t)
      (channelTick ((trunkPorts s.cfg).foldl (fun t p => trunkPolls p t) t)) := by
  rw [tickStep, h.2.1, foldl_yield_of_quiet (fun p _ => (dispatchQuietRest_parts s).trunkPolls p) _ h]

/-- A tick, with state changes of point-to-point ports: those ports' machines, then the tick part of step 3 (R223, R224). -/
theorem exec_dispatch_of_tick (up : s.ctl = .up) (quiet : s.env.sched = []) {changed : Vector Bool 32}
    (latched : s.status = { Status.reset with tick := true, psc := changed })
    (ptp : ∀ p, changed.get p = true → isPtp s.cfg p = true) :
    exec .dispatch s = .next (((ntPorts s.cfg).foldl (fun t p => ntCountdown p t)
      (channelTick ((trunkPorts s.cfg).foldl (fun t p => trunkPolls p t)
        ((allPorts.filter changed.get).foldl (fun t p => ptpStateChange p t) (s.setStatus Status.reset))))).answer .ok) := by
  have keeps : ∀ p t, DispatchQuietRest s t → DispatchQuietRest s (ptpStateChange p t) :=
    fun p _ => (dispatchQuietRest_parts s).ptpStateChange p
  have start : DispatchQuietRest s (s.setStatus Status.reset) := ⟨quiet, rfl, rfl, fun _ _ => rfl⟩
  have reported := foldl_keeps (fun t p => ptpStateChange p t) (allPorts.filter changed.get) (fun p _ => keeps p) _ start
  rw [exec_dispatch_of_summaries up latched ptp (fun _ => not_reset_get) (.inr (.inr (.inr (.inl rfl)))), dispatchSteps,
    foldl_yield_of_quiet keeps _ start, ← tickStep_of_quiet reported]
  simp [Status.reset, allPorts_filter_reset]

theorem tickChannel_of_port {ch : ChanId} {p : PortId} (hp : s.cfg.portOf.get ch = some p) : tickChannel s ch =
    if (s.ch ch).isOpen = true ∧ (s.ch ch).proto ≠ .noProto ∧ (s.pt p).active = true then receiveDrain ch (transmitFill ch s)
    else s := by
  simp [tickChannel, tickServed, hp, Channel.isActive_iff, and_assoc]

theorem tickChannel_of_no_port {ch : ChanId} (hp : s.cfg.portOf.get ch = none) : tickChannel s ch = s := by
  simp [tickChannel, tickServed, hp]

end

/-! ### Step 4 (R227) -/

/-- Bit 2k of a block's bitmap is TX, bit 2k+1 RX of its channel k (R42). -/
theorem blockBitmap_getLsbD (s : State) (b : BlockId) (k : Fin 4) :
    (s.blockBitmap b).getLsbD (2 * k.val) = s.readyBit (blockChan b k) .tx
    ∧ (s.blockBitmap b).getLsbD (2 * k.val + 1) = s.readyBit (blockChan b k) .rx := by
  have bit : ∀ (x : Bool) (n : Nat), x.toNat + 2 * n = Nat.bit x n := fun x n => by rw [Nat.bit_val, Nat.add_comm]
  simp only [State.blockBitmap, blockSlots, List.foldr_cons, List.foldr_nil, bit, BitVec.getLsbD_ofNat]
  fin_cases k <;> simp [Nat.testBit_bit_succ]

/-- A fold whose step does nothing but at `k` is that step. -/
theorem foldl_blockSlots_of_others {f : State → Fin 4 → State} {k : Fin 4} (others : ∀ j, j ≠ k → ∀ s, f s j = s)
    (s : State) : blockSlots.foldl f s = f s k := by
  have only : f = fun s j => if (j == k) = true then f s j else s := by
    funext s j
    split
    · rfl
    · rename_i h; exact others j (by simpa using h) s
  have all : blockSlots = List.finRange 4 := by decide
  rw [only, ← List.foldl_filter, all, filter_finRange_eq_singleton (i := k) (fun j => by simp)]
  simp

section
variable {s : State} {b : BlockId} {k : Fin 4} {tx rx : Bool}

/-- The ready bits of channel `ch` alone. -/
def Status.readyOf (ch : ChanId) (tx rx : Bool) : Status :=
  { Status.reset with
    readyTx := Status.reset.readyTx.set ch.val tx ch.isLt
    readyRx := Status.reset.readyRx.set ch.val rx ch.isLt }

theorem readyBit_of_readyOf {ch : ChanId} (latched : s.status = Status.readyOf ch tx rx) (c : ChanId) (d : Dir) :
    s.readyBit c d = (decide (c = ch) && d.pick tx rx) := by
  cases d <;> simp [State.readyBit, latched, Status.readyOf, get_set_fin, Status.reset, eq_comm]

theorem clearBlock_of_readyOf (latched : s.status = Status.readyOf (blockChan b k) tx rx) :
    s.clearBlock b = s.setStatus Status.reset := by
  obtain ⟨readyTx, readyRx, cleared⟩ := clearBlock_eq s b
  have ready : ∀ c d, (s.clearBlock b).readyBit c d = false := by
    intro c d
    obtain ⟨c, j, rfl⟩ := exists_blockChan c
    rw [clearBlock_readyBit, readyBit_of_readyOf latched]
    split
    · rfl
    · rename_i other; simp [blockChan_inj, Ne.symm other]
  rw [cleared] at ready ⊢
  have htx : readyTx = Status.reset.readyTx := vector_ext_get fun c => (ready c .tx).trans (Vector.get_replicate ..).symm
  have hrx : readyRx = Status.reset.readyRx := vector_ext_get fun c => (ready c .rx).trans (Vector.get_replicate ..).symm
  rw [htx, hrx, latched]
  rfl

/-- The one channel with a ready bit set is served if it is active (R227). -/
theorem serveBlock_of_readyOf (latched : s.status = Status.readyOf (blockChan b k) tx rx) : serveBlock b s =
    if (s.ch (blockChan b k)).isActive then serve (blockChan b k) tx rx (s.setStatus Status.reset)
    else s.setStatus Status.reset := by
  have bits : ∀ j, (s.blockBitmap b).getLsbD (2 * j.val) = (decide (j = k) && tx)
      ∧ (s.blockBitmap b).getLsbD (2 * j.val + 1) = (decide (j = k) && rx) := by
    intro j
    obtain ⟨htx, hrx⟩ := blockBitmap_getLsbD s b j
    rw [htx, hrx, readyBit_of_readyOf latched, readyBit_of_readyOf latched]
    simp [blockChan_inj]
  have others : ∀ j, j ≠ k → ∀ t, serveReady b (s.blockBitmap b) t j = t := by
    intro j hj t
    simp [serveReady, bits j, hj, serve]
  rw [serveBlock, foldl_blockSlots_of_others others, clearBlock_of_readyOf latched, serveReady, (bits k).1, (bits k).2]
  simp

/-- Ready bits of one channel alone bring a DISPATCH straight to step 4 (R228). -/
theorem exec_dispatch_of_readyOf (up : s.ctl = .up) (quiet : s.env.sched = []) (set : tx = true ∨ rx = true)
    (latched : s.status = Status.readyOf (blockChan b k) tx rx) :
    exec .dispatch s = .next ((serveBlock b s).answer .ok) := by
  have bit := readyBit_of_readyOf latched
  have psc : ∀ p, s.status.psc.get p = false := fun p => by rw [latched]; exact Vector.get_replicate ..
  have tsc : ∀ p, s.status.tsc.get p = false := fun p => by rw [latched]; exact Vector.get_replicate ..
  have ready : ∃ d, s.readyBit (blockChan b k) d = true := by
    rcases set with on | on
    · exact ⟨.tx, by simp [bit, on]⟩
    · exact ⟨.rx, by simp [bit, on]⟩
  have blocks : pendingBlocks s = [b] := by
    refine filter_finRange_eq_singleton fun c => ?_
    rw [blockReady_iff]
    constructor
    · rintro ⟨j, d, on⟩
      simp only [bit, Bool.and_eq_true, decide_eq_true_eq, blockChan_inj] at on
      obtain ⟨⟨sameBlock, -⟩, -⟩ := on
      exact sameBlock
    · rintro rfl
      exact ⟨k, ready⟩
  have found : nothingPending s ≠ true := by
    rw [Ne, nothingPending_iff, readyWithin_nil]
    rintro ⟨-, clear⟩
    obtain ⟨d, on⟩ := ready
    simp [clear] at on
  have cleared : clearSummaries s = s := by
    rw [clearSummaries_of_owned (by simp [psc]) (by simp [tsc]), latched]
    exact congrArg s.setStatus latched.symm
  rw [exec_dispatch_of_up up, dispatchBody_of_pending found, blocks, cleared, pendingPtp_eq_nil.2 fun p _ => psc p,
    pendingTrunk_eq_nil.2 fun p _ => tsc p, latched]
  simp [dispatchSteps, Status.readyOf, Status.reset, quiet]

end

/-- Settles O54: each clause is what `dispatchSteps` does with the one kind of pending bit that step 1 read. -/
theorem dispatchRunsNtMachine : Obligations.DispatchRunsNtMachine := by
  intro s up quiet
  refine ⟨fun p latched => ⟨fun nt => ?_, fun te => ?_⟩, fun p latched trunk => ?_, exec_dispatch_of_lostData up,
    exec_dispatch_of_toneReady up, ?_, ?_⟩
  · rw [exec_dispatch_of_psc up quiet ((isPtp_iff _ _).2 (.inl nt)) latched]
    simp [ptpStateChange, nt]
  · rw [exec_dispatch_of_psc up quiet ((isPtp_iff _ _).2 (.inr te)) latched]
    simp [ptpStateChange, te]
  · exact exec_dispatch_of_tsc up quiet ((isTrunk_iff _ _).2 trunk) latched
  · intro changed reported polled served latched ptp hreported hpolled hserved
    have ticked : channelTick polled = served := by
      rw [hserved]
      refine congrArg (fun f => allChans.foldl f polled) (funext fun t => funext fun ch => ?_)
      cases hp : t.cfg.portOf.get ch with
      | some p => exact tickChannel_of_port hp
      | none => exact tickChannel_of_no_port hp
    rw [exec_dispatch_of_tick up quiet latched ptp, ← ticked, hpolled, hreported]
    rfl
  · intro ch tx rx set latched
    obtain ⟨b, k, rfl⟩ := exists_blockChan ch
    rw [exec_dispatch_of_readyOf up quiet set latched, serveBlock_of_readyOf latched]
    refine ⟨fun opened proto filled hf => ?_, fun inactive => ?_⟩
    · rw [if_pos ((Channel.isActive_iff _).2 ⟨opened, proto⟩), hf]
      rfl
    · rw [if_neg]
      · rfl
      · rw [Channel.isActive_iff]
        rcases inactive with closed | noProto
        · simp [closed]
        · simp [noProto]

end Sys2Proof.Machine

/-! PROOFS. The answers of a command that fails one of its checks (R252, R253): which check is answered, and that nothing else
changes. -/

namespace Sys2Proof.Machine

/-- Settles O16: of the cases of a command only a rejection, a SET_MODE and a bring-up answer anything but OK. -/
theorem rejectionChangesOnlyResponse : Obligations.RejectionChangesOnlyResponse := by
  intro s t i run notOk notBadProtocol notBringUp
  cases exec_cases run with
  | rejected r h => subst h; rfl
  | init hi down => exact absurd down (notBringUp hi)
  | setMode ch p tS tB rS rB eb hi hc hu ht hr h =>
    subst h
    by_cases unsupported : p = .unsupported
    · exact absurd (if_pos unsupported) notBadProtocol
    · exact absurd (if_neg unsupported) notOk
  | _ => subst t; exact absurd rfl notOk

/-! ### The checks one by one (R252) -/

/-- Every command but INIT asks first whether the controller is UP. -/
theorem exec_of_not_up {s : State} {i : Instr} (notUp : s.ctl ≠ .up) (notInit : i ≠ .init) :
    exec i s = .next (s.answer .notUp) := by
  cases i with
  | init => exact absurd rfl notInit
  | _ => exact if_pos notUp

theorem slotInRange_requestedSlot_eq_false {g : Config} {valid : Bool} {slot : Slot} :
    slotInRange g (requestedSlot valid slot) = false ↔ valid = true ∧ hwSlots g ≤ slot.val := by
  cases valid <;> simp [requestedSlot, slotInRange]

theorem confOperand_eq_none {conf : Fin 16} (h : 8 ≤ conf.val) : confOperand conf = none := dif_neg (Nat.not_lt.2 h)

theorem lengthOk_eq_false {len : Fin 65536} {payload : List Byte} (h : len.val = 0 ∨ payload.length ≠ len.val) :
    lengthOk len payload = false := by
  rcases h with empty | differs
  · simp [lengthOk, empty]
  · simp [lengthOk, differs]

/-- On an UP controller a command is what follows its first check. -/
theorem ite_not_up_eq {α : Type} {s : State} {a b c : α} (up : s.ctl = .up) (rest : b = c) :
    (if s.ctl ≠ .up then a else b) = c :=
  (if_neg (not_not.2 up)).trans rest

theorem exec_setMode_of_bad_slot {s : State} {ch : ChanId} {proto : ProtoField} {tv : Bool} {tS : Slot} {tB : Bank} {rv : Bool}
    {rS : Slot} {rB : Bank} {eb : Bool} (up : s.ctl = .up) (used : s.cfg.roleOf.get ch ≠ .unused)
    (bad : tv = true ∧ hwSlots s.cfg ≤ tS.val ∨ rv = true ∧ hwSlots s.cfg ≤ rS.val) :
    exec (.setMode ch proto tv tS tB rv rS rB eb) s = .next (s.answer .badSlot) :=
  exec_setMode_of_rejected (by simp [setModeRejection, up, used, slotInRange_requestedSlot_eq_false, bad])

theorem exec_confJoin_of_bad_conf {s : State} {ch : ChanId} {conf : Fin 16} (up : s.ctl = .up)
    (used : s.cfg.roleOf.get ch ≠ .unused) (bad : 8 ≤ conf.val) : exec (.confJoin ch conf) s = .next (s.answer .badConf) := by
  simp [exec, execConfJoin, up, used, confOperand_eq_none bad]

/-- Settles O15: a command answers its first failing check (`if_pos`) because those before it pass (`ite_not_up_eq`, `if_neg`). -/
theorem firstFailingCheckIsAnswered : Obligations.FirstFailingCheckIsAnswered := by
  refine fun s => ⟨fun notUp _ => exec_of_not_up notUp, fun up ch => ⟨fun unused => ?badChannel, fun used => ?routerOperands,
    fun closed => ?notOpen, fun opened noProto => ?noProtocol, fun opened proto _ _ bad => ?badLength⟩⟩
  case badChannel =>
    exact ⟨fun _ _ _ _ _ _ _ _ => ite_not_up_eq up (if_pos unused), fun _ => ite_not_up_eq up (if_pos unused),
      ite_not_up_eq up (if_pos unused), ite_not_up_eq up (if_pos unused), ite_not_up_eq up (if_pos unused)⟩
  case routerOperands =>
    exact ⟨fun _ _ _ _ _ _ _ _ => exec_setMode_of_bad_slot up used, fun _ => exec_confJoin_of_bad_conf up used,
      fun opened => ite_not_up_eq up ((if_neg used).trans (if_pos opened)),
      fun closed => ite_not_up_eq up ((if_neg used).trans (if_pos closed))⟩
  case notOpen =>
    exact ⟨fun _ _ => ite_not_up_eq up (if_pos closed), fun _ _ => ite_not_up_eq up (if_pos closed)⟩
  case noProtocol =>
    have pastOpen := ne_false_of_eq_true opened
    exact ⟨fun _ _ => ite_not_up_eq up ((if_neg pastOpen).trans (if_pos noProto)),
      fun _ _ => ite_not_up_eq up ((if_neg pastOpen).trans (if_pos noProto))⟩
  case badLength =>
    have pastOpen := ne_false_of_eq_true opened
    exact ite_not_up_eq up ((if_neg pastOpen).trans ((if_neg proto).trans (if_pos (lengthOk_eq_false bad))))

end Sys2Proof.Machine

/-! PROOFS. A FAILED controller stays FAILED (R295). -/

namespace Sys2Proof.Machine

/-- Settles O13: INIT answers FAILED once the configuration is accepted (R231); every other command stops at its first check,
since FAILED is not UP (R252). -/
theorem failedControllerIsStuck : Obligations.FailedControllerIsStuck := by
  intro s i failed accepted
  by_cases isInit : i = .init
  · obtain ⟨-, -, rejectedFailed⟩ := initResult s accepted
    rw [isInit, if_pos rfl, rejectedFailed failed]
  · have notUp : s.ctl ≠ .up := by simp [failed]
    rw [if_neg isInit, exec_of_not_up notUp isInit, State.answer]

end Sys2Proof.Machine
